-- ==== Sys2Proof/Word.lean ====
section
/-! DEFINITION. The value types of the MDIO engine block (spec/00_scope.md rules R14, R16).
Every value of the block is an unsigned bit vector of a stated width; a raw operand, before it is masked,
is an unbounded natural number. -/

namespace Sys2Proof

/-- A line level (R16): `false` is `0` (low), `true` is `1` (high). -/
abbrev Level := Bool

/-- The 2-bit fields ST, OP and TA of a frame. -/
abbrev U2 := BitVec 2

/-- The 5-bit fields PAD and DAD of a frame. -/
abbrev U5 := BitVec 5

/-- The fourteen header bits that precede the turnaround (R118). -/
abbrev U14 := BitVec 14

/-- A header word, a data word, the value of one register (R51). -/
abbrev U16 := BitVec 16

/-- A frame on the wire (R80), a dword (R93). -/
abbrev U32 := BitVec 32

end Sys2Proof
end

