-- ==== Sys2Proof/Config.lean ====
section
/-! DEFINITION. What is fixed for the machine: the constants of R11, the per-instance parameters of R12,
the switches of R13, and the free values (constants without a body) that stand where the spec gives no value. -/

namespace Sys2Proof

/-- Direction of a digital line (R33). -/
inductive Direction where
  | input
  | output
deriving DecidableEq, Repr, Inhabited

/-- Idle bias of a digital line (R33). -/
inductive Bias where
  | none
  | pullUp
deriving DecidableEq, Repr, Inhabited

/-- `DWORD_SEQUENCE` (R13, 92_eei_decisions.md D3): `aadd` is the spec's value, two address frames and then two
data frames; `adad` is the other reading of 90_conflicts.md C2, address, data, address, data. -/
inductive DwordSequence where
  | aadd
  | adad
deriving DecidableEq, Repr, Inhabited

/-- `DWORD_READ_OP` (R13, D4): the kind of the two read frames of a dword read. The spec's value is `read`. -/
inductive DwordReadOp where
  | read
  | readInc
deriving DecidableEq, Repr, Inhabited

/-- The switches of R13, which exist because the source is ambiguous or describes a defect. -/
structure Switches where
  /-- `PREAMBLE_PER_FRAME` (D2): every frame of a command opens with its own preamble. -/
  preamblePerFrame : Bool
  /-- `DWORD_SEQUENCE` (D3). -/
  dwordSequence : DwordSequence
  /-- `DWORD_READ_OP` (D4). -/
  dwordReadOp : DwordReadOp
  /-- `SF_WRITE_DATA_IS_HEADER` (D5): the historical defect of the SPI-framed engine (R196, R279). -/
  sfWriteDataIsHeader : Bool
deriving DecidableEq, Repr, Inhabited

/-- The value the spec takes for every switch (R13). -/
def Switches.normative : Switches :=
  { preamblePerFrame := true, dwordSequence := .aadd, dwordReadOp := .read, sfWriteDataIsHeader := false }

namespace Config

/-! ### Fixed constants (R11) -/

/-- `PREAMBLE_BITS` (R11). -/
def preambleBits : Nat := 32
/-- `HEADER_BITS` (R11). -/
def headerBits : Nat := 16
/-- `TA_BITS` (R11). -/
def taBits : Nat := 2
/-- `DATA_BITS` (R11). -/
def dataBits : Nat := 16
/-- `FRAME_BITS` (R11). -/
def frameBits : Nat := 32
/-- `PAD_BITS` (R11). -/
def padBits : Nat := 5
/-- `DAD_BITS` (R11). -/
def dadBits : Nat := 5
/-- `ST_BITS` (R11). -/
def stBits : Nat := 2
/-- `OP_BITS` (R11). -/
def opBits : Nat := 2
/-- `SF_FLUSH_WORD_BITS` (R11). -/
def sfFlushWordBits : Nat := 32
/-- `SF_WORD_BITS` (R11). -/
def sfWordBits : Nat := 16
/-- `TA_WRITE` (R11): the turnaround of every write-class frame a command emits. -/
def taWrite : U2 := 0b10#2
/-- `SF_TA_READ` (R11): the turnaround the SPI-framed engine sends for a read-class frame. -/
def sfTaRead : U2 := 0b11#2
/-- `ST_C22` (R11). -/
def stC22 : U2 := 0b01#2
/-- `ST_C45` (R11). -/
def stC45 : U2 := 0b00#2
/-- `OP_C22_WRITE` (R11). -/
def opC22Write : U2 := 0b01#2
/-- `OP_C22_READ` (R11). -/
def opC22Read : U2 := 0b10#2
/-- `OP_C45_ADDRESS` (R11). -/
def opC45Address : U2 := 0b00#2
/-- `OP_C45_WRITE` (R11). -/
def opC45Write : U2 := 0b01#2
/-- `OP_C45_READ_INC` (R11). -/
def opC45ReadInc : U2 := 0b10#2
/-- `OP_C45_READ` (R11). -/
def opC45Read : U2 := 0b11#2

/-! ### Per-instance parameters the source gives no value for (R12; assumption log 3)

Each is a constant without a body: a claim about the constructed state holds whatever the constructor's
arguments were. -/

/-- `CLK_LINE` (R12). -/
opaque clkLine : Nat
/-- The constructor's argument for the data line, before `dataLine` makes it differ from `clkLine`. -/
opaque dataLineArgument : Nat
/-- `DATA_LINE` (R12): any line identifier other than `CLK_LINE`; every such identifier is reached. -/
def dataLine : Nat := if dataLineArgument = clkLine then clkLine + 1 else dataLineArgument
/-- `CLK_DELAY` (R12, D9), in busy-wait units. -/
opaque clkDelay : Nat
/-- `SETUP_DELAY` (R12, D9), in busy-wait units. -/
opaque setupDelay : Nat
/-- `READ_DELAY` (R12, D9), in busy-wait units. -/
opaque readDelay : Nat
/-- `SPI_PATH` (R12). -/
opaque spiPath : Nat
/-- One less than `SPI_SPEED_HZ`, so that the speed is positive (R29). -/
opaque spiSpeedPred : Nat
/-- `SPI_SPEED_HZ` (R12): a positive natural number. -/
def spiSpeedHz : Nat := spiSpeedPred + 1
/-- `T_UNIT` (R12): the duration of one busy-wait unit, in a unit of time the source does not name. Timing only. -/
opaque tUnit : Nat
/-- `SPI_MODE` (R12), clock polarity: open and not modelled (D18); no definition reads it. -/
opaque spiClockPolarity : Bool
/-- `SPI_MODE` (R12), clock phase: open and not modelled (D18); no definition reads it. -/
opaque spiClockPhase : Bool

/-! ### Free values

Each is applied to a counter held in the state (`BB.free`, `SF.free`), which the step advances, so that
two uses are unrelated. Assumption log 4, 5, 6. -/

/-- The level sampled when the environment's script is used up (R36, R52; 93_implementation_defined.md U1). -/
opaque freeLevel : Nat → Level
/-- The word received when the environment's script is used up (R40, R52; U1, U2). -/
opaque freeWord : Nat → U32
/-- The `dir` field of a line that has been released (R34: it becomes unspecified; U5). -/
opaque freeDirection : Nat → Direction
/-- The `drive` field of a line that has been released (R34; U5). -/
opaque freeDrive : Nat → Level
/-- The `bias` field of a line that has been released (R34; U5). -/
opaque freeBias : Nat → Bias
/-- The `claimed` field of a line after a failed `close` (R138). -/
opaque freeClaimed : Nat → Bool
/-- The `claimed` field of the SPI port after a failed `close` (R192): a constant of its own, so that nothing ties it to
a line of the other engine (R30). -/
opaque freePortClaimed : Nat → Bool

end Config
end Sys2Proof
end

