-- ==== Sys2Proof/Syntax.lean ====
section
/-! DEFINITION. The syntax of the block: the transient frame record (R21), the frame kinds (R81, R116), what the
host hands to the block (a request), and `Instr`, one constructor for each row of spec/opcode_table.json (R100). -/

namespace Sys2Proof

/-- The two engines (R1): the bit-bang engine (`bb.`) and the SPI-framed engine (`sf.`). -/
inductive Engine where
  | bitbang
  | spi
deriving DecidableEq, Repr, Inhabited

/-- The transient frame record (R21). Every field already has its width, so the invariant "all fields are
masked to their bit width" holds by type. -/
structure Frame where
  st : U2
  op : U2
  pad : U5
  dad : U5
  ta : U2
  data : U16
deriving DecidableEq, Repr, Inhabited

/-- The frame kinds of R81 with the `Reserved` of R116. -/
inductive FrameKind where
  | c22Write
  | c22Read
  | c45Address
  | c45Write
  | c45ReadInc
  | c45Read
  | reserved
deriving DecidableEq, Repr, Inhabited

/-- The three groups of rows of the opcode table (R100). -/
inductive Format where
  /-- One 32-bit wire frame, to be sent by the frame primitive of the engine addressed. -/
  | frame32
  /-- One 16-bit SPI header word. -/
  | hdr16
  /-- One host command: its 8-bit label and then its operands. -/
  | cmd8
deriving DecidableEq, Repr, Inhabited

/-- What the host hands to the block (R271, R287): the engine it addresses, the table's group, and the words.
For `frame32` and `hdr16` there is one word, the frame or the header as a number. For `cmd8` the first word is
the label of R96 and each operand follows as one natural number, unmasked; a list operand is its length and then
its elements. The source gives commands no binary form (92_eei_decisions.md D20): this message form is the
model's own (assumption log 1). -/
structure Request where
  engine : Engine
  format : Format
  words : List Nat
deriving DecidableEq, Repr, Inhabited

/-- The request is a command of the host (R96). R130 lets the host reach these only; a request of another group asks a
frame-level primitive directly, which is the model's choice (assumption log 22). -/
def Request.fromHost (r : Request) : Bool := r.format == .cmd8

/-- Why a request is no instruction. -/
inductive Reject where
  /-- A label that R96 does not list. -/
  | unknownLabel (label : Nat)
  /-- A row that the engine addressed does not have (R99, R206: the dword commands on the SPI-framed engine;
  a header word on the bit-bang engine). -/
  | notOnThisEngine
  /-- A `(ST, OP)` pair without a row (R98): no instruction, but sent all the same (`requestedFrame`). -/
  | reservedFrame
  /-- A header word whose turnaround is not the one its row has (R91, R121): no instruction, but its header is sent all the
  same (`requestedFrame`). -/
  | headerTurnaround
  /-- A frame of more than 32 bits or a header of more than 16. -/
  | overWide
  /-- An operand is missing. -/
  | truncated
  /-- A word other than 0 stands behind the last operand. -/
  | trailingWords
deriving DecidableEq, Repr, Inhabited

/-- The instructions of the block: one constructor for each of the 36 rows of spec/opcode_table.json.

The six frame kinds carry the engine that sends them (each row names both engines) and every field of the frame
that the row does not fix. The six header words carry PAD and DAD. The host commands carry their operands as the
host gives them, natural numbers that are masked later (R92, R96). -/
inductive Instr where
  /-- Row `C22_WRITE` (R82). -/
  | c22Write (e : Engine) (pad reg : U5) (ta : U2) (data : U16)
  /-- Row `C22_READ` (R83). -/
  | c22Read (e : Engine) (pad reg : U5) (ta : U2) (data : U16)
  /-- Row `C45_ADDRESS` (R84). -/
  | c45Address (e : Engine) (pad dev : U5) (ta : U2) (data : U16)
  /-- Row `C45_WRITE` (R85). -/
  | c45Write (e : Engine) (pad dev : U5) (ta : U2) (data : U16)
  /-- Row `C45_READ_INC` (R86). -/
  | c45ReadInc (e : Engine) (pad dev : U5) (ta : U2) (data : U16)
  /-- Row `C45_READ` (R87). -/
  | c45Read (e : Engine) (pad dev : U5) (ta : U2) (data : U16)
  /-- Row `HDR_C22_WRITE` (R121, R194). -/
  | hdrC22Write (pad reg : U5)
  /-- Row `HDR_C22_READ` (R121, R194). -/
  | hdrC22Read (pad reg : U5)
  /-- Row `HDR_C45_ADDRESS` (R121, R194). -/
  | hdrC45Address (pad dev : U5)
  /-- Row `HDR_C45_WRITE` (R121, R194). -/
  | hdrC45Write (pad dev : U5)
  /-- Row `HDR_C45_READ_INC` (R121, R194, R207). -/
  | hdrC45ReadInc (pad dev : U5)
  /-- Row `HDR_C45_READ` (R121, R194). -/
  | hdrC45Read (pad dev : U5)
  /-- Row `bb.open` (R137). -/
  | bbOpen
  /-- Row `sf.open` (R191). -/
  | sfOpen
  /-- Row `bb.close` (R138). -/
  | bbClose
  /-- Row `sf.close` (R192). -/
  | sfClose
  /-- Row `bb.read_c22` (R161). -/
  | bbReadC22 (phy reg : Nat)
  /-- Row `sf.read_c22` (R198). -/
  | sfReadC22 (phy reg : Nat)
  /-- Row `bb.write_c22` (R162). -/
  | bbWriteC22 (phy reg value : Nat)
  /-- Row `sf.write_c22` (R199). -/
  | sfWriteC22 (phy reg value : Nat)
  /-- Row `bb.read_c45` (R163). -/
  | bbReadC45 (phy dev reg : Nat)
  /-- Row `sf.read_c45` (R200). -/
  | sfReadC45 (phy dev reg : Nat)
  /-- Row `bb.write_c45` (R164). -/
  | bbWriteC45 (phy dev reg value : Nat)
  /-- Row `sf.write_c45` (R201). -/
  | sfWriteC45 (phy dev reg value : Nat)
  /-- Row `bb.read_c45_dword` (R165). -/
  | bbReadC45Dword (phy dev reg : Nat)
  /-- Row `bb.write_c45_dword` (R166). -/
  | bbWriteC45Dword (phy dev reg value : Nat)
  /-- Row `bb.read_c22_registers` (R167). -/
  | bbReadC22Registers (phy : Nat) (regs : List Nat)
  /-- Row `sf.read_c22_registers` (R202). -/
  | sfReadC22Registers (phy : Nat) (regs : List Nat)
  /-- Row `bb.write_c22_registers` (R168). -/
  | bbWriteC22Registers (phy : Nat) (regs values : List Nat)
  /-- Row `sf.write_c22_registers` (R203). -/
  | sfWriteC22Registers (phy : Nat) (regs values : List Nat)
  /-- Row `bb.read_c45_registers` (R169). -/
  | bbReadC45Registers (phy dev : Nat) (regs : List Nat)
  /-- Row `sf.read_c45_registers` (R204). -/
  | sfReadC45Registers (phy dev : Nat) (regs : List Nat)
  /-- Row `bb.write_c45_registers` (R170). -/
  | bbWriteC45Registers (phy dev : Nat) (regs values : List Nat)
  /-- Row `sf.write_c45_registers` (R205). -/
  | sfWriteC45Registers (phy dev : Nat) (regs values : List Nat)
  /-- Row `bb.read_c45_dword_registers` (R171). -/
  | bbReadC45DwordRegisters (phy dev : Nat) (regs : List Nat)
  /-- Row `bb.write_c45_dword_registers` (R172). -/
  | bbWriteC45DwordRegisters (phy dev : Nat) (regs values : List Nat)
deriving DecidableEq, Repr, Inhabited

end Sys2Proof
end

