-- ==== Sys2Proof/Machine/Codec.lean ====
section
/-! DEFINITION. The Frame Codec (spec/40_frame_codec.md, R110 to R121): pure functions, no state (R28).
Also the bit order of R57: the most significant bit of a field is the first on the wire. -/

namespace Sys2Proof.Codec

/-- `mask_N(v) = v mod 2^N` (R14, R92): the only conversion the block performs. -/
def mask (n v : Nat) : BitVec n := BitVec.ofNat n v

/-- The low `n` bits of `v`, bit `n-1` first (R57, R134). -/
def bitsOf : Nat → Nat → List Level
  | 0, _ => []
  | n + 1, v => v.testBit n :: bitsOf n v

/-- The number whose bits, the most significant first, are the list's (R135). -/
def ofBits (bs : List Level) : Nat := bs.foldl (fun acc b => 2 * acc + b.toNat) 0

/-- The 16-bit word received as `bs`, the first bit received in the most significant position (R135). -/
def wordOfBits (bs : List Level) : U16 := BitVec.ofNat 16 (ofBits bs)

/-- `encode_header` (R111): operands wider than their field are masked. -/
def encodeHeader (st op pad dad ta : Nat) : U16 :=
  ((mask 2 st).setWidth 16 <<< 14) ||| ((mask 2 op).setWidth 16 <<< 12) ||| ((mask 5 pad).setWidth 16 <<< 7)
    ||| ((mask 5 dad).setWidth 16 <<< 2) ||| (mask 2 ta).setWidth 16

/-- `decode_header` (R112): the five fields ST, OP, PAD, DAD, TA. -/
def decodeHeader (h : U16) : U2 × U2 × U5 × U5 × U2 :=
  (h.extractLsb' 14 2, h.extractLsb' 12 2, h.extractLsb' 7 5, h.extractLsb' 2 5, h.extractLsb' 0 2)

/-- The header of a frame record (R111 applied to its fields). -/
def headerOf (f : Frame) : U16 := encodeHeader f.st.toNat f.op.toNat f.pad.toNat f.dad.toNat f.ta.toNat

/-- `encode_frame` (R113): the header in the upper half, the data word in the lower. -/
def encodeFrame (f : Frame) : U32 := ((headerOf f).setWidth 32 <<< 16) ||| f.data.setWidth 32

/-- `decode_frame` (R114): total on every 32-bit value (R95). -/
def decodeFrame (w : U32) : Frame :=
  { st := w.extractLsb' 30 2, op := w.extractLsb' 28 2, pad := w.extractLsb' 23 5, dad := w.extractLsb' 18 5,
    ta := w.extractLsb' 16 2, data := w.extractLsb' 0 16 }

/-- `classify` (R116). -/
def classify (st op : U2) : FrameKind :=
  match st.toNat, op.toNat with
  | 1, 1 => .c22Write
  | 1, 2 => .c22Read
  | 0, 0 => .c45Address
  | 0, 1 => .c45Write
  | 0, 2 => .c45ReadInc
  | 0, 3 => .c45Read
  | _, _ => .reserved

/-- `is_read_class(op) = (op[1] = 1)` (R117). -/
def isReadClass (op : U2) : Bool := op.getLsbD 1

/-- `header14` (R118): the fourteen header bits before the turnaround. -/
def header14 (st op pad dad : Nat) : U14 := (encodeHeader st op pad dad 0).extractLsb' 2 14

/-- `sf_header` (R121): the turnaround is forced to `11` for a read-class opcode, else it is the frame's. -/
def sfHeader (f : Frame) : U16 :=
  encodeHeader f.st.toNat f.op.toNat f.pad.toNat f.dad.toNat
    (if isReadClass f.op then Config.sfTaRead.toNat else f.ta.toNat)

end Sys2Proof.Codec
end

