-- ==== Sys2Proof/Machine/Operands.lean ====
section
/-! DEFINITION. Operand assembly (spec/30_encoding.md R92 to R94; spec/40_frame_codec.md R119, R120): every operand is
masked to its field and never refused. The block has no other operand form (R175) and no flags (R24), so there is
no file of flag computations. -/

namespace Sys2Proof.Operands

open Codec

/-- `c22_write(p, r, v)` (R119). -/
def c22Write (p r v : Nat) : Frame :=
  { st := Config.stC22, op := Config.opC22Write, pad := mask 5 p, dad := mask 5 r, ta := Config.taWrite, data := mask 16 v }

/-- `c22_read(p, r)` (R119). -/
def c22Read (p r : Nat) : Frame :=
  { st := Config.stC22, op := Config.opC22Read, pad := mask 5 p, dad := mask 5 r, ta := Config.taWrite, data := 0 }

/-- `c45_address(p, e, a)` (R119). -/
def c45Address (p e a : Nat) : Frame :=
  { st := Config.stC45, op := Config.opC45Address, pad := mask 5 p, dad := mask 5 e, ta := Config.taWrite, data := mask 16 a }

/-- `c45_write(p, e, v)` (R119). -/
def c45Write (p e v : Nat) : Frame :=
  { st := Config.stC45, op := Config.opC45Write, pad := mask 5 p, dad := mask 5 e, ta := Config.taWrite, data := mask 16 v }

/-- `c45_read_inc(p, e)` (R119). -/
def c45ReadInc (p e : Nat) : Frame :=
  { st := Config.stC45, op := Config.opC45ReadInc, pad := mask 5 p, dad := mask 5 e, ta := Config.taWrite, data := 0 }

/-- `c45_read(p, e)` (R119). -/
def c45Read (p e : Nat) : Frame :=
  { st := Config.stC45, op := Config.opC45Read, pad := mask 5 p, dad := mask 5 e, ta := Config.taWrite, data := 0 }

/-- `split_dword` (R120): the low half and the high half. -/
def splitDword (x : Nat) : U16 × U16 := (mask 16 x, mask 16 (x >>> 16))

/-- `join_dword` (R120). -/
def joinDword (lo hi : U16) : U32 := (hi.setWidth 32 <<< 16) ||| lo.setWidth 32

end Sys2Proof.Operands
end

