-- ==== Sys2Proof/WellFormed.lean ====
section
/-! DEFINITION. Which instructions are well formed. The block refuses no operand value (R92), so two checks are
left: a write-class frame carries the turnaround every emitted one carries, and the two lists of a write batch have
equal length. The machine gives an ill-formed instruction its meaning all the same (R98; R173 (e)). -/

namespace Sys2Proof

/-- R82, R84, R85, R91: a write-class frame as a command emits it has `TA = 10`. -/
def turnaroundAsEmitted (ta : U2) : Bool := ta == Config.taWrite

/-- R173 (e): the lists of a write batch are parallel. -/
def parallelLists (regs values : List Nat) : Bool := regs.length == values.length

/-- An instruction is well formed. -/
def Instr.wf : Instr → Bool
  | .c22Write _ _ _ ta _ => turnaroundAsEmitted ta
  | .c22Read _ _ _ _ _ => true
  | .c45Address _ _ _ ta _ => turnaroundAsEmitted ta
  | .c45Write _ _ _ ta _ => turnaroundAsEmitted ta
  | .c45ReadInc _ _ _ _ _ => true
  | .c45Read _ _ _ _ _ => true
  | .hdrC22Write _ _ => true
  | .hdrC22Read _ _ => true
  | .hdrC45Address _ _ => true
  | .hdrC45Write _ _ => true
  | .hdrC45ReadInc _ _ => true
  | .hdrC45Read _ _ => true
  | .bbOpen => true
  | .sfOpen => true
  | .bbClose => true
  | .sfClose => true
  | .bbReadC22 _ _ => true
  | .sfReadC22 _ _ => true
  | .bbWriteC22 _ _ _ => true
  | .sfWriteC22 _ _ _ => true
  | .bbReadC45 _ _ _ => true
  | .sfReadC45 _ _ _ => true
  | .bbWriteC45 _ _ _ _ => true
  | .sfWriteC45 _ _ _ _ => true
  | .bbReadC45Dword _ _ _ => true
  | .bbWriteC45Dword _ _ _ _ => true
  | .bbReadC22Registers _ _ => true
  | .sfReadC22Registers _ _ => true
  | .bbWriteC22Registers _ regs values => parallelLists regs values
  | .sfWriteC22Registers _ regs values => parallelLists regs values
  | .bbReadC45Registers _ _ _ => true
  | .sfReadC45Registers _ _ _ => true
  | .bbWriteC45Registers _ _ regs values => parallelLists regs values
  | .sfWriteC45Registers _ _ regs values => parallelLists regs values
  | .bbReadC45DwordRegisters _ _ _ => true
  | .bbWriteC45DwordRegisters _ _ regs values => parallelLists regs values

end Sys2Proof
end

