-- ==== Sys2Proof/Decode.lean ====
section
/-! DEFINITION. From what the host hands over to an instruction, and back (spec/30_encoding.md R80 to R100). Decoding
is total and rejects by name; the encoder writes the words of an instruction from the same tables. The frame and
header rows are bit-exact from the source; the labels of the commands are the spec's own numbering (R96, D20), and
the form of the words behind a label is the model's (assumption log 1). -/

namespace Sys2Proof

open Codec

/-- A frame row (R82 to R87): the kind is selected by `(ST, OP)` alone (R95); a reserved pair has no row (R98). -/
def decodeFrameRow (e : Engine) (f : Frame) : Except Reject Instr :=
  match classify f.st f.op with
  | .c22Write => .ok (.c22Write e f.pad f.dad f.ta f.data)
  | .c22Read => .ok (.c22Read e f.pad f.dad f.ta f.data)
  | .c45Address => .ok (.c45Address e f.pad f.dad f.ta f.data)
  | .c45Write => .ok (.c45Write e f.pad f.dad f.ta f.data)
  | .c45ReadInc => .ok (.c45ReadInc e f.pad f.dad f.ta f.data)
  | .c45Read => .ok (.c45Read e f.pad f.dad f.ta f.data)
  | .reserved => .error .reservedFrame

/-- A header row (R100 (b), R121): the turnaround is `11` for the read kinds and `10` for the others. -/
def decodeHeaderRow (h : U16) : Except Reject Instr :=
  match decodeHeader h with
  | (st, op, pad, dad, ta) =>
    if classify st op = .reserved then .error .reservedFrame
    else if ta ≠ (if isReadClass op then Config.sfTaRead else Config.taWrite) then .error .headerTurnaround
    else match classify st op with
      | .c22Write => .ok (.hdrC22Write pad dad)
      | .c22Read => .ok (.hdrC22Read pad dad)
      | .c45Address => .ok (.hdrC45Address pad dad)
      | .c45Write => .ok (.hdrC45Write pad dad)
      | .c45ReadInc => .ok (.hdrC45ReadInc pad dad)
      | .c45Read => .ok (.hdrC45Read pad dad)
      | .reserved => .error .reservedFrame

/-- Two operands of a command. -/
def operands2 (k : Nat → Nat → Instr) : List Nat → Except Reject (Instr × List Nat)
  | a :: b :: rest => .ok (k a b, rest)
  | _ => .error .truncated

/-- Three operands of a command. -/
def operands3 (k : Nat → Nat → Nat → Instr) : List Nat → Except Reject (Instr × List Nat)
  | a :: b :: c :: rest => .ok (k a b c, rest)
  | _ => .error .truncated

/-- Four operands of a command. -/
def operands4 (k : Nat → Nat → Nat → Nat → Instr) : List Nat → Except Reject (Instr × List Nat)
  | a :: b :: c :: d :: rest => .ok (k a b c d, rest)
  | _ => .error .truncated

/-- A list operand: its length and then its elements. -/
def listOperand (k : List Nat → List Nat → Except Reject (Instr × List Nat)) :
    List Nat → Except Reject (Instr × List Nat)
  | n :: rest => if n ≤ rest.length then k (rest.take n) (rest.drop n) else .error .truncated
  | [] => .error .truncated

/-- One list operand, the last. -/
def oneList (k : List Nat → Instr) : List Nat → Except Reject (Instr × List Nat) :=
  listOperand (fun xs rest => .ok (k xs, rest))

/-- Two list operands. -/
def twoLists (k : List Nat → List Nat → Instr) : List Nat → Except Reject (Instr × List Nat) :=
  listOperand (fun xs rest => oneList (k xs) rest)

/-- One scalar operand before the lists. -/
def scalar1 (k : Nat → List Nat → Except Reject (Instr × List Nat)) : List Nat → Except Reject (Instr × List Nat)
  | a :: rest => k a rest
  | _ => .error .truncated

/-- Two scalar operands before the lists. -/
def scalar2 (k : Nat → Nat → List Nat → Except Reject (Instr × List Nat)) : List Nat → Except Reject (Instr × List Nat)
  | a :: b :: rest => k a b rest
  | _ => .error .truncated

/-- A command of the bit-bang engine by its label (R96). -/
def decodeBitbang (label : Nat) (ws : List Nat) : Except Reject (Instr × List Nat) :=
  match label with
  | 0x00 => .ok (.bbOpen, ws)
  | 0x01 => .ok (.bbClose, ws)
  | 0x10 => operands2 .bbReadC22 ws
  | 0x11 => operands3 .bbWriteC22 ws
  | 0x12 => operands3 .bbReadC45 ws
  | 0x13 => operands4 .bbWriteC45 ws
  | 0x14 => operands3 .bbReadC45Dword ws
  | 0x15 => operands4 .bbWriteC45Dword ws
  | 0x20 => scalar1 (fun p => oneList (.bbReadC22Registers p)) ws
  | 0x21 => scalar1 (fun p => twoLists (.bbWriteC22Registers p)) ws
  | 0x22 => scalar2 (fun p d => oneList (.bbReadC45Registers p d)) ws
  | 0x23 => scalar2 (fun p d => twoLists (.bbWriteC45Registers p d)) ws
  | 0x24 => scalar2 (fun p d => oneList (.bbReadC45DwordRegisters p d)) ws
  | 0x25 => scalar2 (fun p d => twoLists (.bbWriteC45DwordRegisters p d)) ws
  | _ => .error (.unknownLabel label)

/-- A command of the SPI-framed engine by its label (R96). The dword labels name commands this engine does not
have (R99, R206). -/
def decodeSpi (label : Nat) (ws : List Nat) : Except Reject (Instr × List Nat) :=
  match label with
  | 0x00 => .ok (.sfOpen, ws)
  | 0x01 => .ok (.sfClose, ws)
  | 0x10 => operands2 .sfReadC22 ws
  | 0x11 => operands3 .sfWriteC22 ws
  | 0x12 => operands3 .sfReadC45 ws
  | 0x13 => operands4 .sfWriteC45 ws
  | 0x14 => .error .notOnThisEngine
  | 0x15 => .error .notOnThisEngine
  | 0x20 => scalar1 (fun p => oneList (.sfReadC22Registers p)) ws
  | 0x21 => scalar1 (fun p => twoLists (.sfWriteC22Registers p)) ws
  | 0x22 => scalar2 (fun p d => oneList (.sfReadC45Registers p d)) ws
  | 0x23 => scalar2 (fun p d => twoLists (.sfWriteC45Registers p d)) ws
  | 0x24 => .error .notOnThisEngine
  | 0x25 => .error .notOnThisEngine
  | _ => .error (.unknownLabel label)

/-- The instruction at the front of a message, and the words behind it. -/
def decode (e : Engine) (fmt : Format) (ws : List Nat) : Except Reject (Instr × List Nat) :=
  match fmt, ws with
  | .frame32, w :: rest =>
    if w < 2 ^ 32 then (decodeFrameRow e (decodeFrame (mask 32 w))).map (fun i => (i, rest)) else .error .overWide
  | .hdr16, w :: rest =>
    match e with
    | .bitbang => .error .notOnThisEngine
    | .spi => if w < 2 ^ 16 then (decodeHeaderRow (mask 16 w)).map (fun i => (i, rest)) else .error .overWide
  | .cmd8, label :: rest =>
    match e with
    | .bitbang => decodeBitbang label rest
    | .spi => decodeSpi label rest
  | _, [] => .error .truncated

/-- The instruction a request asks for. Zero words may stand behind the last operand (a message padded to a fixed
length), any other word may not. -/
def decodeRequest (r : Request) : Except Reject Instr :=
  match decode r.engine r.format r.words with
  | .ok (i, rest) => if rest.all (· == 0) then .ok i else .error .trailingWords
  | .error why => .error why

/-- The frame a frame-level primitive is asked to send, of any word of the right width (R95): the frame itself, or the
frame whose header the header word is (its data word is not sent). `sf_send_header` is an operation of the SPI-framed
engine only (R194). What of this is the model's: assumption log 22. -/
def requestedFrame (r : Request) : Option Frame :=
  match r.format, r.words with
  | .frame32, w :: rest => if w < 2 ^ 32 ∧ rest.all (· == 0) = true then some (decodeFrame (mask 32 w)) else none
  | .hdr16, w :: rest =>
    match r.engine with
    | .bitbang => none
    | .spi =>
      if w < 2 ^ 16 ∧ rest.all (· == 0) = true then
        match decodeHeader (mask 16 w) with
        | (st, op, pad, dad, ta) => some { st := st, op := op, pad := pad, dad := dad, ta := ta, data := 0 }
      else none
  | .cmd8, _ => none
  | _, [] => none

/-! ### The encoder -/

/-- The request that carries a frame. -/
def frameRequest (e : Engine) (f : Frame) : Request :=
  { engine := e, format := .frame32, words := [(encodeFrame f).toNat] }

/-- The request that carries a header word: `sf_header` of the frame of that kind (R121). -/
def headerRequest (st op : U2) (pad dad : U5) : Request :=
  { engine := .spi, format := .hdr16,
    words := [(sfHeader { st := st, op := op, pad := pad, dad := dad, ta := Config.taWrite, data := 0 }).toNat] }

/-- The request that carries a host command. -/
def commandRequest (e : Engine) (label : Nat) (operands : List Nat) : Request :=
  { engine := e, format := .cmd8, words := label :: operands }

/-- A list operand as words. -/
def listWords (xs : List Nat) : List Nat := xs.length :: xs

/-- The words of an instruction, from the encodings of R82 to R87, R96 and R121. -/
def encode : Instr → Request
  | .c22Write e p r ta d => frameRequest e ⟨Config.stC22, Config.opC22Write, p, r, ta, d⟩
  | .c22Read e p r ta d => frameRequest e ⟨Config.stC22, Config.opC22Read, p, r, ta, d⟩
  | .c45Address e p v ta d => frameRequest e ⟨Config.stC45, Config.opC45Address, p, v, ta, d⟩
  | .c45Write e p v ta d => frameRequest e ⟨Config.stC45, Config.opC45Write, p, v, ta, d⟩
  | .c45ReadInc e p v ta d => frameRequest e ⟨Config.stC45, Config.opC45ReadInc, p, v, ta, d⟩
  | .c45Read e p v ta d => frameRequest e ⟨Config.stC45, Config.opC45Read, p, v, ta, d⟩
  | .hdrC22Write p r => headerRequest Config.stC22 Config.opC22Write p r
  | .hdrC22Read p r => headerRequest Config.stC22 Config.opC22Read p r
  | .hdrC45Address p v => headerRequest Config.stC45 Config.opC45Address p v
  | .hdrC45Write p v => headerRequest Config.stC45 Config.opC45Write p v
  | .hdrC45ReadInc p v => headerRequest Config.stC45 Config.opC45ReadInc p v
  | .hdrC45Read p v => headerRequest Config.stC45 Config.opC45Read p v
  | .bbOpen => commandRequest .bitbang 0x00 []
  | .sfOpen => commandRequest .spi 0x00 []
  | .bbClose => commandRequest .bitbang 0x01 []
  | .sfClose => commandRequest .spi 0x01 []
  | .bbReadC22 p r => commandRequest .bitbang 0x10 [p, r]
  | .sfReadC22 p r => commandRequest .spi 0x10 [p, r]
  | .bbWriteC22 p r v => commandRequest .bitbang 0x11 [p, r, v]
  | .sfWriteC22 p r v => commandRequest .spi 0x11 [p, r, v]
  | .bbReadC45 p d r => commandRequest .bitbang 0x12 [p, d, r]
  | .sfReadC45 p d r => commandRequest .spi 0x12 [p, d, r]
  | .bbWriteC45 p d r v => commandRequest .bitbang 0x13 [p, d, r, v]
  | .sfWriteC45 p d r v => commandRequest .spi 0x13 [p, d, r, v]
  | .bbReadC45Dword p d r => commandRequest .bitbang 0x14 [p, d, r]
  | .bbWriteC45Dword p d r v => commandRequest .bitbang 0x15 [p, d, r, v]
  | .bbReadC22Registers p rs => commandRequest .bitbang 0x20 (p :: listWords rs)
  | .sfReadC22Registers p rs => commandRequest .spi 0x20 (p :: listWords rs)
  | .bbWriteC22Registers p rs vs => commandRequest .bitbang 0x21 (p :: (listWords rs ++ listWords vs))
  | .sfWriteC22Registers p rs vs => commandRequest .spi 0x21 (p :: (listWords rs ++ listWords vs))
  | .bbReadC45Registers p d rs => commandRequest .bitbang 0x22 (p :: d :: listWords rs)
  | .sfReadC45Registers p d rs => commandRequest .spi 0x22 (p :: d :: listWords rs)
  | .bbWriteC45Registers p d rs vs => commandRequest .bitbang 0x23 (p :: d :: (listWords rs ++ listWords vs))
  | .sfWriteC45Registers p d rs vs => commandRequest .spi 0x23 (p :: d :: (listWords rs ++ listWords vs))
  | .bbReadC45DwordRegisters p d rs => commandRequest .bitbang 0x24 (p :: d :: listWords rs)
  | .bbWriteC45DwordRegisters p d rs vs => commandRequest .bitbang 0x25 (p :: d :: (listWords rs ++ listWords vs))

/-! ### The opcode table's own numbering -/

/-- The request whose bits are `w` in the numbering of spec/opcode_table.json, of a row of `nbits` bits. A frame row
goes to the bit-bang engine and a header row to the SPI-framed engine, the only one that has it. A label is the same
for both engines (R96: the engine is not in it), so an 8-bit row goes to the bit-bang engine, the authoritative one
(R5 (2)): assumption log 2. The four zero words behind a label are the operands of the longest command. -/
def tableRequest (nbits w : Nat) : Option Request :=
  match nbits with
  | 32 => some { engine := .bitbang, format := .frame32, words := [w] }
  | 16 => some { engine := .spi, format := .hdr16, words := [w] }
  | 8 => some { engine := .bitbang, format := .cmd8, words := [w, 0, 0, 0, 0] }
  | _ => none

/-- The instruction the decoder reads from a word of the opcode table. -/
def decodeTableWord (nbits w : Nat) : Option Instr :=
  match tableRequest nbits w with
  | some r =>
    match decodeRequest r with
    | .ok i => some i
    | .error _ => none
  | none => none

end Sys2Proof
end

