-- ==== Sys2Proof/Machine/State.lean ====
section
/-! DEFINITION. The state of the block as plain data (spec/10_state.md R20 to R43): one bit-bang instance and one
SPI-framed instance, each with its own environment and its own observation (R30, R63, R287). The block has no registers, no
program counter, no flags and no addressable memory (R20, R22, R24, R25, R50). -/

namespace Sys2Proof.Machine

/-- A digital line (R33). -/
structure Line where
  claimed : Bool
  dir : Direction
  drive : Level
  bias : Bias
deriving DecidableEq, Repr

/-- The electrical state of a line (R16). -/
inductive Electrical where
  | drive0
  | drive1
  | z
deriving DecidableEq, Repr

/-- What the operating system reports when a collaborator call fails (R232): an error number and free text, both
supplied by the environment (93_implementation_defined.md U7). -/
structure OsFailure where
  osCode : Int
  message : String
deriving DecidableEq, Repr

/-- The four kinds of error (R230). -/
inductive ErrorKind where
  /-- R231: the engine, or the line or port, is not open. -/
  | notOpen
  /-- R232: a collaborator operation failed. -/
  | transportIO (info : OsFailure)
  /-- R233: malformed transfer arguments. -/
  | parameterInvalid
  /-- R234: `open` on an open engine. -/
  | alreadyOpen
deriving DecidableEq, Repr

/-- The value of a command that completes with `Ok` (R18, R96). -/
inductive Value where
  | unit
  | u16 (v : U16)
  | u32 (v : U32)
  | u16s (vs : List U16)
  | u32s (vs : List U32)
deriving DecidableEq, Repr

/-- The one result of a host command (R18). -/
inductive Result where
  | ok (v : Value)
  | err (k : ErrorKind)
deriving DecidableEq, Repr

/-- The sequencer position (R23): idle between commands; while a command runs, how many list elements it has begun,
how many frames of the element it has begun, and how many slots (clock pulses) of that frame it has completed. R23 does not
say where these indices start or restart: the model's choice (assumption log 23). -/
inductive Sequencer where
  | idle
  | at (element frame slot : Nat)
deriving DecidableEq, Repr

/-- The event alphabet of the bit-bang engine (R17). -/
inductive BBEvent where
  | opened
  | closed
  | dout (l : Level)
  | cout (l : Level)
  | ddirIn
  | ddirOut (l : Level)
  | dsample (l : Level)
deriving DecidableEq, Repr

/-- The event alphabet of the SPI-framed engine (R17): `xfer n tx cs_change rx` is one word transfer. -/
inductive SFEvent where
  | opened
  | closed
  | xfer (n tx : Nat) (csChange : Bool) (rx : Nat)
deriving DecidableEq, Repr

/-- The fixed configuration of a bit-bang instance (R26). Each delay is a count of busy-wait units. -/
structure BBConfig where
  clkLine : Nat
  dataLine : Nat
  clkDelay : Nat
  setupDelay : Nat
  readDelay : Nat
deriving DecidableEq, Repr

/-- The fixed configuration of an SPI-framed instance (R27). -/
structure SFConfig where
  spiPath : Nat
  spiSpeedHz : Nat
  threeWire : Bool
deriving DecidableEq, Repr

/-- The environment of a bit-bang instance (R38, R52): a script of its answers.
`failures`: one entry for each collaborator call to come, `none` when it succeeds; behind the script's end calls
succeed. `levels`: the levels that will be sampled; behind the script's end a sample is `1` if `floatHigh` (the named
environment of R56) and otherwise a free value. Every finite run of every oracle is some script (assumption log 7). -/
structure LineEnv where
  failures : List (Option OsFailure)
  levels : List Level
  floatHigh : Bool
deriving DecidableEq, Repr

/-- The environment of an SPI-framed instance (R38, R52): as `LineEnv`, with the words that will be received, of
which a transfer of `n` bits takes the low `n`. -/
structure SpiEnv where
  failures : List (Option OsFailure)
  received : List U32
  floatHigh : Bool
deriving DecidableEq, Repr

/-- The SPI port (R39). -/
structure SpiPort where
  claimed : Bool
deriving DecidableEq, Repr

/-- One bit-bang engine instance. `cfg`, `isOpen`, `clk`, `data` are the spec's (R26), `seq` is R23's, `trace` is the
bus trace (R17), `results` are the results delivered so far (R18, R287), the oldest first; `env` and `free` are the
model's: the environment's script and the counter its free values are taken at. -/
structure BB where
  cfg : BBConfig
  isOpen : Bool
  clk : Line
  data : Line
  seq : Sequencer
  trace : List BBEvent
  results : List Result
  env : LineEnv
  free : Nat
deriving DecidableEq, Repr

/-- One SPI-framed engine instance (R27); the fields as in `BB`. -/
structure SF where
  cfg : SFConfig
  isOpen : Bool
  spi : SpiPort
  seq : Sequencer
  trace : List SFEvent
  results : List Result
  env : SpiEnv
  free : Nat
deriving DecidableEq, Repr

/-- Which physical bus each instance is wired to, and the buses that some other master drives (R63, R277). The
launch premise is that no bus has two masters. -/
structure Board where
  bbBus : Nat
  sfBus : Nat
  otherMasters : List Nat
deriving DecidableEq, Repr

/-- The whole state: the two instances, the host's commands not yet taken (R287: a run is a finite list of
commands), the board, and the switches of R13. -/
structure State where
  bb : BB
  sf : SF
  requests : List Request
  board : Board
  switches : Switches
deriving DecidableEq, Repr

/-- Why the machine stops with a fault: the two model-only outcomes of R236. -/
inductive Fault where
  /-- A drive on a line in input direction, or a sample on a line in output direction (R35, R36; U4). Raised by the
  line operations. Safe: the source gives no effect, and no claim can be proved about such a run. -/
  | staleDirection
  /-- A command for an engine whose bus has a second master (R63; U6). Raised by `step` before the command is
  taken. Safe: such a configuration has no meaning in the spec. -/
  | ownershipViolated
deriving DecidableEq, Repr

/-- Why the machine has no meaning for what it was handed. -/
inductive Refusal where
  /-- No meaning for the instruction of that mnemonic. No arm of `exec` raises it. Safe. -/
  | notModelled (mnemonic : String)
  /-- The request asks for nothing the block has: a command the engine lacks (R96, R99, R206: a host cannot issue it), a
header word for the bit-bang engine (R100), a frame longer than the one frame length (R80), or a message that is none of the
model's (assumption log 1). Raised by `step`. Safe: the spec has no such request. -/
  | badRequest (why : Reject)
deriving DecidableEq, Repr

/-- A line as constructed (R42): not claimed, nothing driven. The spec leaves the other three fields unspecified
while the line is unclaimed; the values here are the model's (assumption log 8). -/
def Line.constructed : Line := { claimed := false, dir := .input, drive := false, bias := .none }

/-- A bit-bang instance as constructed (R26, R42). -/
def BB.constructed : BB :=
  { cfg := { clkLine := Config.clkLine, dataLine := Config.dataLine, clkDelay := Config.clkDelay,
             setupDelay := Config.setupDelay, readDelay := Config.readDelay },
    isOpen := false, clk := Line.constructed, data := Line.constructed, seq := .idle, trace := [], results := [],
    env := { failures := [], levels := [], floatHigh := false }, free := 0 }

/-- An SPI-framed instance as constructed (R27, R42). -/
def SF.constructed : SF :=
  { cfg := { spiPath := Config.spiPath, spiSpeedHz := Config.spiSpeedHz, threeWire := true },
    isOpen := false, spi := { claimed := false }, seq := .idle, trace := [], results := [],
    env := { failures := [], received := [], floatHigh := false }, free := 0 }

/-- The machine right after construction, which plays the part of reset (R42, R270): both instances closed, nothing
claimed, nothing driven, nothing emitted, no command issued. -/
def State.reset : State :=
  { bb := BB.constructed, sf := SF.constructed, requests := [],
    board := { bbBus := 0, sfBus := 1, otherMasters := [] }, switches := Switches.normative }

end Sys2Proof.Machine
end

