-- ==== Sys2Proof/Machine/Primitives.lean ====
section
/-! DEFINITION. The micro-operations of both engines (spec/41_bitbang_primitives.md R130 to R143;
spec/43_spi_engine.md R193 to R197), each as the fixed sequence of collaborator operations it performs. No micro-operation
looks at a sampled value (R23, R174), so a sequence is data, fixed by the operands before the first event. -/

namespace Sys2Proof.Machine

/-- The delays of R12. -/
inductive Delay where
  | clock
  | setup
  | readSettle
deriving DecidableEq, Repr

/-- One step of the bit-bang engine. The first three are not line operations: they emit no event and cannot fail.
`element` and `frame` mark where the next list element and the next frame begin (R23); `wait` is the busy-wait (R283). The rest are
the operations of the line collaborator (R35 to R37); a sample is kept for the result or discarded (R141). -/
inductive LineOp where
  | element
  | frame
  | wait (d : Delay)
  | clk (l : Level)
  | data (l : Level)
  | sample (keep : Bool)
  | dirIn
  | dirOut (l : Level)
deriving DecidableEq, Repr

/-- One step of the SPI-framed engine: the two marks, and a transfer (R40) whose received word is kept for the result
or discarded (R211). -/
inductive SpiOp where
  | element
  | frame
  | xfer (n tx : Nat) (csChange keep : Bool)
deriving DecidableEq, Repr

namespace Prim

open Codec

/-! ### Bit-bang engine -/

/-- `clock_pulse` (R133). -/
def clockPulse : List LineOp := [.clk true, .wait .clock, .clk false, .wait .clock]

/-- `write_bit` (R131): one slot `W(b)`. -/
def writeBit (b : Level) : List LineOp := .data b :: .wait .setup :: clockPulse

/-- `read_bit` (R132): one slot `R(s)`; the sample precedes the slot's pulse. -/
def readBit (keep : Bool) : List LineOp := .sample keep :: clockPulse

/-- `write_bits(v, n)` (R134): the low `n` bits, the most significant first. -/
def writeBits (v n : Nat) : List LineOp := (bitsOf n v).flatMap writeBit

/-- `read_bits(n)` (R135). -/
def readBits (n : Nat) (keep : Bool) : List LineOp := (List.replicate n ()).flatMap (fun _ => readBit keep)

/-- `flush` (R136): the preamble and the trailing flush, 32 slots `W(1)` whatever the configuration. -/
def flush : List LineOp := (List.replicate Config.preambleBits true).flatMap writeBit

/-- `send_header14` (R139). -/
def sendHeader14 (f : Frame) : List LineOp :=
  writeBits f.st.toNat Config.stBits ++ writeBits f.op.toNat Config.opBits ++ writeBits f.pad.toNat Config.padBits
    ++ writeBits f.dad.toNat Config.dadBits

/-- `write_tail` (R140): the turnaround sent is the constant `10`, not the frame's. -/
def writeTail (f : Frame) : List LineOp :=
  writeBits Config.taWrite.toNat Config.taBits ++ writeBits f.data.toNat Config.dataBits

/-- `read_transition` (R141): release the line, settle, two discarded samples, sixteen kept ones, take the line back
driving `1`. -/
def readTransition : List LineOp :=
  .dirIn :: .wait .readSettle :: (readBits Config.taBits false ++ readBits Config.dataBits true ++ [.dirOut true])

/-- The 32 slots of a frame (R89), without its preamble. The choice between driving and sampling the last 18 is made
on `OP` alone (R117). -/
def frameSlots (f : Frame) : List LineOp :=
  sendHeader14 f ++ (if isReadClass f.op then readTransition else writeTail f)

/-- `bb_frame_write` and `bb_frame_read` (R142, R143): a frame with its preamble. The mark stands before the preamble, so the
position of R23 counts the preamble's slots with the frame's: the model's choice (assumption log 23). -/
def bbFrame (f : Frame) : List LineOp := .frame :: (flush ++ frameSlots f)

/-- A frame behind the first one of a command: with its own preamble (R88), unless the switch says otherwise (D2). -/
def bbNextFrame (sw : Switches) (f : Frame) : List LineOp :=
  if sw.preamblePerFrame then bbFrame f else .frame :: frameSlots f

/-! ### SPI-framed engine -/

/-- `sf_flush` (R193): one 32-bit word of ones. Every transfer has `cs_change = false` (R210). -/
def sfFlush : List SpiOp := [.xfer Config.sfFlushWordBits 0xFFFFFFFF false false]

/-- `sf_send_header` (R194). -/
def sfSendHeader (f : Frame) : List SpiOp := [.xfer Config.sfWordBits (sfHeader f).toNat false false]

/-- `sf_data_read` (R195): the only transfer whose received word is used. -/
def sfDataRead : List SpiOp := [.xfer Config.sfWordBits 0xFFFF false true]

/-- `sf_data_write` (R196): the payload; with the switch of R279 the header a second time. -/
def sfDataWrite (sw : Switches) (f : Frame) : List SpiOp :=
  [.xfer Config.sfWordBits (if sw.sfWriteDataIsHeader then (sfHeader f).toNat else f.data.toNat) false false]

/-- The header and data words of a frame (R90), without its preamble. -/
def sfFrameWords (sw : Switches) (f : Frame) : List SpiOp :=
  sfSendHeader f ++ (if isReadClass f.op then sfDataRead else sfDataWrite sw f)

/-- `sf_frame` (R197): a frame with its preamble. -/
def sfFrame (sw : Switches) (f : Frame) : List SpiOp := .frame :: (sfFlush ++ sfFrameWords sw f)

/-- A frame behind the first one of a command (D2, D23). -/
def sfNextFrame (sw : Switches) (f : Frame) : List SpiOp :=
  if sw.preamblePerFrame then sfFrame sw f else .frame :: sfFrameWords sw f

end Prim
end Sys2Proof.Machine
end

