-- ==== Sys2Proof/Machine/Ops.lean ====
section
/-! DEFINITION. The operations of the two collaborators (spec/10_state.md R33 to R41), the environment's draws
(R38, R52), running a micro-operation sequence, and the delivery of a command's result, errors included
(spec/60_exceptions.md R238: the block's only "trap entry"; there is no return from one, R240). -/

namespace Sys2Proof.Machine

/-- How a run of operations ends: all done, with what it kept; stopped by an error, in the state the last successful
operation left (R146); or at a point to which the spec gives no meaning (R236). -/
inductive Ran (σ β : Type) where
  | done (s : σ) (got : List β)
  | failed (s : σ) (e : ErrorKind)
  | fault (f : Fault)
deriving Repr

/-! ### Lines -/

/-- The electrical state of a line (R33). -/
def Line.electrical (l : Line) : Electrical :=
  if l.claimed = true ∧ l.dir = .output then (if l.drive then .drive1 else .drive0) else .z

/-- `line.open` (R34). -/
def Line.openAs (dir : Direction) (level : Level) (bias : Bias) : Line :=
  { claimed := true, dir := dir, drive := level, bias := bias }

/-- A line after `line.close` (R34): not claimed; the other fields are unspecified, free values taken at `k`. -/
def Line.released (k : Nat) : Line :=
  { claimed := false, dir := Config.freeDirection k, drive := Config.freeDrive k, bias := Config.freeBias k }

/-- A line after a failed `close` (R138): no field has a specified value. -/
def Line.unspecified (k : Nat) : Line := { Line.released k with claimed := Config.freeClaimed k }

/-! ### The environment's draws -/

/-- One collaborator call of the bit-bang engine (R38): the environment decides whether it fails. A failed call
changes no line and emits no event, and is turned into `TransportIO` (R232). -/
def BB.attempt (b : BB) (call : BB → Ran BB Level) : Ran BB Level :=
  match b.env.failures with
  | [] => call b
  | none :: rest => call { b with env := { b.env with failures := rest } }
  | some f :: rest => .failed { b with env := { b.env with failures := rest } } (.transportIO f)

/-- The same for the SPI-framed engine. -/
def SF.attempt (s : SF) (call : SF → Ran SF U16) : Ran SF U16 :=
  match s.env.failures with
  | [] => call s
  | none :: rest => call { s with env := { s.env with failures := rest } }
  | some f :: rest => .failed { s with env := { s.env with failures := rest } } (.transportIO f)

/-- The level on the released data line at this moment (R36, R52). -/
def BB.drawnLevel (b : BB) : Level :=
  match b.env.levels with
  | l :: _ => l
  | [] => if b.env.floatHigh then true else Config.freeLevel b.free

/-- The environment after that level has been sampled. -/
def BB.afterDraw (b : BB) : BB :=
  { b with env := { b.env with levels := b.env.levels.tail }, free := b.free + 1 }

/-- The `n` bits received by a transfer at this moment (R40, R52). -/
def SF.drawnWord (n : Nat) (s : SF) : Nat :=
  (match s.env.received with
    | w :: _ => w.toNat
    | [] => if s.env.floatHigh then 0xFFFFFFFF else (Config.freeWord s.free).toNat) % 2 ^ n

/-- The environment after that transfer. -/
def SF.afterDraw (s : SF) : SF :=
  { s with env := { s.env with received := s.env.received.tail }, free := s.free + 1 }

/-! ### The sequencer (R23) -/

/-- The next list element begins. Elements are counted from 1, and a command that is no batch has one element. R23 leaves the
numbering open: the model's choice (assumption log 23). -/
def Sequencer.nextElement : Sequencer → Sequencer
  | .idle => .at 1 0 0
  | .at e _ _ => .at (e + 1) 0 0

/-- The next frame begins. Frames are counted from 1 within each list element, not through a whole batch. R23 leaves the
numbering open: the model's choice (assumption log 23). -/
def Sequencer.nextFrame : Sequencer → Sequencer
  | .idle => .at 1 1 0
  | .at e f _ => .at e (f + 1) 0

/-- `n` more clock pulses are complete. Slots are counted from the frame's mark on: 0 to 31 the preamble, 32 to 63 slots 0 to
31 of R89, 64 to 95 a trailing flush; while `open` or `close` runs the position stays idle. R23 leaves this open: the model's
choice (assumption log 23). -/
def Sequencer.pulses (n : Nat) : Sequencer → Sequencer
  | .idle => .idle
  | .at e f s => .at e f (s + n)

/-! ### Successful line operations: their whole effect -/

/-- `CLK.write(l)` (R35): the falling edge completes a slot. -/
def BB.clkWritten (l : Level) (b : BB) : BB :=
  { b with clk := { b.clk with drive := l }, trace := b.trace ++ [.cout l],
           seq := if l then b.seq else b.seq.pulses 1 }

/-- `DATA.write(l)` (R35): an event even when the line already drives `l`. -/
def BB.dataWritten (l : Level) (b : BB) : BB :=
  { b with data := { b.data with drive := l }, trace := b.trace ++ [.dout l] }

/-- `DATA.read()` (R36): the line does not change. -/
def BB.sampled (b : BB) : BB := { b.afterDraw with trace := b.trace ++ [.dsample b.drawnLevel] }

/-- `DATA.set_direction(in)` (R37): the bias does not change. -/
def BB.turnedIn (b : BB) : BB :=
  { b with data := { b.data with dir := .input }, trace := b.trace ++ [.ddirIn] }

/-- `DATA.set_direction(out, l)` (R37). -/
def BB.turnedOut (l : Level) (b : BB) : BB :=
  { b with data := { b.data with dir := .output, drive := l }, trace := b.trace ++ [.ddirOut l] }

/-- `wait(n)` changes no state and emits no event (R283). -/
def BB.waited (_ : Delay) (b : BB) : BB := b

/-- A successful `SpiXfer` (R40). -/
def SF.transferred (n tx : Nat) (cs : Bool) (s : SF) : SF :=
  { s.afterDraw with trace := s.trace ++ [.xfer n tx cs (s.drawnWord n)], seq := s.seq.pulses n }

/-! ### Performing one operation -/

/-- `line.write` on the clock line or on the data line (R35): `NotOpen` on an unclaimed line, a fault on a line in
input direction, and otherwise the environment decides. -/
def BB.write (line : Line) (effect : BB → BB) (b : BB) : Ran BB Level :=
  if line.claimed then
    match line.dir with
    | .output => b.attempt (fun b => .done (effect b) [])
    | .input => .fault .staleDirection
  else .failed b .notOpen

/-- `line.read` (R36). -/
def BB.read (keep : Bool) (b : BB) : Ran BB Level :=
  if b.data.claimed then
    match b.data.dir with
    | .input => b.attempt (fun b => .done b.sampled (if keep then [b.drawnLevel] else []))
    | .output => .fault .staleDirection
  else .failed b .notOpen

/-- `line.set_direction` (R37; R231 on an unclaimed line). -/
def BB.turn (effect : BB → BB) (b : BB) : Ran BB Level :=
  if b.data.claimed then b.attempt (fun b => .done (effect b) []) else .failed b .notOpen

/-- One step of the bit-bang engine. -/
def BB.perform (op : LineOp) (b : BB) : Ran BB Level :=
  match op with
  | .element => .done { b with seq := b.seq.nextElement } []
  | .frame => .done { b with seq := b.seq.nextFrame } []
  | .wait d => .done (b.waited d) []
  | .clk l => b.write b.clk (BB.clkWritten l)
  | .data l => b.write b.data (BB.dataWritten l)
  | .sample keep => b.read keep
  | .dirIn => b.turn BB.turnedIn
  | .dirOut l => b.turn (BB.turnedOut l)

/-- `SpiXfer(n, tx, cs_change)` (R40): `NotOpen` on an unclaimed port, `ParameterInvalid` for another width or an
over-wide word, and otherwise the environment decides. -/
def SF.xfer (n tx : Nat) (cs keep : Bool) (s : SF) : Ran SF U16 :=
  if s.spi.claimed then
    if (n = 16 ∨ n = 32) ∧ tx < 2 ^ n then
      s.attempt (fun s => .done (s.transferred n tx cs) (if keep then [Codec.mask 16 (s.drawnWord n)] else []))
    else .failed s .parameterInvalid
  else .failed s .notOpen

/-- One step of the SPI-framed engine. -/
def SF.perform (op : SpiOp) (s : SF) : Ran SF U16 :=
  match op with
  | .element => .done { s with seq := s.seq.nextElement } []
  | .frame => .done { s with seq := s.seq.nextFrame } []
  | .xfer n tx cs keep => s.xfer n tx cs keep

/-! ### Running a sequence -/

/-- Performs the operations in order (R62) and stops at the first that does not succeed; nothing is cleaned up
(R146, R212). What the operations kept comes out in order. -/
def runOps {σ ω β : Type} (perform : ω → σ → Ran σ β) : List ω → σ → Ran σ β
  | [], s => .done s []
  | op :: ops, s =>
    match perform op s with
    | .done s' got =>
      match runOps perform ops s' with
      | .done s'' got' => .done s'' (got ++ got')
      | .failed s'' e => .failed s'' e
      | .fault f => .fault f
    | .failed s' e => .failed s' e
    | .fault f => .fault f

/-- A sequence of the bit-bang engine. -/
def BB.run (ops : List LineOp) (b : BB) : Ran BB Level := runOps BB.perform ops b

/-- A sequence of the SPI-framed engine. -/
def SF.run (ops : List SpiOp) (s : SF) : Ran SF U16 := runOps SF.perform ops s

/-! ### Delivery of a result -/

/-- A command of the bit-bang engine completes (R18): its one result is delivered and the sequencer is idle. -/
def BB.deliver (r : Result) (b : BB) : BB := { b with seq := .idle, results := b.results ++ [r] }

/-- A command of the SPI-framed engine completes (R18). -/
def SF.deliver (r : Result) (s : SF) : SF := { s with seq := .idle, results := s.results ++ [r] }

/-- `raise K` in a bit-bang command (R238): `Err(K)` is delivered; nothing is saved, no mode changes, and the next
command is accepted at once (R240). -/
def BB.raise (e : ErrorKind) (b : BB) : BB := b.deliver (.err e)

/-- `raise K` in an SPI-framed command (R238). -/
def SF.raise (e : ErrorKind) (s : SF) : SF := s.deliver (.err e)

/-- The code of an error kind (R237). -/
def ErrorKind.code : ErrorKind → Nat
  | .notOpen => 1
  | .transportIO _ => 2
  | .parameterInvalid => 3
  | .alreadyOpen => 4

/-- The state with another bit-bang instance. -/
def State.withBB (s : State) (b : BB) : State := { s with bb := b }

/-- The state with another SPI-framed instance. -/
def State.withSF (s : State) (f : SF) : State := { s with sf := f }

/-- A bit-bang command (R144, R160): the open check, then its operations, then its result. -/
def bbCommand (ops : List LineOp) (value : List Level → Value) (s : State) : Host.Outcome State Fault Refusal :=
  if s.bb.isOpen then
    match s.bb.run ops with
    | .done b got => .next (s.withBB (b.deliver (.ok (value got))))
    | .failed b e => .next (s.withBB (b.raise e))
    | .fault f => .fault f
  else .next (s.withBB (s.bb.raise .notOpen))

/-- An SPI-framed command (R209): the open check, then its transfers, then its result. -/
def sfCommand (ops : List SpiOp) (value : List U16 → Value) (s : State) : Host.Outcome State Fault Refusal :=
  if s.sf.isOpen then
    match s.sf.run ops with
    | .done f got => .next (s.withSF (f.deliver (.ok (value got))))
    | .failed f e => .next (s.withSF (f.raise e))
    | .fault r => .fault r
  else .next (s.withSF (s.sf.raise .notOpen))

end Sys2Proof.Machine
end

