-- ==== Sys2Proof/Machine/Transactions.lean ====
section
/-! DEFINITION. The expansions of the register commands (spec/30_encoding.md R97; spec/42_bitbang_operations.md R161 to R173;
spec/43_spi_engine.md R198 to R205): a single-register operation is a list of frames and, for Clause 22, a trailing
flush; a batch command is one such operation for each list element, in order. Both engines share them. -/

namespace Sys2Proof.Machine

open Operands

/-- A single-register operation: its frames in wire order, and whether a trailing flush follows. -/
structure Transaction where
  frames : List Frame
  trailingFlush : Bool
deriving DecidableEq, Repr

/-- `read_c22` (R161, R198): `BusRead` of the Clause 22 space (R51, R53). -/
def readC22 (p r : Nat) : Transaction := { frames := [c22Read p r], trailingFlush := true }

/-- `write_c22` (R162, R199): `BusWrite` of the Clause 22 space (R51, R54). -/
def writeC22 (p r v : Nat) : Transaction := { frames := [c22Write p r v], trailingFlush := true }

/-- `read_c45` (R163, R200): `BusRead` of the Clause 45 space (R51, R53). Every access sends its own address frame, and
nothing stands between it and the data frame (R68). -/
def readC45 (p e r : Nat) : Transaction := { frames := [c45Address p e r, c45Read p e], trailingFlush := false }

/-- `write_c45` (R164, R201): `BusWrite` of the Clause 45 space (R51, R54, R68). -/
def writeC45 (p e r v : Nat) : Transaction := { frames := [c45Address p e r, c45Write p e v], trailingFlush := false }

/-- Four frames of a dword command in the order of the switch (R165, R166; D3). -/
def dwordFrames (q : DwordSequence) (aLo aHi dLo dHi : Frame) : List Frame :=
  match q with
  | .aadd => [aLo, aHi, dLo, dHi]
  | .adad => [aLo, dLo, aHi, dHi]

/-- The read frame of a dword read (R165; D4). -/
def dwordReadFrame (o : DwordReadOp) (p e : Nat) : Frame :=
  match o with
  | .read => c45Read p e
  | .readInc => c45ReadInc p e

/-- `read_c45_dword` (R165). -/
def readC45Dword (sw : Switches) (p e r : Nat) : Transaction :=
  { frames := dwordFrames sw.dwordSequence (c45Address p e (splitDword r).1.toNat) (c45Address p e (splitDword r).2.toNat)
      (dwordReadFrame sw.dwordReadOp p e) (dwordReadFrame sw.dwordReadOp p e),
    trailingFlush := false }

/-- `write_c45_dword` (R166). -/
def writeC45Dword (sw : Switches) (p e r v : Nat) : Transaction :=
  { frames := dwordFrames sw.dwordSequence (c45Address p e (splitDword r).1.toNat) (c45Address p e (splitDword r).2.toNat)
      (c45Write p e (splitDword v).1.toNat) (c45Write p e (splitDword v).2.toNat),
    trailingFlush := false }

/-- The frames of an operation on the bit-bang engine. -/
def bbFrames (sw : Switches) : List Frame → List LineOp
  | [] => []
  | f :: fs => Prim.bbFrame f ++ fs.flatMap (Prim.bbNextFrame sw)

/-- The frames of an operation on the SPI-framed engine. -/
def sfFrames (sw : Switches) : List Frame → List SpiOp
  | [] => []
  | f :: fs => Prim.sfFrame sw f ++ fs.flatMap (Prim.sfNextFrame sw)

/-- One single-register operation on the bit-bang engine. -/
def bbTransaction (sw : Switches) (t : Transaction) : List LineOp :=
  .element :: (bbFrames sw t.frames ++ (if t.trailingFlush then Prim.flush else []))

/-- One single-register operation on the SPI-framed engine. -/
def sfTransaction (sw : Switches) (t : Transaction) : List SpiOp :=
  .element :: (sfFrames sw t.frames ++ (if t.trailingFlush then Prim.sfFlush else []))

/-- How many words the environment supplies: one for each read-class frame. -/
def wordsRead (ts : List Transaction) : Nat :=
  ((ts.flatMap Transaction.frames).filter (fun f => Codec.isReadClass f.op)).length

/-- The words received bit by bit, sixteen samples each, the first the most significant (R135). -/
def wordsOfSamples : Nat → List Level → List U16
  | 0, _ => []
  | n + 1, bs => Codec.wordOfBits (bs.take Config.dataBits) :: wordsOfSamples n (bs.drop Config.dataBits)

/-- The result type of a command (R96). -/
inductive Shape where
  | unit
  | u16
  | u32
  | u16s
  | u32s
deriving DecidableEq, Repr

/-- The dwords of a list of words, low half first (R58, R120). -/
def joinPairs : List U16 → List U32
  | lo :: hi :: rest => joinDword lo hi :: joinPairs rest
  | _ => []

/-- The result of a command from the words the environment supplied, in order. -/
def assemble (shape : Shape) (ws : List U16) : Value :=
  match shape with
  | .unit => .unit
  | .u16 => .u16 (ws.headD 0)
  | .u32 => .u32 ((joinPairs ws).headD 0)
  | .u16s => .u16s ws
  | .u32s => .u32s (joinPairs ws)

/-- A register command of the bit-bang engine: its operations one after the other (R173 (b)), stopping at the
first failure (R173 (c)). -/
def bbTransact (ts : List Transaction) (shape : Shape) (s : State) : Host.Outcome State Fault Refusal :=
  bbCommand (ts.flatMap (bbTransaction s.switches)) (fun got => assemble shape (wordsOfSamples (wordsRead ts) got)) s

/-- A register command of the SPI-framed engine. -/
def sfTransact (ts : List Transaction) (shape : Shape) (s : State) : Host.Outcome State Fault Refusal :=
  sfCommand (ts.flatMap (sfTransaction s.switches)) (assemble shape) s

/-- A write batch of the bit-bang engine (R168, R170, R172): the open check, then the length check (R239), then one
operation for each pair. -/
def bbWriteBatch (op : Nat → Nat → Transaction) (regs values : List Nat) (s : State) :
    Host.Outcome State Fault Refusal :=
  if s.bb.isOpen = true ∧ regs.length ≠ values.length then .next (s.withBB (s.bb.raise .parameterInvalid))
  else bbTransact (List.zipWith op regs values) .unit s

/-- A write batch of the SPI-framed engine (R203, R205). -/
def sfWriteBatch (op : Nat → Nat → Transaction) (regs values : List Nat) (s : State) :
    Host.Outcome State Fault Refusal :=
  if s.sf.isOpen = true ∧ regs.length ≠ values.length then .next (s.withSF (s.sf.raise .parameterInvalid))
  else sfTransact (List.zipWith op regs values) .unit s

/-- A single frame handed to an engine: `bb_frame_write`, `bb_frame_read` or `sf_frame` (R97, R142, R143, R197), behind
the open check every command but `open` and `close` makes (R144, R209; assumption log 9). -/
def sendFrame (e : Engine) (f : Frame) (s : State) : Host.Outcome State Fault Refusal :=
  let t : Transaction := { frames := [f], trailingFlush := false }
  let shape : Shape := if Codec.isReadClass f.op then .u16 else .unit
  match e with
  | .bitbang => bbTransact [t] shape s
  | .spi => sfTransact [t] shape s

/-- A header word handed to the SPI-framed engine: `sf_send_header` (R194) for a frame of that kind, behind the open
check (R209; assumption log 9). The received word is discarded. -/
def sendHeader (f : Frame) (s : State) : Host.Outcome State Fault Refusal :=
  sfCommand (.element :: .frame :: Prim.sfSendHeader f) (fun _ => .unit) s

/-- A frame-level primitive asked for a word that has no row (R98): a reserved pair is sent as read-class when `OP[1] = 1`
and as write-class otherwise (R117), and there is no illegal-frame trap; a header word is sent with its own turnaround, or
`11` where its opcode is read-class (R194). -/
def sendUnlisted (e : Engine) (fmt : Format) (f : Frame) (s : State) : Host.Outcome State Fault Refusal :=
  match fmt with
  | .frame32 => sendFrame e f s
  | .hdr16 => sendHeader f s
  | .cmd8 => sendFrame e f s

end Sys2Proof.Machine
end

