-- ==== Sys2Proof/Machine/BitBang.lean ====
section
/-! DEFINITION. The meanings of the host commands of the bit-bang engine (spec/41_bitbang_primitives.md R137, R138;
spec/42_bitbang_operations.md R160 to R173). -/

namespace Sys2Proof.Machine

/-- Neither line claimed: what a failed `open` leaves (R137, all-or-nothing). -/
def BB.unclaimed (b : BB) : BB :=
  { b with clk := { b.clk with claimed := false }, data := { b.data with claimed := false } }

/-- `CLK.open(out, 0, none)` (R137). -/
def BB.openClk (b : BB) : Ran BB Level := b.attempt (fun b => .done { b with clk := Line.openAs .output false .none } [])

/-- `DATA.open(out, 1, pull_up)`, `BB.open <- true`, event `Open` (R137). -/
def BB.openData (b : BB) : Ran BB Level :=
  b.attempt (fun b =>
    .done { b with data := Line.openAs .output true .pullUp, isOpen := true, trace := b.trace ++ [.opened] } [])

/-- The clock line released again because the data line could not be claimed (R137): its other fields are
unspecified from then on (R34). -/
def BB.giveBackClk (b : BB) : BB := { b with clk := Line.released b.free, free := b.free + 1 }

/-- `bb.open` (R137). -/
def execBbOpen (s : State) : Host.Outcome State Fault Refusal :=
  if s.bb.isOpen then .next (s.withBB (s.bb.raise .alreadyOpen))
  else
    match s.bb.openClk with
    | .done b _ =>
      match b.openData with
      | .done b' _ => .next (s.withBB (b'.deliver (.ok .unit)))
      | .failed b' e => .next (s.withBB (b'.giveBackClk.unclaimed.raise e))
      | .fault f => .fault f
    | .failed b e => .next (s.withBB (b.unclaimed.raise e))
    | .fault f => .fault f

/-- `line.close()` on the data line (R34, R138). -/
def BB.closeData (b : BB) : Ran BB Level :=
  b.attempt (fun b => .done { b with data := Line.released b.free, free := b.free + 1 } [])

/-- `line.close()` on the clock line, `BB.open <- false`, event `Close` (R34, R138). -/
def BB.closeClk (b : BB) : Ran BB Level :=
  b.attempt (fun b =>
    .done { b with clk := Line.released b.free, free := b.free + 1, isOpen := false, trace := b.trace ++ [.closed] } [])

/-- After a failed `close` the engine is treated as closed and the lines' `claimed` fields are unspecified (R138), and
with them every other field of the lines (R29). -/
def BB.closeFailed (b : BB) : BB :=
  { b with isOpen := false, data := Line.unspecified b.free, clk := Line.unspecified (b.free + 1), free := b.free + 2 }

/-- `bb.close` (R138): idempotent; the data line first. -/
def execBbClose (s : State) : Host.Outcome State Fault Refusal :=
  if s.bb.isOpen then
    match s.bb.closeData with
    | .done b _ =>
      match b.closeClk with
      | .done b' _ => .next (s.withBB (b'.deliver (.ok .unit)))
      | .failed b' e => .next (s.withBB (b'.closeFailed.raise e))
      | .fault f => .fault f
    | .failed b e => .next (s.withBB (b.closeFailed.raise e))
    | .fault f => .fault f
  else .next (s.withBB (s.bb.deliver (.ok .unit)))

/-- `bb.read_c22` (R161). -/
def execBbReadC22 (phy reg : Nat) (s : State) : Host.Outcome State Fault Refusal :=
  bbTransact [readC22 phy reg] .u16 s

/-- `bb.write_c22` (R162). -/
def execBbWriteC22 (phy reg value : Nat) (s : State) : Host.Outcome State Fault Refusal :=
  bbTransact [writeC22 phy reg value] .unit s

/-- `bb.read_c45` (R163). -/
def execBbReadC45 (phy dev reg : Nat) (s : State) : Host.Outcome State Fault Refusal :=
  bbTransact [readC45 phy dev reg] .u16 s

/-- `bb.write_c45` (R164). -/
def execBbWriteC45 (phy dev reg value : Nat) (s : State) : Host.Outcome State Fault Refusal :=
  bbTransact [writeC45 phy dev reg value] .unit s

/-- `bb.read_c45_dword` (R165). -/
def execBbReadC45Dword (phy dev reg : Nat) (s : State) : Host.Outcome State Fault Refusal :=
  bbTransact [readC45Dword s.switches phy dev reg] .u32 s

/-- `bb.write_c45_dword` (R166). -/
def execBbWriteC45Dword (phy dev reg value : Nat) (s : State) : Host.Outcome State Fault Refusal :=
  bbTransact [writeC45Dword s.switches phy dev reg value] .unit s

/-- `bb.read_c22_registers` (R167). -/
def execBbReadC22Registers (phy : Nat) (regs : List Nat) (s : State) : Host.Outcome State Fault Refusal :=
  bbTransact (regs.map (readC22 phy)) .u16s s

/-- `bb.write_c22_registers` (R168). -/
def execBbWriteC22Registers (phy : Nat) (regs values : List Nat) (s : State) : Host.Outcome State Fault Refusal :=
  bbWriteBatch (writeC22 phy) regs values s

/-- `bb.read_c45_registers` (R169). -/
def execBbReadC45Registers (phy dev : Nat) (regs : List Nat) (s : State) : Host.Outcome State Fault Refusal :=
  bbTransact (regs.map (readC45 phy dev)) .u16s s

/-- `bb.write_c45_registers` (R170). -/
def execBbWriteC45Registers (phy dev : Nat) (regs values : List Nat) (s : State) : Host.Outcome State Fault Refusal :=
  bbWriteBatch (writeC45 phy dev) regs values s

/-- `bb.read_c45_dword_registers` (R171). -/
def execBbReadC45DwordRegisters (phy dev : Nat) (regs : List Nat) (s : State) : Host.Outcome State Fault Refusal :=
  bbTransact (regs.map (readC45Dword s.switches phy dev)) .u32s s

/-- `bb.write_c45_dword_registers` (R172). -/
def execBbWriteC45DwordRegisters (phy dev : Nat) (regs values : List Nat) (s : State) :
    Host.Outcome State Fault Refusal :=
  bbWriteBatch (writeC45Dword s.switches phy dev) regs values s

end Sys2Proof.Machine
end

