-- ==== Sys2Proof/Machine/Frames.lean ====
section
/-! DEFINITION. The meanings of the six wire frames (spec/30_encoding.md R82 to R87) and of the six SPI header words
(spec/40_frame_codec.md R121; spec/43_spi_engine.md R194). -/

namespace Sys2Proof.Machine

/-- `C22_WRITE` (R82). -/
def execC22Write (e : Engine) (pad reg : U5) (ta : U2) (data : U16) (s : State) : Host.Outcome State Fault Refusal :=
  sendFrame e { st := Config.stC22, op := Config.opC22Write, pad := pad, dad := reg, ta := ta, data := data } s

/-- `C22_READ` (R83): the frame's own TA and DATA are placeholders (R119). -/
def execC22Read (e : Engine) (pad reg : U5) (ta : U2) (data : U16) (s : State) : Host.Outcome State Fault Refusal :=
  sendFrame e { st := Config.stC22, op := Config.opC22Read, pad := pad, dad := reg, ta := ta, data := data } s

/-- `C45_ADDRESS` (R84). -/
def execC45Address (e : Engine) (pad dev : U5) (ta : U2) (data : U16) (s : State) : Host.Outcome State Fault Refusal :=
  sendFrame e { st := Config.stC45, op := Config.opC45Address, pad := pad, dad := dev, ta := ta, data := data } s

/-- `C45_WRITE` (R85). -/
def execC45Write (e : Engine) (pad dev : U5) (ta : U2) (data : U16) (s : State) : Host.Outcome State Fault Refusal :=
  sendFrame e { st := Config.stC45, op := Config.opC45Write, pad := pad, dad := dev, ta := ta, data := data } s

/-- `C45_READ_INC` (R86): no command emits it; asked for as a frame it is sent as any read-class frame. -/
def execC45ReadInc (e : Engine) (pad dev : U5) (ta : U2) (data : U16) (s : State) : Host.Outcome State Fault Refusal :=
  sendFrame e { st := Config.stC45, op := Config.opC45ReadInc, pad := pad, dad := dev, ta := ta, data := data } s

/-- `C45_READ` (R87). -/
def execC45Read (e : Engine) (pad dev : U5) (ta : U2) (data : U16) (s : State) : Host.Outcome State Fault Refusal :=
  sendFrame e { st := Config.stC45, op := Config.opC45Read, pad := pad, dad := dev, ta := ta, data := data } s

/-- `HDR_C22_WRITE` (R121, R194). -/
def execHdrC22Write (pad reg : U5) (s : State) : Host.Outcome State Fault Refusal :=
  sendHeader { st := Config.stC22, op := Config.opC22Write, pad := pad, dad := reg, ta := Config.taWrite, data := 0 } s

/-- `HDR_C22_READ` (R121, R194). -/
def execHdrC22Read (pad reg : U5) (s : State) : Host.Outcome State Fault Refusal :=
  sendHeader { st := Config.stC22, op := Config.opC22Read, pad := pad, dad := reg, ta := Config.taWrite, data := 0 } s

/-- `HDR_C45_ADDRESS` (R121, R194). -/
def execHdrC45Address (pad dev : U5) (s : State) : Host.Outcome State Fault Refusal :=
  sendHeader { st := Config.stC45, op := Config.opC45Address, pad := pad, dad := dev, ta := Config.taWrite, data := 0 } s

/-- `HDR_C45_WRITE` (R121, R194). -/
def execHdrC45Write (pad dev : U5) (s : State) : Host.Outcome State Fault Refusal :=
  sendHeader { st := Config.stC45, op := Config.opC45Write, pad := pad, dad := dev, ta := Config.taWrite, data := 0 } s

/-- `HDR_C45_READ_INC` (R121, R194, R207). -/
def execHdrC45ReadInc (pad dev : U5) (s : State) : Host.Outcome State Fault Refusal :=
  sendHeader { st := Config.stC45, op := Config.opC45ReadInc, pad := pad, dad := dev, ta := Config.taWrite, data := 0 } s

/-- `HDR_C45_READ` (R121, R194). -/
def execHdrC45Read (pad dev : U5) (s : State) : Host.Outcome State Fault Refusal :=
  sendHeader { st := Config.stC45, op := Config.opC45Read, pad := pad, dad := dev, ta := Config.taWrite, data := 0 } s

end Sys2Proof.Machine
end

