-- ==== Sys2Proof/Machine/SpiFramed.lean ====
section
/-! DEFINITION. The meanings of the host commands of the SPI-framed engine (spec/43_spi_engine.md R190 to R212). -/

namespace Sys2Proof.Machine

/-- `spi.open(SPI_SPEED_HZ, three_wire_mode = true)`, `SF.open <- true`, event `Open` (R41, R191). -/
def SF.openPort (f : SF) : Ran SF U16 :=
  f.attempt (fun f => .done { f with spi := { claimed := true }, isOpen := true, trace := f.trace ++ [.opened] } [])

/-- `sf.open` (R191). -/
def execSfOpen (s : State) : Host.Outcome State Fault Refusal :=
  if s.sf.isOpen then .next (s.withSF (s.sf.raise .alreadyOpen))
  else
    match s.sf.openPort with
    | .done f _ => .next (s.withSF (f.deliver (.ok .unit)))
    | .failed f e => .next (s.withSF (f.raise e))
    | .fault r => .fault r

/-- `spi.close()`, `SF.open <- false`, event `Close` (R41, R192). -/
def SF.closePort (f : SF) : Ran SF U16 :=
  f.attempt (fun f => .done { f with spi := { claimed := false }, isOpen := false, trace := f.trace ++ [.closed] } [])

/-- After a failed `close` the engine is treated as closed and the port's `claimed` field is unspecified (R192, R138). -/
def SF.closeFailed (f : SF) : SF :=
  { f with isOpen := false, spi := { claimed := Config.freePortClaimed f.free }, free := f.free + 1 }

/-- `sf.close` (R192): idempotent. -/
def execSfClose (s : State) : Host.Outcome State Fault Refusal :=
  if s.sf.isOpen then
    match s.sf.closePort with
    | .done f _ => .next (s.withSF (f.deliver (.ok .unit)))
    | .failed f e => .next (s.withSF (f.closeFailed.raise e))
    | .fault r => .fault r
  else .next (s.withSF (s.sf.deliver (.ok .unit)))

/-- `sf.read_c22` (R198). -/
def execSfReadC22 (phy reg : Nat) (s : State) : Host.Outcome State Fault Refusal :=
  sfTransact [readC22 phy reg] .u16 s

/-- `sf.write_c22` (R199). -/
def execSfWriteC22 (phy reg value : Nat) (s : State) : Host.Outcome State Fault Refusal :=
  sfTransact [writeC22 phy reg value] .unit s

/-- `sf.read_c45` (R200). -/
def execSfReadC45 (phy dev reg : Nat) (s : State) : Host.Outcome State Fault Refusal :=
  sfTransact [readC45 phy dev reg] .u16 s

/-- `sf.write_c45` (R201). -/
def execSfWriteC45 (phy dev reg value : Nat) (s : State) : Host.Outcome State Fault Refusal :=
  sfTransact [writeC45 phy dev reg value] .unit s

/-- `sf.read_c22_registers` (R202). -/
def execSfReadC22Registers (phy : Nat) (regs : List Nat) (s : State) : Host.Outcome State Fault Refusal :=
  sfTransact (regs.map (readC22 phy)) .u16s s

/-- `sf.write_c22_registers` (R203). -/
def execSfWriteC22Registers (phy : Nat) (regs values : List Nat) (s : State) : Host.Outcome State Fault Refusal :=
  sfWriteBatch (writeC22 phy) regs values s

/-- `sf.read_c45_registers` (R204). -/
def execSfReadC45Registers (phy dev : Nat) (regs : List Nat) (s : State) : Host.Outcome State Fault Refusal :=
  sfTransact (regs.map (readC45 phy dev)) .u16s s

/-- `sf.write_c45_registers` (R205). -/
def execSfWriteC45Registers (phy dev : Nat) (regs values : List Nat) (s : State) : Host.Outcome State Fault Refusal :=
  sfWriteBatch (writeC45 phy dev) regs values s

end Sys2Proof.Machine
end

