-- ==== Sys2Proof/Machine/Dispatch.lean ====
section
/-! DEFINITION. One arm for each instruction, each a call of its meaning. -/

namespace Sys2Proof.Machine

def exec (i : Instr) (s : State) : Host.Outcome State Fault Refusal :=
  match i with
  | .c22Write e p r ta d => Sys2Proof.Machine.execC22Write e p r ta d s
  | .c22Read e p r ta d => Sys2Proof.Machine.execC22Read e p r ta d s
  | .c45Address e p v ta d => Sys2Proof.Machine.execC45Address e p v ta d s
  | .c45Write e p v ta d => Sys2Proof.Machine.execC45Write e p v ta d s
  | .c45ReadInc e p v ta d => Sys2Proof.Machine.execC45ReadInc e p v ta d s
  | .c45Read e p v ta d => Sys2Proof.Machine.execC45Read e p v ta d s
  | .hdrC22Write p r => Sys2Proof.Machine.execHdrC22Write p r s
  | .hdrC22Read p r => Sys2Proof.Machine.execHdrC22Read p r s
  | .hdrC45Address p v => Sys2Proof.Machine.execHdrC45Address p v s
  | .hdrC45Write p v => Sys2Proof.Machine.execHdrC45Write p v s
  | .hdrC45ReadInc p v => Sys2Proof.Machine.execHdrC45ReadInc p v s
  | .hdrC45Read p v => Sys2Proof.Machine.execHdrC45Read p v s
  | .bbOpen => Sys2Proof.Machine.execBbOpen s
  | .sfOpen => Sys2Proof.Machine.execSfOpen s
  | .bbClose => Sys2Proof.Machine.execBbClose s
  | .sfClose => Sys2Proof.Machine.execSfClose s
  | .bbReadC22 p r => Sys2Proof.Machine.execBbReadC22 p r s
  | .sfReadC22 p r => Sys2Proof.Machine.execSfReadC22 p r s
  | .bbWriteC22 p r v => Sys2Proof.Machine.execBbWriteC22 p r v s
  | .sfWriteC22 p r v => Sys2Proof.Machine.execSfWriteC22 p r v s
  | .bbReadC45 p d r => Sys2Proof.Machine.execBbReadC45 p d r s
  | .sfReadC45 p d r => Sys2Proof.Machine.execSfReadC45 p d r s
  | .bbWriteC45 p d r v => Sys2Proof.Machine.execBbWriteC45 p d r v s
  | .sfWriteC45 p d r v => Sys2Proof.Machine.execSfWriteC45 p d r v s
  | .bbReadC45Dword p d r => Sys2Proof.Machine.execBbReadC45Dword p d r s
  | .bbWriteC45Dword p d r v => Sys2Proof.Machine.execBbWriteC45Dword p d r v s
  | .bbReadC22Registers p rs => Sys2Proof.Machine.execBbReadC22Registers p rs s
  | .sfReadC22Registers p rs => Sys2Proof.Machine.execSfReadC22Registers p rs s
  | .bbWriteC22Registers p rs vs => Sys2Proof.Machine.execBbWriteC22Registers p rs vs s
  | .sfWriteC22Registers p rs vs => Sys2Proof.Machine.execSfWriteC22Registers p rs vs s
  | .bbReadC45Registers p d rs => Sys2Proof.Machine.execBbReadC45Registers p d rs s
  | .sfReadC45Registers p d rs => Sys2Proof.Machine.execSfReadC45Registers p d rs s
  | .bbWriteC45Registers p d rs vs => Sys2Proof.Machine.execBbWriteC45Registers p d rs vs s
  | .sfWriteC45Registers p d rs vs => Sys2Proof.Machine.execSfWriteC45Registers p d rs vs s
  | .bbReadC45DwordRegisters p d rs => Sys2Proof.Machine.execBbReadC45DwordRegisters p d rs s
  | .bbWriteC45DwordRegisters p d rs vs => Sys2Proof.Machine.execBbWriteC45DwordRegisters p d rs vs s

end Sys2Proof.Machine
end

