-- ==== Sys2Proof/Machine/Port.lean ====
section
/-! DEFINITION. The host's command port: taking the next command (R62, R287), and the launch premise of exclusive bus
ownership (R63, R273; spec/92_eei_decisions.md D27). -/

namespace Sys2Proof.Machine

/-- The state with another list of commands still to come. -/
def State.withRequests (rs : List Request) (s : State) : State := { s with requests := rs }

/-- The bus an engine is wired to. -/
def Board.busOf (e : Engine) (b : Board) : Nat :=
  match e with
  | .bitbang => b.bbBus
  | .spi => b.sfBus

/-- The engine's bus has a second master: the other instance, or any other (R63, R277; U6). -/
def Board.contended (e : Engine) (b : Board) : Bool := b.bbBus == b.sfBus || b.otherMasters.contains (b.busOf e)

/-- What the host's next command comes to. -/
inductive Taken where
  /-- The host has no command left: nothing happens (R287). -/
  | nothing
  /-- A decoded command, and the state with the command taken off the list. -/
  | command (i : Instr) (s : State)
  /-- A frame or header word that has no row (R98), for a frame-level primitive of the engine to send. -/
  | unlisted (e : Engine) (fmt : Format) (f : Frame) (s : State)
  /-- The launch premise of R63 is broken. -/
  | contended
  /-- The host asked for something the block does not have. -/
  | rejected (why : Reject)

/-- Takes the next command of the host, in call order (R62). -/
def State.take (s : State) : Taken :=
  match s.requests with
  | [] => .nothing
  | r :: rest =>
    if s.board.contended r.engine then .contended
    else
      match decodeRequest r with
      | .ok i => .command i (s.withRequests rest)
      | .error why =>
        match requestedFrame r with
        | some f => .unlisted r.engine r.format f (s.withRequests rest)
        | none => .rejected why

end Sys2Proof.Machine
end

