-- ==== Sys2Proof/Machine/Step.lean ====
section
/-! DEFINITION. One step of the machine: one host command, whole (R23 and R62 allow a whole command as one atomic
step, since nothing else of the block acts while it runs). -/

namespace Sys2Proof.Machine

/-- Takes the host's next command and runs it. A host that issues nothing leaves the state as it is; a second master
on the engine's bus is a fault (R63); a frame or header word without a row is sent (R98); a request for something the block
does not have is refused (R96, R99, R206). -/
def step (s : State) : Host.Outcome State Fault Refusal :=
  match s.take with
  | .nothing => .next s
  | .command i s' => exec i s'
  | .unlisted e fmt f s' => sendUnlisted e fmt f s'
  | .contended => .fault .ownershipViolated
  | .rejected why => .refused (.badRequest why)

/-- `s` with the instruction of a word of spec/opcode_table.json as the host's next command. -/
def State.withFetchWord (s : State) (nbits w : Nat) : State :=
  match tableRequest nbits w with
  | some r => { s with requests := r :: s.requests }
  | none => s

end Sys2Proof.Machine
end

