-- ==== Sys2Proof/Machine/Fixtures.lean ====
section
/-! DEFINITION. The named environments of spec/20_memory.md R56, as scripts for `LineEnv` and `SpiEnv`. They are test
fixtures of the spec, not hardware: the machine reads none of this. `FloatHigh` is the empty script with `floatHigh`. -/

namespace Sys2Proof.Machine.Fixtures

open Codec

/-- The 18 levels a bit-bang engine samples in an answered read-class frame (R56): the turnaround `1, 0` and the word. -/
def answerLevels (w : U16) : List Level := true :: false :: bitsOf 16 w.toNat

/-- `Scripted(w_0, w_1, …)` on the bit-bang engine (R56): the `k`-th read-class frame receives the turnaround samples
`1, 0` and then the word `w_k`. -/
def scripted (ws : List U16) : List Level := ws.flatMap answerLevels

/-- The contents of the responder `EchoPHY` (R56). -/
structure EchoPhy where
  /-- Clause 22 registers by PHY address and register number. -/
  r22 : U5 → U5 → U16
  /-- Clause 45 address latches by PHY address and device address. -/
  a45 : U5 → U5 → U16
  /-- Clause 45 registers by PHY address, device address and register number. -/
  r45 : U5 → U5 → U16 → U16

/-- `EchoPHY(init)`. -/
def EchoPhy.initial (init : U16) : EchoPhy := { r22 := fun _ _ => init, a45 := fun _ _ => init, r45 := fun _ _ _ => init }

/-- What `EchoPHY` does at a completed frame (R56), and the word it answers to a read-class one. A frame whose `(ST, OP)`
is not listed is ignored; a read-increment answers and then advances the latch. -/
def EchoPhy.act (phy : EchoPhy) (f : Frame) : EchoPhy × Option U16 :=
  match classify f.st f.op with
  | .c22Write =>
    ({ phy with r22 := fun p r => if p = f.pad ∧ r = f.dad then f.data else phy.r22 p r }, none)
  | .c22Read => (phy, some (phy.r22 f.pad f.dad))
  | .c45Address =>
    ({ phy with a45 := fun p e => if p = f.pad ∧ e = f.dad then f.data else phy.a45 p e }, none)
  | .c45Write =>
    ({ phy with r45 := fun p e a =>
        if p = f.pad ∧ e = f.dad ∧ a = phy.a45 f.pad f.dad then f.data else phy.r45 p e a }, none)
  | .c45Read => (phy, some (phy.r45 f.pad f.dad (phy.a45 f.pad f.dad)))
  | .c45ReadInc =>
    ({ phy with a45 := fun p e => if p = f.pad ∧ e = f.dad then phy.a45 f.pad f.dad + 1 else phy.a45 p e },
      some (phy.r45 f.pad f.dad (phy.a45 f.pad f.dad)))
  | .reserved => (phy, none)

/-- The levels a bit-bang engine samples in a frame, from what the responder answers: 18 for every read-class frame, whether or
not the responder knows it (R117, R141), none for a write-class one. Where nobody drives, the line floats high (the model's
choice, assumption log 24). -/
def frameSamples (f : Frame) (answer : Option U16) : List Level :=
  if isReadClass f.op then
    match answer with
    | some w => answerLevels w
    | none => List.replicate 18 true
  else []

/-- The samples a bit-bang engine takes from `EchoPHY` while it sends these frames. -/
def EchoPhy.samples : EchoPhy → List Frame → List Level
  | _, [] => []
  | phy, f :: fs => frameSamples f (phy.act f).2 ++ (phy.act f).1.samples fs

/-- The three words an SPI-framed engine receives while it sends a frame, from what the responder answers: with an answer
the turnaround `1, 0` stands in the last two bits of the header word (R56) and the answer in the data phase. Where the
responder does not drive, the wire floats high (the model's choice, assumption log 24). -/
def frameReceives : Option U16 → List U32
  | none => [0xFFFFFFFF, 0xFFFF, 0xFFFF]
  | some w => [0xFFFFFFFF, 0xFFFE, w.setWidth 32]

/-- `Scripted(w_0, w_1, …)` on the SPI-framed engine, over frames: the words received, and the words of the script not yet
used. Behind the script's end a read-class frame is not answered (R56 says nothing of it; assumption log 24). -/
def scriptedFrames : List U16 → List Frame → List U32 × List U16
  | ws, [] => ([], ws)
  | ws, f :: fs =>
    let answer := if isReadClass f.op then ws.head? else none
    let rest := scriptedFrames (if isReadClass f.op then ws.tail else ws) fs
    (frameReceives answer ++ rest.1, rest.2)

/-- `Scripted(w_0, w_1, …)` on the SPI-framed engine (R56): the words received during these operations, in which the `k`-th
read-class frame is answered with `w_k`. -/
def scriptedReceived : List U16 → List Transaction → List U32
  | _, [] => []
  | ws, t :: ts =>
    (scriptedFrames ws t.frames).1 ++ (if t.trailingFlush then [0xFFFFFFFF] else [])
      ++ scriptedReceived (scriptedFrames ws t.frames).2 ts

/-- The words an SPI-framed engine receives from `EchoPHY` while it sends these frames. -/
def EchoPhy.frameReceived : EchoPhy → List Frame → List U32
  | _, [] => []
  | phy, f :: fs => frameReceives (phy.act f).2 ++ (phy.act f).1.frameReceived fs

/-- `EchoPHY` after these frames. -/
def EchoPhy.after : EchoPhy → List Frame → EchoPhy
  | phy, [] => phy
  | phy, f :: fs => (phy.act f).1.after fs

/-- The same for operations one after the other, with a trailing flush where there is one. -/
def EchoPhy.received : EchoPhy → List Transaction → List U32
  | _, [] => []
  | phy, t :: ts =>
    phy.frameReceived t.frames ++ (if t.trailingFlush then [0xFFFFFFFF] else []) ++ (phy.after t.frames).received ts

end Sys2Proof.Machine.Fixtures
end

