-- ==== Sys2Proof/Safety.lean ====
section
/-! DEFINITION. The terms claims are stated in: when an engine is ready, what a completed command leaves, the bus
trace a frame must produce (spec/00_scope.md R17; spec/30_encoding.md R88 to R90), what holds of every state between commands
(spec/10_state.md R29, R43), and the symbols of spec/43_spi_engine.md R208. Nothing here is read by the machine. -/

namespace Sys2Proof.Machine

open Codec

/-! ### Readiness -/

/-- No collaborator call of the bit-bang engine will fail (the premise of 93_implementation_defined.md U8). -/
def BB.Quiet (b : BB) : Prop := ∀ f ∈ b.env.failures, f = none

/-- No collaborator call of the SPI-framed engine will fail. -/
def SF.Quiet (f : SF) : Prop := ∀ x ∈ f.env.failures, x = none

/-- Both lines are claimed and in output direction (R43). -/
def BB.Driving (b : BB) : Prop :=
  b.clk.claimed = true ∧ b.clk.dir = .output ∧ b.data.claimed = true ∧ b.data.dir = .output

/-- An open bit-bang engine whose lines are in output direction and whose environment fails no call. -/
def BB.Ready (b : BB) : Prop := b.isOpen = true ∧ b.Driving ∧ b.Quiet

/-- An open SPI-framed engine whose environment fails no call. -/
def SF.Ready (f : SF) : Prop := f.isOpen = true ∧ f.spi.claimed = true ∧ f.Quiet

/-! ### What the environment will answer (R52) -/

/-- The level the environment supplies at the `k`-th sample to come, counted from 0: the script's, behind its end `1` in
the environment `FloatHigh` (R56), and otherwise a free value. -/
def BB.levelAt (b : BB) (k : Nat) : Level :=
  match b.env.levels[k]? with
  | some l => l
  | none => if b.env.floatHigh then true else Config.freeLevel (b.free + k)

/-- The next `n` levels the environment supplies. -/
def BB.upcoming (n : Nat) (b : BB) : List Level := (List.range n).map b.levelAt

/-- The word the environment supplies at the `k`-th transfer to come, before it is cut to the transfer's width. -/
def SF.wordAt (f : SF) (k : Nat) : Nat :=
  match f.env.received[k]? with
  | some w => w.toNat
  | none => if f.env.floatHigh then 0xFFFFFFFF else (Config.freeWord (f.free + k)).toNat

/-- The words received by the next transfers, of these widths. -/
def SF.upcoming (widths : List Nat) (f : SF) : List Nat := widths.mapIdx (fun k n => f.wordAt k % 2 ^ n)

/-! ### Bus traces of the bit-bang engine -/

/-- The slots `W(b)` (R17): driven across one clock pulse. -/
def wSlots (bs : List Level) : List BBEvent := bs.flatMap (fun b => [.dout b, .cout true, .cout false])

/-- The slots `R(s)` (R17): sampled and then one clock pulse. -/
def rSlots (ls : List Level) : List BBEvent := ls.flatMap (fun s => [.dsample s, .cout true, .cout false])

/-- A preamble or a trailing flush: 32 slots `W(1)` (R88). -/
def onesEvents : List BBEvent := wSlots (List.replicate 32 true)

/-- How many samples a frame takes (R89). -/
def samplesOf (f : Frame) : Nat := if isReadClass f.op then 18 else 0

/-- The events of a frame (R89), with the samples of a read-class frame. `F` is the frame as a 32-bit number; a
write-class frame carries the turnaround `10` (R91). -/
def frameEvents (f : Frame) (samples : List Level) : List BBEvent :=
  if isReadClass f.op then
    wSlots ((bitsOf 32 (encodeFrame f).toNat).take 14) ++ .ddirIn :: (rSlots samples ++ [.ddirOut true])
  else wSlots (bitsOf 32 (encodeFrame { f with ta := Config.taWrite }).toNat)

/-- Frames one after the other, each with its preamble (R88), the samples handed out in order. -/
def framesEvents : List Frame → List Level → List BBEvent
  | [], _ => []
  | f :: fs, ls => onesEvents ++ frameEvents f (ls.take (samplesOf f)) ++ framesEvents fs (ls.drop (samplesOf f))

/-- How many samples a list of frames takes. -/
def framesSamples (fs : List Frame) : Nat := (fs.map samplesOf).sum

/-- Operations one after the other (R173 (b)): frames, and a trailing flush where there is one. -/
def transactionsEvents : List Transaction → List Level → List BBEvent
  | [], _ => []
  | t :: ts, ls =>
    framesEvents t.frames (ls.take (framesSamples t.frames)) ++ (if t.trailingFlush then onesEvents else [])
      ++ transactionsEvents ts (ls.drop (framesSamples t.frames))

/-- How many samples a list of operations takes. -/
def transactionsSamples (ts : List Transaction) : Nat := (ts.map (fun t => framesSamples t.frames)).sum

/-- The words a list of samples holds, 18 samples for each read-class frame: two for the turnaround, discarded, and
sixteen for the word, the first the most significant (R89, R135, R141). -/
def wordsIn : Nat → List Level → List U16
  | 0, _ => []
  | n + 1, ls => wordOfBits ((ls.drop 2).take 16) :: wordsIn n (ls.drop 18)

/-- Whether an event is a sample. -/
def BBEvent.isSample : BBEvent → Bool
  | .dsample _ => true
  | .opened => false
  | .closed => false
  | .dout _ => false
  | .cout _ => false
  | .ddirIn => false
  | .ddirOut _ => false

/-- Whether an event is a rising clock edge. -/
def BBEvent.isPulse : BBEvent → Bool
  | .cout l => l
  | .dsample _ => false
  | .opened => false
  | .closed => false
  | .dout _ => false
  | .ddirIn => false
  | .ddirOut _ => false

/-- Whether an event is a change of direction. -/
def BBEvent.isTurn : BBEvent → Bool
  | .ddirIn => true
  | .ddirOut _ => true
  | .dsample _ => false
  | .opened => false
  | .closed => false
  | .dout _ => false
  | .cout _ => false

/-- An event without the sampled level. -/
def BBEvent.blind : BBEvent → BBEvent
  | .dsample _ => .dsample false
  | .opened => .opened
  | .closed => .closed
  | .dout l => .dout l
  | .cout l => .cout l
  | .ddirIn => .ddirIn
  | .ddirOut l => .ddirOut l

/-- How many clock pulses a trace has (R177). -/
def clockPulses (es : List BBEvent) : Nat := (es.filter BBEvent.isPulse).length

/-- How many samples a trace has (R177). -/
def sampleCount (es : List BBEvent) : Nat := (es.filter BBEvent.isSample).length

/-- How many direction changes a trace has (R177). -/
def turnCount (es : List BBEvent) : Nat := (es.filter BBEvent.isTurn).length

/-- An instance after a register command that completed with `Ok(v)`: the events are appended to the trace, one
collaborator call each; the clock is low (R176), the data line drives `drive`; every other field is as before. -/
def BB.completed (b : BB) (events : List BBEvent) (drive : Level) (v : Value) : BB :=
  { b with
    clk := { b.clk with drive := false }
    data := { b.data with drive := drive }
    seq := .idle
    trace := b.trace ++ events
    results := b.results ++ [.ok v]
    env := { b.env with failures := b.env.failures.drop events.length, levels := b.env.levels.drop (sampleCount events) }
    free := b.free + sampleCount events }

/-- The `n` levels the environment supplies from the `from`-th sample to come on. -/
def BB.window (b : BB) (start n : Nat) : List Level := (List.range n).map (fun j => b.levelAt (start + j))

/-- A write-class frame with its preamble (R88, R89), `w` the 32 bits of the frame. -/
def writeFrameEvents (w : Nat) : List BBEvent := onesEvents ++ wSlots (bitsOf 32 w)

/-- A read-class frame with its preamble (R88, R89), `h` the fourteen header bits, with the 18 samples taken. -/
def readFrameEvents (h : Nat) (samples : List Level) : List BBEvent :=
  onesEvents ++ wSlots (bitsOf 14 h) ++ .ddirIn :: (rSlots samples ++ [.ddirOut true])

/-- The frame `C22_WRITE` as a command emits it (R82), from raw operands. -/
def c22WriteBits (p r v : Nat) : Nat := 0x50020000 + p % 32 * 2 ^ 23 + r % 32 * 2 ^ 18 + v % 65536

/-- The fourteen header bits of `C22_READ` (R83), from raw operands. -/
def c22ReadBits (p r : Nat) : Nat := 0x1800 + p % 32 * 2 ^ 5 + r % 32

/-- The frame `C45_ADDRESS` as a command emits it (R84), from raw operands. -/
def c45AddressBits (p e a : Nat) : Nat := 0x00020000 + p % 32 * 2 ^ 23 + e % 32 * 2 ^ 18 + a % 65536

/-- The frame `C45_WRITE` as a command emits it (R85), from raw operands. -/
def c45WriteBits (p e v : Nat) : Nat := 0x10020000 + p % 32 * 2 ^ 23 + e % 32 * 2 ^ 18 + v % 65536

/-- The fourteen header bits of `C45_READ` (R87), from raw operands. -/
def c45ReadBits (p e : Nat) : Nat := 0x0C00 + p % 32 * 2 ^ 5 + e % 32

/-- The trace of `read_c22` (R161) with its 18 samples. -/
def readC22Events (p r : Nat) (samples : List Level) : List BBEvent :=
  readFrameEvents (c22ReadBits p r) samples ++ onesEvents

/-- The trace of `write_c22` (R162). -/
def writeC22Events (p r v : Nat) : List BBEvent := writeFrameEvents (c22WriteBits p r v) ++ onesEvents

/-- The trace of `read_c45` (R163) with its 18 samples. -/
def readC45Events (p e r : Nat) (samples : List Level) : List BBEvent :=
  writeFrameEvents (c45AddressBits p e r) ++ readFrameEvents (c45ReadBits p e) samples

/-- The trace of `write_c45` (R164). -/
def writeC45Events (p e r v : Nat) : List BBEvent :=
  writeFrameEvents (c45AddressBits p e r) ++ writeFrameEvents (c45WriteBits p e v)

/-- The trace of `read_c45_dword` (R165) with the 18 samples of each of its two read frames. -/
def readDwordEvents (p e r : Nat) (first second : List Level) : List BBEvent :=
  writeFrameEvents (c45AddressBits p e r) ++ writeFrameEvents (c45AddressBits p e (r / 65536))
    ++ readFrameEvents (c45ReadBits p e) first ++ readFrameEvents (c45ReadBits p e) second

/-- The trace of `write_c45_dword` (R166). -/
def writeDwordEvents (p e r v : Nat) : List BBEvent :=
  writeFrameEvents (c45AddressBits p e r) ++ writeFrameEvents (c45AddressBits p e (r / 65536))
    ++ writeFrameEvents (c45WriteBits p e v) ++ writeFrameEvents (c45WriteBits p e (v / 65536))

/-- A write-class frame behind the first of a command, `w` its 32 bits, under the switches of R13 (D2). -/
def nextWriteEvents (sw : Switches) (w : Nat) : List BBEvent :=
  if sw.preamblePerFrame then writeFrameEvents w else wSlots (bitsOf 32 w)

/-- A read-class frame behind the first of a command, `h` its fourteen header bits (D2). -/
def nextReadEvents (sw : Switches) (h : Nat) (samples : List Level) : List BBEvent :=
  if sw.preamblePerFrame then readFrameEvents h samples
  else wSlots (bitsOf 14 h) ++ .ddirIn :: (rSlots samples ++ [.ddirOut true])

/-- The fourteen header bits of a read frame of a dword read (D4). -/
def dwordReadBits (sw : Switches) (p e : Nat) : Nat :=
  match sw.dwordReadOp with
  | .read => c45ReadBits p e
  | .readInc => 0x0800 + p % 32 * 2 ^ 5 + e % 32

/-- The trace of a dword command from that of its four frames (D3). -/
def dwordEvents (sw : Switches) (aLo aHi dLo dHi : List BBEvent) : List BBEvent :=
  match sw.dwordSequence with
  | .aadd => aLo ++ aHi ++ dLo ++ dHi
  | .adad => aLo ++ dLo ++ aHi ++ dHi

/-- In every clock pulse the rising edge is followed at once by the falling one (R145). -/
def paired : List BBEvent → Bool
  | [] => true
  | .cout true :: .cout false :: es => paired es
  | .cout _ :: _ => false
  | .dout _ :: es => paired es
  | .ddirIn :: es => paired es
  | .ddirOut _ :: es => paired es
  | .dsample _ :: es => paired es
  | .opened :: es => paired es
  | .closed :: es => paired es

/-! ### Transfers of the SPI-framed engine -/

/-- The words a frame is sent as (R90): preamble, header, data phase. -/
def frameWords (f : Frame) : List (Nat × Nat) :=
  [(32, 0xFFFFFFFF), (16, (sfHeader f).toNat), (16, if isReadClass f.op then 0xFFFF else f.data.toNat)]

/-- A frame behind the first of a command, `h` its header and `d` its data word (D2, D23). -/
def nextWords (sw : Switches) (h d : Nat) : List (Nat × Nat) :=
  if sw.preamblePerFrame then [(32, 0xFFFFFFFF), (16, h), (16, d)] else [(16, h), (16, d)]

/-- The data word of a write-class frame with header `h` and data `d` (D5). -/
def writeWord (sw : Switches) (h d : Nat) : Nat := if sw.sfWriteDataIsHeader then h else d

/-- The words of one operation: its frames and, for Clause 22, the trailing flush (R90). -/
def transactionWords (t : Transaction) : List (Nat × Nat) :=
  t.frames.flatMap frameWords ++ (if t.trailingFlush then [(32, 0xFFFFFFFF)] else [])

/-- The transfers that send these words, with the words received: every one has `cs_change = false` (R210). -/
def transferEvents (sent : List (Nat × Nat)) (received : List Nat) : List SFEvent :=
  List.zipWith (fun p rx => .xfer p.1 p.2 false rx) sent received

/-- An instance after a register command that sent these words and completed with `Ok(v)`; every other field is as
before. -/
def SF.completed (f : SF) (sent : List (Nat × Nat)) (v : Value) : SF :=
  { f with
    seq := .idle
    trace := f.trace ++ transferEvents sent (f.upcoming (sent.map Prod.fst))
    results := f.results ++ [.ok v]
    env := { f.env with failures := f.env.failures.drop sent.length, received := f.env.received.drop sent.length }
    free := f.free + sent.length }

/-- The words received in the data phases of the read-class frames, in order, of all the words received (R195, R211):
each frame takes three transfers and a trailing flush one. -/
def dataWordsReceived : List Frame → List Nat → List U16
  | [], _ => []
  | f :: fs, rx =>
    (if isReadClass f.op then [mask 16 (rx.getD 2 0)] else []) ++ dataWordsReceived fs (rx.drop 3)

/-- The same for operations one after the other. -/
def operationWordsReceived : List Transaction → List Nat → List U16
  | [], _ => []
  | t :: ts, rx =>
    dataWordsReceived t.frames (rx.take (transactionWords t).length)
      ++ operationWordsReceived ts (rx.drop (transactionWords t).length)

/-! ### Symbols, one for each clock pulse (R208) -/

/-- What the master presents on the data wire at a clock pulse. -/
inductive Symbol where
  | drive (b : Level)
  | z
deriving DecidableEq, Repr

/-- The symbols of a bit-bang trace: at each rising clock edge, what the data line presents, `cur` to begin with. -/
def bbSymbols : Symbol → List BBEvent → List Symbol
  | _, [] => []
  | _, .dout b :: es => bbSymbols (.drive b) es
  | _, .ddirOut b :: es => bbSymbols (.drive b) es
  | _, .ddirIn :: es => bbSymbols .z es
  | cur, .cout true :: es => cur :: bbSymbols cur es
  | cur, .cout false :: es => bbSymbols cur es
  | cur, .dsample _ :: es => bbSymbols cur es
  | cur, .opened :: es => bbSymbols cur es
  | _, .closed :: es => bbSymbols .z es

/-- The symbols of SPI transfers: the bits of each word sent, the most significant first. -/
def sfSymbols (es : List SFEvent) : List Symbol :=
  es.flatMap (fun e =>
    match e with
    | .xfer n tx _ _ => (bitsOf n tx).map Symbol.drive
    | .opened => []
    | .closed => [])

/-- What the SPI-framed engine presents where the bit-bang engine presents a symbol: `1` for `Z` (R208). -/
def Symbol.onSpi : Symbol → Symbol
  | .drive b => .drive b
  | .z => .drive true

/-- The levels sampled in a bit-bang trace, in order. -/
def sampledLevels (es : List BBEvent) : List Level :=
  es.filterMap (fun e =>
    match e with
    | .dsample l => some l
    | .dout _ => none
    | .cout _ => none
    | .ddirIn => none
    | .ddirOut _ => none
    | .opened => none
    | .closed => none)

/-- The bits received in SPI transfers, one for each clock pulse. -/
def receivedBits (es : List SFEvent) : List Level :=
  es.flatMap (fun e =>
    match e with
    | .xfer n _ _ rx => bitsOf n rx
    | .opened => []
    | .closed => [])

/-- The bits at the positions that hold `Z`. -/
def bitsWhereReleased (symbols : List Symbol) (bits : List Level) : List Level :=
  (List.zip symbols bits).filterMap (fun p => if p.1 = .z then some p.2 else none)

/-! ### Timing (R285) -/

/-- The busy-wait units of one step of the bit-bang engine. -/
def LineOp.units (c : BBConfig) : LineOp → Nat
  | .wait .clock => c.clkDelay
  | .wait .setup => c.setupDelay
  | .wait .readSettle => c.readDelay
  | .element => 0
  | .frame => 0
  | .clk _ => 0
  | .data _ => 0
  | .sample _ => 0
  | .dirIn => 0
  | .dirOut _ => 0

/-- The busy-wait units of a sequence. -/
def busyUnits (c : BBConfig) (ops : List LineOp) : Nat := (ops.map (LineOp.units c)).sum

/-! ### What holds between commands -/

/-- The bit-bang instance between commands (R29, R42): the lines are distinct; while it is open both lines are
claimed, the clock line is an output with no bias, the data line has the pull-up; the sequencer is idle. -/
def BB.Inv (b : BB) : Prop :=
  b.cfg.dataLine ≠ b.cfg.clkLine ∧ b.seq = .idle ∧
    (b.isOpen = true → b.clk.claimed = true ∧ b.clk.dir = .output ∧ b.clk.bias = .none ∧
      b.data.claimed = true ∧ b.data.bias = .pullUp)

/-- The SPI-framed instance between commands (R29): a positive speed, three-wire mode, the port claimed while it is
open; the sequencer is idle. -/
def SF.Inv (f : SF) : Prop :=
  0 < f.cfg.spiSpeedHz ∧ f.cfg.threeWire = true ∧ f.seq = .idle ∧ (f.isOpen = true → f.spi.claimed = true)

/-- The state between commands. -/
def State.Inv (s : State) : Prop := s.bb.Inv ∧ s.sf.Inv

/-- The rest invariant of R43, but for the level the data line drives: an open engine holds the clock low and both
lines in output direction. -/
def BB.AtRest (b : BB) : Prop :=
  b.isOpen = true →
    b.clk.claimed = true ∧ b.clk.dir = .output ∧ b.clk.drive = false ∧
      b.data.claimed = true ∧ b.data.dir = .output ∧ b.data.bias = .pullUp

/-- A result that reports a failed collaborator call (R232). -/
def Result.isTransport : Result → Bool
  | .err (.transportIO _) => true
  | .err .notOpen => false
  | .err .parameterInvalid => false
  | .err .alreadyOpen => false
  | .ok _ => false

/-- The value of a batch from that of its first element and that of the others. -/
def Value.cons : Value → Value → Value
  | .u16 v, .u16s vs => .u16s (v :: vs)
  | .u32 v, .u32s vs => .u32s (v :: vs)
  | _, w => w

/-- The result of a batch whose first element completed with `Ok(v)`, from the result of the others. -/
def Result.cons (v : Value) : Result → Result
  | .ok w => .ok (v.cons w)
  | .err e => .err e

/-- The results an engine has delivered. -/
def State.resultsOf (e : Engine) (s : State) : List Result :=
  match e with
  | .bitbang => s.bb.results
  | .spi => s.sf.results

/-- The state with other results for an engine. -/
def State.withResults (e : Engine) (rs : List Result) (s : State) : State :=
  match e with
  | .bitbang => s.withBB { s.bb with results := rs }
  | .spi => s.withSF { s.sf with results := rs }

/-- The error a result reports. -/
def Result.error : Result → Option ErrorKind
  | .ok _ => none
  | .err e => some e

/-- The engine an instruction runs on is open. -/
def State.engineOpen (e : Engine) (s : State) : Bool :=
  match e with
  | .bitbang => s.bb.isOpen
  | .spi => s.sf.isOpen

/-- The totals of R177: clock pulses, samples, direction changes, line events. -/
structure LineTotals where
  pulses : Nat
  samples : Nat
  turns : Nat
  events : Nat
deriving DecidableEq, Repr

/-- The totals of so many elements. -/
def LineTotals.times (n : Nat) (t : LineTotals) : LineTotals :=
  { pulses := n * t.pulses, samples := n * t.samples, turns := n * t.turns, events := n * t.events }

/-- A value of the type the command returns (R18, R96); a batch read returns one word for each register. -/
def Value.fits (i : Instr) (v : Value) : Prop :=
  match i with
  | .c22Read _ _ _ _ _ => ∃ w, v = .u16 w
  | .c45ReadInc _ _ _ _ _ => ∃ w, v = .u16 w
  | .c45Read _ _ _ _ _ => ∃ w, v = .u16 w
  | .bbReadC22 _ _ => ∃ w, v = .u16 w
  | .sfReadC22 _ _ => ∃ w, v = .u16 w
  | .bbReadC45 _ _ _ => ∃ w, v = .u16 w
  | .sfReadC45 _ _ _ => ∃ w, v = .u16 w
  | .bbReadC45Dword _ _ _ => ∃ w, v = .u32 w
  | .bbReadC22Registers _ rs => ∃ ws, v = .u16s ws ∧ ws.length = rs.length
  | .sfReadC22Registers _ rs => ∃ ws, v = .u16s ws ∧ ws.length = rs.length
  | .bbReadC45Registers _ _ rs => ∃ ws, v = .u16s ws ∧ ws.length = rs.length
  | .sfReadC45Registers _ _ rs => ∃ ws, v = .u16s ws ∧ ws.length = rs.length
  | .bbReadC45DwordRegisters _ _ rs => ∃ ws, v = .u32s ws ∧ ws.length = rs.length
  | _ => v = .unit

/-! ### What the lines hold, read off a trace -/

/-- The level of the clock line, the level of the data line and the direction of the data line after one event. -/
def linesAfterEvent (l : Level × Level × Direction) (e : BBEvent) : Level × Level × Direction :=
  match e with
  | .cout c => (c, l.2.1, l.2.2)
  | .dout d => (l.1, d, l.2.2)
  | .ddirIn => (l.1, l.2.1, .input)
  | .ddirOut d => (l.1, d, .output)
  | .dsample _ => l
  | .opened => l
  | .closed => l

/-- The same after a list of events. -/
def linesAfter (l : Level × Level × Direction) (es : List BBEvent) : Level × Level × Direction := es.foldl linesAfterEvent l

/-- The level of the clock line, the level of the data line and the direction of the data line of an instance. -/
def BB.lines (b : BB) : Level × Level × Direction := (b.clk.drive, b.data.drive, b.data.dir)

/-! ### Without what the environment supplied -/

/-- A value with every supplied bit replaced by 0. -/
def Value.blind : Value → Value
  | .unit => .unit
  | .u16 _ => .u16 0
  | .u32 _ => .u32 0
  | .u16s vs => .u16s (vs.map (fun _ => 0))
  | .u32s vs => .u32s (vs.map (fun _ => 0))

/-- A result with every supplied bit replaced by 0; an error stays as it is. -/
def Result.blind : Result → Result
  | .ok v => .ok v.blind
  | .err e => .err e

/-- A transfer without the word received. -/
def SFEvent.blind : SFEvent → SFEvent
  | .xfer n tx cs _ => .xfer n tx cs 0
  | .opened => .opened
  | .closed => .closed

/-- A bit-bang instance without the levels the environment supplied and will supply. -/
def BB.blind (b : BB) : BB :=
  { b with trace := b.trace.map BBEvent.blind, results := b.results.map Result.blind,
           env := { b.env with levels := [], floatHigh := false } }

/-- An SPI-framed instance without the words the environment supplied and will supply. -/
def SF.blind (f : SF) : SF :=
  { f with trace := f.trace.map SFEvent.blind, results := f.results.map Result.blind,
           env := { f.env with received := [], floatHigh := false } }

/-- A state without what the environments supplied and will supply. -/
def State.blind (s : State) : State := { s with bb := s.bb.blind, sf := s.sf.blind }

/-- An outcome without what the environments supplied. -/
def blindOutcome : Host.Outcome State Fault Refusal → Host.Outcome State Fault Refusal
  | .next s => .next s.blind
  | .fault f => .fault f
  | .refused r => .refused r

/-- The bit-bang instance whose environment fails no call. -/
def BB.quieted (b : BB) : BB := { b with env := { b.env with failures := [] } }

/-- The SPI-framed instance whose environment fails no transfer. -/
def SF.quieted (f : SF) : SF := { f with env := { f.env with failures := [] } }

end Sys2Proof.Machine

namespace Sys2Proof

open Machine

/-! ### What the rules say of each instruction -/

/-- How many words a read command of both engines returns; 0 for a write. -/
def Instr.wordsReturned : Instr → Nat
  | .bbReadC22 _ _ => 1
  | .bbReadC45 _ _ _ => 1
  | .bbReadC22Registers _ rs => rs.length
  | .bbReadC45Registers _ _ rs => rs.length
  | _ => 0

/-- The value of a command of both engines, from the words it read. -/
def Instr.valueOf (ws : List U16) : Instr → Value
  | .bbReadC22 _ _ => .u16 (ws.headD 0)
  | .bbReadC45 _ _ _ => .u16 (ws.headD 0)
  | .bbReadC22Registers _ _ => .u16s ws
  | .bbReadC45Registers _ _ _ => .u16s ws
  | _ => .unit

/-- The engine an instruction runs on. -/
def Instr.engine (i : Instr) : Engine := (encode i).engine

/-- The instruction is the `open` or the `close` of its engine; every other begins with the open check (R144, R209). -/
def Instr.isLifecycle (i : Instr) : Bool :=
  i == .bbOpen || i == .bbClose || i == .sfOpen || i == .sfClose

/-- The command of the SPI-framed engine that the same call gives on that engine (R96, column "engines"). -/
def Instr.onSpi : Instr → Option Instr
  | .bbReadC22 p r => some (.sfReadC22 p r)
  | .bbWriteC22 p r v => some (.sfWriteC22 p r v)
  | .bbReadC45 p d r => some (.sfReadC45 p d r)
  | .bbWriteC45 p d r v => some (.sfWriteC45 p d r v)
  | .bbReadC22Registers p rs => some (.sfReadC22Registers p rs)
  | .bbWriteC22Registers p rs vs => some (.sfWriteC22Registers p rs vs)
  | .bbReadC45Registers p d rs => some (.sfReadC45Registers p d rs)
  | .bbWriteC45Registers p d rs vs => some (.sfWriteC45Registers p d rs vs)
  | _ => none

/-- The instruction with every operand 0; the engine, the kind and the lengths of lists stay. -/
def Instr.skeleton : Instr → Instr
  | .c22Write e _ _ _ _ => .c22Write e 0 0 0 0
  | .c22Read e _ _ _ _ => .c22Read e 0 0 0 0
  | .c45Address e _ _ _ _ => .c45Address e 0 0 0 0
  | .c45Write e _ _ _ _ => .c45Write e 0 0 0 0
  | .c45ReadInc e _ _ _ _ => .c45ReadInc e 0 0 0 0
  | .c45Read e _ _ _ _ => .c45Read e 0 0 0 0
  | .hdrC22Write _ _ => .hdrC22Write 0 0
  | .hdrC22Read _ _ => .hdrC22Read 0 0
  | .hdrC45Address _ _ => .hdrC45Address 0 0
  | .hdrC45Write _ _ => .hdrC45Write 0 0
  | .hdrC45ReadInc _ _ => .hdrC45ReadInc 0 0
  | .hdrC45Read _ _ => .hdrC45Read 0 0
  | .bbOpen => .bbOpen
  | .sfOpen => .sfOpen
  | .bbClose => .bbClose
  | .sfClose => .sfClose
  | .bbReadC22 _ _ => .bbReadC22 0 0
  | .sfReadC22 _ _ => .sfReadC22 0 0
  | .bbWriteC22 _ _ _ => .bbWriteC22 0 0 0
  | .sfWriteC22 _ _ _ => .sfWriteC22 0 0 0
  | .bbReadC45 _ _ _ => .bbReadC45 0 0 0
  | .sfReadC45 _ _ _ => .sfReadC45 0 0 0
  | .bbWriteC45 _ _ _ _ => .bbWriteC45 0 0 0 0
  | .sfWriteC45 _ _ _ _ => .sfWriteC45 0 0 0 0
  | .bbReadC45Dword _ _ _ => .bbReadC45Dword 0 0 0
  | .bbWriteC45Dword _ _ _ _ => .bbWriteC45Dword 0 0 0 0
  | .bbReadC22Registers _ rs => .bbReadC22Registers 0 (rs.map (fun _ => 0))
  | .sfReadC22Registers _ rs => .sfReadC22Registers 0 (rs.map (fun _ => 0))
  | .bbWriteC22Registers _ rs vs => .bbWriteC22Registers 0 (rs.map (fun _ => 0)) (vs.map (fun _ => 0))
  | .sfWriteC22Registers _ rs vs => .sfWriteC22Registers 0 (rs.map (fun _ => 0)) (vs.map (fun _ => 0))
  | .bbReadC45Registers _ _ rs => .bbReadC45Registers 0 0 (rs.map (fun _ => 0))
  | .sfReadC45Registers _ _ rs => .sfReadC45Registers 0 0 (rs.map (fun _ => 0))
  | .bbWriteC45Registers _ _ rs vs => .bbWriteC45Registers 0 0 (rs.map (fun _ => 0)) (vs.map (fun _ => 0))
  | .sfWriteC45Registers _ _ rs vs => .sfWriteC45Registers 0 0 (rs.map (fun _ => 0)) (vs.map (fun _ => 0))
  | .bbReadC45DwordRegisters _ _ rs => .bbReadC45DwordRegisters 0 0 (rs.map (fun _ => 0))
  | .bbWriteC45DwordRegisters _ _ rs vs => .bbWriteC45DwordRegisters 0 0 (rs.map (fun _ => 0)) (vs.map (fun _ => 0))

/-- A batch command with at least one element, as the single command of the first element and the batch command of the
others (R173). -/
def Instr.firstAndRest : Instr → Option (Instr × Instr)
  | .bbReadC22Registers p (r :: rs) => some (.bbReadC22 p r, .bbReadC22Registers p rs)
  | .sfReadC22Registers p (r :: rs) => some (.sfReadC22 p r, .sfReadC22Registers p rs)
  | .bbWriteC22Registers p (r :: rs) (v :: vs) => some (.bbWriteC22 p r v, .bbWriteC22Registers p rs vs)
  | .sfWriteC22Registers p (r :: rs) (v :: vs) => some (.sfWriteC22 p r v, .sfWriteC22Registers p rs vs)
  | .bbReadC45Registers p d (r :: rs) => some (.bbReadC45 p d r, .bbReadC45Registers p d rs)
  | .sfReadC45Registers p d (r :: rs) => some (.sfReadC45 p d r, .sfReadC45Registers p d rs)
  | .bbWriteC45Registers p d (r :: rs) (v :: vs) => some (.bbWriteC45 p d r v, .bbWriteC45Registers p d rs vs)
  | .sfWriteC45Registers p d (r :: rs) (v :: vs) => some (.sfWriteC45 p d r v, .sfWriteC45Registers p d rs vs)
  | .bbReadC45DwordRegisters p d (r :: rs) => some (.bbReadC45Dword p d r, .bbReadC45DwordRegisters p d rs)
  | .bbWriteC45DwordRegisters p d (r :: rs) (v :: vs) =>
    some (.bbWriteC45Dword p d r v, .bbWriteC45DwordRegisters p d rs vs)
  | _ => none

/-- What R176 says the data line drives after a command that completes with `Ok`; `none` for a batch command with an empty
list and for an instruction R176 does not speak of. -/
def Instr.endLevel : Instr → Option Level
  | .bbReadC22 _ _ => some true
  | .bbWriteC22 _ _ _ => some true
  | .bbReadC45 _ _ _ => some true
  | .bbWriteC45 _ _ _ v => some (v.testBit 0)
  | .bbReadC45Dword _ _ _ => some true
  | .bbWriteC45Dword _ _ _ v => some (v.testBit 16)
  | .bbReadC22Registers _ rs => if rs.isEmpty then none else some true
  | .bbWriteC22Registers _ rs _ => if rs.isEmpty then none else some true
  | .bbReadC45Registers _ _ rs => if rs.isEmpty then none else some true
  | .bbWriteC45Registers _ _ _ vs => vs.getLast?.map (fun v => v.testBit 0)
  | .bbReadC45DwordRegisters _ _ rs => if rs.isEmpty then none else some true
  | .bbWriteC45DwordRegisters _ _ _ vs => vs.getLast?.map (fun v => v.testBit 16)
  | _ => none

/-- A batch command with an empty list of registers. -/
def Instr.isEmptyBatch : Instr → Bool
  | .bbReadC22Registers _ rs => rs.isEmpty
  | .bbWriteC22Registers _ rs _ => rs.isEmpty
  | .bbReadC45Registers _ _ rs => rs.isEmpty
  | .bbWriteC45Registers _ _ rs _ => rs.isEmpty
  | .bbReadC45DwordRegisters _ _ rs => rs.isEmpty
  | .bbWriteC45DwordRegisters _ _ rs _ => rs.isEmpty
  | .sfReadC22Registers _ rs => rs.isEmpty
  | .sfWriteC22Registers _ rs _ => rs.isEmpty
  | .sfReadC45Registers _ _ rs => rs.isEmpty
  | .sfWriteC45Registers _ _ rs _ => rs.isEmpty
  | _ => false

/-- The table of R177 for the register commands of the bit-bang engine. -/
def Instr.lineTotals : Instr → Option LineTotals
  | .bbReadC22 _ _ => some ⟨96, 18, 2, 290⟩
  | .bbWriteC22 _ _ _ => some ⟨96, 0, 0, 288⟩
  | .bbReadC45 _ _ _ => some ⟨128, 18, 2, 386⟩
  | .bbWriteC45 _ _ _ _ => some ⟨128, 0, 0, 384⟩
  | .bbReadC45Dword _ _ _ => some ⟨256, 36, 4, 772⟩
  | .bbWriteC45Dword _ _ _ _ => some ⟨256, 0, 0, 768⟩
  | .bbReadC22Registers _ rs => some (LineTotals.times rs.length ⟨96, 18, 2, 290⟩)
  | .bbWriteC22Registers _ rs _ => some (LineTotals.times rs.length ⟨96, 0, 0, 288⟩)
  | .bbReadC45Registers _ _ rs => some (LineTotals.times rs.length ⟨128, 18, 2, 386⟩)
  | .bbWriteC45Registers _ _ rs _ => some (LineTotals.times rs.length ⟨128, 0, 0, 384⟩)
  | .bbReadC45DwordRegisters _ _ rs => some (LineTotals.times rs.length ⟨256, 36, 4, 772⟩)
  | .bbWriteC45DwordRegisters _ _ rs _ => some (LineTotals.times rs.length ⟨256, 0, 0, 768⟩)
  | _ => none

/-- A write batch whose lists differ in length (R173 (e)). -/
def Instr.listsDiffer : Instr → Bool
  | .bbWriteC22Registers _ rs vs => rs.length != vs.length
  | .sfWriteC22Registers _ rs vs => rs.length != vs.length
  | .bbWriteC45Registers _ _ rs vs => rs.length != vs.length
  | .sfWriteC45Registers _ _ rs vs => rs.length != vs.length
  | .bbWriteC45DwordRegisters _ _ rs vs => rs.length != vs.length
  | _ => false

end Sys2Proof
end

