-- ==== Sys2Proof/Certificates/Slice0/Obligations.lean ====
section
/-! DEFINITION. The statements for the provers, from the numbered rules of spec/. Each docstring names the rule; the terms are
those of Sys2Proof/Safety.lean. Unless a premise says otherwise a statement holds for every state. -/

open Sys2Proof Sys2Proof.Machine Sys2Proof.Codec

/-! ### Encoding -/

/-- Decoding the encoding of any instruction gives it back, with whatever words stand behind it left over; the form of the
words of a command is the model's (assumption log 1), the frames and headers are the spec's (R80 to R87, R121). -/
def Obligations.DecodeEncodeRoundTrip : Prop :=
  ∀ (i : Instr) (rest : List Nat),
    decode (encode i).engine (encode i).format ((encode i).words ++ rest) = .ok (i, rest) ∧
      decodeRequest (encode i) = .ok i

/-- Words written out from the encodings of R82 to R87, R100 and R96 decode to the instructions they stand for. The spec's
labels and frames do not name an engine: that a label and a frame are read for the bit-bang engine, and that the zero words
behind a label are its operands, is the model's (assumption log 2). -/
def Obligations.WrittenOutWordsDecode : Prop :=
  decodeTableWord 32 0x5196BEEF = some (.c22Write .bitbang 3 5 0b10 0xBEEF) ∧
  decodeTableWord 32 0x61960000 = some (.c22Read .bitbang 3 5 0b10 0) ∧
  decodeTableWord 32 0x009E8000 = some (.c45Address .bitbang 1 7 0b10 0x8000) ∧
  decodeTableWord 32 0x109E1234 = some (.c45Write .bitbang 1 7 0b10 0x1234) ∧
  decodeTableWord 32 0x209F0000 = some (.c45ReadInc .bitbang 1 7 0b11 0) ∧
  decodeTableWord 32 0x309F1234 = some (.c45Read .bitbang 1 7 0b11 0x1234) ∧
  decodeTableWord 16 0x5196 = some (.hdrC22Write 3 5) ∧
  decodeTableWord 16 0x6197 = some (.hdrC22Read 3 5) ∧
  decodeTableWord 16 0x309F = some (.hdrC45Read 1 7) ∧
  decodeTableWord 8 0x00 = some .bbOpen ∧
  decodeTableWord 8 0x13 = some (.bbWriteC45 0 0 0 0) ∧
  decodeTableWord 8 0x24 = some (.bbReadC45DwordRegisters 0 0 [])

/-- The other direction, for the rows that are bit-exact: a word that decodes to a frame or header row is the encoding of
what it decodes to, so no bit of it is dropped (R80, R95, R100). -/
def Obligations.FrameAndHeaderDecodingLosesNoBit : Prop :=
  ∀ (e : Engine) (w : Nat) (i : Instr),
    (decodeRequest ⟨e, .frame32, [w]⟩ = .ok i → encode i = ⟨e, .frame32, [w]⟩) ∧
    (decodeRequest ⟨e, .hdr16, [w]⟩ = .ok i → encode i = ⟨e, .hdr16, [w]⟩)

/-- Exactly the ten reserved `(ST, OP)` pairs have no frame row (R98, R116), and a label the table does not have names no
command of either engine (R96). That the decoder answers by name instead of with an instruction is the model's (assumption
log 1, 22); a step still sends such a frame (R98), which `FramesWithoutARowAreSent` states. -/
def Obligations.ReservedCodesAreRejected : Prop :=
  (∀ (e : Engine) (w : Nat), w < 2 ^ 32 →
    (decodeRequest ⟨e, .frame32, [w]⟩ = .error .reservedFrame ↔
      2 ≤ w / 2 ^ 30 ∨ w / 2 ^ 28 = 0b0100 ∨ w / 2 ^ 28 = 0b0111)) ∧
  (∀ (e : Engine) (label : Nat) (ws : List Nat),
    label ∉ [0x00, 0x01, 0x10, 0x11, 0x12, 0x13, 0x14, 0x15, 0x20, 0x21, 0x22, 0x23, 0x24, 0x25] →
    decodeRequest ⟨e, .cmd8, label :: ws⟩ = .error (.unknownLabel label))

/-- R206: the four dword commands do not exist on the SPI-framed engine and a host cannot issue them there. That the gap is
preserved is the spec's own decision (D29); that a step refuses such a request, by this name, is the model's (assumption
log 1). -/
def Obligations.SpiHasNoDwordCommands : Prop :=
  (∀ (i : Instr), i.engine = .spi →
    (∀ p e r, i ≠ .bbReadC45Dword p e r) ∧ (∀ p e r v, i ≠ .bbWriteC45Dword p e r v) ∧
    (∀ p e rs, i ≠ .bbReadC45DwordRegisters p e rs) ∧ (∀ p e rs vs, i ≠ .bbWriteC45DwordRegisters p e rs vs)) ∧
  (∀ (s : State) (label : Nat) (ws : List Nat) (rest : List Request),
    label ∈ [0x14, 0x15, 0x24, 0x25] → s.requests = ⟨.spi, .cmd8, label :: ws⟩ :: rest →
    s.board.contended .spi = false → step s = .refused (.badRequest .notOnThisEngine))

/-- R111: where `encode_header` places the five fields, masked; `|` and `+` agree; the corner cases and the example. -/
def Obligations.EncodeHeaderPlacesFields : Prop :=
  (∀ st op pad dad ta : Nat,
    (encodeHeader st op pad dad ta).toNat =
      st % 4 * 2 ^ 14 + op % 4 * 2 ^ 12 + pad % 32 * 2 ^ 7 + dad % 32 * 2 ^ 2 + ta % 4) ∧
  encodeHeader 0 0 0 0 0 = 0x0000 ∧ encodeHeader 3 3 0x1F 0x1F 3 = 0xFFFF ∧
  encodeHeader 3 0 0 0 0 = 0xC000 ∧ encodeHeader 0 3 0 0 0 = 0x3000 ∧ encodeHeader 0 0 0x1F 0 0 = 0x0F80 ∧
  encodeHeader 0 0 0 0x1F 0 = 0x007C ∧ encodeHeader 0 0 0 0 3 = 0x0003 ∧
  encodeHeader 1 1 0x23 0x25 2 = encodeHeader 1 1 3 5 2 ∧ encodeHeader 0b01 0b01 3 5 0b10 = 0x5196

/-- R113 and R114: where the frame value holds its fields, both ways, with the rules' examples. The spec marks both rules as
derived from R111 and R112. -/
def Obligations.FrameFieldPlaces : Prop :=
  (∀ f : Frame,
    (encodeFrame f).toNat =
      f.st.toNat * 2 ^ 30 + f.op.toNat * 2 ^ 28 + f.pad.toNat * 2 ^ 23 + f.dad.toNat * 2 ^ 18 + f.ta.toNat * 2 ^ 16
        + f.data.toNat) ∧
  (∀ w : U32,
    (decodeFrame w).st.toNat = w.toNat / 2 ^ 30 ∧ (decodeFrame w).op.toNat = w.toNat / 2 ^ 28 % 4 ∧
    (decodeFrame w).pad.toNat = w.toNat / 2 ^ 23 % 32 ∧ (decodeFrame w).dad.toNat = w.toNat / 2 ^ 18 % 32 ∧
    (decodeFrame w).ta.toNat = w.toNat / 2 ^ 16 % 4 ∧ (decodeFrame w).data.toNat = w.toNat % 2 ^ 16) ∧
  encodeFrame ⟨1, 1, 3, 5, 2, 0xBEEF⟩ = 0x5196BEEF ∧ decodeFrame 0x309F1234 = ⟨0, 3, 1, 7, 3, 0x1234⟩

/-- R115: the round-trip laws of frames and of headers, and that `encode_frame` is injective. The spec marks the rule as
derived from R111 to R114. -/
def Obligations.CodecRoundTrips : Prop :=
  (∀ w : U32, encodeFrame (decodeFrame w) = w) ∧
  (∀ f : Frame, decodeFrame (encodeFrame f) = f) ∧
  (∀ st op pad dad ta : Nat,
    decodeHeader (encodeHeader st op pad dad ta) = (mask 2 st, mask 2 op, mask 5 pad, mask 5 dad, mask 2 ta)) ∧
  (∀ h : U16, ∀ st op pad dad ta, decodeHeader h = (st, op, pad, dad, ta) →
    encodeHeader st.toNat op.toNat pad.toNat dad.toNat ta.toNat = h) ∧
  (∀ f g : Frame, encodeFrame f = encodeFrame g → f = g)

/-- R118: the fourteen header bits before the turnaround, which the bit-bang engine sends as one run; the example. The spec
marks the rule as derived from R111. -/
def Obligations.HeaderBitsBeforeTurnaround : Prop :=
  (∀ st op pad dad : Nat,
    header14 st op pad dad = (encodeHeader st op pad dad 0).extractLsb' 2 14 ∧
    (header14 st op pad dad).getLsbD 13 = (mask 2 st).getLsbD 1 ∧
    (header14 st op pad dad).getLsbD 0 = (mask 5 dad).getLsbD 0) ∧
  (∀ f : Frame,
    Prim.sendHeader14 f =
      Prim.writeBits (header14 f.st.toNat f.op.toNat f.pad.toNat f.dad.toNat).toNat 14) ∧
  header14 0b01 0b10 3 5 = 0b01100001100101#14 ∧ header14 0b01 0b10 3 5 = 0x1865

/-- R121: the SPI header word keeps every field of the frame but the turnaround, which is `11` for a read-class opcode and
otherwise the frame's; the examples. -/
def Obligations.SpiHeaderTurnaround : Prop :=
  (∀ f : Frame,
    decodeHeader (sfHeader f) = (f.st, f.op, f.pad, f.dad, if f.op.getLsbD 1 then 0b11#2 else f.ta)) ∧
  sfHeader (Operands.c22Read 3 5) = 0x6197 ∧ sfHeader (Operands.c22Write 3 5 0xBEEF) = 0x5196 ∧
  sfHeader (Operands.c45Read 1 7) = 0x309F ∧ sfHeader (Operands.c45Address 1 7 0x8000) = 0x009E

/-- R120: splitting and joining a dword, with the rule's examples. -/
def Obligations.DwordSplitAndJoin : Prop :=
  (∀ x : Nat, (Operands.splitDword x).1.toNat = x &&& 0xFFFF ∧ (Operands.splitDword x).2.toNat = (x >>> 16) % 2 ^ 16) ∧
  (∀ lo hi : U16, (Operands.joinDword lo hi).toNat = (hi.toNat <<< 16) ||| lo.toNat) ∧
  (∀ x : Nat, Operands.joinDword (Operands.splitDword x).1 (Operands.splitDword x).2 = mask 32 x) ∧
  Operands.splitDword 0x12345678 = (0x5678, 0x1234) ∧ Operands.joinDword 0x5678 0x1234 = 0x12345678 ∧
  Operands.splitDword 0x1FFFF0000 = (0x0000, 0xFFFF)

/-- The kinds of R116 and the classes of R117, and the frame constructors of R119: each is of its kind, masks its operands
and carries the turnaround `10`. -/
def Obligations.FrameKindsAndConstructors : Prop :=
  (∀ st op : U2, classify st op = .reserved ↔ 2 ≤ st.toNat ∨ (st = 1 ∧ (op = 0 ∨ op = 3))) ∧
  (∀ op : U2, isReadClass op = true ↔ op = 0b10 ∨ op = 0b11) ∧
  (∀ p r v : Nat,
    classify (Operands.c22Write p r v).st (Operands.c22Write p r v).op = .c22Write ∧
    classify (Operands.c22Read p r).st (Operands.c22Read p r).op = .c22Read ∧
    classify (Operands.c45Address p r v).st (Operands.c45Address p r v).op = .c45Address ∧
    classify (Operands.c45Write p r v).st (Operands.c45Write p r v).op = .c45Write ∧
    classify (Operands.c45ReadInc p r).st (Operands.c45ReadInc p r).op = .c45ReadInc ∧
    classify (Operands.c45Read p r).st (Operands.c45Read p r).op = .c45Read) ∧
  (∀ p r v : Nat,
    ∀ f ∈ [Operands.c22Write p r v, Operands.c22Read p r, Operands.c45Address p r v, Operands.c45Write p r v,
        Operands.c45ReadInc p r, Operands.c45Read p r],
      f.pad.toNat = p % 32 ∧ f.dad.toNat = r % 32 ∧ f.ta = 0b10 ∧
        f.data.toNat = if isReadClass f.op then 0 else v % 65536)

/-! ### The machine -/

/-- What construction leaves (R42, R270): both engines closed, nothing claimed, nothing driven, nothing emitted, the
sequencer idle, the configuration that of the constructor; and the invariant of every state between commands holds. That the
constructor's arguments are constants without a body is the model's (assumption log 3), and so is that the switches of R13
are a field at the spec's values (assumption log 13). -/
def Obligations.ResetState : Prop :=
  State.reset.Inv ∧ State.reset.bb.isOpen = false ∧ State.reset.sf.isOpen = false ∧
  State.reset.bb.clk.claimed = false ∧ State.reset.bb.data.claimed = false ∧ State.reset.sf.spi.claimed = false ∧
  State.reset.bb.clk.electrical = .z ∧ State.reset.bb.data.electrical = .z ∧
  State.reset.bb.trace = [] ∧ State.reset.sf.trace = [] ∧
  State.reset.bb.results = [] ∧ State.reset.sf.results = [] ∧ State.reset.bb.seq = .idle ∧ State.reset.sf.seq = .idle ∧
  State.reset.bb.cfg.clkLine = Config.clkLine ∧ State.reset.bb.cfg.dataLine = Config.dataLine ∧
  State.reset.bb.cfg.clkDelay = Config.clkDelay ∧ State.reset.bb.cfg.setupDelay = Config.setupDelay ∧
  State.reset.bb.cfg.readDelay = Config.readDelay ∧ State.reset.sf.cfg.spiPath = Config.spiPath ∧
  State.reset.sf.cfg.spiSpeedHz = Config.spiSpeedHz ∧ State.reset.sf.cfg.threeWire = true ∧
  State.reset.switches = Switches.normative

/-- Every step keeps the invariant of the states between commands (R26, R27, R29, R42): the two lines stay distinct, an open
engine has claimed its lines or its port, the clock line stays an output without bias, the data line keeps its pull-up,
the speed stays positive, three-wire mode stays on and the sequencer is idle. -/
def Obligations.StepKeepsInv : Prop :=
  ∀ s t : State, s.Inv → step s = .next t → t.Inv

/-- The rest invariant of R43 (but for the level of the data line, which `EndOfCommandLines` gives): as long as no command
ends with a failed collaborator call, an open bit-bang engine holds the clock low and the data line in output
direction with its pull-up between commands. -/
def Obligations.RestInvariantKept : Prop :=
  ∀ s t : State, s.Inv → s.bb.AtRest → step s = .next t →
    (∀ r ∈ t.bb.results.drop s.bb.results.length, r.isTransport = false) → t.bb.AtRest

/-- At rest no instruction faults or is refused: each completes, with a value or with an error (R236, R284). -/
def Obligations.EveryInstructionCompletesAtRest : Prop :=
  ∀ (i : Instr) (s : State), s.Inv → s.bb.AtRest → ∃ t, exec i s = .next t

/-- A step takes the host's next command off the list and runs the instruction it decodes to (R62). -/
def Obligations.StepRunsTheDecodedCommand : Prop :=
  ∀ (s : State) (r : Request) (rest : List Request) (i : Instr),
    s.requests = r :: rest → s.board.contended r.engine = false → decodeRequest r = .ok i →
    step s = exec i (s.withRequests rest)

/-- The other steps: a host that issues nothing leaves the state as it is (R287; that this is a step at all is the model's,
assumption log 10); a second master on the engine's bus is `OwnershipViolated` (R63, R236); a request for something the
block does not have (R96, R99, R206) is refused, which is the model's (assumption log 1) and leaves out the frames and header
words a frame-level primitive sends (R98; `FramesWithoutARowAreSent`). -/
def Obligations.StepWithoutAnInstruction : Prop :=
  (∀ s : State, s.requests = [] → step s = .next s) ∧
  (∀ (s : State) (r : Request) (rest : List Request), s.requests = r :: rest →
    (s.board.bbBus = s.board.sfBus ∨ s.board.busOf r.engine ∈ s.board.otherMasters) →
    step s = .fault .ownershipViolated) ∧
  (∀ (s : State) (r : Request) (rest : List Request) (why : Reject), s.requests = r :: rest →
    s.board.bbBus ≠ s.board.sfBus → s.board.busOf r.engine ∉ s.board.otherMasters →
    decodeRequest r = .error why → requestedFrame r = none → step s = .refused (.badRequest why))

/-- A word of the opcode table put where the next step takes its command is run by that step (assumption log 1, 2: the
message form and the engine of a label are the model's). -/
def Obligations.TableWordIsRun : Prop :=
  ∀ (s : State) (nbits w : Nat) (i : Instr),
    decodeTableWord nbits w = some i → s.board.contended i.engine = false → step (s.withFetchWord nbits w) = exec i s

/-! ### Opening and closing -/

/-- R137: `bb.open` on an open engine; on a closed one; and where one of the two lines cannot be claimed. That a second
`open` is refused, the order of the lines and that a failed `open` leaves nothing claimed are the spec's own choice (D12). -/
def Obligations.BbOpen : Prop :=
  ∀ s : State,
    (s.bb.isOpen = true → exec .bbOpen s = .next (s.withBB (s.bb.raise .alreadyOpen))) ∧
    (s.bb.isOpen = false → s.bb.env.failures.getD 0 none = none → s.bb.env.failures.getD 1 none = none →
      exec .bbOpen s = .next (s.withBB
        { s.bb with
          isOpen := true
          clk := { claimed := true, dir := .output, drive := false, bias := .none }
          data := { claimed := true, dir := .output, drive := true, bias := .pullUp }
          seq := .idle
          trace := s.bb.trace ++ [.opened]
          results := s.bb.results ++ [.ok .unit]
          env := { s.bb.env with failures := s.bb.env.failures.drop 2 } })) ∧
    (∀ f, s.bb.isOpen = false →
      s.bb.env.failures.getD 0 none = some f ∨
        (s.bb.env.failures.getD 0 none = none ∧ s.bb.env.failures.getD 1 none = some f) →
      ∃ t, exec .bbOpen s = .next t ∧ t.bb.isOpen = false ∧ t.bb.clk.claimed = false ∧ t.bb.data.claimed = false ∧
        t.bb.trace = s.bb.trace ∧ t.bb.results = s.bb.results ++ [.err (.transportIO f)])

/-- R138: `bb.close` on a closed engine does nothing; on an open one it releases both lines; where a line cannot be released
the engine is closed all the same. The idempotent `close`, the order of the lines and what a failed `close` leaves are the
spec's own choice (D12, D22). -/
def Obligations.BbClose : Prop :=
  ∀ s : State,
    (s.bb.isOpen = false → exec .bbClose s = .next (s.withBB (s.bb.deliver (.ok .unit)))) ∧
    (s.bb.isOpen = true → s.bb.env.failures.getD 0 none = none → s.bb.env.failures.getD 1 none = none →
      ∃ t, exec .bbClose s = .next t ∧ t.bb.isOpen = false ∧ t.bb.clk.claimed = false ∧ t.bb.data.claimed = false ∧
        t.bb.clk.electrical = .z ∧ t.bb.data.electrical = .z ∧ t.bb.trace = s.bb.trace ++ [.closed] ∧
        t.bb.results = s.bb.results ++ [.ok .unit] ∧ t.bb.cfg = s.bb.cfg ∧ t.sf = s.sf) ∧
    (∀ f, s.bb.isOpen = true →
      s.bb.env.failures.getD 0 none = some f ∨
        (s.bb.env.failures.getD 0 none = none ∧ s.bb.env.failures.getD 1 none = some f) →
      ∃ t, exec .bbClose s = .next t ∧ t.bb.isOpen = false ∧ t.bb.cfg = s.bb.cfg ∧
        t.bb.results = s.bb.results ++ [.err (.transportIO f)])

/-- R191 and R192: `sf.open` and `sf.close`. `AlreadyOpen`, the idempotent `close` and what a failed `close` leaves are the
spec's own choice (D12, D22). -/
def Obligations.SfOpenAndClose : Prop :=
  ∀ s : State,
    (s.sf.isOpen = true → exec .sfOpen s = .next (s.withSF (s.sf.raise .alreadyOpen))) ∧
    (s.sf.isOpen = false → s.sf.env.failures.getD 0 none = none →
      exec .sfOpen s = .next (s.withSF
        { s.sf with
          isOpen := true
          spi := { claimed := true }
          seq := .idle
          trace := s.sf.trace ++ [.opened]
          results := s.sf.results ++ [.ok .unit]
          env := { s.sf.env with failures := s.sf.env.failures.drop 1 } })) ∧
    (∀ f, s.sf.isOpen = false → s.sf.env.failures.getD 0 none = some f →
      ∃ t, exec .sfOpen s = .next t ∧ t.sf.isOpen = false ∧ t.sf.spi = s.sf.spi ∧ t.sf.trace = s.sf.trace ∧
        t.sf.results = s.sf.results ++ [.err (.transportIO f)]) ∧
    (s.sf.isOpen = false → exec .sfClose s = .next (s.withSF (s.sf.deliver (.ok .unit)))) ∧
    (s.sf.isOpen = true → s.sf.env.failures.getD 0 none = none →
      exec .sfClose s = .next (s.withSF
        { s.sf with
          isOpen := false
          spi := { claimed := false }
          seq := .idle
          trace := s.sf.trace ++ [.closed]
          results := s.sf.results ++ [.ok .unit]
          env := { s.sf.env with failures := s.sf.env.failures.drop 1 } })) ∧
    (∀ f, s.sf.isOpen = true → s.sf.env.failures.getD 0 none = some f →
      ∃ t, exec .sfClose s = .next t ∧ t.sf.isOpen = false ∧ t.sf.cfg = s.sf.cfg ∧
        t.sf.results = s.sf.results ++ [.err (.transportIO f)])

/-- R270 and R276: `close` followed by `open` brings an open engine back to its post-`open` state, whatever state its lines
were left in. -/
def Obligations.CloseThenOpenRecovers : Prop :=
  (∀ s : State, s.bb.isOpen = true → s.bb.Quiet →
    ∃ t u, exec .bbClose s = .next t ∧ exec .bbOpen t = .next u ∧ u.bb.Ready ∧ u.bb.AtRest ∧
      u.bb.clk = { claimed := true, dir := .output, drive := false, bias := .none } ∧
      u.bb.data = { claimed := true, dir := .output, drive := true, bias := .pullUp } ∧
      u.bb.trace = s.bb.trace ++ [.closed, .opened] ∧ u.bb.results = s.bb.results ++ [.ok .unit, .ok .unit]) ∧
  (∀ s : State, s.sf.isOpen = true → s.sf.Quiet →
    ∃ t u, exec .sfClose s = .next t ∧ exec .sfOpen t = .next u ∧ u.sf.Ready ∧
      u.sf.trace = s.sf.trace ++ [.closed, .opened] ∧ u.sf.results = s.sf.results ++ [.ok .unit, .ok .unit])

/-! ### Errors -/

/-- R144 and R209: every instruction but `open` and `close` on a closed engine completes with `NotOpen` and does nothing else;
and it completes with `NotOpen` only there. That the open check comes before every other is the spec's own choice (D14); that
the six frames and the six header words begin with it is the model's (assumption log 9). -/
def Obligations.NotOpenComesFirst : Prop :=
  (∀ (i : Instr) (s : State), i.isLifecycle = false →
    (i.engine = .bitbang → s.bb.isOpen = false → exec i s = .next (s.withBB (s.bb.raise .notOpen))) ∧
    (i.engine = .spi → s.sf.isOpen = false → exec i s = .next (s.withSF (s.sf.raise .notOpen)))) ∧
  (∀ (i : Instr) (s t : State), s.Inv → exec i s = .next t →
    t.resultsOf i.engine = s.resultsOf i.engine ++ [.err .notOpen] →
    i.isLifecycle = false ∧ s.engineOpen i.engine = false)

/-- R241: after `NotOpen`, `ParameterInvalid` or `AlreadyOpen` the state is what it was, but for the result delivered; after
`TransportIO` in an instruction other than `open` and `close` the engine is still open. That nothing is cleaned up is the
spec's own choice (D13). -/
def Obligations.ErrorsLeaveTheState : Prop :=
  ∀ (i : Instr) (s t : State) (k : ErrorKind), s.Inv → exec i s = .next t →
    t.resultsOf i.engine = s.resultsOf i.engine ++ [.err k] →
    ((∀ info, k ≠ .transportIO info) → t = s.withResults i.engine (s.resultsOf i.engine ++ [.err k])) ∧
    ((∃ info, k = .transportIO info) → i.isLifecycle = false → t.engineOpen i.engine = true)

/-- R233, R239 and R173 (e): a write batch whose lists differ in length is `ParameterInvalid` on an open engine and `NotOpen`
on a closed one, with no event; no other instruction completes with `ParameterInvalid`, and none on a closed engine. Refusing such lists, and the order
of the checks, is the spec's own choice (D14, D15). -/
def Obligations.UnequalListsAreInvalid : Prop :=
  (∀ (s : State) (p d : Nat) (rs vs : List Nat), rs.length ≠ vs.length →
    (∀ i ∈ [Instr.bbWriteC22Registers p rs vs, .bbWriteC45Registers p d rs vs, .bbWriteC45DwordRegisters p d rs vs],
      exec i s = .next (s.withBB (s.bb.raise (if s.bb.isOpen then .parameterInvalid else .notOpen)))) ∧
    (∀ i ∈ [Instr.sfWriteC22Registers p rs vs, .sfWriteC45Registers p d rs vs],
      exec i s = .next (s.withSF (s.sf.raise (if s.sf.isOpen then .parameterInvalid else .notOpen))))) ∧
  (∀ (i : Instr) (s t : State), exec i s = .next t →
    t.resultsOf i.engine = s.resultsOf i.engine ++ [.err .parameterInvalid] →
    i.listsDiffer = true ∧ s.engineOpen i.engine = true)

/-- R173 (f): a batch command with an empty list emits nothing and completes with `Ok([])` or `Ok(unit)`. The spec's own
choice (D15). -/
def Obligations.EmptyBatchDoesNothing : Prop :=
  ∀ (s : State) (p d : Nat),
    (s.bb.isOpen = true →
      exec (.bbReadC22Registers p []) s = .next (s.withBB (s.bb.deliver (.ok (.u16s [])))) ∧
      exec (.bbWriteC22Registers p [] []) s = .next (s.withBB (s.bb.deliver (.ok .unit))) ∧
      exec (.bbReadC45Registers p d []) s = .next (s.withBB (s.bb.deliver (.ok (.u16s [])))) ∧
      exec (.bbWriteC45Registers p d [] []) s = .next (s.withBB (s.bb.deliver (.ok .unit))) ∧
      exec (.bbReadC45DwordRegisters p d []) s = .next (s.withBB (s.bb.deliver (.ok (.u32s [])))) ∧
      exec (.bbWriteC45DwordRegisters p d [] []) s = .next (s.withBB (s.bb.deliver (.ok .unit)))) ∧
    (s.sf.isOpen = true →
      exec (.sfReadC22Registers p []) s = .next (s.withSF (s.sf.deliver (.ok (.u16s [])))) ∧
      exec (.sfWriteC22Registers p [] []) s = .next (s.withSF (s.sf.deliver (.ok .unit))) ∧
      exec (.sfReadC45Registers p d []) s = .next (s.withSF (s.sf.deliver (.ok (.u16s [])))) ∧
      exec (.sfWriteC45Registers p d [] []) s = .next (s.withSF (s.sf.deliver (.ok .unit))))

/-- R35, R236 and R276: with the data line left in input direction, every instruction of the open bit-bang engine that drives
anything stops with `StaleDirection`; `close` and `open` do not. The fault is the spec's own choice (D11); that it comes before the
environment is asked whether the call fails is the model's (assumption log 16). -/
def Obligations.StaleDirectionFaults : Prop :=
  ∀ (i : Instr) (s : State), s.bb.isOpen = true → s.bb.data.claimed = true → s.bb.data.dir = .input →
    i.engine = .bitbang → ((encode i).format = .cmd8 → i.wf = true) → i.isEmptyBatch = false →
    (i.isLifecycle = false → exec i s = .fault .staleDirection) ∧
    (i.isLifecycle = true → ∃ t, exec i s = .next t)

/-! ### The register commands of the bit-bang engine

On a ready engine (open, both lines in output direction, no collaborator call failing) each command completes; the equation
gives the whole next state, so it says what stays the same as well. -/

/-- R161 and R162: `bb.read_c22` and `bb.write_c22`. -/
def Obligations.BbClause22Commands : Prop :=
  ∀ (s : State) (p r v : Nat), s.bb.Ready →
    exec (.bbReadC22 p r) s =
      .next (s.withBB (s.bb.completed (readC22Events p r (s.bb.window 0 18)) true
        (.u16 (wordOfBits (s.bb.window 2 16))))) ∧
    exec (.bbWriteC22 p r v) s = .next (s.withBB (s.bb.completed (writeC22Events p r v) true .unit))

/-- R163 and R164: `bb.read_c45` and `bb.write_c45`. That the second frame has its own preamble is the spec's own choice
(D2). -/
def Obligations.BbClause45Commands : Prop :=
  ∀ (s : State) (p e r v : Nat), s.bb.Ready → s.switches = Switches.normative →
    exec (.bbReadC45 p e r) s =
      .next (s.withBB (s.bb.completed (readC45Events p e r (s.bb.window 0 18)) true
        (.u16 (wordOfBits (s.bb.window 2 16))))) ∧
    exec (.bbWriteC45 p e r v) s =
      .next (s.withBB (s.bb.completed (writeC45Events p e r v) (v.testBit 0) .unit))

/-- R165, R166 and R58: `bb.read_c45_dword` and `bb.write_c45_dword`; the first word read is the low half. The order of the
frames and the opcode of the reads are the spec's own choice (D3, D4). -/
def Obligations.BbDwordCommands : Prop :=
  ∀ (s : State) (p e r v : Nat), s.bb.Ready → s.switches = Switches.normative →
    exec (.bbReadC45Dword p e r) s =
      .next (s.withBB (s.bb.completed (readDwordEvents p e r (s.bb.window 0 18) (s.bb.window 18 18)) true
        (.u32 (BitVec.ofNat 32
          ((wordOfBits (s.bb.window 20 16)).toNat * 65536 + (wordOfBits (s.bb.window 2 16)).toNat))))) ∧
    exec (.bbWriteC45Dword p e r v) s =
      .next (s.withBB (s.bb.completed (writeDwordEvents p e r v) (v.testBit 16) .unit))

/-- R167, R169 and R171: the batch reads of the bit-bang engine, for a list with at least one register. -/
def Obligations.BbReadBatches : Prop :=
  ∀ (s : State) (p e : Nat) (rs : List Nat), s.bb.Ready → s.switches = Switches.normative → rs ≠ [] →
    exec (.bbReadC22Registers p rs) s =
      .next (s.withBB (s.bb.completed (rs.mapIdx (fun k r => readC22Events p r (s.bb.window (18 * k) 18))).flatten true
        (.u16s (rs.mapIdx (fun k _ => wordOfBits (s.bb.window (18 * k + 2) 16)))))) ∧
    exec (.bbReadC45Registers p e rs) s =
      .next (s.withBB (s.bb.completed (rs.mapIdx (fun k r => readC45Events p e r (s.bb.window (18 * k) 18))).flatten true
        (.u16s (rs.mapIdx (fun k _ => wordOfBits (s.bb.window (18 * k + 2) 16)))))) ∧
    exec (.bbReadC45DwordRegisters p e rs) s =
      .next (s.withBB (s.bb.completed
        (rs.mapIdx (fun k r => readDwordEvents p e r (s.bb.window (36 * k) 18) (s.bb.window (36 * k + 18) 18))).flatten true
        (.u32s (rs.mapIdx (fun k _ => BitVec.ofNat 32
          ((wordOfBits (s.bb.window (36 * k + 20) 16)).toNat * 65536
            + (wordOfBits (s.bb.window (36 * k + 2) 16)).toNat))))))

/-- R168, R170 and R172: the batch writes of the bit-bang engine, for parallel lists with at least one register. -/
def Obligations.BbWriteBatches : Prop :=
  ∀ (s : State) (p e : Nat) (rs vs : List Nat) (last : Nat), s.bb.Ready → s.switches = Switches.normative →
    rs.length = vs.length → vs.getLast? = some last →
    exec (.bbWriteC22Registers p rs vs) s =
      .next (s.withBB (s.bb.completed (List.zipWith (writeC22Events p) rs vs).flatten true .unit)) ∧
    exec (.bbWriteC45Registers p e rs vs) s =
      .next (s.withBB (s.bb.completed (List.zipWith (writeC45Events p e) rs vs).flatten (last.testBit 0) .unit)) ∧
    exec (.bbWriteC45DwordRegisters p e rs vs) s =
      .next (s.withBB (s.bb.completed (List.zipWith (writeDwordEvents p e) rs vs).flatten (last.testBit 16) .unit))

/-! ### The register commands of the SPI-framed engine -/

/-- R198 to R201: the four single-register commands of the SPI-framed engine. -/
def Obligations.SfSingleCommands : Prop :=
  ∀ (s : State) (p e r v : Nat), s.sf.Ready → s.switches = Switches.normative →
    exec (.sfReadC22 p r) s =
      .next (s.withSF (s.sf.completed
        [(32, 0xFFFFFFFF), (16, 0x6003 + p % 32 * 2 ^ 7 + r % 32 * 2 ^ 2), (16, 0xFFFF), (32, 0xFFFFFFFF)]
        (.u16 (BitVec.ofNat 16 (s.sf.wordAt 2))))) ∧
    exec (.sfWriteC22 p r v) s =
      .next (s.withSF (s.sf.completed
        [(32, 0xFFFFFFFF), (16, 0x5002 + p % 32 * 2 ^ 7 + r % 32 * 2 ^ 2), (16, v % 65536), (32, 0xFFFFFFFF)] .unit)) ∧
    exec (.sfReadC45 p e r) s =
      .next (s.withSF (s.sf.completed
        [(32, 0xFFFFFFFF), (16, 0x0002 + p % 32 * 2 ^ 7 + e % 32 * 2 ^ 2), (16, r % 65536),
          (32, 0xFFFFFFFF), (16, 0x3003 + p % 32 * 2 ^ 7 + e % 32 * 2 ^ 2), (16, 0xFFFF)]
        (.u16 (BitVec.ofNat 16 (s.sf.wordAt 5))))) ∧
    exec (.sfWriteC45 p e r v) s =
      .next (s.withSF (s.sf.completed
        [(32, 0xFFFFFFFF), (16, 0x0002 + p % 32 * 2 ^ 7 + e % 32 * 2 ^ 2), (16, r % 65536),
          (32, 0xFFFFFFFF), (16, 0x1002 + p % 32 * 2 ^ 7 + e % 32 * 2 ^ 2), (16, v % 65536)] .unit))

/-- R202 and R204: the batch reads of the SPI-framed engine. -/
def Obligations.SfReadBatches : Prop :=
  ∀ (s : State) (p e : Nat) (rs : List Nat), s.sf.Ready → s.switches = Switches.normative →
    exec (.sfReadC22Registers p rs) s =
      .next (s.withSF (s.sf.completed
        (rs.flatMap (fun r =>
          [(32, 0xFFFFFFFF), (16, 0x6003 + p % 32 * 2 ^ 7 + r % 32 * 2 ^ 2), (16, 0xFFFF), (32, 0xFFFFFFFF)]))
        (.u16s (rs.mapIdx (fun k _ => BitVec.ofNat 16 (s.sf.wordAt (4 * k + 2))))))) ∧
    exec (.sfReadC45Registers p e rs) s =
      .next (s.withSF (s.sf.completed
        (rs.flatMap (fun r =>
          [(32, 0xFFFFFFFF), (16, 0x0002 + p % 32 * 2 ^ 7 + e % 32 * 2 ^ 2), (16, r % 65536),
            (32, 0xFFFFFFFF), (16, 0x3003 + p % 32 * 2 ^ 7 + e % 32 * 2 ^ 2), (16, 0xFFFF)]))
        (.u16s (rs.mapIdx (fun k _ => BitVec.ofNat 16 (s.sf.wordAt (6 * k + 5)))))))

/-- R203 and R205: the batch writes of the SPI-framed engine, for parallel lists. -/
def Obligations.SfWriteBatches : Prop :=
  ∀ (s : State) (p e : Nat) (rs vs : List Nat), s.sf.Ready → s.switches = Switches.normative → rs.length = vs.length →
    exec (.sfWriteC22Registers p rs vs) s =
      .next (s.withSF (s.sf.completed
        (List.zipWith (fun r v =>
          [(32, 0xFFFFFFFF), (16, 0x5002 + p % 32 * 2 ^ 7 + r % 32 * 2 ^ 2), (16, v % 65536), (32, 0xFFFFFFFF)])
          rs vs).flatten .unit)) ∧
    exec (.sfWriteC45Registers p e rs vs) s =
      .next (s.withSF (s.sf.completed
        (List.zipWith (fun r v =>
          [(32, 0xFFFFFFFF), (16, 0x0002 + p % 32 * 2 ^ 7 + e % 32 * 2 ^ 2), (16, r % 65536),
            (32, 0xFFFFFFFF), (16, 0x1002 + p % 32 * 2 ^ 7 + e % 32 * 2 ^ 2), (16, v % 65536)]) rs vs).flatten .unit))

/-! ### The wire frames and the header words -/

/-- R142 and R143 (behind the open check, assumption log 9): a frame handed to the bit-bang engine. A write-class frame is
sent with the turnaround `10` whatever its own; a read-class frame sends its fourteen header bits and returns the word the
environment supplied. -/
def Obligations.FramesOnTheBitBangEngine : Prop :=
  ∀ (s : State) (p d : U5) (ta : U2) (v : U16), s.bb.Ready →
    let header := p.toNat * 2 ^ 23 + d.toNat * 2 ^ 18
    let header14 := p.toNat * 2 ^ 5 + d.toNat
    let sent := fun w => Host.Outcome.next (s.withBB (s.bb.completed (writeFrameEvents (w + header + v.toNat)) (v.getLsbD 0) .unit))
    let read := fun h => Host.Outcome.next (s.withBB (s.bb.completed (readFrameEvents (h + header14) (s.bb.window 0 18)) true
      (.u16 (wordOfBits (s.bb.window 2 16)))))
    exec (.c22Write .bitbang p d ta v) s = sent 0x50020000 ∧
    exec (.c22Read .bitbang p d ta v) s = read 0x1800 ∧
    exec (.c45Address .bitbang p d ta v) s = sent 0x00020000 ∧
    exec (.c45Write .bitbang p d ta v) s = sent 0x10020000 ∧
    exec (.c45ReadInc .bitbang p d ta v) s = read 0x0800 ∧
    exec (.c45Read .bitbang p d ta v) s = read 0x0C00

/-- R197, R91 and R207 (behind the open check, assumption log 9): a frame handed to the SPI-framed engine. A write-class
header carries the frame's own turnaround, a read-class header `11`. -/
def Obligations.FramesOnTheSpiEngine : Prop :=
  ∀ (s : State) (p d : U5) (ta : U2) (v : U16), s.sf.Ready → s.switches = Switches.normative →
    let header := p.toNat * 2 ^ 7 + d.toNat * 2 ^ 2
    let sent := fun h => Host.Outcome.next (s.withSF (s.sf.completed
      [(32, 0xFFFFFFFF), (16, h + header + ta.toNat), (16, v.toNat)] .unit))
    let read := fun h => Host.Outcome.next (s.withSF (s.sf.completed
      [(32, 0xFFFFFFFF), (16, h + header), (16, 0xFFFF)] (.u16 (BitVec.ofNat 16 (s.sf.wordAt 2)))))
    exec (.c22Write .spi p d ta v) s = sent 0x5000 ∧
    exec (.c22Read .spi p d ta v) s = read 0x6003 ∧
    exec (.c45Address .spi p d ta v) s = sent 0x0000 ∧
    exec (.c45Write .spi p d ta v) s = sent 0x1000 ∧
    exec (.c45ReadInc .spi p d ta v) s = read 0x2003 ∧
    exec (.c45Read .spi p d ta v) s = read 0x3003

/-- R194 (behind the open check, assumption log 9): a header word is one 16-bit transfer, and the received word is discarded. -/
def Obligations.HeaderWords : Prop :=
  ∀ (s : State) (p d : U5), s.sf.Ready →
    let sent := fun h => Host.Outcome.next (s.withSF (s.sf.completed [(16, h + p.toNat * 2 ^ 7 + d.toNat * 2 ^ 2)] .unit))
    exec (.hdrC22Write p d) s = sent 0x5002 ∧
    exec (.hdrC22Read p d) s = sent 0x6003 ∧
    exec (.hdrC45Address p d) s = sent 0x0002 ∧
    exec (.hdrC45Write p d) s = sent 0x1002 ∧
    exec (.hdrC45ReadInc p d) s = sent 0x2003 ∧
    exec (.hdrC45Read p d) s = sent 0x3003

/-! ### The switches of R13 at their other values -/

/-- D2 to D5 and D23: the commands of more than one frame, and the writes of the SPI-framed engine, at every value of the four
switches. Without a preamble for every frame only the first frame of a command has one, on both engines; with the other order
of a dword command each address frame is followed by its data frame; with the other read opcode its read frames are
read-increment; with the historical defect a write-class frame of the SPI-framed engine carries its header as data. The
commands with one frame on the bit-bang engine do not depend on the switches (`BbClause22Commands`), and a batch is its
elements (`BatchIsItsElementsInOrder`). What the other values mean is the model's reading (assumption log 13). -/
def Obligations.OtherReadingsOfTheSource : Prop :=
  ∀ (s : State) (p e r v : Nat),
    (s.bb.Ready →
      exec (.bbReadC45 p e r) s =
        .next (s.withBB (s.bb.completed
          (writeFrameEvents (c45AddressBits p e r) ++ nextReadEvents s.switches (c45ReadBits p e) (s.bb.window 0 18)) true
          (.u16 (wordOfBits (s.bb.window 2 16))))) ∧
      exec (.bbWriteC45 p e r v) s =
        .next (s.withBB (s.bb.completed
          (writeFrameEvents (c45AddressBits p e r) ++ nextWriteEvents s.switches (c45WriteBits p e v)) (v.testBit 0) .unit)) ∧
      exec (.bbReadC45Dword p e r) s =
        .next (s.withBB (s.bb.completed
          (dwordEvents s.switches (writeFrameEvents (c45AddressBits p e r))
            (nextWriteEvents s.switches (c45AddressBits p e (r / 65536)))
            (nextReadEvents s.switches (dwordReadBits s.switches p e) (s.bb.window 0 18))
            (nextReadEvents s.switches (dwordReadBits s.switches p e) (s.bb.window 18 18))) true
          (.u32 (BitVec.ofNat 32
            ((wordOfBits (s.bb.window 20 16)).toNat * 65536 + (wordOfBits (s.bb.window 2 16)).toNat))))) ∧
      exec (.bbWriteC45Dword p e r v) s =
        .next (s.withBB (s.bb.completed
          (dwordEvents s.switches (writeFrameEvents (c45AddressBits p e r))
            (nextWriteEvents s.switches (c45AddressBits p e (r / 65536)))
            (nextWriteEvents s.switches (c45WriteBits p e v))
            (nextWriteEvents s.switches (c45WriteBits p e (v / 65536)))) (v.testBit 16) .unit))) ∧
    (s.sf.Ready →
      let c22Write := 0x5002 + p % 32 * 2 ^ 7 + r % 32 * 2 ^ 2
      let address := 0x0002 + p % 32 * 2 ^ 7 + e % 32 * 2 ^ 2
      let write := 0x1002 + p % 32 * 2 ^ 7 + e % 32 * 2 ^ 2
      let read := 0x3003 + p % 32 * 2 ^ 7 + e % 32 * 2 ^ 2
      let sentAddress := [(32, 0xFFFFFFFF), (16, address), (16, writeWord s.switches address (r % 65536))]
      exec (.sfReadC22 p r) s =
        .next (s.withSF (s.sf.completed
          [(32, 0xFFFFFFFF), (16, 0x6003 + p % 32 * 2 ^ 7 + r % 32 * 2 ^ 2), (16, 0xFFFF), (32, 0xFFFFFFFF)]
          (.u16 (BitVec.ofNat 16 (s.sf.wordAt 2))))) ∧
      exec (.sfWriteC22 p r v) s =
        .next (s.withSF (s.sf.completed
          [(32, 0xFFFFFFFF), (16, c22Write), (16, writeWord s.switches c22Write (v % 65536)), (32, 0xFFFFFFFF)] .unit)) ∧
      exec (.sfReadC45 p e r) s =
        .next (s.withSF (s.sf.completed (sentAddress ++ nextWords s.switches read 0xFFFF)
          (.u16 (BitVec.ofNat 16 (s.sf.wordAt (if s.switches.preamblePerFrame then 5 else 4)))))) ∧
      exec (.sfWriteC45 p e r v) s =
        .next (s.withSF (s.sf.completed
          (sentAddress ++ nextWords s.switches write (writeWord s.switches write (v % 65536))) .unit)))

/-- R279: with `SF_WRITE_DATA_IS_HEADER` every write-class frame of the SPI-framed engine, the Clause 45 address frame
included, carries its own header as data. The model's reading of D5 (assumption log 13). -/
def Obligations.HistoricalWriteDataIsTheHeader : Prop :=
  ∀ (s : State) (p e r v : Nat), s.sf.Ready → s.switches = { Switches.normative with sfWriteDataIsHeader := true } →
    let c22 := 0x5002 + p % 32 * 2 ^ 7 + r % 32 * 2 ^ 2
    let address := 0x0002 + p % 32 * 2 ^ 7 + e % 32 * 2 ^ 2
    let write := 0x1002 + p % 32 * 2 ^ 7 + e % 32 * 2 ^ 2
    let read := 0x3003 + p % 32 * 2 ^ 7 + e % 32 * 2 ^ 2
    exec (.sfWriteC22 p r v) s =
      .next (s.withSF (s.sf.completed [(32, 0xFFFFFFFF), (16, c22), (16, c22), (32, 0xFFFFFFFF)] .unit)) ∧
    exec (.sfWriteC45 p e r v) s =
      .next (s.withSF (s.sf.completed
        [(32, 0xFFFFFFFF), (16, address), (16, address), (32, 0xFFFFFFFF), (16, write), (16, write)] .unit)) ∧
    exec (.sfReadC45 p e r) s =
      .next (s.withSF (s.sf.completed
        [(32, 0xFFFFFFFF), (16, address), (16, address), (32, 0xFFFFFFFF), (16, read), (16, 0xFFFF)]
        (.u16 (BitVec.ofNat 16 (s.sf.wordAt 5)))))

/-! ### Rules about the whole machine -/

/-- R176: the state of the lines at the end of each command that completes with `Ok`, and that a batch command with an empty
list leaves them as they were. The spec marks the rule as derived. -/
def Obligations.EndOfCommandLines : Prop :=
  ∀ (i : Instr) (s t : State) (v : Value), exec i s = .next t → t.bb.results = s.bb.results ++ [.ok v] →
    (∀ l, i.endLevel = some l → t.bb.clk.drive = false ∧ t.bb.data.dir = .output ∧ t.bb.data.drive = l) ∧
    (i.isEmptyBatch = true → t.bb.clk = s.bb.clk ∧ t.bb.data = s.bb.data)

/-- R177: the clock pulses, samples, direction changes and line events of every register command of the bit-bang engine. The
spec marks the rule as derived; the totals rest on its choice of a preamble for every frame (D2). -/
def Obligations.TotalsPerCommand : Prop :=
  ∀ (i : Instr) (s : State) (n : LineTotals), i.lineTotals = some n → i.wf = true → s.bb.Ready →
    s.switches = Switches.normative →
    ∃ t es v, exec i s = .next t ∧ t.bb.trace = s.bb.trace ++ es ∧ t.bb.results = s.bb.results ++ [.ok v] ∧
      clockPulses es = n.pulses ∧ sampleCount es = n.samples ∧ turnCount es = n.turns ∧ es.length = n.events

/-- R145: the events and clock pulses of the micro-operations; each pulse is a rising edge and at once the falling one, the
clock is low before and after, and a wait is no event. The spec marks the rule as derived. -/
def Obligations.MicroOperationCounts : Prop :=
  ∀ (b : BB), b.Quiet → b.clk.claimed = true → b.clk.dir = .output → b.clk.drive = false → b.data.claimed = true →
    (∀ d, b.run [.wait d] = .done b []) ∧
    (b.data.dir = .input → ∀ keep, ∃ b' got es, b.run (Prim.readBit keep) = .done b' got ∧ b'.trace = b.trace ++ es ∧
      es.length = 3 ∧ clockPulses es = 1 ∧ paired es = true ∧ b'.clk.drive = false) ∧
    (b.data.dir = .output →
      (∀ l, ∃ b' es, b.run (Prim.writeBit l) = .done b' [] ∧ b'.trace = b.trace ++ es ∧
        es.length = 3 ∧ clockPulses es = 1 ∧ paired es = true ∧ b'.clk.drive = false) ∧
      (∃ b' es, b.run Prim.flush = .done b' [] ∧ b'.trace = b.trace ++ es ∧
        es.length = 96 ∧ clockPulses es = 32 ∧ paired es = true ∧ b'.clk.drive = false) ∧
      (∀ f : Frame, ∃ b' got es, b.run (Prim.bbFrame f) = .done b' got ∧ b'.trace = b.trace ++ es ∧
        es.length = (if isReadClass f.op then 194 else 192) ∧ clockPulses es = 64 ∧ paired es = true ∧
        b'.clk.drive = false))

/-- The micro-operations themselves: `write_bits` sends the low bits of its operand, the most significant first (R134, R57),
`read_bits` keeps the samples in order (R135), and the read transition turns the line, takes 18 samples, keeps the last 16 and
takes the line back driving `1` (R141). -/
def Obligations.BitsOnTheWire : Prop :=
  (∀ (b : BB) (v n : Nat), b.Quiet → b.Driving →
    ∃ b', b.run (Prim.writeBits v n) = .done b' [] ∧
      b'.trace = b.trace ++ wSlots ((List.range n).map (fun k => v.testBit (n - 1 - k))) ∧
      b'.data.drive = (if n = 0 then b.data.drive else v.testBit 0) ∧ b'.Driving) ∧
  (∀ (b : BB) (n : Nat) (keep : Bool), b.Quiet → b.clk.claimed = true → b.clk.dir = .output →
    b.data.claimed = true → b.data.dir = .input →
    ∃ b', b.run (Prim.readBits n keep) = .done b' (if keep then b.window 0 n else []) ∧
      b'.trace = b.trace ++ rSlots (b.window 0 n) ∧ b'.data = b.data) ∧
  (∀ (b : BB), b.Quiet → b.Driving →
    ∃ b', b.run Prim.readTransition = .done b' (b.window 2 16) ∧
      b'.trace = b.trace ++ .ddirIn :: (rSlots (b.window 0 18) ++ [.ddirOut true]) ∧
      b'.data = { b.data with drive := true } ∧ b'.clk = { b.clk with drive := false })

/-- The operations of the two collaborators (R33 to R38, R40): effect, precondition, and what a failed call leaves. The
fault of R35 and R36 is the spec's own choice (D11); that it comes before the environment's draw is the model's (assumption
log 16, 17). That the position of R23 advances by one slot with the falling clock edge is the model's numbering (assumption
log 23). -/
def Obligations.CollaboratorOperations : Prop :=
  (∀ (b : BB) (l : Level) (keep : Bool), b.env.failures = [] →
    (b.clk.claimed = true → b.clk.dir = .output →
      b.perform (.clk l) = .done
        { b with clk := { b.clk with drive := l }, trace := b.trace ++ [.cout l],
                 seq := if l then b.seq else b.seq.pulses 1 } []) ∧
    (b.data.claimed = true → b.data.dir = .output →
      b.perform (.data l) = .done { b with data := { b.data with drive := l }, trace := b.trace ++ [.dout l] } []) ∧
    (b.data.claimed = true → b.data.dir = .input →
      ∃ b', b.perform (.sample keep) = .done b' (if keep then [b.levelAt 0] else []) ∧
        b'.trace = b.trace ++ [.dsample (b.levelAt 0)] ∧ b'.data = b.data ∧ b'.clk = b.clk) ∧
    (b.data.claimed = true →
      b.perform .dirIn = .done { b with data := { b.data with dir := .input }, trace := b.trace ++ [.ddirIn] } [] ∧
      b.perform (.dirOut l) = .done
        { b with data := { b.data with dir := .output, drive := l }, trace := b.trace ++ [.ddirOut l] } [])) ∧
  (∀ (b : BB) (l : Level) (keep : Bool),
    (b.clk.claimed = false → b.perform (.clk l) = .failed b .notOpen) ∧
    (b.data.claimed = false → ∀ op ∈ [LineOp.data l, .sample keep, .dirIn, .dirOut l], b.perform op = .failed b .notOpen) ∧
    (b.clk.claimed = true → b.clk.dir = .input → b.perform (.clk l) = .fault .staleDirection) ∧
    (b.data.claimed = true → b.data.dir = .input → b.perform (.data l) = .fault .staleDirection) ∧
    (b.data.claimed = true → b.data.dir = .output → b.perform (.sample keep) = .fault .staleDirection)) ∧
  (∀ (b : BB) (f : OsFailure) (rest : List (Option OsFailure)) (l : Level) (keep : Bool), b.env.failures = some f :: rest →
    (b.clk.claimed = true → b.clk.dir = .output →
      b.perform (.clk l) = .failed { b with env := { b.env with failures := rest } } (.transportIO f)) ∧
    (b.data.claimed = true → b.data.dir = .output →
      b.perform (.data l) = .failed { b with env := { b.env with failures := rest } } (.transportIO f)) ∧
    (b.data.claimed = true → b.data.dir = .input →
      b.perform (.sample keep) = .failed { b with env := { b.env with failures := rest } } (.transportIO f)) ∧
    (b.data.claimed = true → ∀ op ∈ [LineOp.dirIn, .dirOut l],
      b.perform op = .failed { b with env := { b.env with failures := rest } } (.transportIO f))) ∧
  (∀ (x : SF) (n tx : Nat) (cs keep : Bool),
    (x.spi.claimed = false → x.xfer n tx cs keep = .failed x .notOpen) ∧
    (x.spi.claimed = true → ¬((n = 16 ∨ n = 32) ∧ tx < 2 ^ n) → x.xfer n tx cs keep = .failed x .parameterInvalid) ∧
    (x.spi.claimed = true → (n = 16 ∨ n = 32) → tx < 2 ^ n → x.env.failures = [] →
      ∃ x', x.xfer n tx cs keep = .done x' (if keep then [mask 16 (x.wordAt 0 % 2 ^ n)] else []) ∧
        x'.trace = x.trace ++ [.xfer n tx cs (x.wordAt 0 % 2 ^ n)] ∧ x'.spi = x.spi) ∧
    (∀ (f : OsFailure) (rest : List (Option OsFailure)), x.spi.claimed = true → (n = 16 ∨ n = 32) → tx < 2 ^ n →
      x.env.failures = some f :: rest →
      x.xfer n tx cs keep = .failed { x with env := { x.env with failures := rest } } (.transportIO f)))

/-- R285: the busy-wait units of a slot, of a frame with its preamble and of a flush. Where the waits stand is the spec's
own choice (D7). -/
def Obligations.BusyWaitUnits : Prop :=
  ∀ (c : BBConfig) (b keep : Bool) (f : Frame),
    busyUnits c (Prim.writeBit b) = c.setupDelay + 2 * c.clkDelay ∧
    Prim.clockPulse = [.clk true, .wait .clock, .clk false, .wait .clock] ∧
    busyUnits c (Prim.readBit keep) = 2 * c.clkDelay ∧
    (isReadClass f.op = false → busyUnits c (Prim.bbFrame f) = 64 * (c.setupDelay + 2 * c.clkDelay)) ∧
    (isReadClass f.op = true →
      busyUnits c (Prim.bbFrame f) = 46 * (c.setupDelay + 2 * c.clkDelay) + c.readDelay + 18 * 2 * c.clkDelay) ∧
    busyUnits c Prim.flush = 32 * (c.setupDelay + 2 * c.clkDelay)

/-- R208: the two engines put the same symbols on the data wire, one for each clock pulse, but that the SPI-framed engine
holds `1` in the 18 positions of each read where the bit-bang engine has released the line; and each returns the bits it
received in the last 16 of those positions. The spec marks the rule as derived; it rests on D2, D5 and D19. -/
def Obligations.WireEquivalence : Prop :=
  ∀ (i j : Instr) (s : State) (start : Symbol), i.onSpi = some j → i.wf = true → s.bb.Ready → s.sf.Ready →
    s.switches = Switches.normative →
    ∃ t u es xs, exec i s = .next t ∧ exec j s = .next u ∧
      t.bb.trace = s.bb.trace ++ es ∧ u.sf.trace = s.sf.trace ++ xs ∧
      sfSymbols xs = (bbSymbols start es).map Symbol.onSpi ∧
      (bbSymbols start es).count .z = 18 * i.wordsReturned ∧
      t.bb.results = s.bb.results ++ [.ok (i.valueOf (wordsIn i.wordsReturned (sampledLevels es)))] ∧
      u.sf.results = s.sf.results ++
        [.ok (i.valueOf (wordsIn i.wordsReturned (bitsWhereReleased (bbSymbols start es) (receivedBits xs))))]

/-- R173 (a), (b), (c): a batch command is its first element as a single command and then the batch of the others, with
nothing shared between them; the first element that fails ends it with that error. That the results before a failure are
dropped is the spec's own choice (D15). -/
def Obligations.BatchIsItsElementsInOrder : Prop :=
  ∀ (i one rest : Instr) (s : State), i.firstAndRest = some (one, rest) → i.wf = true →
    match exec one s with
    | .fault f => exec i s = .fault f
    | .refused _ => False
    | .next t =>
      (∀ e, t.resultsOf i.engine = s.resultsOf i.engine ++ [.err e] → exec i s = .next t) ∧
      (∀ v, t.resultsOf i.engine = s.resultsOf i.engine ++ [.ok v] →
        match exec rest t with
        | .fault f => exec i s = .fault f
        | .refused _ => False
        | .next u =>
          ∀ r, u.resultsOf i.engine = t.resultsOf i.engine ++ [r] →
            exec i s = .next (u.withResults i.engine (s.resultsOf i.engine ++ [r.cons v])))

/-- R146, R238 and R241: errors of the bit-bang engine are precise. Take the events of an instruction as they are where no
call fails. If the first call that fails is its `k`-th (from 0), the instruction ends there: exactly the `k` events before it
have happened, the lines are as the last of them left them, and the failure is reported; if none of them fails, the
instruction goes as it does where no call fails. That nothing is cleaned up is the spec's own choice (D13). -/
def Obligations.BbFailureIsPrecise : Prop :=
  ∀ (i : Instr) (s u : State) (es : List BBEvent), i.engine = .bitbang → i.isLifecycle = false →
    exec i (s.withBB s.bb.quieted) = .next u → u.bb.trace = s.bb.trace ++ es →
    (∀ (k : Nat) (f : OsFailure), k < es.length → (∀ j < k, s.bb.env.failures.getD j none = none) →
      s.bb.env.failures.getD k none = some f →
      ∃ t, exec i s = .next t ∧ t.bb.trace = s.bb.trace ++ es.take k ∧
        t.bb.results = s.bb.results ++ [.err (.transportIO f)] ∧
        t.bb.lines = linesAfter s.bb.lines (es.take k) ∧ t.bb.isOpen = s.bb.isOpen ∧ t.bb.seq = .idle ∧
        t.bb.env.failures = s.bb.env.failures.drop (k + 1)) ∧
    ((∀ j < es.length, s.bb.env.failures.getD j none = none) →
      ∃ t, exec i s = .next t ∧ t.withBB t.bb.quieted = u)

/-- R212 and R238: errors of the SPI-framed engine are precise, in the same sense, with transfers in place of line
operations. That nothing is cleaned up is the spec's own choice (D13). -/
def Obligations.SfFailureIsPrecise : Prop :=
  ∀ (i : Instr) (s u : State) (xs : List SFEvent), i.engine = .spi → i.isLifecycle = false →
    exec i (s.withSF s.sf.quieted) = .next u → u.sf.trace = s.sf.trace ++ xs →
    (∀ (k : Nat) (f : OsFailure), k < xs.length → (∀ j < k, s.sf.env.failures.getD j none = none) →
      s.sf.env.failures.getD k none = some f →
      ∃ t, exec i s = .next t ∧ t.sf.trace = s.sf.trace ++ xs.take k ∧
        t.sf.results = s.sf.results ++ [.err (.transportIO f)] ∧ t.sf.isOpen = s.sf.isOpen ∧ t.sf.spi = s.sf.spi ∧
        t.sf.seq = .idle ∧ t.sf.env.failures = s.sf.env.failures.drop (k + 1)) ∧
    ((∀ j < xs.length, s.sf.env.failures.getD j none = none) →
      ∃ t, exec i s = .next t ∧ t.withSF t.sf.quieted = u)

/-- R33, R36, R37: what the lines hold after an instruction other than `open` and `close` is what its events say; nothing
else moves them, and the bias never changes. -/
def Obligations.LinesFollowTheTrace : Prop :=
  ∀ (i : Instr) (s t : State) (es : List BBEvent), i.isLifecycle = false → exec i s = .next t →
    t.bb.trace = s.bb.trace ++ es →
    t.bb.lines = linesAfter s.bb.lines es ∧ t.bb.clk.dir = s.bb.clk.dir ∧
      t.bb.clk.claimed = s.bb.clk.claimed ∧ t.bb.data.claimed = s.bb.data.claimed ∧
      t.bb.clk.bias = s.bb.clk.bias ∧ t.bb.data.bias = s.bb.data.bias

/-- R242: two instructions that differ in their operands only (lists of equal lengths), in two states between commands that
agree on what is open, on the switches and on which collaborator calls fail, end with the same error or both without one,
whatever the environment supplies and whatever the lines hold. The spec marks the rule as derived. -/
def Obligations.ErrorsNeverDependOnData : Prop :=
  ∀ (i j : Instr) (s s' t t' : State) (r r' : Result), i.skeleton = j.skeleton → s.Inv → s'.Inv →
    s.bb.isOpen = s'.bb.isOpen → s.sf.isOpen = s'.sf.isOpen → s.switches = s'.switches →
    s.bb.env.failures = s'.bb.env.failures → s.sf.env.failures = s'.sf.env.failures →
    exec i s = .next t → exec j s' = .next t' →
    t.resultsOf i.engine = s.resultsOf i.engine ++ [r] → t'.resultsOf j.engine = s'.resultsOf j.engine ++ [r'] →
    r.error = r'.error

/-- R23, R174: nothing a step does depends on a sampled or received bit: two states that differ only in what the environments
supplied and will supply have steps that differ only in that. -/
def Obligations.SamplesNeverSteer : Prop :=
  ∀ s s' : State, s.blind = s'.blind → blindOutcome (step s) = blindOutcome (step s')

/-- R30: the two instances share nothing. An instruction of one engine leaves the other, the host's further commands, the
board and the switches as they are, and does the same whatever the other engine's state is. -/
def Obligations.EnginesShareNothing : Prop :=
  ∀ (i : Instr) (s : State) (x : SF) (y : BB),
    (i.engine = .bitbang →
      (∀ t, exec i s = .next t → t = s.withBB t.bb) ∧
      (match exec i s with
        | .next t => exec i (s.withSF x) = .next (t.withSF x)
        | .fault f => exec i (s.withSF x) = .fault f
        | .refused f => exec i (s.withSF x) = .refused f)) ∧
    (i.engine = .spi →
      (∀ t, exec i s = .next t → t = s.withSF t.sf) ∧
      (match exec i s with
        | .next t => exec i (s.withBB y) = .next (t.withBB y)
        | .fault f => exec i (s.withBB y) = .fault f
        | .refused f => exec i (s.withBB y) = .refused f))

/-- R18, R62, R26, R27: an instruction delivers exactly one result, `Ok` with a value of its result type or `Err`; what is on
the bus trace stays there; the configuration never changes. -/
def Obligations.OneResultPerCommand : Prop :=
  ∀ (i : Instr) (s t : State), exec i s = .next t →
    (∃ r, t.resultsOf i.engine = s.resultsOf i.engine ++ [r] ∧ ∀ v, r = .ok v → v.fits i) ∧
    s.bb.trace <+: t.bb.trace ∧ s.sf.trace <+: t.sf.trace ∧ t.bb.cfg = s.bb.cfg ∧ t.sf.cfg = s.sf.cfg

/-- R210: every transfer an instruction makes holds chip select, and it has a width and a word the peripheral accepts (R40).
For the flush and data transfers it is the spec's own choice (D18). -/
def Obligations.TransfersHoldChipSelect : Prop :=
  ∀ (i : Instr) (s t : State) (xs : List SFEvent), exec i s = .next t → t.sf.trace = s.sf.trace ++ xs →
    ∀ (n tx rx : Nat) (cs : Bool), .xfer n tx cs rx ∈ xs →
      cs = false ∧ (n = 16 ∨ n = 32) ∧ tx < 2 ^ n ∧ rx < 2 ^ n

/-! ### Environments (R56) -/

/-- R235, R275: with no responder (the line floats high) a read completes with all ones and no error, on both engines. -/
def Obligations.FloatHighReadsOnes : Prop :=
  ∀ (s : State) (p e r : Nat), s.switches = Switches.normative →
    (s.bb.Ready → s.bb.env.levels = [] → s.bb.env.floatHigh = true →
      ∃ t u w, exec (.bbReadC22 p r) s = .next t ∧ t.bb.results = s.bb.results ++ [.ok (.u16 0xFFFF)] ∧
        exec (.bbReadC45 p e r) s = .next u ∧ u.bb.results = s.bb.results ++ [.ok (.u16 0xFFFF)] ∧
        exec (.bbReadC45Dword p e r) s = .next w ∧ w.bb.results = s.bb.results ++ [.ok (.u32 0xFFFFFFFF)]) ∧
    (s.sf.Ready → s.sf.env.received = [] → s.sf.env.floatHigh = true →
      ∃ t u, exec (.sfReadC22 p r) s = .next t ∧ t.sf.results = s.sf.results ++ [.ok (.u16 0xFFFF)] ∧
        exec (.sfReadC45 p e r) s = .next u ∧ u.sf.results = s.sf.results ++ [.ok (.u16 0xFFFF)])

/-- With a responder that stores what it is sent, a write and a read of the same register give the value back, masked, on both
engines and in both clauses. 95_test_vectors.md T1 and P2 give the round trip for Clause 22 on both engines and for Clause 45
on the bit-bang engine; for Clause 45 on the SPI-framed engine it rests on R200 and R201. -/
def Obligations.EchoRoundTrip : Prop :=
  ∀ (phy : Fixtures.EchoPhy) (s : State) (p e r v : Nat) (later : List Level) (laterWords : List U32),
    s.switches = Switches.normative →
    (s.bb.Ready →
      (s.bb.env.levels = phy.samples ((writeC22 p r v).frames ++ (readC22 p r).frames) ++ later →
        ∃ t u, exec (.bbWriteC22 p r v) s = .next t ∧ exec (.bbReadC22 p r) t = .next u ∧
          u.bb.results = s.bb.results ++ [.ok .unit, .ok (.u16 (mask 16 v))]) ∧
      (s.bb.env.levels = phy.samples ((writeC45 p e r v).frames ++ (readC45 p e r).frames) ++ later →
        ∃ t u, exec (.bbWriteC45 p e r v) s = .next t ∧ exec (.bbReadC45 p e r) t = .next u ∧
          u.bb.results = s.bb.results ++ [.ok .unit, .ok (.u16 (mask 16 v))])) ∧
    (s.sf.Ready →
      (s.sf.env.received = phy.received [writeC22 p r v, readC22 p r] ++ laterWords →
        ∃ t u, exec (.sfWriteC22 p r v) s = .next t ∧ exec (.sfReadC22 p r) t = .next u ∧
          u.sf.results = s.sf.results ++ [.ok .unit, .ok (.u16 (mask 16 v))]) ∧
      (s.sf.env.received = phy.received [writeC45 p e r v, readC45 p e r] ++ laterWords →
        ∃ t u, exec (.sfWriteC45 p e r v) s = .next t ∧ exec (.sfReadC45 p e r) t = .next u ∧
          u.sf.results = s.sf.results ++ [.ok .unit, .ok (.u16 (mask 16 v))]))

/-! ### What has no row -/

/-- R98, R117, R194: no command of the host carries a frame or header word without a row (R99). A frame-level primitive asked
for a reserved `(ST, OP)` pair sends it, as a read-class frame when `OP[1] = 1` and as a write-class frame otherwise (the
spec's own choice, D21); a header word is sent with its own turnaround, or `11` where its opcode is read-class. That a
request can ask for one, and that it begins with the open check, is the model's (assumption log 9, 22). -/
def Obligations.FramesWithoutARowAreSent : Prop :=
  (∀ r : Request, r.fromHost = true → requestedFrame r = none) ∧
  (∀ (s : State) (e : Engine) (w : Nat) (rest : List Request), w < 2 ^ 32 →
    (2 ≤ w / 2 ^ 30 ∨ w / 2 ^ 28 = 0b0100 ∨ w / 2 ^ 28 = 0b0111) → s.requests = ⟨e, .frame32, [w]⟩ :: rest →
    s.board.contended e = false →
    (e = .bitbang → s.bb.isOpen = false → step s = .next ((s.withRequests rest).withBB (s.bb.raise .notOpen))) ∧
    (e = .spi → s.sf.isOpen = false → step s = .next ((s.withRequests rest).withSF (s.sf.raise .notOpen))) ∧
    (e = .bitbang → s.bb.Ready →
      step s = .next ((s.withRequests rest).withBB
        (if w.testBit 29 then
          s.bb.completed (readFrameEvents (w / 2 ^ 18) (s.bb.window 0 18)) true (.u16 (wordOfBits (s.bb.window 2 16)))
        else s.bb.completed (writeFrameEvents (w / 2 ^ 18 * 2 ^ 18 + 0x20000 + w % 65536)) (w.testBit 0) .unit))) ∧
    (e = .spi → s.sf.Ready → s.switches = Switches.normative →
      step s = .next ((s.withRequests rest).withSF
        (if w.testBit 29 then
          s.sf.completed [(32, 0xFFFFFFFF), (16, w / 2 ^ 18 * 4 + 3), (16, 0xFFFF)] (.u16 (BitVec.ofNat 16 (s.sf.wordAt 2)))
        else s.sf.completed [(32, 0xFFFFFFFF), (16, w / 2 ^ 16), (16, w % 65536)] .unit)))) ∧
  (∀ (s : State) (w : Nat) (why : Reject) (rest : List Request), w < 2 ^ 16 →
    decodeRequest ⟨.spi, .hdr16, [w]⟩ = .error why → s.requests = ⟨.spi, .hdr16, [w]⟩ :: rest →
    s.board.contended .spi = false →
    (s.sf.isOpen = false → step s = .next ((s.withRequests rest).withSF (s.sf.raise .notOpen))) ∧
    (s.sf.Ready →
      step s = .next ((s.withRequests rest).withSF
        (s.sf.completed [(16, if w.testBit 13 then w / 4 * 4 + 3 else w)] .unit))))
end

