-- ==== Sys2Proof/Laws/Run.lean ====
section
/-! SUPPORT. What the shared operations of Machine/Ops.lean can do, each said once. -/

namespace Sys2Proof.Machine

/-! ### One collaborator call -/

/-- The instance with one collaborator call spent. -/
def BB.spent (b : BB) : BB := { b with env := { b.env with failures := b.env.failures.tail } }

/-- The instance with one collaborator call spent. -/
def SF.spent (f : SF) : SF := { f with env := { f.env with failures := f.env.failures.tail } }

theorem BB.attempt_cases (b : BB) (call : BB → Ran BB Level) :
    b.attempt call = call b.spent ∨ ∃ f, b.attempt call = .failed b.spent (.transportIO f) := by
  rcases b with ⟨_, _, _, _, _, _, _, ⟨fs, _, _⟩, _⟩
  rcases fs with _ | ⟨_ | f, rest⟩
  · exact .inl rfl
  · exact .inl rfl
  · exact .inr ⟨f, rfl⟩

theorem SF.attempt_cases (s : SF) (call : SF → Ran SF U16) :
    s.attempt call = call s.spent ∨ ∃ f, s.attempt call = .failed s.spent (.transportIO f) := by
  rcases s with ⟨_, _, _, _, _, _, ⟨fs, _, _⟩, _⟩
  rcases fs with _ | ⟨_ | f, rest⟩
  · exact .inl rfl
  · exact .inl rfl
  · exact .inr ⟨f, rfl⟩

theorem BB.attempt_of_quiet {b : BB} (h : b.Quiet) (call : BB → Ran BB Level) : b.attempt call = call b.spent := by
  rcases b with ⟨_, _, _, _, _, _, _, ⟨fs, _, _⟩, _⟩
  rcases fs with _ | ⟨_ | f, rest⟩
  · rfl
  · rfl
  · exact absurd (h (some f) (by simp)) (by simp)

theorem SF.attempt_of_quiet {f : SF} (h : f.Quiet) (call : SF → Ran SF U16) : f.attempt call = call f.spent := by
  rcases f with ⟨_, _, _, _, _, _, ⟨fs, _, _⟩, _⟩
  rcases fs with _ | ⟨_ | f, rest⟩
  · rfl
  · rfl
  · exact absurd (h (some f) (by simp)) (by simp)

theorem BB.Quiet.spent {b : BB} (h : b.Quiet) : b.spent.Quiet :=
  fun f hf => h f (List.mem_of_mem_tail hf)

theorem SF.Quiet.spent {f : SF} (h : f.Quiet) : f.spent.Quiet :=
  fun x hx => h x (List.mem_of_mem_tail hx)

/-! ### One step of the bit-bang engine: everything it can do -/

/-- How one step of the bit-bang engine ends: it succeeds with the operation's effect; it finds the line unclaimed;
the environment fails the call; or it is a drive or a sample against the line's direction. -/
theorem BB.perform_cases (op : LineOp) (b : BB) :
    (op = .element ∧ b.perform op = .done { b with seq := b.seq.nextElement } []) ∨
    (op = .frame ∧ b.perform op = .done { b with seq := b.seq.nextFrame } []) ∨
    (∃ d, op = .wait d ∧ b.perform op = .done b []) ∨
    (∃ l, op = .clk l ∧ b.clk.claimed = true ∧ b.clk.dir = .output ∧ b.perform op = .done (b.spent.clkWritten l) []) ∨
    (∃ l, op = .data l ∧ b.data.claimed = true ∧ b.data.dir = .output ∧
      b.perform op = .done (b.spent.dataWritten l) []) ∨
    (∃ keep, op = .sample keep ∧ b.data.claimed = true ∧ b.data.dir = .input ∧
      b.perform op = .done b.spent.sampled (if keep then [b.drawnLevel] else [])) ∨
    (op = .dirIn ∧ b.data.claimed = true ∧ b.perform op = .done b.spent.turnedIn []) ∨
    (∃ l, op = .dirOut l ∧ b.data.claimed = true ∧ b.perform op = .done (b.spent.turnedOut l) []) ∨
    b.perform op = .failed b .notOpen ∨
    (∃ f, b.perform op = .failed b.spent (.transportIO f)) ∨
    b.perform op = .fault .staleDirection := by
  cases op with
  | element => exact .inl ⟨rfl, rfl⟩
  | frame => exact .inr (.inl ⟨rfl, rfl⟩)
  | wait d => exact .inr (.inr (.inl ⟨d, rfl, rfl⟩))
  | clk l =>
    by_cases hc : b.clk.claimed = true
    · cases hd : b.clk.dir with
      | output =>
        rcases b.attempt_cases (fun b => .done (b.clkWritten l) []) with h | ⟨f, h⟩
        · exact .inr (.inr (.inr (.inl ⟨l, rfl, hc, rfl, by simp [BB.perform, BB.write, hc, hd, h]⟩)))
        · simp [BB.perform, BB.write, hc, hd, h]
      | input => simp [BB.perform, BB.write, hc, hd]
    · simp [BB.perform, BB.write, hc]
  | data l =>
    by_cases hc : b.data.claimed = true
    · cases hd : b.data.dir with
      | output =>
        rcases b.attempt_cases (fun b => .done (b.dataWritten l) []) with h | ⟨f, h⟩
        · exact .inr (.inr (.inr (.inr (.inl ⟨l, rfl, hc, rfl, by simp [BB.perform, BB.write, hc, hd, h]⟩))))
        · simp [BB.perform, BB.write, hc, hd, h]
      | input => simp [BB.perform, BB.write, hc, hd]
    · simp [BB.perform, BB.write, hc]
  | sample keep =>
    by_cases hc : b.data.claimed = true
    · cases hd : b.data.dir with
      | input =>
        rcases b.attempt_cases (fun b => .done b.sampled (if keep then [b.drawnLevel] else [])) with h | ⟨f, h⟩
        · exact .inr (.inr (.inr (.inr (.inr (.inl
            ⟨keep, rfl, hc, rfl, by simp [BB.perform, BB.read, hc, hd, h]; rfl⟩)))))
        · simp [BB.perform, BB.read, hc, hd, h]
      | output => simp [BB.perform, BB.read, hc, hd]
    · simp [BB.perform, BB.read, hc]
  | dirIn =>
    by_cases hc : b.data.claimed = true
    · rcases b.attempt_cases (fun b => .done b.turnedIn []) with h | ⟨f, h⟩ <;>
        simp [BB.perform, BB.turn, hc, h]
    · simp [BB.perform, BB.turn, hc]
  | dirOut l =>
    by_cases hc : b.data.claimed = true
    · rcases b.attempt_cases (fun b => .done (b.turnedOut l) []) with h | ⟨f, h⟩
      · exact .inr (.inr (.inr (.inr (.inr (.inr (.inr (.inl ⟨l, rfl, hc, by simp [BB.perform, BB.turn, hc, h]⟩)))))))
      · simp [BB.perform, BB.turn, hc, h]
    · simp [BB.perform, BB.turn, hc]

/-! ### One transfer of the SPI-framed engine: everything it can do -/

/-- How one step of the SPI-framed engine ends: it succeeds; the port is unclaimed; the arguments are malformed; or the
environment fails the transfer. It never faults. -/
theorem SF.perform_cases (op : SpiOp) (f : SF) :
    (op = .element ∧ f.perform op = .done { f with seq := f.seq.nextElement } []) ∨
    (op = .frame ∧ f.perform op = .done { f with seq := f.seq.nextFrame } []) ∨
    (∃ n tx cs keep, op = .xfer n tx cs keep ∧ f.spi.claimed = true ∧ (n = 16 ∨ n = 32) ∧ tx < 2 ^ n ∧
      f.perform op = .done (f.spent.transferred n tx cs) (if keep then [Codec.mask 16 (f.drawnWord n)] else [])) ∨
    f.perform op = .failed f .notOpen ∨
    f.perform op = .failed f .parameterInvalid ∨
    ∃ x, f.perform op = .failed f.spent (.transportIO x) := by
  cases op with
  | element => exact .inl ⟨rfl, rfl⟩
  | frame => exact .inr (.inl ⟨rfl, rfl⟩)
  | xfer n tx cs keep =>
    by_cases hc : f.spi.claimed = true
    · by_cases hw : (n = 16 ∨ n = 32) ∧ tx < 2 ^ n
      · rcases f.attempt_cases (fun s => .done (s.transferred n tx cs)
          (if keep then [Codec.mask 16 (s.drawnWord n)] else [])) with h | ⟨x, h⟩
        · exact .inr (.inr (.inl ⟨n, tx, cs, keep, rfl, hc, hw.1, hw.2, by
            simp only [SF.perform, SF.xfer, hc, if_true, hw, h]; rfl⟩))
        · exact .inr (.inr (.inr (.inr (.inr ⟨x, by simp [SF.perform, SF.xfer, hc, hw, h]⟩))))
      · exact .inr (.inr (.inr (.inr (.inl (by simp only [SF.perform, SF.xfer, hc, if_true, hw, if_false])))))
    · exact .inr (.inr (.inr (.inl (by simp [SF.perform, SF.xfer, hc]))))

/-! ### Running a sequence -/

theorem runOps_nil {σ ω β : Type} (perform : ω → σ → Ran σ β) (s : σ) : runOps perform [] s = .done s [] := rfl

theorem runOps_append {σ ω β : Type} (perform : ω → σ → Ran σ β) (xs ys : List ω) (s : σ) :
    runOps perform (xs ++ ys) s =
      match runOps perform xs s with
      | .done s' got =>
        match runOps perform ys s' with
        | .done s'' got' => .done s'' (got ++ got')
        | .failed s'' e => .failed s'' e
        | .fault f => .fault f
      | .failed s' e => .failed s' e
      | .fault f => .fault f := by
  induction xs generalizing s with
  | nil =>
    simp only [List.nil_append, runOps]
    cases runOps perform ys s <;> simp
  | cons x xs ih =>
    simp only [List.cons_append, runOps]
    cases perform x s with
    | done s' got =>
      simp only [ih]
      cases runOps perform xs s' with
      | done s'' got' =>
        simp only
        cases runOps perform ys s'' <;> simp
      | failed _ _ => rfl
      | fault _ => rfl
    | failed _ _ => rfl
    | fault _ => rfl

/-- Where two sequences succeed one after the other, so does their concatenation. -/
theorem runOps_append_done {σ ω β : Type} {perform : ω → σ → Ran σ β} {xs ys : List ω} {s s' s'' : σ} {g g' : List β}
    (h : runOps perform xs s = .done s' g) (h' : runOps perform ys s' = .done s'' g') :
    runOps perform (xs ++ ys) s = .done s'' (g ++ g') := by
  rw [runOps_append, h]
  simp [h']

theorem runOps_cons_done {σ ω β : Type} {perform : ω → σ → Ran σ β} {x : ω} {xs : List ω} {s s' s'' : σ} {g g' : List β}
    (h : perform x s = .done s' g) (h' : runOps perform xs s' = .done s'' g') :
    runOps perform (x :: xs) s = .done s'' (g ++ g') := by
  simp [runOps, h, h']

/-- A state that a run ends in. -/
inductive Ran.EndsIn {σ β : Type} : Ran σ β → σ → Prop
  | done (s : σ) (got : List β) : Ran.EndsIn (.done s got) s
  | failed (s : σ) (e : ErrorKind) : Ran.EndsIn (.failed s e) s

/-- What every single operation keeps, a whole run keeps, whether it succeeds or stops on the way. -/
theorem runOps_relates {σ ω β : Type} {perform : ω → σ → Ran σ β} (R : σ → σ → Prop) (hrefl : ∀ s, R s s)
    (htrans : ∀ a b c, R a b → R b c → R a c) (hop : ∀ op s s', (perform op s).EndsIn s' → R s s') :
    ∀ (ops : List ω) (s s' : σ), (runOps perform ops s).EndsIn s' → R s s' := by
  intro ops
  induction ops with
  | nil =>
    intro s s' h
    cases h
    exact hrefl _
  | cons op ops ih =>
    intro s s' h
    simp only [runOps] at h
    cases hp : perform op s with
    | done s1 got =>
      have h1 : R s s1 := hop op s s1 (by rw [hp]; exact .done _ _)
      rw [hp] at h
      simp only at h
      cases hr : runOps perform ops s1 with
      | done s2 got' =>
        rw [hr] at h
        cases h
        exact htrans _ _ _ h1 (ih s1 s' (by rw [hr]; exact .done _ _))
      | failed s2 e =>
        rw [hr] at h
        cases h
        exact htrans _ _ _ h1 (ih s1 s' (by rw [hr]; exact .failed _ _))
      | fault f =>
        rw [hr] at h
        cases h
    | failed s1 e =>
      rw [hp] at h
      cases h
      exact hop op s s' (by rw [hp]; exact .failed _ _)
    | fault f =>
      rw [hp] at h
      cases h

/-! ### What no operation changes -/

/-- What a register command never changes in a bit-bang instance (R26, R37, R160): its configuration, whether it is
open, the claim, bias and results, and the direction of the clock line; and the bus trace only grows (R62). -/
structure BB.Kept (b b' : BB) : Prop where
  cfg : b'.cfg = b.cfg
  isOpen : b'.isOpen = b.isOpen
  clkClaimed : b'.clk.claimed = b.clk.claimed
  clkDir : b'.clk.dir = b.clk.dir
  clkBias : b'.clk.bias = b.clk.bias
  dataClaimed : b'.data.claimed = b.data.claimed
  dataBias : b'.data.bias = b.data.bias
  results : b'.results = b.results
  trace : b.trace <+: b'.trace

theorem BB.Kept.refl (b : BB) : b.Kept b := ⟨rfl, rfl, rfl, rfl, rfl, rfl, rfl, rfl, List.prefix_rfl⟩

theorem BB.Kept.trans {a b c : BB} (h : a.Kept b) (h' : b.Kept c) : a.Kept c :=
  ⟨h'.cfg.trans h.cfg, h'.isOpen.trans h.isOpen, h'.clkClaimed.trans h.clkClaimed, h'.clkDir.trans h.clkDir,
    h'.clkBias.trans h.clkBias, h'.dataClaimed.trans h.dataClaimed, h'.dataBias.trans h.dataBias,
    h'.results.trans h.results, h.trace.trans h'.trace⟩

theorem BB.perform_kept (op : LineOp) (b b' : BB) (h : (b.perform op).EndsIn b') : b.Kept b' := by
  rcases b.perform_cases op with ⟨_, e⟩ | ⟨_, e⟩ | ⟨_, _, e⟩ | ⟨_, _, _, _, e⟩ | ⟨_, _, _, _, e⟩ | ⟨_, _, _, _, e⟩ |
    ⟨_, _, e⟩ | ⟨_, _, _, e⟩ | e | ⟨_, e⟩ | e <;> rw [e] at h <;> cases h <;>
    exact ⟨rfl, rfl, rfl, rfl, rfl, rfl, rfl, rfl, by
      first
        | exact List.prefix_rfl
        | exact List.prefix_append _ _⟩

theorem BB.run_kept (ops : List LineOp) (b b' : BB) (h : (b.run ops).EndsIn b') : b.Kept b' :=
  runOps_relates BB.Kept BB.Kept.refl (fun _ _ _ => BB.Kept.trans) BB.perform_kept ops b b' h

/-- What a register command never changes in an SPI-framed instance (R27, R212); and the bus trace only grows. -/
structure SF.Kept (f f' : SF) : Prop where
  cfg : f'.cfg = f.cfg
  isOpen : f'.isOpen = f.isOpen
  spi : f'.spi = f.spi
  results : f'.results = f.results
  trace : f.trace <+: f'.trace

theorem SF.Kept.refl (f : SF) : f.Kept f := ⟨rfl, rfl, rfl, rfl, List.prefix_rfl⟩

theorem SF.Kept.trans {a b c : SF} (h : a.Kept b) (h' : b.Kept c) : a.Kept c :=
  ⟨h'.cfg.trans h.cfg, h'.isOpen.trans h.isOpen, h'.spi.trans h.spi, h'.results.trans h.results, h.trace.trans h'.trace⟩

theorem SF.perform_kept (op : SpiOp) (f f' : SF) (h : (f.perform op).EndsIn f') : f.Kept f' := by
  rcases f.perform_cases op with ⟨_, e⟩ | ⟨_, e⟩ | ⟨_, _, _, _, _, _, _, _, e⟩ | e | e | ⟨_, e⟩ <;> rw [e] at h <;>
    cases h <;>
    exact ⟨rfl, rfl, rfl, rfl, by
      first
        | exact List.prefix_rfl
        | exact List.prefix_append _ _⟩

theorem SF.run_kept (ops : List SpiOp) (f f' : SF) (h : (f.run ops).EndsIn f') : f.Kept f' :=
  runOps_relates SF.Kept SF.Kept.refl (fun _ _ _ => SF.Kept.trans) SF.perform_kept ops f f' h

/-- No transfer faults, so no run of the SPI-framed engine does (R212: it has no direction state). -/
theorem SF.run_no_fault (ops : List SpiOp) (f : SF) (r : Fault) : f.run ops ≠ .fault r := by
  induction ops generalizing f with
  | nil => simp [SF.run, runOps]
  | cons op ops ih =>
    intro h
    simp only [SF.run] at ih
    simp only [SF.run, runOps] at h
    rcases f.perform_cases op with ⟨_, e⟩ | ⟨_, e⟩ | ⟨_, _, _, _, _, _, _, _, e⟩ | e | e | ⟨_, e⟩ <;> rw [e] at h <;>
      simp only [reduceCtorEq] at h
    all_goals
      split at h
      · cases h
      · cases h
      · rename_i r' hr
        cases h
        exact ih _ hr

/-! ### A whole command -/

/-- How a register command of the bit-bang engine ends. -/
theorem bbCommand_cases (ops : List LineOp) (value : List Level → Value) (s : State) :
    (s.bb.isOpen = false ∧ bbCommand ops value s = .next (s.withBB (s.bb.raise .notOpen))) ∨
    (s.bb.isOpen = true ∧ ∃ b got, s.bb.run ops = .done b got ∧ s.bb.Kept b ∧
      bbCommand ops value s = .next (s.withBB (b.deliver (.ok (value got))))) ∨
    (s.bb.isOpen = true ∧ ∃ b e, s.bb.run ops = .failed b e ∧ s.bb.Kept b ∧
      bbCommand ops value s = .next (s.withBB (b.raise e))) ∨
    (s.bb.isOpen = true ∧ ∃ f, s.bb.run ops = .fault f ∧ bbCommand ops value s = .fault f) := by
  cases ho : s.bb.isOpen with
  | false => exact .inl ⟨rfl, by simp [bbCommand, ho]⟩
  | true =>
    cases hr : s.bb.run ops with
    | done b got =>
      exact .inr (.inl ⟨rfl, b, got, rfl, BB.run_kept ops _ _ (by rw [hr]; exact .done _ _), by simp [bbCommand, ho, hr]⟩)
    | failed b e =>
      exact .inr (.inr (.inl ⟨rfl, b, e, rfl, BB.run_kept ops _ _ (by rw [hr]; exact .failed _ _),
        by simp [bbCommand, ho, hr]⟩))
    | fault f => exact .inr (.inr (.inr ⟨rfl, f, rfl, by simp [bbCommand, ho, hr]⟩))

/-- How a register command of the SPI-framed engine ends: never in a fault. -/
theorem sfCommand_cases (ops : List SpiOp) (value : List U16 → Value) (s : State) :
    (s.sf.isOpen = false ∧ sfCommand ops value s = .next (s.withSF (s.sf.raise .notOpen))) ∨
    (s.sf.isOpen = true ∧ ∃ f got, s.sf.run ops = .done f got ∧ s.sf.Kept f ∧
      sfCommand ops value s = .next (s.withSF (f.deliver (.ok (value got))))) ∨
    (s.sf.isOpen = true ∧ ∃ f e, s.sf.run ops = .failed f e ∧ s.sf.Kept f ∧
      sfCommand ops value s = .next (s.withSF (f.raise e))) := by
  cases ho : s.sf.isOpen with
  | false => exact .inl ⟨rfl, by simp [sfCommand, ho]⟩
  | true =>
    cases hr : s.sf.run ops with
    | done f got =>
      exact .inr (.inl ⟨rfl, f, got, rfl, SF.run_kept ops _ _ (by rw [hr]; exact .done _ _), by simp [sfCommand, ho, hr]⟩)
    | failed f e =>
      exact .inr (.inr ⟨rfl, f, e, rfl, SF.run_kept ops _ _ (by rw [hr]; exact .failed _ _), by simp [sfCommand, ho, hr]⟩)
    | fault r => exact absurd hr (SF.run_no_fault ops _ r)

end Sys2Proof.Machine
end

