-- ==== Sys2Proof/Laws/BitBang.lean ====
section
/-! SUPPORT. What the micro-operations of the bit-bang engine do where no collaborator call fails. -/

namespace Sys2Proof.Machine

open Codec

/-! ### Events and samples -/

@[simp] theorem wSlots_nil : wSlots [] = [] := rfl
theorem wSlots_append (xs ys : List Level) : wSlots (xs ++ ys) = wSlots xs ++ wSlots ys := List.flatMap_append
@[simp] theorem rSlots_nil : rSlots [] = [] := rfl
theorem rSlots_append (xs ys : List Level) : rSlots (xs ++ ys) = rSlots xs ++ rSlots ys := List.flatMap_append
@[simp] theorem sampleCount_nil : sampleCount [] = 0 := rfl
@[simp] theorem sampleCount_append (xs ys : List BBEvent) : sampleCount (xs ++ ys) = sampleCount xs + sampleCount ys := by
  simp [sampleCount]
theorem sampleCount_singleton (e : BBEvent) : sampleCount [e] = if e.isSample then 1 else 0 := by
  cases h : e.isSample <;> simp [sampleCount, h]
theorem sampleCount_cons (e : BBEvent) (es : List BBEvent) :
    sampleCount (e :: es) = (if e.isSample then 1 else 0) + sampleCount es := by
  rw [← List.singleton_append, sampleCount_append, sampleCount_singleton]
@[simp] theorem wSlots_length (bs : List Level) : (wSlots bs).length = 3 * bs.length := by
  induction bs with
  | nil => rfl
  | cons b bs ih => simp [wSlots] at *; omega
@[simp] theorem rSlots_length (ls : List Level) : (rSlots ls).length = 3 * ls.length := by
  induction ls with
  | nil => rfl
  | cons b bs ih => simp [rSlots] at *; omega
@[simp] theorem sampleCount_wSlots (bs : List Level) : sampleCount (wSlots bs) = 0 := by
  induction bs with
  | nil => rfl
  | cons b bs ih => simpa [sampleCount, wSlots, BBEvent.isSample] using ih
@[simp] theorem sampleCount_rSlots (ls : List Level) : sampleCount (rSlots ls) = ls.length := by
  induction ls with
  | nil => rfl
  | cons b bs ih =>
    simp only [sampleCount, rSlots, List.flatMap_cons, List.cons_append, List.nil_append, List.filter_cons, List.length_cons,
      BBEvent.isSample, if_true, Bool.false_eq_true, if_false] at *
    omega

@[simp] theorem BB.upcoming_length (b : BB) (n : Nat) : (b.upcoming n).length = n := by simp [BB.upcoming]

theorem BB.drawnLevel_eq (b : BB) : b.drawnLevel = b.levelAt 0 := by
  rcases b with ⟨_, _, _, _, _, _, _, ⟨_, ls, _⟩, _⟩
  cases ls <;> rfl

/-! ### An instance with progress made -/

/-- The instance after these events: one collaborator call each, the samples drawn, the lines at the levels given. -/
def BB.advanced (b : BB) (q : Sequencer) (es : List BBEvent) (clk drive : Level) (dir : Direction) : BB :=
  { b with
    clk := { b.clk with drive := clk }
    data := { b.data with drive := drive, dir := dir }
    seq := q
    trace := b.trace ++ es
    env := { b.env with failures := b.env.failures.drop es.length, levels := b.env.levels.drop (sampleCount es) }
    free := b.free + sampleCount es }

@[simp] theorem BB.advanced_clk_claimed (b : BB) (q : Sequencer) (es : List BBEvent) (c d : Level) (r : Direction) :
    (b.advanced q es c d r).clk.claimed = b.clk.claimed := rfl
@[simp] theorem BB.advanced_clk_dir (b : BB) (q : Sequencer) (es : List BBEvent) (c d : Level) (r : Direction) :
    (b.advanced q es c d r).clk.dir = b.clk.dir := rfl
@[simp] theorem BB.advanced_clk_drive (b : BB) (q : Sequencer) (es : List BBEvent) (c d : Level) (r : Direction) :
    (b.advanced q es c d r).clk.drive = c := rfl
@[simp] theorem BB.advanced_data_claimed (b : BB) (q : Sequencer) (es : List BBEvent) (c d : Level) (r : Direction) :
    (b.advanced q es c d r).data.claimed = b.data.claimed := rfl
@[simp] theorem BB.advanced_data_dir (b : BB) (q : Sequencer) (es : List BBEvent) (c d : Level) (r : Direction) :
    (b.advanced q es c d r).data.dir = r := rfl
@[simp] theorem BB.advanced_data_drive (b : BB) (q : Sequencer) (es : List BBEvent) (c d : Level) (r : Direction) :
    (b.advanced q es c d r).data.drive = d := rfl
@[simp] theorem BB.advanced_seq (b : BB) (q : Sequencer) (es : List BBEvent) (c d : Level) (r : Direction) :
    (b.advanced q es c d r).seq = q := rfl

theorem BB.advanced_advanced (b : BB) (q q' : Sequencer) (es es' : List BBEvent) (c c' d d' : Level) (r r' : Direction) :
    (b.advanced q es c d r).advanced q' es' c' d' r' = b.advanced q' (es ++ es') c' d' r' := by
  simp [BB.advanced, List.drop_drop, Nat.add_assoc]

theorem BB.levelAt_advanced (b : BB) (q : Sequencer) (es : List BBEvent) (c d : Level) (r : Direction) (k : Nat) :
    (b.advanced q es c d r).levelAt k = b.levelAt (sampleCount es + k) := by
  simp only [BB.levelAt, BB.advanced, List.getElem?_drop, Nat.add_assoc]

theorem BB.upcoming_advanced (b : BB) (q : Sequencer) (es : List BBEvent) (c d : Level) (r : Direction) (n : Nat) :
    (b.advanced q es c d r).upcoming n = (b.upcoming (sampleCount es + n)).drop (sampleCount es) := by
  apply List.ext_getElem
  · simp
  · intro i h1 h2
    simp [BB.upcoming, BB.levelAt_advanced]

theorem BB.upcoming_take (b : BB) {m n : Nat} (h : m ≤ n) : (b.upcoming n).take m = b.upcoming m := by
  simp [BB.upcoming, ← List.map_take, List.take_range, Nat.min_eq_left h]

theorem BB.Quiet.advanced {b : BB} (h : b.Quiet) (q : Sequencer) (es : List BBEvent) (c d : Level) (r : Direction) :
    (b.advanced q es c d r).Quiet :=
  fun f hf => h f (List.mem_of_mem_drop hf)

theorem BB.Driving.advanced {b : BB} (h : b.Driving) (q : Sequencer) (es : List BBEvent) (c d : Level) :
    (b.advanced q es c d .output).Driving :=
  ⟨h.1, h.2.1, h.2.2.1, rfl⟩

/-! ### One operation -/

theorem BB.perform_clk {b : BB} (hq : b.Quiet) (hc : b.clk.claimed = true) (hd : b.clk.dir = .output) (l : Level) :
    b.perform (.clk l) = .done (b.advanced (if l then b.seq else b.seq.pulses 1) [.cout l] l b.data.drive b.data.dir) [] := by
  simp only [BB.perform, BB.write, hc, hd, if_true, BB.attempt_of_quiet hq]
  simp [BB.spent, BB.clkWritten, BB.advanced, sampleCount, BBEvent.isSample]

theorem BB.perform_data {b : BB} (hq : b.Quiet) (hc : b.data.claimed = true) (hd : b.data.dir = .output) (l : Level) :
    b.perform (.data l) = .done (b.advanced b.seq [.dout l] b.clk.drive l .output) [] := by
  simp only [BB.perform, BB.write, hc, hd, if_true, BB.attempt_of_quiet hq]
  simp [BB.spent, BB.dataWritten, BB.advanced, sampleCount, BBEvent.isSample, hd]

theorem BB.perform_sample {b : BB} (hq : b.Quiet) (hc : b.data.claimed = true) (hd : b.data.dir = .input) (keep : Bool) :
    b.perform (.sample keep) =
      .done (b.advanced b.seq [.dsample (b.levelAt 0)] b.clk.drive b.data.drive .input)
        (if keep then [b.levelAt 0] else []) := by
  simp only [BB.perform, BB.read, hc, hd, if_true, BB.attempt_of_quiet hq, ← BB.drawnLevel_eq]
  rcases b with ⟨_, _, _, ⟨_, _, _, _⟩, _, _, _, ⟨_, _, _⟩, _⟩
  subst hd
  simp only [BB.spent, BB.sampled, BB.afterDraw, BB.advanced, sampleCount_singleton, BBEvent.isSample, if_true, List.drop_one,
    List.length_singleton]
  rfl

theorem BB.perform_dirIn {b : BB} (hq : b.Quiet) (hc : b.data.claimed = true) :
    b.perform .dirIn = .done (b.advanced b.seq [.ddirIn] b.clk.drive b.data.drive .input) [] := by
  simp only [BB.perform, BB.turn, hc, if_true, BB.attempt_of_quiet hq]
  simp [BB.spent, BB.turnedIn, BB.advanced, sampleCount, BBEvent.isSample]

theorem BB.perform_dirOut {b : BB} (hq : b.Quiet) (hc : b.data.claimed = true) (l : Level) :
    b.perform (.dirOut l) = .done (b.advanced b.seq [.ddirOut l] b.clk.drive l .output) [] := by
  simp only [BB.perform, BB.turn, hc, if_true, BB.attempt_of_quiet hq]
  simp [BB.spent, BB.turnedOut, BB.advanced, sampleCount, BBEvent.isSample]

/-! ### Slots -/

theorem BB.clockPulse_run {b : BB} (hq : b.Quiet) (hc : b.clk.claimed = true) (hd : b.clk.dir = .output) :
    ∃ q, b.run Prim.clockPulse = .done (b.advanced q [.cout true, .cout false] false b.data.drive b.data.dir) [] := by
  have h1 := BB.perform_clk hq hc hd true
  have h2 := BB.perform_clk (b := b.advanced b.seq [.cout true] true b.data.drive b.data.dir) (hq.advanced _ _ _ _ _) hc hd false
  simp only [if_true] at h1
  simp only [Bool.false_eq_true, if_false, BB.advanced_advanced, List.cons_append, List.nil_append] at h2
  refine ⟨_, runOps_cons_done (g := []) (g' := []) h1 (runOps_cons_done (g := []) (g' := []) rfl
    (runOps_cons_done (g := []) (g' := []) h2 (runOps_cons_done (g := []) (g' := []) rfl rfl)))⟩

theorem BB.writeBit_run {b : BB} (hq : b.Quiet) (h : b.Driving) (l : Level) :
    ∃ q, b.run (Prim.writeBit l) = .done (b.advanced q (wSlots [l]) false l .output) [] := by
  have h1 := BB.perform_data hq h.2.2.1 h.2.2.2 l
  obtain ⟨q, h2⟩ := BB.clockPulse_run (b := b.advanced b.seq [.dout l] b.clk.drive l .output) (hq.advanced _ _ _ _ _) h.1 h.2.1
  rw [BB.advanced_advanced] at h2
  exact ⟨q, runOps_cons_done (g := []) (g' := []) h1 (runOps_cons_done (g := []) (g' := []) rfl h2)⟩

/-- Driving a non-empty run of bits: their slots, and the data line holds the last. -/
theorem BB.writes_run {b : BB} (hq : b.Quiet) (h : b.Driving) (bs : List Level) (hne : bs ≠ []) :
    ∃ q, b.run (bs.flatMap Prim.writeBit) = .done (b.advanced q (wSlots bs) false (bs.getLast hne) .output) [] := by
  induction bs generalizing b with
  | nil => exact absurd rfl hne
  | cons l ls ih =>
    obtain ⟨q, h1⟩ := BB.writeBit_run hq h l
    by_cases hl : ls = []
    · subst hl
      exact ⟨q, by simpa [BB.run] using h1⟩
    · obtain ⟨q', h2⟩ := ih (hq.advanced q (wSlots [l]) false l .output) (h.advanced q (wSlots [l]) false l) hl
      rw [BB.advanced_advanced, ← wSlots_append] at h2
      refine ⟨q', ?_⟩
      simp only [List.flatMap_cons, List.getLast_cons hl]
      exact runOps_append_done (g := []) (g' := []) h1 h2

theorem BB.readBit_run {b : BB} (hq : b.Quiet) (hk : b.clk.claimed = true) (hd : b.clk.dir = .output)
    (hc : b.data.claimed = true) (hi : b.data.dir = .input) (keep : Bool) :
    ∃ q, b.run (Prim.readBit keep) =
      .done (b.advanced q (rSlots [b.levelAt 0]) false b.data.drive .input) (if keep then [b.levelAt 0] else []) := by
  have h1 := BB.perform_sample hq hc hi keep
  obtain ⟨q, h2⟩ := BB.clockPulse_run
    (b := b.advanced b.seq [.dsample (b.levelAt 0)] b.clk.drive b.data.drive .input) (hq.advanced _ _ _ _ _) hk hd
  rw [BB.advanced_advanced] at h2
  have h3 := runOps_cons_done h1 h2
  simp only [BB.advanced_data_drive, BB.advanced_data_dir, List.append_nil] at h3
  exact ⟨q, h3⟩

theorem BB.upcoming_succ (b : BB) (n : Nat) :
    b.upcoming (n + 1) = b.levelAt 0 :: (List.range n).map (fun k => b.levelAt (1 + k)) := by
  simp [BB.upcoming, List.range_succ_eq_map, Function.comp_def, Nat.add_comm]

theorem BB.readBits_run {b : BB} (hq : b.Quiet) (hk : b.clk.claimed = true) (hd : b.clk.dir = .output)
    (hc : b.data.claimed = true) (hi : b.data.dir = .input) (keep : Bool) (n : Nat) :
    ∃ q, b.run (Prim.readBits (n + 1) keep) =
      .done (b.advanced q (rSlots (b.upcoming (n + 1))) false b.data.drive .input)
        (if keep then b.upcoming (n + 1) else []) := by
  induction n generalizing b with
  | zero =>
    obtain ⟨q, h⟩ := BB.readBit_run hq hk hd hc hi keep
    exact ⟨q, by simpa [Prim.readBits, BB.upcoming] using h⟩
  | succ n ih =>
    obtain ⟨q, h1⟩ := BB.readBit_run hq hk hd hc hi keep
    obtain ⟨q', h2⟩ := ih (b := b.advanced q (rSlots [b.levelAt 0]) false b.data.drive .input)
      (hq.advanced _ _ _ _ _) hk hd hc rfl
    have hu : (b.advanced q (rSlots [b.levelAt 0]) false b.data.drive .input).upcoming (n + 1) =
        (List.range (n + 1)).map (fun k => b.levelAt (1 + k)) := by
      simp [BB.upcoming, BB.levelAt_advanced]
    rw [hu] at h2
    rw [BB.advanced_advanced, ← rSlots_append, BB.advanced_data_drive] at h2
    refine ⟨q', ?_⟩
    rw [BB.upcoming_succ]
    have h3 := runOps_append_done h1 h2
    cases keep <;> simpa [Prim.readBits, List.replicate_succ, BB.run] using h3

/-! ### Bits of a frame -/

@[simp] theorem bitsOf_length (n v : Nat) : (bitsOf n v).length = n := by
  induction n with
  | zero => rfl
  | succ n ih => simp [bitsOf, ih]

/-- The `i`-th bit sent of an `n`-bit value is its bit `n-1-i` (R57). -/
theorem bitsOf_getElem (n v i : Nat) (h : i < (bitsOf n v).length) : (bitsOf n v)[i] = v.testBit (n - 1 - i) := by
  induction n generalizing i with
  | zero => simp [bitsOf] at h
  | succ n ih =>
    cases i with
    | zero => simp [bitsOf]
    | succ i =>
      simp only [bitsOf, List.getElem_cons_succ]
      rw [ih]
      congr 1
      omega

/-- Two values sent one after the other are sent as their concatenation. -/
theorem bitsOf_append (m n a b : Nat) (h : b < 2 ^ n) :
    bitsOf m a ++ bitsOf n b = bitsOf (m + n) (a * 2 ^ n + b) := by
  apply List.ext_getElem
  · simp
  · intro i h1 h2
    simp only [List.length_append, bitsOf_length] at h1
    rw [List.getElem_append, bitsOf_getElem]
    simp only [bitsOf_length]
    rw [Nat.mul_comm, Nat.testBit_two_pow_mul_add _ h]
    split
    · rw [bitsOf_getElem, if_neg (by omega)]
      congr 1
      omega
    · rw [bitsOf_getElem, if_pos (by omega)]
      congr 1
      omega

end Sys2Proof.Machine
end

