-- ==== Sys2Proof/Laws/Codec.lean ====
section
/-! SUPPORT. The frame codec as arithmetic: a header and a frame are sums of disjoint fields. -/

namespace Sys2Proof.Codec

@[simp] theorem mask_toNat (n v : Nat) : (mask n v).toNat = v % 2 ^ n := by simp [mask]

@[simp] theorem mask_of_toNat (n : Nat) (x : BitVec n) : mask n x.toNat = x := by simp [mask]

/-- A field placed below another: `|` adds. -/
theorem or_eq_add (a b k : Nat) (h : b < 2 ^ k) : (a * 2 ^ k) ||| b = a * 2 ^ k + b := by
  rw [Nat.mul_comm, Nat.two_pow_add_eq_or_of_lt h]

/-- A field of `w` bits placed at bit `k` of a 16-bit word loses nothing. -/
theorem placed_field (w v k : Nat) (h : w + k ≤ 16) : v % 2 ^ w % 2 ^ 16 * 2 ^ k % 2 ^ 16 = v % 2 ^ w * 2 ^ k := by
  have h1 : v % 2 ^ w < 2 ^ w := Nat.mod_lt _ (Nat.two_pow_pos w)
  have h2 : 2 ^ w ≤ 2 ^ 16 := Nat.pow_le_pow_right (by omega) (by omega)
  have h3 : 2 ^ w * 2 ^ k ≤ 2 ^ 16 := by rw [← Nat.pow_add]; exact Nat.pow_le_pow_right (by omega) h
  have h4 : v % 2 ^ w * 2 ^ k < 2 ^ w * 2 ^ k := Nat.mul_lt_mul_of_pos_right h1 (Nat.two_pow_pos k)
  rw [Nat.mod_eq_of_lt (lt_of_lt_of_le h1 h2), Nat.mod_eq_of_lt (lt_of_lt_of_le h4 h3)]

theorem encodeHeader_toNat (st op pad dad ta : Nat) :
    (encodeHeader st op pad dad ta).toNat =
      ((((st % 4 * 4 + op % 4) * 32 + pad % 32) * 32 + dad % 32) * 4 + ta % 4) := by
  simp only [encodeHeader, BitVec.toNat_or, BitVec.toNat_shiftLeft, BitVec.toNat_setWidth, mask_toNat, Nat.shiftLeft_eq]
  have h1 : st % 2 ^ 2 % 2 ^ 16 * 2 ^ 14 % 2 ^ 16 = st % 4 * 2 ^ 14 := placed_field 2 st 14 (by omega)
  have h2 : op % 2 ^ 2 % 2 ^ 16 * 2 ^ 12 % 2 ^ 16 = op % 4 * 2 ^ 12 := placed_field 2 op 12 (by omega)
  have h3 : pad % 2 ^ 5 % 2 ^ 16 * 2 ^ 7 % 2 ^ 16 = pad % 32 * 2 ^ 7 := placed_field 5 pad 7 (by omega)
  have h4 : dad % 2 ^ 5 % 2 ^ 16 * 2 ^ 2 % 2 ^ 16 = dad % 32 * 2 ^ 2 := placed_field 5 dad 2 (by omega)
  have h5 : ta % 2 ^ 2 % 2 ^ 16 = ta % 4 := by simp only [Nat.reducePow]; omega
  rw [h1, h2, h3, h4, h5]
  have e1 : st % 4 * 2 ^ 14 ||| op % 4 * 2 ^ 12 = (st % 4 * 4 + op % 4) * 2 ^ 5 * 2 ^ 7 := by
    rw [or_eq_add _ _ _ (by omega)]; ring
  have e2 : (st % 4 * 4 + op % 4) * 2 ^ 5 * 2 ^ 7 ||| pad % 32 * 2 ^ 7 =
      ((st % 4 * 4 + op % 4) * 32 + pad % 32) * 2 ^ 5 * 2 ^ 2 := by
    rw [show (st % 4 * 4 + op % 4) * 2 ^ 5 * 2 ^ 7 = (st % 4 * 4 + op % 4) * 2 ^ 12 by ring, or_eq_add _ _ _ (by omega)]; ring
  have e3 : ((st % 4 * 4 + op % 4) * 32 + pad % 32) * 2 ^ 5 * 2 ^ 2 ||| dad % 32 * 2 ^ 2 =
      (((st % 4 * 4 + op % 4) * 32 + pad % 32) * 32 + dad % 32) * 2 ^ 2 := by
    rw [show ((st % 4 * 4 + op % 4) * 32 + pad % 32) * 2 ^ 5 * 2 ^ 2 = ((st % 4 * 4 + op % 4) * 32 + pad % 32) * 2 ^ 7 by ring,
      or_eq_add _ _ _ (by omega)]; ring
  rw [e1, e2, e3, or_eq_add _ _ _ (by omega)]
  rfl

theorem headerOf_toNat (f : Frame) :
    (headerOf f).toNat =
      ((((f.st.toNat * 4 + f.op.toNat) * 32 + f.pad.toNat) * 32 + f.dad.toNat) * 4 + f.ta.toNat) := by
  have := f.st.isLt; have := f.op.isLt; have := f.pad.isLt; have := f.dad.isLt; have := f.ta.isLt
  rw [headerOf, encodeHeader_toNat]
  omega

theorem encodeFrame_toNat (f : Frame) : (encodeFrame f).toNat = (headerOf f).toNat * 65536 + f.data.toNat := by
  have h1 := (headerOf f).isLt
  have h2 := f.data.isLt
  simp only [encodeFrame, BitVec.toNat_or, BitVec.toNat_shiftLeft, BitVec.toNat_setWidth, Nat.shiftLeft_eq]
  rw [show (headerOf f).toNat % 2 ^ 32 * 2 ^ 16 % 2 ^ 32 = (headerOf f).toNat * 2 ^ 16 by omega,
    show f.data.toNat % 2 ^ 32 = f.data.toNat by omega, or_eq_add _ _ _ h2]
  rfl

end Sys2Proof.Codec

namespace Sys2Proof.Machine

open Codec

/-- The fourteen bits `send_header14` sends are the first fourteen of the frame (R118, R139). -/
theorem header14_bits (f : Frame) :
    bitsOf 2 f.st.toNat ++ bitsOf 2 f.op.toNat ++ bitsOf 5 f.pad.toNat ++ bitsOf 5 f.dad.toNat =
      (bitsOf 32 (encodeFrame f).toNat).take 14 := by
  have h2 := f.op.isLt; have h3 := f.pad.isLt; have h4 := f.dad.isLt; have h5 := f.ta.isLt; have h6 := f.data.isLt
  rw [bitsOf_append _ _ _ _ h2, bitsOf_append _ _ _ _ h3, bitsOf_append _ _ _ _ h4]
  have h : (encodeFrame f).toNat = (((f.st.toNat * 2 ^ 2 + f.op.toNat) * 2 ^ 5 + f.pad.toNat) * 2 ^ 5 + f.dad.toNat) * 2 ^ 18
      + (f.ta.toNat * 2 ^ 16 + f.data.toNat) := by
    rw [encodeFrame_toNat, headerOf_toNat]; ring
  rw [h, ← bitsOf_append 14 18 _ _ (by omega), List.take_left' (by simp)]

/-- The 32 bits of a write-class frame are those of the frame with the turnaround `10` (R82, R140). -/
theorem write_bits (f : Frame) :
    bitsOf 2 f.st.toNat ++ bitsOf 2 f.op.toNat ++ bitsOf 5 f.pad.toNat ++ bitsOf 5 f.dad.toNat
      ++ (bitsOf 2 Config.taWrite.toNat ++ bitsOf 16 f.data.toNat) =
      bitsOf 32 (encodeFrame { f with ta := Config.taWrite }).toNat := by
  have h2 := f.op.isLt; have h3 := f.pad.isLt; have h4 := f.dad.isLt; have h6 := f.data.isLt
  rw [bitsOf_append _ _ _ _ h2, bitsOf_append _ _ _ _ h3, bitsOf_append _ _ _ _ h4, bitsOf_append _ _ _ _ h6,
    bitsOf_append _ _ _ _ (by simp only [Config.taWrite, BitVec.reduceToNat]; omega)]
  congr 1
  rw [encodeFrame_toNat, headerOf_toNat]
  ring

theorem bitsOf_ne_nil (n v : Nat) : bitsOf (n + 1) v ≠ [] := by simp [bitsOf]

/-- The last bit sent of a word is its bit 0. -/
theorem bitsOf_getLast (n v : Nat) (h : bitsOf (n + 1) v ≠ []) : (bitsOf (n + 1) v).getLast h = v.testBit 0 := by
  rw [List.getLast_eq_getElem, bitsOf_getElem]
  simp

/-! ### Frames on the bit-bang engine -/

/-- What the data line drives after a frame: `1` after a read-class frame (R141), bit 0 of the data word after a
write-class frame (R140). -/
def driveAfter (f : Frame) : Level := if isReadClass f.op then true else f.data.toNat.testBit 0

theorem BB.flush_run {b : BB} (hq : b.Quiet) (h : b.Driving) :
    ∃ q, b.run Prim.flush = .done (b.advanced q onesEvents false true .output) [] := by
  obtain ⟨q, hr⟩ := BB.writes_run hq h (List.replicate 32 true) (by simp)
  rw [List.getLast_replicate] at hr
  exact ⟨q, hr⟩

theorem sendHeader14_eq (f : Frame) :
    Prim.sendHeader14 f = ((bitsOf 32 (encodeFrame f).toNat).take 14).flatMap Prim.writeBit := by
  rw [← header14_bits]
  simp [Prim.sendHeader14, Prim.writeBits, Config.stBits, Config.opBits, Config.padBits, Config.dadBits]

/-- The 32 slots of a frame (R89): the events they make, and for a read-class frame the sixteen samples kept. -/
theorem BB.frameSlots_run {b : BB} (hq : b.Quiet) (h : b.Driving) (f : Frame) :
    ∃ q, b.run (Prim.frameSlots f) =
      .done (b.advanced q (frameEvents f (b.upcoming (samplesOf f))) false (driveAfter f) .output)
        (if isReadClass f.op then (b.upcoming 18).drop 2 else []) := by
  cases hr : isReadClass f.op with
  | false =>
    have he : Prim.frameSlots f =
        (bitsOf 32 (encodeFrame { f with ta := Config.taWrite }).toNat).flatMap Prim.writeBit := by
      rw [← write_bits]
      simp [Prim.frameSlots, hr, Prim.sendHeader14, Prim.writeTail, Prim.writeBits, Config.stBits, Config.opBits,
        Config.padBits, Config.dadBits, Config.taBits, Config.dataBits]
    obtain ⟨q, hrun⟩ := BB.writes_run hq h _ (bitsOf_ne_nil 31 (encodeFrame { f with ta := Config.taWrite }).toNat)
    refine ⟨q, ?_⟩
    rw [he]
    rw [bitsOf_getLast] at hrun
    have hbit : (encodeFrame { f with ta := Config.taWrite }).toNat.testBit 0 = f.data.toNat.testBit 0 := by
      rw [encodeFrame_toNat]
      simp only [Nat.testBit_zero]
      congr 1
      apply propext
      omega
    rw [hbit] at hrun
    simpa [frameEvents, hr, driveAfter, samplesOf] using hrun
  | true =>
    have hne : (bitsOf 32 (encodeFrame f).toNat).take 14 ≠ [] := by
      intro hh
      have := congrArg List.length hh
      simp at this
    obtain ⟨q1, h1⟩ := BB.writes_run hq h _ hne
    rw [← sendHeader14_eq] at h1
    set w := (bitsOf 32 (encodeFrame f).toNat).take 14 with hw
    obtain ⟨b1, hb1⟩ : ∃ x, x = b.advanced q1 (wSlots w) false (w.getLast hne) .output := ⟨_, rfl⟩
    rw [← hb1] at h1
    have hq1 : b1.Quiet := by rw [hb1]; exact hq.advanced _ _ _ _ _
    have hk1 : b1.clk.claimed = true ∧ b1.clk.dir = .output ∧ b1.data.claimed = true := by
      rw [hb1]; exact ⟨h.1, h.2.1, h.2.2.1⟩
    have h2 := BB.perform_dirIn hq1 hk1.2.2
    obtain ⟨b2, hb2⟩ : ∃ x, x = b1.advanced b1.seq [.ddirIn] b1.clk.drive b1.data.drive .input := ⟨_, rfl⟩
    rw [← hb2] at h2
    have hq2 : b2.Quiet := by rw [hb2]; exact hq1.advanced _ _ _ _ _
    have hk2 : b2.clk.claimed = true ∧ b2.clk.dir = .output ∧ b2.data.claimed = true ∧ b2.data.dir = .input := by
      rw [hb2]; exact ⟨hk1.1, hk1.2.1, hk1.2.2, rfl⟩
    obtain ⟨q3, h3⟩ := BB.readBits_run hq2 hk2.1 hk2.2.1 hk2.2.2.1 hk2.2.2.2 false 1
    obtain ⟨b3, hb3⟩ : ∃ x, x = b2.advanced q3 (rSlots (b2.upcoming 2)) false b2.data.drive .input := ⟨_, rfl⟩
    rw [← hb3] at h3
    have hq3 : b3.Quiet := by rw [hb3]; exact hq2.advanced _ _ _ _ _
    have hk3 : b3.clk.claimed = true ∧ b3.clk.dir = .output ∧ b3.data.claimed = true ∧ b3.data.dir = .input := by
      rw [hb3]; exact ⟨hk2.1, hk2.2.1, hk2.2.2.1, rfl⟩
    obtain ⟨q4, h4⟩ := BB.readBits_run hq3 hk3.1 hk3.2.1 hk3.2.2.1 hk3.2.2.2 true 15
    obtain ⟨b4, hb4⟩ : ∃ x, x = b3.advanced q4 (rSlots (b3.upcoming 16)) false b3.data.drive .input := ⟨_, rfl⟩
    rw [← hb4] at h4
    have hq4 : b4.Quiet := by rw [hb4]; exact hq3.advanced _ _ _ _ _
    have hk4 : b4.clk.claimed = true ∧ b4.clk.dir = .output ∧ b4.data.claimed = true ∧ b4.data.dir = .input := by
      rw [hb4]; exact ⟨hk3.1, hk3.2.1, hk3.2.2.1, rfl⟩
    have h5 := BB.perform_dirOut hq4 hk4.2.2.1 true
    have hu2 : b2.upcoming 2 = (b.upcoming 18).take 2 := by
      rw [BB.upcoming_take b (by omega), hb2, hb1, BB.advanced_advanced, BB.upcoming_advanced]
      simp [sampleCount_cons, BBEvent.isSample]
    have hu3 : b3.upcoming 16 = (b.upcoming 18).drop 2 := by
      rw [hb3, hb2, hb1, BB.advanced_advanced, BB.advanced_advanced, BB.upcoming_advanced]
      simp [sampleCount_cons, BBEvent.isSample]
    have hs : rSlots (b2.upcoming 2) ++ rSlots (b3.upcoming 16) = rSlots (b.upcoming 18) := by
      rw [← rSlots_append, hu2, hu3, List.take_append_drop]
    have hwait : b2.perform (.wait .readSettle) = .done b2 [] := rfl
    refine ⟨q4, ?_⟩
    have hall := runOps_append_done h1 (runOps_cons_done h2 (runOps_cons_done hwait
      (runOps_append_done (runOps_append_done h3 h4) (runOps_cons_done (g' := []) h5 (runOps_nil _ _)))))
    simp only [BB.run, Prim.frameSlots, hr, if_true, Prim.readTransition, Config.taBits, Config.dataBits]
    refine hall.trans ?_
    have hend : b4.advanced b4.seq [.ddirOut true] b4.clk.drive true .output =
        b.advanced q4 (frameEvents f (b.upcoming (samplesOf f))) false (driveAfter f) .output := by
      have he : frameEvents f (b.upcoming (samplesOf f)) =
          wSlots w ++ [.ddirIn] ++ rSlots (b2.upcoming 2) ++ rSlots (b3.upcoming 16) ++ [.ddirOut true] := by
        simp only [frameEvents, hr, if_true, samplesOf, ← hs, ← hw]
        simp
      have hd : driveAfter f = true := by simp [driveAfter, hr]
      rw [he, hd]
      generalize b2.upcoming 2 = u2 at hb3
      generalize b3.upcoming 16 = u3 at hb4
      rw [hb4, BB.advanced_advanced, BB.advanced_clk_drive, BB.advanced_seq, hb3, BB.advanced_advanced, hb2,
        BB.advanced_advanced, hb1, BB.advanced_advanced]
      simp
    rw [hend]
    simp [hu3]

end Sys2Proof.Machine
end

