-- ==== Sys2Proof/Laws/Transact.lean ====
section
/-! SUPPORT. Whole register commands of the bit-bang engine where no collaborator call fails. -/

namespace Sys2Proof.Machine

open Codec

/-! ### Samples and words -/

/-- The samples kept out of `n` read-class frames: of each eighteen, all but the first two. -/
def keptSamples : Nat → List Level → List Level
  | 0, _ => []
  | n + 1, ls => (ls.take 18).drop 2 ++ keptSamples n (ls.drop 18)

theorem wordsOfSamples_kept (n : Nat) (ls : List Level) (h : ls.length = 18 * n) :
    wordsOfSamples n (keptSamples n ls) = wordsIn n ls := by
  induction n generalizing ls with
  | zero => rfl
  | succ n ih =>
    have h1 : ((ls.take 18).drop 2).length = 16 := by simp; omega
    simp only [wordsOfSamples, keptSamples, wordsIn, Config.dataBits]
    rw [List.take_left' h1, List.drop_left' h1, ih _ (by simp; omega), List.drop_take]

theorem keptSamples_add (m n : Nat) (ls : List Level) :
    keptSamples (m + n) ls = keptSamples m ls ++ keptSamples n (ls.drop (18 * m)) := by
  induction m generalizing ls with
  | zero => simp [keptSamples]
  | succ m ih =>
    rw [show m + 1 + n = (m + n) + 1 by omega]
    simp only [keptSamples, ih, List.drop_drop, List.append_assoc]
    rw [show 18 + 18 * m = 18 * (m + 1) by omega]

theorem keptSamples_take (n k : Nat) (ls : List Level) (h : 18 * n ≤ k) :
    keptSamples n (ls.take k) = keptSamples n ls := by
  induction n generalizing ls k with
  | zero => rfl
  | succ n ih =>
    simp only [keptSamples, List.take_take, List.drop_take]
    rw [Nat.min_eq_left (by omega), ih _ _ (by omega)]

/-- How many frames of a list are read-class. -/
def readsIn (fs : List Frame) : Nat := (fs.filter (fun f => isReadClass f.op)).length

theorem framesSamples_eq (fs : List Frame) : framesSamples fs = 18 * readsIn fs := by
  induction fs with
  | nil => rfl
  | cons f fs ih =>
    cases h : isReadClass f.op <;> simp_all [framesSamples, readsIn, samplesOf]
    omega

@[simp] theorem framesSamples_cons (f : Frame) (fs : List Frame) :
    framesSamples (f :: fs) = samplesOf f + framesSamples fs := by simp [framesSamples]

@[simp] theorem sampleCount_onesEvents : sampleCount onesEvents = 0 := by simp [onesEvents]

theorem sampleCount_frameEvents (f : Frame) (ls : List Level) (h : ls.length = samplesOf f) :
    sampleCount (frameEvents f ls) = samplesOf f := by
  cases hr : isReadClass f.op with
  | false => simp [frameEvents, hr, samplesOf]
  | true => simp [frameEvents, hr, sampleCount_cons, BBEvent.isSample, h]

theorem sampleCount_framesEvents (fs : List Frame) (ls : List Level) (h : ls.length = framesSamples fs) :
    sampleCount (framesEvents fs ls) = framesSamples fs := by
  induction fs generalizing ls with
  | nil => rfl
  | cons f fs ih =>
    rw [framesSamples_cons] at h
    simp only [framesEvents, sampleCount_append, framesSamples_cons, sampleCount_onesEvents, Nat.zero_add]
    rw [sampleCount_frameEvents _ _ (by simp; omega), ih _ (by simp; omega)]

theorem sampleCount_transactionsEvents (ts : List Transaction) (ls : List Level) (h : ls.length = transactionsSamples ts) :
    sampleCount (transactionsEvents ts ls) = transactionsSamples ts := by
  induction ts generalizing ls with
  | nil => rfl
  | cons t ts ih =>
    have hc : transactionsSamples (t :: ts) = framesSamples t.frames + transactionsSamples ts := by
      simp [transactionsSamples]
    rw [hc] at h
    simp only [transactionsEvents, sampleCount_append, hc]
    rw [sampleCount_framesEvents _ _ (by simp; omega), ih _ (by simp; omega)]
    cases t.trailingFlush <;> simp

/-! ### Frames -/

theorem BB.bbFrame_run {b : BB} (hq : b.Quiet) (h : b.Driving) (f : Frame) :
    ∃ q, b.run (Prim.bbFrame f) =
      .done (b.advanced q (onesEvents ++ frameEvents f (b.upcoming (samplesOf f))) false (driveAfter f) .output)
        (if isReadClass f.op then (b.upcoming 18).drop 2 else []) := by
  have h0 : b.perform .frame = .done { b with seq := b.seq.nextFrame } [] := rfl
  obtain ⟨q1, h1⟩ := BB.flush_run (b := { b with seq := b.seq.nextFrame }) hq h
  have e1 : ({ b with seq := b.seq.nextFrame } : BB).advanced q1 onesEvents false true .output =
      b.advanced q1 onesEvents false true .output := rfl
  rw [e1] at h1
  obtain ⟨q2, h2⟩ := BB.frameSlots_run (hq.advanced q1 onesEvents false true .output) (h.advanced q1 onesEvents false true) f
  rw [BB.advanced_advanced, BB.upcoming_advanced, BB.upcoming_advanced, sampleCount_onesEvents] at h2
  simp only [Nat.zero_add, List.drop_zero] at h2
  have hall := runOps_cons_done h0 (runOps_append_done h1 h2)
  exact ⟨q2, by simpa [BB.run, Prim.bbFrame] using hall⟩

/-- The level the data line drives after these frames, `d` before them. -/
def driveAfterFrames (d : Level) (fs : List Frame) : Level := (fs.getLast?.map driveAfter).getD d

/-- The level of the clock line after these frames, `c` before them. -/
def clkAfterFrames (c : Level) (fs : List Frame) : Level := if fs.isEmpty then c else false

theorem BB.advanced_nil {b : BB} (h : b.Driving) : b.advanced b.seq [] b.clk.drive b.data.drive .output = b := by
  rcases b with ⟨_, _, ⟨_, _, _, _⟩, ⟨_, _, _, _⟩, _, _, _, ⟨_, _, _⟩, _⟩
  have hd := h.2.2.2
  simp only at hd
  subst hd
  simp [BB.advanced]

theorem BB.frames_run {b : BB} (hq : b.Quiet) (h : b.Driving) (fs : List Frame) :
    ∃ q, b.run (fs.flatMap Prim.bbFrame) =
      .done (b.advanced q (framesEvents fs (b.upcoming (framesSamples fs))) (clkAfterFrames b.clk.drive fs)
          (driveAfterFrames b.data.drive fs) .output)
        (keptSamples (readsIn fs) (b.upcoming (framesSamples fs))) := by
  induction fs generalizing b with
  | nil =>
    exact ⟨b.seq, congrArg (fun x => Ran.done x []) (BB.advanced_nil h).symm⟩
  | cons f fs ih =>
    obtain ⟨q1, h1⟩ := BB.bbFrame_run hq h f
    obtain ⟨q2, h2⟩ := ih (hq.advanced q1 (onesEvents ++ frameEvents f (b.upcoming (samplesOf f))) false (driveAfter f) .output)
      (h.advanced _ _ _ _)
    have hs : sampleCount (onesEvents ++ frameEvents f (b.upcoming (samplesOf f))) = samplesOf f := by
      rw [sampleCount_append, sampleCount_onesEvents, sampleCount_frameEvents _ _ (by simp), Nat.zero_add]
    rw [BB.advanced_advanced, BB.upcoming_advanced, hs, ← framesSamples_cons] at h2
    refine ⟨q2, ?_⟩
    have hall := runOps_append_done h1 h2
    rw [List.flatMap_cons]
    refine hall.trans ?_
    have ht : (b.upcoming (framesSamples (f :: fs))).take (samplesOf f) = b.upcoming (samplesOf f) :=
      BB.upcoming_take b (by simp)
    have hk : (if isReadClass f.op then (b.upcoming 18).drop 2 else []) ++
        keptSamples (readsIn fs) ((b.upcoming (framesSamples (f :: fs))).drop (samplesOf f)) =
        keptSamples (readsIn (f :: fs)) (b.upcoming (framesSamples (f :: fs))) := by
      cases hr : isReadClass f.op with
      | false => simp [readsIn, hr, samplesOf]
      | true =>
        have e1 : readsIn (f :: fs) = readsIn fs + 1 := by simp [readsIn, hr]
        have e2 : samplesOf f = 18 := by simp [samplesOf, hr]
        rw [e1]
        simp only [keptSamples, if_true, e2]
        rw [BB.upcoming_take b (by simp [e2])]
    rw [hk]
    congr 2
    · simp only [framesEvents, ht]
    · cases fs <;> simp [clkAfterFrames]
    · cases fs <;> simp [driveAfterFrames, List.getLast?_cons]

/-! ### Operations -/

/-- Every frame of the operation has its preamble: the switch says so, or the only frame is the first. -/
def Transaction.prefaced (sw : Switches) (t : Transaction) : Prop := sw.preamblePerFrame = true ∨ t.frames.length ≤ 1

theorem bbFrames_eq (sw : Switches) (t : Transaction) (h : t.prefaced sw) :
    bbFrames sw t.frames = t.frames.flatMap Prim.bbFrame := by
  cases hf : t.frames with
  | nil => rfl
  | cons f fs =>
    simp only [bbFrames, List.flatMap_cons]
    congr 1
    rcases h with h | h
    · congr 1
      funext g
      simp [Prim.bbNextFrame, h]
    · have hn : fs = [] := by
        rw [hf] at h
        simpa using h
      simp [hn]

/-- An operation puts something on the wire. -/
def Transaction.speaks (t : Transaction) : Bool := !t.frames.isEmpty || t.trailingFlush

/-- The level the data line drives after an operation, `d` before it. -/
def driveAfterOperation (d : Level) (t : Transaction) : Level :=
  if t.trailingFlush then true else driveAfterFrames d t.frames

theorem BB.transaction_run {b : BB} (hq : b.Quiet) (h : b.Driving) (sw : Switches) (t : Transaction)
    (hsw : t.prefaced sw) (hs : t.speaks = true) :
    ∃ q, b.run (bbTransaction sw t) =
      .done (b.advanced q
          (framesEvents t.frames (b.upcoming (framesSamples t.frames)) ++ (if t.trailingFlush then onesEvents else []))
          false (driveAfterOperation b.data.drive t) .output)
        (keptSamples (readsIn t.frames) (b.upcoming (framesSamples t.frames))) := by
  have h0 : b.perform .element = .done { b with seq := b.seq.nextElement } [] := rfl
  obtain ⟨q1, h1⟩ := BB.frames_run (b := { b with seq := b.seq.nextElement }) hq h t.frames
  rw [← bbFrames_eq sw t hsw] at h1
  have e1 : ∀ q es c d r, ({ b with seq := b.seq.nextElement } : BB).advanced q es c d r = b.advanced q es c d r :=
    fun _ _ _ _ _ => rfl
  have e2 : ∀ n, ({ b with seq := b.seq.nextElement } : BB).upcoming n = b.upcoming n := fun _ => rfl
  simp only [e1, e2] at h1
  cases hf : t.trailingFlush with
  | false =>
    have hne : t.frames ≠ [] := by
      intro hh
      simp [Transaction.speaks, hf, hh] at hs
    have hall := runOps_cons_done h0 h1
    refine ⟨q1, ?_⟩
    have hc : clkAfterFrames b.clk.drive t.frames = false := by
      cases hfs : t.frames with
      | nil => exact absurd hfs hne
      | cons _ _ => rfl
    simp only [hc, List.nil_append] at hall
    simpa [BB.run, bbTransaction, hf, driveAfterOperation] using hall
  | true =>
    obtain ⟨q2, h2⟩ := BB.flush_run (hq.advanced q1 (framesEvents t.frames (b.upcoming (framesSamples t.frames)))
      (clkAfterFrames b.clk.drive t.frames) (driveAfterFrames b.data.drive t.frames) .output) (h.advanced _ _ _ _)
    rw [BB.advanced_advanced] at h2
    have hall := runOps_cons_done h0 (runOps_append_done h1 h2)
    exact ⟨q2, by simpa [BB.run, bbTransaction, hf, driveAfterOperation] using hall⟩

theorem transactionsSamples_cons (t : Transaction) (ts : List Transaction) :
    transactionsSamples (t :: ts) = framesSamples t.frames + transactionsSamples ts := by simp [transactionsSamples]

theorem wordsRead_cons (t : Transaction) (ts : List Transaction) :
    wordsRead (t :: ts) = readsIn t.frames + wordsRead ts := by simp [wordsRead, readsIn]

theorem transactionsSamples_eq (ts : List Transaction) : transactionsSamples ts = 18 * wordsRead ts := by
  induction ts with
  | nil => rfl
  | cons t ts ih => rw [transactionsSamples_cons, wordsRead_cons, ih, framesSamples_eq]; omega

theorem BB.transactions_run {b : BB} (hq : b.Quiet) (h : b.Driving) (sw : Switches) (ts : List Transaction)
    (hsw : ∀ t ∈ ts, t.prefaced sw) (hs : ∀ t ∈ ts, t.speaks = true) :
    ∃ q, b.run (ts.flatMap (bbTransaction sw)) =
      .done (b.advanced q (transactionsEvents ts (b.upcoming (transactionsSamples ts)))
          (if ts.isEmpty then b.clk.drive else false) (ts.foldl driveAfterOperation b.data.drive) .output)
        (keptSamples (wordsRead ts) (b.upcoming (transactionsSamples ts))) := by
  induction ts generalizing b with
  | nil => exact ⟨b.seq, congrArg (fun x => Ran.done x []) (BB.advanced_nil h).symm⟩
  | cons t ts ih =>
    obtain ⟨q1, h1⟩ := BB.transaction_run hq h sw t (hsw t (by simp)) (hs t (by simp))
    obtain ⟨q2, h2⟩ := ih (hq.advanced q1 (framesEvents t.frames (b.upcoming (framesSamples t.frames)) ++
      (if t.trailingFlush then onesEvents else [])) false (driveAfterOperation b.data.drive t) .output) (h.advanced _ _ _ _)
      (fun u hu => hsw u (by simp [hu])) (fun u hu => hs u (by simp [hu]))
    have hc : sampleCount (framesEvents t.frames (b.upcoming (framesSamples t.frames)) ++
        (if t.trailingFlush then onesEvents else [])) = framesSamples t.frames := by
      rw [sampleCount_append, sampleCount_framesEvents _ _ (by simp)]
      cases t.trailingFlush <;> simp
    rw [BB.advanced_advanced, BB.upcoming_advanced, hc, ← transactionsSamples_cons] at h2
    have ht : (b.upcoming (transactionsSamples (t :: ts))).take (framesSamples t.frames) = b.upcoming (framesSamples t.frames) :=
      BB.upcoming_take b (by rw [transactionsSamples_cons]; omega)
    refine ⟨q2, ?_⟩
    rw [List.flatMap_cons]
    refine (runOps_append_done h1 h2).trans ?_
    have hk : keptSamples (readsIn t.frames) (b.upcoming (framesSamples t.frames)) ++
        keptSamples (wordsRead ts) ((b.upcoming (transactionsSamples (t :: ts))).drop (framesSamples t.frames)) =
        keptSamples (wordsRead (t :: ts)) (b.upcoming (transactionsSamples (t :: ts))) := by
      rw [wordsRead_cons, keptSamples_add, ← framesSamples_eq, ← ht, keptSamples_take _ _ _ (by rw [framesSamples_eq])]
    rw [hk]
    congr 2
    · simp only [transactionsEvents, ht]
    · cases ts <;> simp

/-- A register command of a ready bit-bang engine: it completes with `Ok`, its trace is that of its operations, and its
value is made of the words the environment supplied. -/
theorem bbTransact_ready {s : State} (hr : s.bb.Ready) (ts : List Transaction) (hsw : ∀ t ∈ ts, t.prefaced s.switches)
    (hne : ts ≠ []) (hs : ∀ t ∈ ts, t.speaks = true) (shape : Shape) :
    bbTransact ts shape s =
      .next (s.withBB (s.bb.completed (transactionsEvents ts (s.bb.upcoming (transactionsSamples ts)))
        (ts.foldl driveAfterOperation s.bb.data.drive)
        (assemble shape (wordsIn (wordsRead ts) (s.bb.upcoming (transactionsSamples ts)))))) := by
  obtain ⟨ho, hd, hq⟩ := hr
  obtain ⟨q, hrun⟩ := BB.transactions_run hq hd s.switches ts hsw hs
  have he : ts.isEmpty = false := by
    cases ts with
    | nil => exact absurd rfl hne
    | cons _ _ => rfl
  simp only [bbTransact, bbCommand, ho, if_true, hrun, he, Bool.false_eq_true, if_false]
  rw [wordsOfSamples_kept _ _ (by rw [BB.upcoming_length, transactionsSamples_eq])]
  rcases s with ⟨⟨_, _, _, ⟨_, _, _, _⟩, _, _, _, _, _⟩, _, _, _, _⟩
  have hdir := hd.2.2.2
  simp only at hdir
  subst hdir
  rfl

/-- A register command with nothing to do (R173 (f)): it completes with no event. -/
theorem bbTransact_nil {s : State} (ho : s.bb.isOpen = true) (shape : Shape) :
    bbTransact [] shape s = .next (s.withBB (s.bb.deliver (.ok (assemble shape [])))) := by
  simp [bbTransact, bbCommand, ho, BB.run, runOps, wordsRead, wordsOfSamples]

end Sys2Proof.Machine
end

