-- ==== Sys2Proof/Laws/Spi.lean ====
section
/-! SUPPORT. Whole register commands of the SPI-framed engine where no collaborator call fails. -/

namespace Sys2Proof.Machine

open Codec

@[simp] theorem SF.upcoming_length (f : SF) (ws : List Nat) : (f.upcoming ws).length = ws.length := by simp [SF.upcoming]

theorem SF.drawnWord_eq (f : SF) (n : Nat) : f.drawnWord n = f.wordAt 0 % 2 ^ n := by
  rcases f with ⟨_, _, _, _, _, _, ⟨_, ws, _⟩, _⟩
  cases ws <;> rfl

/-- The instance after these words have been sent. -/
def SF.advanced (f : SF) (q : Sequencer) (sent : List (Nat × Nat)) : SF :=
  { f with
    seq := q
    trace := f.trace ++ transferEvents sent (f.upcoming (sent.map Prod.fst))
    env := { f.env with failures := f.env.failures.drop sent.length, received := f.env.received.drop sent.length }
    free := f.free + sent.length }

theorem SF.wordAt_advanced (f : SF) (q : Sequencer) (sent : List (Nat × Nat)) (k : Nat) :
    (f.advanced q sent).wordAt k = f.wordAt (sent.length + k) := by
  simp only [SF.wordAt, SF.advanced, List.getElem?_drop, Nat.add_assoc]

theorem SF.upcoming_append (f : SF) (q : Sequencer) (sent : List (Nat × Nat)) (ws : List Nat) :
    f.upcoming (sent.map Prod.fst ++ ws) = f.upcoming (sent.map Prod.fst) ++ (f.advanced q sent).upcoming ws := by
  simp only [SF.upcoming, List.mapIdx_append, SF.wordAt_advanced, List.length_map]
  congr 2
  funext k n
  rw [Nat.add_comm]

theorem SF.advanced_advanced (f : SF) (q q' : Sequencer) (xs ys : List (Nat × Nat)) :
    (f.advanced q xs).advanced q' ys = f.advanced q' (xs ++ ys) := by
  have h : transferEvents (xs ++ ys) (f.upcoming ((xs ++ ys).map Prod.fst)) =
      transferEvents xs (f.upcoming (xs.map Prod.fst)) ++ transferEvents ys ((f.advanced q xs).upcoming (ys.map Prod.fst)) := by
    rw [List.map_append, SF.upcoming_append f q, transferEvents, List.zipWith_append (by simp)]
    rfl
  have e : (f.advanced q xs).advanced q' ys =
      { f with
        seq := q'
        trace := f.trace ++ transferEvents xs (f.upcoming (xs.map Prod.fst)) ++
          transferEvents ys ((f.advanced q xs).upcoming (ys.map Prod.fst))
        env := { f.env with failures := (f.env.failures.drop xs.length).drop ys.length,
                            received := (f.env.received.drop xs.length).drop ys.length }
        free := f.free + xs.length + ys.length } := rfl
  rw [e]
  simp only [SF.advanced, h, List.drop_drop, List.length_append, Nat.add_assoc, List.append_assoc]

theorem SF.advanced_nil (f : SF) : f.advanced f.seq [] = f := by
  rcases f with ⟨_, _, _, _, _, _, ⟨_, _, _⟩, _⟩
  simp [SF.advanced, transferEvents]

theorem SF.Quiet.advanced {f : SF} (h : f.Quiet) (q : Sequencer) (sent : List (Nat × Nat)) : (f.advanced q sent).Quiet :=
  fun x hx => h x (List.mem_of_mem_drop hx)

theorem SF.perform_xfer {f : SF} (hq : f.Quiet) (hc : f.spi.claimed = true) {n tx : Nat} (hn : n = 16 ∨ n = 32)
    (ht : tx < 2 ^ n) (keep : Bool) :
    ∃ q, f.perform (.xfer n tx false keep) =
      .done (f.advanced q [(n, tx)]) (if keep then [mask 16 (f.wordAt 0 % 2 ^ n)] else []) := by
  refine ⟨f.seq.pulses n, ?_⟩
  simp only [SF.perform, SF.xfer, hc, if_true, hn, ht, and_self, SF.attempt_of_quiet hq]
  have h : f.spent.drawnWord n = f.wordAt 0 % 2 ^ n := SF.drawnWord_eq f n
  rw [h]
  simp only [SF.transferred, h]
  simp only [SF.spent, SF.afterDraw, SF.advanced, transferEvents, SF.upcoming, List.map_cons, List.map_nil,
    List.mapIdx_cons, List.mapIdx_nil, List.zipWith_cons_cons, List.zipWith_nil_left, List.drop_one, List.length_singleton]

/-- A sequence of transfers with what it sends and the positions whose received words it keeps. -/
def spiOp (p : (Nat × Nat) × Bool) : SpiOp := .xfer p.1.1 p.1.2 false p.2

/-- The words kept of those received. -/
def keptWords : List ((Nat × Nat) × Bool) → List Nat → List U16
  | [], _ => []
  | p :: ps, rx => (if p.2 then [mask 16 (rx.getD 0 0)] else []) ++ keptWords ps (rx.drop 1)

theorem SF.xfers_run {f : SF} (hq : f.Quiet) (hc : f.spi.claimed = true) (ps : List ((Nat × Nat) × Bool))
    (hw : ∀ p ∈ ps, (p.1.1 = 16 ∨ p.1.1 = 32) ∧ p.1.2 < 2 ^ p.1.1) :
    ∃ q, f.run (ps.map spiOp) =
      .done (f.advanced q (ps.map Prod.fst)) (keptWords ps (f.upcoming ((ps.map Prod.fst).map Prod.fst))) := by
  induction ps generalizing f with
  | nil => exact ⟨f.seq, congrArg (fun x => Ran.done x []) (SF.advanced_nil f).symm⟩
  | cons p ps ih =>
    obtain ⟨hn, ht⟩ := hw p (by simp)
    obtain ⟨q1, h1⟩ := SF.perform_xfer hq hc hn ht p.2
    obtain ⟨q2, h2⟩ := ih (hq.advanced q1 [p.1]) hc (fun u hu => hw u (by simp [hu]))
    rw [SF.advanced_advanced] at h2
    refine ⟨q2, ?_⟩
    have hu : f.upcoming (((p :: ps).map Prod.fst).map Prod.fst) =
        f.wordAt 0 % 2 ^ p.1.1 :: (f.advanced q1 [p.1]).upcoming ((ps.map Prod.fst).map Prod.fst) := by
      have := SF.upcoming_append f q1 [p.1] ((ps.map Prod.fst).map Prod.fst)
      simpa [SF.upcoming] using this
    rw [hu]
    exact runOps_cons_done h1 h2

theorem keptWords_append (ps qs : List ((Nat × Nat) × Bool)) (rx : List Nat) :
    keptWords (ps ++ qs) rx = keptWords ps rx ++ keptWords qs (rx.drop ps.length) := by
  induction ps generalizing rx with
  | nil => rfl
  | cons p ps ih =>
    simp only [List.cons_append, keptWords, ih, List.drop_drop, List.append_assoc, List.length_cons]
    rw [Nat.add_comm 1]

theorem keptWords_take (ps : List ((Nat × Nat) × Bool)) (rx : List Nat) (k : Nat) (h : ps.length ≤ k) :
    keptWords ps (rx.take k) = keptWords ps rx := by
  induction ps generalizing rx k with
  | nil => rfl
  | cons p ps ih =>
    simp only [List.length_cons] at h
    simp only [keptWords, List.drop_take]
    rw [ih _ _ (by omega)]
    cases rx with
    | nil => simp
    | cons r rs => cases k <;> simp at h ⊢

/-- The transfers of a frame: what is sent and whether the received word is kept. -/
def framePlan (f : Frame) : List ((Nat × Nat) × Bool) :=
  [((32, 0xFFFFFFFF), false), ((16, (sfHeader f).toNat), false),
    ((16, if isReadClass f.op then 0xFFFF else f.data.toNat), isReadClass f.op)]

/-- The transfers of an operation. -/
def operationPlan (t : Transaction) : List ((Nat × Nat) × Bool) :=
  t.frames.flatMap framePlan ++ (if t.trailingFlush then [((32, 0xFFFFFFFF), false)] else [])

theorem operationPlan_words (t : Transaction) : (operationPlan t).map Prod.fst = transactionWords t := by
  simp only [operationPlan, transactionWords, List.map_append, List.map_flatMap]
  cases t.trailingFlush <;> rfl

theorem framePlan_legal (f : Frame) : ∀ p ∈ framePlan f, (p.1.1 = 16 ∨ p.1.1 = 32) ∧ p.1.2 < 2 ^ p.1.1 := by
  intro p hp
  have h1 := (sfHeader f).isLt
  have h2 := f.data.isLt
  simp only [framePlan, List.mem_cons, List.not_mem_nil, or_false] at hp
  rcases hp with rfl | rfl | rfl
  · simp
  · exact ⟨.inl rfl, h1⟩
  · refine ⟨.inl rfl, ?_⟩
    cases isReadClass f.op
    · exact h2
    · simp

theorem operationPlan_legal (t : Transaction) : ∀ p ∈ operationPlan t, (p.1.1 = 16 ∨ p.1.1 = 32) ∧ p.1.2 < 2 ^ p.1.1 := by
  intro p hp
  simp only [operationPlan, List.mem_append, List.mem_flatMap] at hp
  rcases hp with ⟨f, _, hf⟩ | hp
  · exact framePlan_legal f p hf
  · cases ht : t.trailingFlush <;> simp [ht] at hp
    subst hp
    simp

/-- A run that leaves marks out does the same but for the sequencer. -/
theorem sfFrame_eq (sw : Switches) (h : sw.sfWriteDataIsHeader = false) (f : Frame) :
    Prim.sfFrame sw f = .frame :: (framePlan f).map spiOp := by
  cases hr : isReadClass f.op <;>
    simp [Prim.sfFrame, Prim.sfFlush, Prim.sfFrameWords, Prim.sfSendHeader, Prim.sfDataRead, Prim.sfDataWrite, framePlan,
      spiOp, hr, h, Config.sfFlushWordBits, Config.sfWordBits]

theorem sfFrames_eq (sw : Switches) (hp : sw.preamblePerFrame = true) (fs : List Frame) :
    sfFrames sw fs = fs.flatMap (Prim.sfFrame sw) := by
  cases fs with
  | nil => rfl
  | cons f fs =>
    simp only [sfFrames, List.flatMap_cons]
    congr 2
    funext g
    simp [Prim.sfNextFrame, hp]

theorem SF.frames_run {f : SF} (hq : f.Quiet) (hc : f.spi.claimed = true) (sw : Switches)
    (hw : sw.sfWriteDataIsHeader = false) (fs : List Frame) :
    ∃ q, f.run (fs.flatMap (Prim.sfFrame sw)) =
      .done (f.advanced q (fs.flatMap frameWords))
        (keptWords (fs.flatMap framePlan) (f.upcoming ((fs.flatMap frameWords).map Prod.fst))) := by
  induction fs generalizing f with
  | nil => exact ⟨f.seq, congrArg (fun x => Ran.done x []) (SF.advanced_nil f).symm⟩
  | cons g fs ih =>
    have h0 : f.perform .frame = .done { f with seq := f.seq.nextFrame } [] := rfl
    obtain ⟨q1, h1⟩ := SF.xfers_run (f := { f with seq := f.seq.nextFrame }) hq hc (framePlan g) (framePlan_legal g)
    have e0 : (framePlan g).map Prod.fst = frameWords g := rfl
    have e1 : ({ f with seq := f.seq.nextFrame } : SF).advanced q1 (frameWords g) = f.advanced q1 (frameWords g) := rfl
    have e2 : ∀ ws, ({ f with seq := f.seq.nextFrame } : SF).upcoming ws = f.upcoming ws := fun _ => rfl
    rw [e0, e1, e2] at h1
    obtain ⟨q2, h2⟩ := ih (hq.advanced q1 (frameWords g)) hc
    rw [SF.advanced_advanced] at h2
    refine ⟨q2, ?_⟩
    rw [List.flatMap_cons, sfFrame_eq sw hw]
    refine (runOps_append_done (runOps_cons_done h0 h1) h2).trans ?_
    simp only [List.flatMap_cons, List.map_append, List.nil_append]
    rw [keptWords_append, SF.upcoming_append f q1 (frameWords g)]
    congr 2

theorem SF.operation_run {f : SF} (hq : f.Quiet) (hc : f.spi.claimed = true) (sw : Switches)
    (hp : sw.preamblePerFrame = true) (hw : sw.sfWriteDataIsHeader = false) (t : Transaction) :
    ∃ q, f.run (sfTransaction sw t) =
      .done (f.advanced q (transactionWords t))
        (keptWords (operationPlan t) (f.upcoming ((transactionWords t).map Prod.fst))) := by
  have h0 : f.perform .element = .done { f with seq := f.seq.nextElement } [] := rfl
  obtain ⟨q1, h1⟩ := SF.frames_run (f := { f with seq := f.seq.nextElement }) hq hc sw hw t.frames
  have e1 : ∀ q s, ({ f with seq := f.seq.nextElement } : SF).advanced q s = f.advanced q s := fun _ _ => rfl
  have e2 : ∀ ws, ({ f with seq := f.seq.nextElement } : SF).upcoming ws = f.upcoming ws := fun _ => rfl
  rw [e1, e2, ← sfFrames_eq sw hp] at h1
  cases ht : t.trailingFlush with
  | false =>
    refine ⟨q1, ?_⟩
    have hall := runOps_cons_done h0 h1
    simpa [SF.run, sfTransaction, ht, transactionWords, operationPlan] using hall
  | true =>
    obtain ⟨q2, h2⟩ := SF.xfers_run (hq.advanced q1 (t.frames.flatMap frameWords)) hc [((32, 0xFFFFFFFF), false)] (by simp)
    rw [SF.advanced_advanced] at h2
    refine ⟨q2, ?_⟩
    have hall := runOps_cons_done h0 (runOps_append_done h1 h2)
    have e3 : sfTransaction sw t =
        .element :: (sfFrames sw t.frames ++ [(((32, 0xFFFFFFFF), false) : (Nat × Nat) × Bool)].map spiOp) := by
      simp [sfTransaction, ht, Prim.sfFlush, spiOp, Config.sfFlushWordBits]
    rw [e3]
    refine hall.trans ?_
    simp only [transactionWords, operationPlan, ht, if_true, List.map_append, List.nil_append]
    rw [keptWords_append, SF.upcoming_append f q1]
    congr 2
    rw [← keptWords_take _ (_ ++ _) (t.frames.flatMap framePlan).length (le_refl _), List.take_left']
    simp [framePlan, frameWords, List.length_flatMap]

theorem SF.operations_run {f : SF} (hq : f.Quiet) (hc : f.spi.claimed = true) (sw : Switches)
    (hp : sw.preamblePerFrame = true) (hw : sw.sfWriteDataIsHeader = false) (ts : List Transaction) :
    ∃ q, f.run (ts.flatMap (sfTransaction sw)) =
      .done (f.advanced q (ts.flatMap transactionWords))
        (keptWords (ts.flatMap operationPlan) (f.upcoming ((ts.flatMap transactionWords).map Prod.fst))) := by
  induction ts generalizing f with
  | nil => exact ⟨f.seq, congrArg (fun x => Ran.done x []) (SF.advanced_nil f).symm⟩
  | cons t ts ih =>
    obtain ⟨q1, h1⟩ := SF.operation_run hq hc sw hp hw t
    obtain ⟨q2, h2⟩ := ih (hq.advanced q1 (transactionWords t)) hc
    rw [SF.advanced_advanced] at h2
    refine ⟨q2, ?_⟩
    rw [List.flatMap_cons]
    refine (runOps_append_done h1 h2).trans ?_
    have hl : (operationPlan t).length = (transactionWords t).length := by rw [← operationPlan_words]; simp
    simp only [List.flatMap_cons, List.map_append]
    rw [keptWords_append, SF.upcoming_append f q1 (transactionWords t)]
    congr 2
    · rw [← keptWords_take _ (_ ++ _) (operationPlan t).length (le_refl _), List.take_left' (by simp [hl])]
    · rw [List.drop_left' (by simp [hl])]

/-! ### The words kept are the data words of the read-class frames -/

theorem keptWords_frames (fs : List Frame) (rx : List Nat) :
    keptWords (fs.flatMap framePlan) rx = dataWordsReceived fs rx := by
  induction fs generalizing rx with
  | nil => rfl
  | cons f fs ih =>
    rw [List.flatMap_cons, keptWords_append, ih]
    simp only [dataWordsReceived]
    congr 1
    cases h : isReadClass f.op <;> simp [framePlan, keptWords, h]

theorem keptWords_operations (ts : List Transaction) (rx : List Nat) :
    keptWords (ts.flatMap operationPlan) rx = operationWordsReceived ts rx := by
  induction ts generalizing rx with
  | nil => rfl
  | cons t ts ih =>
    have hl : (operationPlan t).length = (transactionWords t).length := by rw [← operationPlan_words]; simp
    rw [List.flatMap_cons, keptWords_append, ih, hl]
    simp only [operationWordsReceived]
    congr 1
    rw [← keptWords_take _ rx (transactionWords t).length (le_of_eq hl), operationPlan, keptWords_append, keptWords_frames]
    cases t.trailingFlush <;> simp [keptWords]

/-- A register command of a ready SPI-framed engine: it completes with `Ok`, it sends the words of its operations, and
its value is made of the words received in the read data phases. -/
theorem sfTransact_ready {s : State} (hr : s.sf.Ready) (hp : s.switches.preamblePerFrame = true)
    (hw : s.switches.sfWriteDataIsHeader = false) (ts : List Transaction) (shape : Shape) :
    sfTransact ts shape s =
      .next (s.withSF (s.sf.completed (ts.flatMap transactionWords)
        (assemble shape (operationWordsReceived ts
          (s.sf.upcoming ((ts.flatMap transactionWords).map Prod.fst)))))) := by
  obtain ⟨ho, hc, hq⟩ := hr
  obtain ⟨q, hrun⟩ := SF.operations_run hq hc s.switches hp hw ts
  simp only [sfTransact, sfCommand, ho, if_true, hrun, keptWords_operations]
  rfl

end Sys2Proof.Machine
end

