-- ==== Sys2Proof/Laws/Commands.lean ====
section
/-! SUPPORT. The register commands in numbers: the frames of R82 to R87 as the operand assembly makes them, and the events and
words of each operation. -/

namespace Sys2Proof.Machine

open Codec Operands

/-! ### The levels to come -/

theorem BB.upcoming_eq_window (b : BB) (n : Nat) : b.upcoming n = b.window 0 n := by
  simp [BB.upcoming, BB.window]

@[simp] theorem BB.window_length (b : BB) (k n : Nat) : (b.window k n).length = n := by simp [BB.window]

theorem BB.window_take (b : BB) {k m n : Nat} (h : m ≤ n) : (b.window k n).take m = b.window k m := by
  simp [BB.window, ← List.map_take, List.take_range, Nat.min_eq_left h]

theorem BB.window_drop (b : BB) (k m n : Nat) : (b.window k n).drop m = b.window (k + m) (n - m) := by
  apply List.ext_getElem
  · simp
  · intro i h1 h2
    simp [BB.window, Nat.add_assoc]

/-! ### Frames in numbers -/

theorem bitsOf_take (m n v : Nat) : (bitsOf (m + n) v).take m = bitsOf m (v / 2 ^ n) := by
  apply List.ext_getElem
  · simp
  · intro i h1 h2
    simp only [bitsOf_length] at h2
    rw [List.getElem_take, bitsOf_getElem, bitsOf_getElem, Nat.testBit_div_two_pow]
    congr 1
    omega

theorem isReadClass_c22Write (p r v : Nat) : isReadClass (c22Write p r v).op = false :=
  (by decide : isReadClass Config.opC22Write = false)
theorem isReadClass_c22Read (p r : Nat) : isReadClass (c22Read p r).op = true :=
  (by decide : isReadClass Config.opC22Read = true)
theorem isReadClass_c45Address (p e a : Nat) : isReadClass (c45Address p e a).op = false :=
  (by decide : isReadClass Config.opC45Address = false)
theorem isReadClass_c45Write (p e v : Nat) : isReadClass (c45Write p e v).op = false :=
  (by decide : isReadClass Config.opC45Write = false)
theorem isReadClass_c45ReadInc (p e : Nat) : isReadClass (c45ReadInc p e).op = true :=
  (by decide : isReadClass Config.opC45ReadInc = true)
theorem isReadClass_c45Read (p e : Nat) : isReadClass (c45Read p e).op = true :=
  (by decide : isReadClass Config.opC45Read = true)

/-- A write-class frame with its preamble, from its 32 bits. -/
theorem writeFrame_events (f : Frame) (h : isReadClass f.op = false) (w : Nat)
    (hw : (encodeFrame { f with ta := Config.taWrite }).toNat = w) (ls : List Level) :
    onesEvents ++ frameEvents f ls = writeFrameEvents w := by
  subst hw
  simp [frameEvents, h, writeFrameEvents]

/-- A read-class frame with its preamble, from its fourteen header bits. -/
theorem readFrame_events (f : Frame) (h : isReadClass f.op = true) (w : Nat) (hw : (encodeFrame f).toNat / 2 ^ 18 = w)
    (ls : List Level) : onesEvents ++ frameEvents f ls = readFrameEvents w ls := by
  subst hw
  have ht := bitsOf_take 14 18 (encodeFrame f).toNat
  simp only [Nat.reduceAdd] at ht
  simp [frameEvents, h, readFrameEvents, ht]

theorem c22Write_events (p r v : Nat) (ls : List Level) :
    onesEvents ++ frameEvents (c22Write p r v) ls = writeFrameEvents (c22WriteBits p r v) := by
  refine writeFrame_events _ (isReadClass_c22Write p r v) _ ?_ ls
  simp only [encodeFrame_toNat, headerOf_toNat, c22Write, mask_toNat, c22WriteBits, Config.stC22, Config.opC22Write, Config.taWrite]
  norm_num
  ring

theorem c45Address_events (p e a : Nat) (ls : List Level) :
    onesEvents ++ frameEvents (c45Address p e a) ls = writeFrameEvents (c45AddressBits p e a) := by
  refine writeFrame_events _ (isReadClass_c45Address p e a) _ ?_ ls
  simp only [encodeFrame_toNat, headerOf_toNat, c45Address, mask_toNat, c45AddressBits, Config.stC45, Config.opC45Address,
    Config.taWrite]
  norm_num
  ring

theorem c45Write_events (p e v : Nat) (ls : List Level) :
    onesEvents ++ frameEvents (c45Write p e v) ls = writeFrameEvents (c45WriteBits p e v) := by
  refine writeFrame_events _ (isReadClass_c45Write p e v) _ ?_ ls
  simp only [encodeFrame_toNat, headerOf_toNat, c45Write, mask_toNat, c45WriteBits, Config.stC45, Config.opC45Write, Config.taWrite]
  norm_num
  ring

theorem c22Read_events (p r : Nat) (ls : List Level) :
    onesEvents ++ frameEvents (c22Read p r) ls = readFrameEvents (c22ReadBits p r) ls := by
  refine readFrame_events _ (isReadClass_c22Read p r) _ ?_ ls
  simp only [encodeFrame_toNat, headerOf_toNat, c22Read, mask_toNat, c22ReadBits, Config.stC22, Config.opC22Read, Config.taWrite]
  norm_num
  omega

theorem c45Read_events (p e : Nat) (ls : List Level) :
    onesEvents ++ frameEvents (c45Read p e) ls = readFrameEvents (c45ReadBits p e) ls := by
  refine readFrame_events _ (isReadClass_c45Read p e) _ ?_ ls
  simp only [encodeFrame_toNat, headerOf_toNat, c45Read, mask_toNat, c45ReadBits, Config.stC45, Config.opC45Read, Config.taWrite]
  norm_num
  omega

@[simp] theorem samplesOf_c22Write (p r v : Nat) : samplesOf (c22Write p r v) = 0 := by simp [samplesOf, isReadClass_c22Write]
@[simp] theorem samplesOf_c22Read (p r : Nat) : samplesOf (c22Read p r) = 18 := by simp [samplesOf, isReadClass_c22Read]
@[simp] theorem samplesOf_c45Address (p e a : Nat) : samplesOf (c45Address p e a) = 0 := by
  simp [samplesOf, isReadClass_c45Address]
@[simp] theorem samplesOf_c45Write (p e v : Nat) : samplesOf (c45Write p e v) = 0 := by simp [samplesOf, isReadClass_c45Write]
@[simp] theorem samplesOf_c45Read (p e : Nat) : samplesOf (c45Read p e) = 18 := by simp [samplesOf, isReadClass_c45Read]

/-! ### Operations in events -/

theorem readC22_events (p r : Nat) (ts : List Transaction) (ls : List Level) :
    transactionsEvents (readC22 p r :: ts) ls = readC22Events p r (ls.take 18) ++ transactionsEvents ts (ls.drop 18) := by
  simp [transactionsEvents, readC22, framesEvents, framesSamples, readC22Events, ← c22Read_events, List.take_take]

theorem writeC22_events (p r v : Nat) (ts : List Transaction) (ls : List Level) :
    transactionsEvents (writeC22 p r v :: ts) ls = writeC22Events p r v ++ transactionsEvents ts ls := by
  simp [transactionsEvents, writeC22, framesEvents, framesSamples, writeC22Events, ← c22Write_events p r v []]

theorem readC45_events (p e r : Nat) (ts : List Transaction) (ls : List Level) :
    transactionsEvents (readC45 p e r :: ts) ls = readC45Events p e r (ls.take 18) ++ transactionsEvents ts (ls.drop 18) := by
  simp [transactionsEvents, readC45, framesEvents, framesSamples, readC45Events, ← c45Read_events, ← c45Address_events p e r [],
    List.take_take]

theorem writeC45_events (p e r v : Nat) (ts : List Transaction) (ls : List Level) :
    transactionsEvents (writeC45 p e r v :: ts) ls = writeC45Events p e r v ++ transactionsEvents ts ls := by
  simp [transactionsEvents, writeC45, framesEvents, framesSamples, writeC45Events, ← c45Write_events p e v [],
    ← c45Address_events p e r []]

theorem c45AddressBits_mod (p e a : Nat) : c45AddressBits p e (a % 65536) = c45AddressBits p e a := by simp [c45AddressBits]
theorem c45WriteBits_mod (p e v : Nat) : c45WriteBits p e (v % 65536) = c45WriteBits p e v := by simp [c45WriteBits]
theorem splitDword_low (x : Nat) : (splitDword x).1.toNat = x % 65536 := by simp [splitDword, mask_toNat]
theorem splitDword_high (x : Nat) : (splitDword x).2.toNat = x / 65536 % 65536 := by
  simp [splitDword, mask_toNat, Nat.shiftRight_eq_div_pow]

theorem readC45Dword_events (p e r : Nat) (ts : List Transaction) (ls : List Level) :
    transactionsEvents (readC45Dword Switches.normative p e r :: ts) ls =
      readDwordEvents p e r (ls.take 18) ((ls.drop 18).take 18) ++ transactionsEvents ts (ls.drop 36) := by
  simp only [readC45Dword, Switches.normative, dwordFrames, dwordReadFrame, transactionsEvents, framesEvents, framesSamples,
    List.map_cons, List.map_nil, List.sum_cons, List.sum_nil, samplesOf_c45Read, samplesOf_c45Address, readDwordEvents,
    ← c45Read_events, splitDword_low, splitDword_high, Nat.zero_add, Nat.add_zero, Nat.reduceAdd, List.drop_zero]
  rw [← c45AddressBits_mod p e (r / 65536), ← c45AddressBits_mod p e r, ← c45Address_events p e _ (List.take 0 (List.take 36 ls)),
    ← c45Address_events p e _ (List.take 0 (List.take 36 ls))]
  simp [List.take_take, List.drop_take]

theorem writeC45Dword_events (p e r v : Nat) (ts : List Transaction) (ls : List Level) :
    transactionsEvents (writeC45Dword Switches.normative p e r v :: ts) ls =
      writeDwordEvents p e r v ++ transactionsEvents ts ls := by
  simp only [writeC45Dword, Switches.normative, dwordFrames, transactionsEvents, framesEvents, framesSamples, List.map_cons,
    List.map_nil, List.sum_cons, List.sum_nil, samplesOf_c45Address, samplesOf_c45Write, writeDwordEvents, splitDword_low,
    splitDword_high, Nat.add_zero, List.drop_zero]
  rw [← c45AddressBits_mod p e (r / 65536), ← c45AddressBits_mod p e r, ← c45WriteBits_mod p e (v / 65536),
    ← c45WriteBits_mod p e v, ← c45Address_events p e _ [], ← c45Address_events p e _ [], ← c45Write_events p e _ [],
    ← c45Write_events p e _ []]
  simp

theorem framesSamples_readC22 (p r : Nat) : framesSamples (readC22 p r).frames = 18 := by simp [readC22, framesSamples]
theorem framesSamples_writeC22 (p r v : Nat) : framesSamples (writeC22 p r v).frames = 0 := by simp [writeC22, framesSamples]
theorem framesSamples_readC45 (p e r : Nat) : framesSamples (readC45 p e r).frames = 18 := by simp [readC45, framesSamples]
theorem framesSamples_writeC45 (p e r v : Nat) : framesSamples (writeC45 p e r v).frames = 0 := by simp [writeC45, framesSamples]
theorem framesSamples_readC45Dword (p e r : Nat) : framesSamples (readC45Dword Switches.normative p e r).frames = 36 := by
  simp [readC45Dword, Switches.normative, dwordFrames, dwordReadFrame, framesSamples]
theorem framesSamples_writeC45Dword (p e r v : Nat) : framesSamples (writeC45Dword Switches.normative p e r v).frames = 0 := by
  simp [writeC45Dword, Switches.normative, dwordFrames, framesSamples]

theorem joinDword_eq (lo hi : U16) : joinDword lo hi = BitVec.ofNat 32 (hi.toNat * 65536 + lo.toNat) := by
  apply BitVec.eq_of_toNat_eq
  have h1 := hi.isLt
  have h2 := lo.isLt
  simp only [joinDword, BitVec.toNat_or, BitVec.toNat_shiftLeft, BitVec.toNat_setWidth, Nat.shiftLeft_eq, BitVec.toNat_ofNat]
  rw [show hi.toNat % 2 ^ 32 * 2 ^ 16 % 2 ^ 32 = hi.toNat * 2 ^ 16 by omega, show lo.toNat % 2 ^ 32 = lo.toNat by omega,
    or_eq_add _ _ _ h2]
  omega

/-! ### Operations in words -/

theorem sfHeader_toNat (f : Frame) :
    (sfHeader f).toNat =
      ((((f.st.toNat * 4 + f.op.toNat) * 32 + f.pad.toNat) * 32 + f.dad.toNat) * 4
        + (if isReadClass f.op then 3 else f.ta.toNat)) := by
  have := f.st.isLt; have := f.op.isLt; have := f.pad.isLt; have := f.dad.isLt; have := f.ta.isLt
  rw [sfHeader, encodeHeader_toNat]
  cases isReadClass f.op
  · simp only [Bool.false_eq_true, if_false]
    omega
  · simp only [if_true, Config.sfTaRead, BitVec.reduceToNat]
    omega

theorem frameWords_c22Write (p r v : Nat) :
    frameWords (c22Write p r v) = [(32, 0xFFFFFFFF), (16, 0x5002 + p % 32 * 2 ^ 7 + r % 32 * 2 ^ 2), (16, v % 65536)] := by
  simp only [frameWords, sfHeader_toNat, isReadClass_c22Write, Bool.false_eq_true, if_false]
  simp only [c22Write, mask_toNat, Config.stC22, Config.opC22Write, Config.taWrite, BitVec.reduceToNat]
  norm_num
  ring

theorem frameWords_c22Read (p r : Nat) :
    frameWords (c22Read p r) = [(32, 0xFFFFFFFF), (16, 0x6003 + p % 32 * 2 ^ 7 + r % 32 * 2 ^ 2), (16, 0xFFFF)] := by
  simp only [frameWords, sfHeader_toNat, isReadClass_c22Read, if_true]
  simp only [c22Read, mask_toNat, Config.stC22, Config.opC22Read, BitVec.reduceToNat]
  norm_num
  ring

theorem frameWords_c45Address (p e a : Nat) :
    frameWords (c45Address p e a) = [(32, 0xFFFFFFFF), (16, 0x0002 + p % 32 * 2 ^ 7 + e % 32 * 2 ^ 2), (16, a % 65536)] := by
  simp only [frameWords, sfHeader_toNat, isReadClass_c45Address, Bool.false_eq_true, if_false]
  simp only [c45Address, mask_toNat, Config.stC45, Config.opC45Address, Config.taWrite, BitVec.reduceToNat]
  norm_num
  ring

theorem frameWords_c45Write (p e v : Nat) :
    frameWords (c45Write p e v) = [(32, 0xFFFFFFFF), (16, 0x1002 + p % 32 * 2 ^ 7 + e % 32 * 2 ^ 2), (16, v % 65536)] := by
  simp only [frameWords, sfHeader_toNat, isReadClass_c45Write, Bool.false_eq_true, if_false]
  simp only [c45Write, mask_toNat, Config.stC45, Config.opC45Write, Config.taWrite, BitVec.reduceToNat]
  norm_num
  ring

theorem frameWords_c45Read (p e : Nat) :
    frameWords (c45Read p e) = [(32, 0xFFFFFFFF), (16, 0x3003 + p % 32 * 2 ^ 7 + e % 32 * 2 ^ 2), (16, 0xFFFF)] := by
  simp only [frameWords, sfHeader_toNat, isReadClass_c45Read, if_true]
  simp only [c45Read, mask_toNat, Config.stC45, Config.opC45Read, BitVec.reduceToNat]
  norm_num
  ring

theorem SF.upcoming_getElem (f : SF) (ws : List Nat) (k : Nat) (h : k < (f.upcoming ws).length) :
    (f.upcoming ws)[k] = f.wordAt k % 2 ^ (ws[k]'(by simpa using h)) := by simp [SF.upcoming]

theorem mask_mod (n v : Nat) : mask n (v % 2 ^ n) = mask n v := by
  apply BitVec.eq_of_toNat_eq
  simp [mask_toNat]

end Sys2Proof.Machine
end

