-- ==== Sys2Proof/Laws/Exec.lean ====
section
/-! SUPPORT. What `exec` comes to, said once for all instructions: the operations of an instruction, the shape of its value, and
`exec` as one of the shared operations over them. -/

namespace Sys2Proof

open Machine

/-- The single-register operations of an instruction, in order (R97); none for the lifecycle commands and the header words. -/
def Instr.operations (sw : Switches) : Instr → List Transaction
  | .c22Write _ p r ta d => [⟨[⟨Config.stC22, Config.opC22Write, p, r, ta, d⟩], false⟩]
  | .c22Read _ p r ta d => [⟨[⟨Config.stC22, Config.opC22Read, p, r, ta, d⟩], false⟩]
  | .c45Address _ p e ta d => [⟨[⟨Config.stC45, Config.opC45Address, p, e, ta, d⟩], false⟩]
  | .c45Write _ p e ta d => [⟨[⟨Config.stC45, Config.opC45Write, p, e, ta, d⟩], false⟩]
  | .c45ReadInc _ p e ta d => [⟨[⟨Config.stC45, Config.opC45ReadInc, p, e, ta, d⟩], false⟩]
  | .c45Read _ p e ta d => [⟨[⟨Config.stC45, Config.opC45Read, p, e, ta, d⟩], false⟩]
  | .hdrC22Write _ _ => []
  | .hdrC22Read _ _ => []
  | .hdrC45Address _ _ => []
  | .hdrC45Write _ _ => []
  | .hdrC45ReadInc _ _ => []
  | .hdrC45Read _ _ => []
  | .bbOpen => []
  | .sfOpen => []
  | .bbClose => []
  | .sfClose => []
  | .bbReadC22 p r => [readC22 p r]
  | .sfReadC22 p r => [readC22 p r]
  | .bbWriteC22 p r v => [writeC22 p r v]
  | .sfWriteC22 p r v => [writeC22 p r v]
  | .bbReadC45 p e r => [readC45 p e r]
  | .sfReadC45 p e r => [readC45 p e r]
  | .bbWriteC45 p e r v => [writeC45 p e r v]
  | .sfWriteC45 p e r v => [writeC45 p e r v]
  | .bbReadC45Dword p e r => [readC45Dword sw p e r]
  | .bbWriteC45Dword p e r v => [writeC45Dword sw p e r v]
  | .bbReadC22Registers p rs => rs.map (readC22 p)
  | .sfReadC22Registers p rs => rs.map (readC22 p)
  | .bbWriteC22Registers p rs vs => List.zipWith (writeC22 p) rs vs
  | .sfWriteC22Registers p rs vs => List.zipWith (writeC22 p) rs vs
  | .bbReadC45Registers p e rs => rs.map (readC45 p e)
  | .sfReadC45Registers p e rs => rs.map (readC45 p e)
  | .bbWriteC45Registers p e rs vs => List.zipWith (writeC45 p e) rs vs
  | .sfWriteC45Registers p e rs vs => List.zipWith (writeC45 p e) rs vs
  | .bbReadC45DwordRegisters p e rs => rs.map (readC45Dword sw p e)
  | .bbWriteC45DwordRegisters p e rs vs => List.zipWith (writeC45Dword sw p e) rs vs

/-- The shape of the value of an instruction (R96). -/
def Instr.shape : Instr → Shape
  | .c22Read _ _ _ _ _ => .u16
  | .c45ReadInc _ _ _ _ _ => .u16
  | .c45Read _ _ _ _ _ => .u16
  | .bbReadC22 _ _ => .u16
  | .sfReadC22 _ _ => .u16
  | .bbReadC45 _ _ _ => .u16
  | .sfReadC45 _ _ _ => .u16
  | .bbReadC45Dword _ _ _ => .u32
  | .bbReadC22Registers _ _ => .u16s
  | .sfReadC22Registers _ _ => .u16s
  | .bbReadC45Registers _ _ _ => .u16s
  | .sfReadC45Registers _ _ _ => .u16s
  | .bbReadC45DwordRegisters _ _ _ => .u32s
  | _ => .unit

/-- The frame whose header a header word is. -/
def Instr.headerFrame : Instr → Option Frame
  | .hdrC22Write p r => some ⟨Config.stC22, Config.opC22Write, p, r, Config.taWrite, 0⟩
  | .hdrC22Read p r => some ⟨Config.stC22, Config.opC22Read, p, r, Config.taWrite, 0⟩
  | .hdrC45Address p e => some ⟨Config.stC45, Config.opC45Address, p, e, Config.taWrite, 0⟩
  | .hdrC45Write p e => some ⟨Config.stC45, Config.opC45Write, p, e, Config.taWrite, 0⟩
  | .hdrC45ReadInc p e => some ⟨Config.stC45, Config.opC45ReadInc, p, e, Config.taWrite, 0⟩
  | .hdrC45Read p e => some ⟨Config.stC45, Config.opC45Read, p, e, Config.taWrite, 0⟩
  | _ => none

namespace Machine

/-- The classes of the six opcodes (R117). -/
theorem isReadClass_opcodes :
    Codec.isReadClass Config.opC22Write = false ∧ Codec.isReadClass Config.opC22Read = true ∧
    Codec.isReadClass Config.opC45Address = false ∧ Codec.isReadClass Config.opC45Write = false ∧
    Codec.isReadClass Config.opC45ReadInc = true ∧ Codec.isReadClass Config.opC45Read = true := by decide

/-- The open check, the length check and the operations of a write batch of the bit-bang engine. -/
theorem bbWriteBatch_eq (op : Nat → Nat → Transaction) (rs vs : List Nat) (s : State) :
    bbWriteBatch op rs vs s =
      if s.bb.isOpen = true ∧ (rs.length != vs.length) = true then .next (s.withBB (s.bb.raise .parameterInvalid))
      else bbTransact (List.zipWith op rs vs) .unit s := by
  simp only [bbWriteBatch, bne_iff_ne]

/-- The open check, the length check and the transfers of a write batch of the SPI-framed engine. -/
theorem sfWriteBatch_eq (op : Nat → Nat → Transaction) (rs vs : List Nat) (s : State) :
    sfWriteBatch op rs vs s =
      if s.sf.isOpen = true ∧ (rs.length != vs.length) = true then .next (s.withSF (s.sf.raise .parameterInvalid))
      else sfTransact (List.zipWith op rs vs) .unit s := by
  simp only [sfWriteBatch, bne_iff_ne]

/-- Every instruction of the bit-bang engine but `open` and `close`. -/
theorem exec_bitbang (i : Instr) (s : State) (he : i.engine = .bitbang) (hl : i.isLifecycle = false) :
    exec i s =
      if s.bb.isOpen = true ∧ i.listsDiffer = true then .next (s.withBB (s.bb.raise .parameterInvalid))
      else bbTransact (i.operations s.switches) i.shape s := by
  obtain ⟨h1, h2, h3, h4, h5, h6⟩ := isReadClass_opcodes
  cases i with
  | c22Write e _ _ _ _ =>
    obtain rfl : e = .bitbang := he
    simp [exec, execC22Write, sendFrame, h1, Instr.listsDiffer, Instr.operations, Instr.shape]
  | c22Read e _ _ _ _ =>
    obtain rfl : e = .bitbang := he
    simp [exec, execC22Read, sendFrame, h2, Instr.listsDiffer, Instr.operations, Instr.shape]
  | c45Address e _ _ _ _ =>
    obtain rfl : e = .bitbang := he
    simp [exec, execC45Address, sendFrame, h3, Instr.listsDiffer, Instr.operations, Instr.shape]
  | c45Write e _ _ _ _ =>
    obtain rfl : e = .bitbang := he
    simp [exec, execC45Write, sendFrame, h4, Instr.listsDiffer, Instr.operations, Instr.shape]
  | c45ReadInc e _ _ _ _ =>
    obtain rfl : e = .bitbang := he
    simp [exec, execC45ReadInc, sendFrame, h5, Instr.listsDiffer, Instr.operations, Instr.shape]
  | c45Read e _ _ _ _ =>
    obtain rfl : e = .bitbang := he
    simp [exec, execC45Read, sendFrame, h6, Instr.listsDiffer, Instr.operations, Instr.shape]
  | bbWriteC22Registers | bbWriteC45Registers | bbWriteC45DwordRegisters => exact bbWriteBatch_eq _ _ _ _
  | bbOpen | bbClose | sfOpen | sfClose => cases hl
  | _ => first | (cases he; done) | (simp only [Instr.listsDiffer, Bool.false_eq_true, and_false, if_false]; rfl)

/-- Every instruction of the SPI-framed engine but `open`, `close` and the header words. -/
theorem exec_spi (i : Instr) (s : State) (he : i.engine = .spi) (hl : i.isLifecycle = false) (hh : i.headerFrame = none) :
    exec i s =
      if s.sf.isOpen = true ∧ i.listsDiffer = true then .next (s.withSF (s.sf.raise .parameterInvalid))
      else sfTransact (i.operations s.switches) i.shape s := by
  obtain ⟨h1, h2, h3, h4, h5, h6⟩ := isReadClass_opcodes
  cases i with
  | c22Write e _ _ _ _ =>
    obtain rfl : e = .spi := he
    simp [exec, execC22Write, sendFrame, h1, Instr.listsDiffer, Instr.operations, Instr.shape]
  | c22Read e _ _ _ _ =>
    obtain rfl : e = .spi := he
    simp [exec, execC22Read, sendFrame, h2, Instr.listsDiffer, Instr.operations, Instr.shape]
  | c45Address e _ _ _ _ =>
    obtain rfl : e = .spi := he
    simp [exec, execC45Address, sendFrame, h3, Instr.listsDiffer, Instr.operations, Instr.shape]
  | c45Write e _ _ _ _ =>
    obtain rfl : e = .spi := he
    simp [exec, execC45Write, sendFrame, h4, Instr.listsDiffer, Instr.operations, Instr.shape]
  | c45ReadInc e _ _ _ _ =>
    obtain rfl : e = .spi := he
    simp [exec, execC45ReadInc, sendFrame, h5, Instr.listsDiffer, Instr.operations, Instr.shape]
  | c45Read e _ _ _ _ =>
    obtain rfl : e = .spi := he
    simp [exec, execC45Read, sendFrame, h6, Instr.listsDiffer, Instr.operations, Instr.shape]
  | sfWriteC22Registers | sfWriteC45Registers => exact sfWriteBatch_eq _ _ _ _
  | bbOpen | bbClose | sfOpen | sfClose => cases hl
  | _ => first | (cases he; done) | (cases hh; done) | (simp only [Instr.listsDiffer, Bool.false_eq_true, and_false, if_false]; rfl)

/-- A header word. -/
theorem exec_header (i : Instr) (s : State) (f : Frame) (hh : i.headerFrame = some f) : exec i s = sendHeader f s := by
  cases i <;> simp [Instr.headerFrame] at hh <;> subst hh <;> rfl

/-- A step that answers a next state did nothing, ran the decoded instruction, or sent a frame or header word without a
row. -/
theorem step_cases (s t : State) (h : step s = .next t) :
    (s.requests = [] ∧ t = s) ∨
    (∃ r rest i, s.requests = r :: rest ∧ s.board.contended r.engine = false ∧ decodeRequest r = .ok i ∧
      exec i (s.withRequests rest) = .next t) ∨
    (∃ r rest why f, s.requests = r :: rest ∧ s.board.contended r.engine = false ∧ decodeRequest r = .error why ∧
      requestedFrame r = some f ∧ sendUnlisted r.engine r.format f (s.withRequests rest) = .next t) := by
  unfold step State.take at h
  cases hr : s.requests with
  | nil => rw [hr] at h; cases h; exact .inl ⟨rfl, rfl⟩
  | cons r rest =>
    simp only [hr] at h
    cases hc : s.board.contended r.engine with
    | true => simp [hc] at h
    | false =>
      simp only [hc] at h
      cases hd : decodeRequest r with
      | ok i => simp only [hd] at h; exact .inr (.inl ⟨r, rest, i, rfl, hc, hd, h⟩)
      | error why =>
        simp only [hd] at h
        cases hf : requestedFrame r with
        | none => simp [hf] at h
        | some f => simp only [hf] at h; exact .inr (.inr ⟨r, rest, why, f, rfl, hc, hd, hf, h⟩)

/-- A word without a row on the bit-bang engine. -/
theorem sendUnlisted_bitbang (fmt : Format) (f : Frame) (s : State) (hf : fmt ≠ .hdr16) :
    sendUnlisted .bitbang fmt f s = bbTransact [⟨[f], false⟩] (if Codec.isReadClass f.op then .u16 else .unit) s := by
  cases fmt with
  | hdr16 => exact absurd rfl hf
  | frame32 => rfl
  | cmd8 => rfl

/-- A frame without a row on the SPI-framed engine. -/
theorem sendUnlisted_spi (f : Frame) (s : State) :
    sendUnlisted .spi .frame32 f s = sfTransact [⟨[f], false⟩] (if Codec.isReadClass f.op then .u16 else .unit) s := rfl

end Machine
end Sys2Proof
end

