-- ==== Sys2Proof/Laws/PerInstr.lean ====
section
/-! SUPPORT. What is said of each instruction as syntax, one lemma per constructor of `Instr`. -/

namespace Sys2Proof.Laws.TableBits

open Sys2Proof Sys2Proof.Codec

/-- The bits that the instruction's row of spec/opcode_table.json fixes, in the first word of its encoding: ST and OP of a
frame; ST, OP and the turnaround of a header word; the whole label of a command. -/
def FixedBits (w : Nat) : Instr → Prop
  | .c22Write _ _ _ _ _ => w / 2 ^ 28 = 0b0101
  | .c22Read _ _ _ _ _ => w / 2 ^ 28 = 0b0110
  | .c45Address _ _ _ _ _ => w / 2 ^ 28 = 0b0000
  | .c45Write _ _ _ _ _ => w / 2 ^ 28 = 0b0001
  | .c45ReadInc _ _ _ _ _ => w / 2 ^ 28 = 0b0010
  | .c45Read _ _ _ _ _ => w / 2 ^ 28 = 0b0011
  | .hdrC22Write _ _ => w / 2 ^ 12 = 0b0101 ∧ w % 4 = 0b10
  | .hdrC22Read _ _ => w / 2 ^ 12 = 0b0110 ∧ w % 4 = 0b11
  | .hdrC45Address _ _ => w / 2 ^ 12 = 0b0000 ∧ w % 4 = 0b10
  | .hdrC45Write _ _ => w / 2 ^ 12 = 0b0001 ∧ w % 4 = 0b10
  | .hdrC45ReadInc _ _ => w / 2 ^ 12 = 0b0010 ∧ w % 4 = 0b11
  | .hdrC45Read _ _ => w / 2 ^ 12 = 0b0011 ∧ w % 4 = 0b11
  | .bbOpen => w = 0x00
  | .sfOpen => w = 0x00
  | .bbClose => w = 0x01
  | .sfClose => w = 0x01
  | .bbReadC22 _ _ => w = 0x10
  | .sfReadC22 _ _ => w = 0x10
  | .bbWriteC22 _ _ _ => w = 0x11
  | .sfWriteC22 _ _ _ => w = 0x11
  | .bbReadC45 _ _ _ => w = 0x12
  | .sfReadC45 _ _ _ => w = 0x12
  | .bbWriteC45 _ _ _ _ => w = 0x13
  | .sfWriteC45 _ _ _ _ => w = 0x13
  | .bbReadC45Dword _ _ _ => w = 0x14
  | .bbWriteC45Dword _ _ _ _ => w = 0x15
  | .bbReadC22Registers _ _ => w = 0x20
  | .sfReadC22Registers _ _ => w = 0x20
  | .bbWriteC22Registers _ _ _ => w = 0x21
  | .sfWriteC22Registers _ _ _ => w = 0x21
  | .bbReadC45Registers _ _ _ => w = 0x22
  | .sfReadC45Registers _ _ _ => w = 0x22
  | .bbWriteC45Registers _ _ _ _ => w = 0x23
  | .sfWriteC45Registers _ _ _ _ => w = 0x23
  | .bbReadC45DwordRegisters _ _ _ => w = 0x24
  | .bbWriteC45DwordRegisters _ _ _ _ => w = 0x25

/-- The first word the encoder writes has the row's fixed bits. -/
def Statement (i : Instr) : Prop := ∃ w rest, (encode i).words = w :: rest ∧ FixedBits w i

theorem frame_fixed (f : Frame) : (encodeFrame f).toNat / 2 ^ 28 = f.st.toNat * 4 + f.op.toNat := by
  have := f.pad.isLt; have := f.dad.isLt; have := f.ta.isLt; have := f.data.isLt
  rw [encodeFrame_toNat, headerOf_toNat]
  omega

theorem header_fixed (st op : U2) (pad dad : U5) (k : Nat) (h : k = if isReadClass op then 3 else 2) :
    (sfHeader ⟨st, op, pad, dad, Config.taWrite, 0⟩).toNat / 2 ^ 12 = st.toNat * 4 + op.toNat ∧
      (sfHeader ⟨st, op, pad, dad, Config.taWrite, 0⟩).toNat % 4 = k := by
  have := st.isLt; have := op.isLt; have := pad.isLt; have := dad.isLt
  have h2 : Config.taWrite.toNat = 2 := rfl
  rw [sfHeader, encodeHeader_toNat, h]
  cases isReadClass op <;> simp only [if_true, Bool.false_eq_true, if_false, Config.sfTaRead, BitVec.reduceToNat] <;> omega

theorem c22Write (e : Engine) (pad reg : U5) (ta : U2) (data : U16) : Statement (.c22Write e pad reg ta data) :=
  ⟨_, [], rfl, frame_fixed _⟩
theorem c22Read (e : Engine) (pad reg : U5) (ta : U2) (data : U16) : Statement (.c22Read e pad reg ta data) :=
  ⟨_, [], rfl, frame_fixed _⟩
theorem c45Address (e : Engine) (pad dev : U5) (ta : U2) (data : U16) : Statement (.c45Address e pad dev ta data) :=
  ⟨_, [], rfl, frame_fixed _⟩
theorem c45Write (e : Engine) (pad dev : U5) (ta : U2) (data : U16) : Statement (.c45Write e pad dev ta data) :=
  ⟨_, [], rfl, frame_fixed _⟩
theorem c45ReadInc (e : Engine) (pad dev : U5) (ta : U2) (data : U16) : Statement (.c45ReadInc e pad dev ta data) :=
  ⟨_, [], rfl, frame_fixed _⟩
theorem c45Read (e : Engine) (pad dev : U5) (ta : U2) (data : U16) : Statement (.c45Read e pad dev ta data) :=
  ⟨_, [], rfl, frame_fixed _⟩
theorem hdrC22Write (pad reg : U5) : Statement (.hdrC22Write pad reg) :=
  ⟨_, [], rfl, header_fixed _ _ _ _ _ (by decide)⟩
theorem hdrC22Read (pad reg : U5) : Statement (.hdrC22Read pad reg) :=
  ⟨_, [], rfl, header_fixed _ _ _ _ _ (by decide)⟩
theorem hdrC45Address (pad dev : U5) : Statement (.hdrC45Address pad dev) :=
  ⟨_, [], rfl, header_fixed _ _ _ _ _ (by decide)⟩
theorem hdrC45Write (pad dev : U5) : Statement (.hdrC45Write pad dev) :=
  ⟨_, [], rfl, header_fixed _ _ _ _ _ (by decide)⟩
theorem hdrC45ReadInc (pad dev : U5) : Statement (.hdrC45ReadInc pad dev) :=
  ⟨_, [], rfl, header_fixed _ _ _ _ _ (by decide)⟩
theorem hdrC45Read (pad dev : U5) : Statement (.hdrC45Read pad dev) :=
  ⟨_, [], rfl, header_fixed _ _ _ _ _ (by decide)⟩
theorem bbOpen : Statement .bbOpen := ⟨_, _, rfl, rfl⟩
theorem sfOpen : Statement .sfOpen := ⟨_, _, rfl, rfl⟩
theorem bbClose : Statement .bbClose := ⟨_, _, rfl, rfl⟩
theorem sfClose : Statement .sfClose := ⟨_, _, rfl, rfl⟩
theorem bbReadC22 (phy reg : Nat) : Statement (.bbReadC22 phy reg) := ⟨_, _, rfl, rfl⟩
theorem sfReadC22 (phy reg : Nat) : Statement (.sfReadC22 phy reg) := ⟨_, _, rfl, rfl⟩
theorem bbWriteC22 (phy reg value : Nat) : Statement (.bbWriteC22 phy reg value) := ⟨_, _, rfl, rfl⟩
theorem sfWriteC22 (phy reg value : Nat) : Statement (.sfWriteC22 phy reg value) := ⟨_, _, rfl, rfl⟩
theorem bbReadC45 (phy dev reg : Nat) : Statement (.bbReadC45 phy dev reg) := ⟨_, _, rfl, rfl⟩
theorem sfReadC45 (phy dev reg : Nat) : Statement (.sfReadC45 phy dev reg) := ⟨_, _, rfl, rfl⟩
theorem bbWriteC45 (phy dev reg value : Nat) : Statement (.bbWriteC45 phy dev reg value) := ⟨_, _, rfl, rfl⟩
theorem sfWriteC45 (phy dev reg value : Nat) : Statement (.sfWriteC45 phy dev reg value) := ⟨_, _, rfl, rfl⟩
theorem bbReadC45Dword (phy dev reg : Nat) : Statement (.bbReadC45Dword phy dev reg) := ⟨_, _, rfl, rfl⟩
theorem bbWriteC45Dword (phy dev reg value : Nat) : Statement (.bbWriteC45Dword phy dev reg value) := ⟨_, _, rfl, rfl⟩
theorem bbReadC22Registers (phy : Nat) (regs : List Nat) : Statement (.bbReadC22Registers phy regs) := ⟨_, _, rfl, rfl⟩
theorem sfReadC22Registers (phy : Nat) (regs : List Nat) : Statement (.sfReadC22Registers phy regs) := ⟨_, _, rfl, rfl⟩
theorem bbWriteC22Registers (phy : Nat) (regs values : List Nat) : Statement (.bbWriteC22Registers phy regs values) :=
  ⟨_, _, rfl, rfl⟩
theorem sfWriteC22Registers (phy : Nat) (regs values : List Nat) : Statement (.sfWriteC22Registers phy regs values) :=
  ⟨_, _, rfl, rfl⟩
theorem bbReadC45Registers (phy dev : Nat) (regs : List Nat) : Statement (.bbReadC45Registers phy dev regs) := ⟨_, _, rfl, rfl⟩
theorem sfReadC45Registers (phy dev : Nat) (regs : List Nat) : Statement (.sfReadC45Registers phy dev regs) := ⟨_, _, rfl, rfl⟩
theorem bbWriteC45Registers (phy dev : Nat) (regs values : List Nat) : Statement (.bbWriteC45Registers phy dev regs values) :=
  ⟨_, _, rfl, rfl⟩
theorem sfWriteC45Registers (phy dev : Nat) (regs values : List Nat) : Statement (.sfWriteC45Registers phy dev regs values) :=
  ⟨_, _, rfl, rfl⟩
theorem bbReadC45DwordRegisters (phy dev : Nat) (regs : List Nat) : Statement (.bbReadC45DwordRegisters phy dev regs) :=
  ⟨_, _, rfl, rfl⟩
theorem bbWriteC45DwordRegisters (phy dev : Nat) (regs values : List Nat) : Statement (.bbWriteC45DwordRegisters phy dev regs values) :=
  ⟨_, _, rfl, rfl⟩

end Sys2Proof.Laws.TableBits
end

