-- ==== Sys2Proof/Laws/State.lean ====
section
/-! SUPPORT. What each update of the state does to each field, one lemma per field per update, so that no proof unfolds a
record update. -/

namespace Sys2Proof.Machine

/-! ### `State.withBB` -/

@[simp] theorem State.withBB_bb (s : State) (b : BB) : (s.withBB b).bb = b := rfl
@[simp] theorem State.withBB_sf (s : State) (b : BB) : (s.withBB b).sf = s.sf := rfl
@[simp] theorem State.withBB_requests (s : State) (b : BB) : (s.withBB b).requests = s.requests := rfl
@[simp] theorem State.withBB_board (s : State) (b : BB) : (s.withBB b).board = s.board := rfl
@[simp] theorem State.withBB_switches (s : State) (b : BB) : (s.withBB b).switches = s.switches := rfl

/-! ### `State.withSF` -/

@[simp] theorem State.withSF_bb (s : State) (f : SF) : (s.withSF f).bb = s.bb := rfl
@[simp] theorem State.withSF_sf (s : State) (f : SF) : (s.withSF f).sf = f := rfl
@[simp] theorem State.withSF_requests (s : State) (f : SF) : (s.withSF f).requests = s.requests := rfl
@[simp] theorem State.withSF_board (s : State) (f : SF) : (s.withSF f).board = s.board := rfl
@[simp] theorem State.withSF_switches (s : State) (f : SF) : (s.withSF f).switches = s.switches := rfl

/-! ### `State.withRequests` -/

@[simp] theorem State.withRequests_bb (s : State) (rs : List Request) : (s.withRequests rs).bb = s.bb := rfl
@[simp] theorem State.withRequests_sf (s : State) (rs : List Request) : (s.withRequests rs).sf = s.sf := rfl
@[simp] theorem State.withRequests_requests (s : State) (rs : List Request) : (s.withRequests rs).requests = rs := rfl
@[simp] theorem State.withRequests_board (s : State) (rs : List Request) : (s.withRequests rs).board = s.board := rfl
@[simp] theorem State.withRequests_switches (s : State) (rs : List Request) : (s.withRequests rs).switches = s.switches := rfl

/-! ### `BB.deliver` -/

@[simp] theorem BB.deliver_cfg (b : BB) (r : Result) : (b.deliver r).cfg = b.cfg := rfl
@[simp] theorem BB.deliver_isOpen (b : BB) (r : Result) : (b.deliver r).isOpen = b.isOpen := rfl
@[simp] theorem BB.deliver_clk (b : BB) (r : Result) : (b.deliver r).clk = b.clk := rfl
@[simp] theorem BB.deliver_data (b : BB) (r : Result) : (b.deliver r).data = b.data := rfl
@[simp] theorem BB.deliver_seq (b : BB) (r : Result) : (b.deliver r).seq = .idle := rfl
@[simp] theorem BB.deliver_trace (b : BB) (r : Result) : (b.deliver r).trace = b.trace := rfl
@[simp] theorem BB.deliver_results (b : BB) (r : Result) : (b.deliver r).results = b.results ++ [r] := rfl
@[simp] theorem BB.deliver_env (b : BB) (r : Result) : (b.deliver r).env = b.env := rfl
@[simp] theorem BB.deliver_free (b : BB) (r : Result) : (b.deliver r).free = b.free := rfl

/-! ### `BB.raise` -/

@[simp] theorem BB.raise_cfg (b : BB) (e : ErrorKind) : (b.raise e).cfg = b.cfg := rfl
@[simp] theorem BB.raise_isOpen (b : BB) (e : ErrorKind) : (b.raise e).isOpen = b.isOpen := rfl
@[simp] theorem BB.raise_clk (b : BB) (e : ErrorKind) : (b.raise e).clk = b.clk := rfl
@[simp] theorem BB.raise_data (b : BB) (e : ErrorKind) : (b.raise e).data = b.data := rfl
@[simp] theorem BB.raise_seq (b : BB) (e : ErrorKind) : (b.raise e).seq = .idle := rfl
@[simp] theorem BB.raise_trace (b : BB) (e : ErrorKind) : (b.raise e).trace = b.trace := rfl
@[simp] theorem BB.raise_results (b : BB) (e : ErrorKind) : (b.raise e).results = b.results ++ [.err e] := rfl
@[simp] theorem BB.raise_env (b : BB) (e : ErrorKind) : (b.raise e).env = b.env := rfl
@[simp] theorem BB.raise_free (b : BB) (e : ErrorKind) : (b.raise e).free = b.free := rfl

/-! ### `BB.afterDraw` -/

@[simp] theorem BB.afterDraw_cfg (b : BB) : (b.afterDraw).cfg = b.cfg := rfl
@[simp] theorem BB.afterDraw_isOpen (b : BB) : (b.afterDraw).isOpen = b.isOpen := rfl
@[simp] theorem BB.afterDraw_clk (b : BB) : (b.afterDraw).clk = b.clk := rfl
@[simp] theorem BB.afterDraw_data (b : BB) : (b.afterDraw).data = b.data := rfl
@[simp] theorem BB.afterDraw_seq (b : BB) : (b.afterDraw).seq = b.seq := rfl
@[simp] theorem BB.afterDraw_trace (b : BB) : (b.afterDraw).trace = b.trace := rfl
@[simp] theorem BB.afterDraw_results (b : BB) : (b.afterDraw).results = b.results := rfl
@[simp] theorem BB.afterDraw_env (b : BB) : (b.afterDraw).env = { b.env with levels := b.env.levels.tail } := rfl
@[simp] theorem BB.afterDraw_free (b : BB) : (b.afterDraw).free = b.free + 1 := rfl

/-! ### `BB.clkWritten` -/

@[simp] theorem BB.clkWritten_cfg (b : BB) (l : Level) : (b.clkWritten l).cfg = b.cfg := rfl
@[simp] theorem BB.clkWritten_isOpen (b : BB) (l : Level) : (b.clkWritten l).isOpen = b.isOpen := rfl
@[simp] theorem BB.clkWritten_clk (b : BB) (l : Level) : (b.clkWritten l).clk = { b.clk with drive := l } := rfl
@[simp] theorem BB.clkWritten_data (b : BB) (l : Level) : (b.clkWritten l).data = b.data := rfl
@[simp] theorem BB.clkWritten_seq (b : BB) (l : Level) : (b.clkWritten l).seq = if l then b.seq else b.seq.pulses 1 := rfl
@[simp] theorem BB.clkWritten_trace (b : BB) (l : Level) : (b.clkWritten l).trace = b.trace ++ [.cout l] := rfl
@[simp] theorem BB.clkWritten_results (b : BB) (l : Level) : (b.clkWritten l).results = b.results := rfl
@[simp] theorem BB.clkWritten_env (b : BB) (l : Level) : (b.clkWritten l).env = b.env := rfl
@[simp] theorem BB.clkWritten_free (b : BB) (l : Level) : (b.clkWritten l).free = b.free := rfl

/-! ### `BB.dataWritten` -/

@[simp] theorem BB.dataWritten_cfg (b : BB) (l : Level) : (b.dataWritten l).cfg = b.cfg := rfl
@[simp] theorem BB.dataWritten_isOpen (b : BB) (l : Level) : (b.dataWritten l).isOpen = b.isOpen := rfl
@[simp] theorem BB.dataWritten_clk (b : BB) (l : Level) : (b.dataWritten l).clk = b.clk := rfl
@[simp] theorem BB.dataWritten_data (b : BB) (l : Level) : (b.dataWritten l).data = { b.data with drive := l } := rfl
@[simp] theorem BB.dataWritten_seq (b : BB) (l : Level) : (b.dataWritten l).seq = b.seq := rfl
@[simp] theorem BB.dataWritten_trace (b : BB) (l : Level) : (b.dataWritten l).trace = b.trace ++ [.dout l] := rfl
@[simp] theorem BB.dataWritten_results (b : BB) (l : Level) : (b.dataWritten l).results = b.results := rfl
@[simp] theorem BB.dataWritten_env (b : BB) (l : Level) : (b.dataWritten l).env = b.env := rfl
@[simp] theorem BB.dataWritten_free (b : BB) (l : Level) : (b.dataWritten l).free = b.free := rfl

/-! ### `BB.sampled` -/

@[simp] theorem BB.sampled_cfg (b : BB) : (b.sampled).cfg = b.cfg := rfl
@[simp] theorem BB.sampled_isOpen (b : BB) : (b.sampled).isOpen = b.isOpen := rfl
@[simp] theorem BB.sampled_clk (b : BB) : (b.sampled).clk = b.clk := rfl
@[simp] theorem BB.sampled_data (b : BB) : (b.sampled).data = b.data := rfl
@[simp] theorem BB.sampled_seq (b : BB) : (b.sampled).seq = b.seq := rfl
@[simp] theorem BB.sampled_trace (b : BB) : (b.sampled).trace = b.trace ++ [.dsample b.drawnLevel] := rfl
@[simp] theorem BB.sampled_results (b : BB) : (b.sampled).results = b.results := rfl
@[simp] theorem BB.sampled_env (b : BB) : (b.sampled).env = { b.env with levels := b.env.levels.tail } := rfl
@[simp] theorem BB.sampled_free (b : BB) : (b.sampled).free = b.free + 1 := rfl

/-! ### `BB.turnedIn` -/

@[simp] theorem BB.turnedIn_cfg (b : BB) : (b.turnedIn).cfg = b.cfg := rfl
@[simp] theorem BB.turnedIn_isOpen (b : BB) : (b.turnedIn).isOpen = b.isOpen := rfl
@[simp] theorem BB.turnedIn_clk (b : BB) : (b.turnedIn).clk = b.clk := rfl
@[simp] theorem BB.turnedIn_data (b : BB) : (b.turnedIn).data = { b.data with dir := .input } := rfl
@[simp] theorem BB.turnedIn_seq (b : BB) : (b.turnedIn).seq = b.seq := rfl
@[simp] theorem BB.turnedIn_trace (b : BB) : (b.turnedIn).trace = b.trace ++ [.ddirIn] := rfl
@[simp] theorem BB.turnedIn_results (b : BB) : (b.turnedIn).results = b.results := rfl
@[simp] theorem BB.turnedIn_env (b : BB) : (b.turnedIn).env = b.env := rfl
@[simp] theorem BB.turnedIn_free (b : BB) : (b.turnedIn).free = b.free := rfl

/-! ### `BB.turnedOut` -/

@[simp] theorem BB.turnedOut_cfg (b : BB) (l : Level) : (b.turnedOut l).cfg = b.cfg := rfl
@[simp] theorem BB.turnedOut_isOpen (b : BB) (l : Level) : (b.turnedOut l).isOpen = b.isOpen := rfl
@[simp] theorem BB.turnedOut_clk (b : BB) (l : Level) : (b.turnedOut l).clk = b.clk := rfl
@[simp] theorem BB.turnedOut_data (b : BB) (l : Level) : (b.turnedOut l).data = { b.data with dir := .output, drive := l } :=
  rfl
@[simp] theorem BB.turnedOut_seq (b : BB) (l : Level) : (b.turnedOut l).seq = b.seq := rfl
@[simp] theorem BB.turnedOut_trace (b : BB) (l : Level) : (b.turnedOut l).trace = b.trace ++ [.ddirOut l] := rfl
@[simp] theorem BB.turnedOut_results (b : BB) (l : Level) : (b.turnedOut l).results = b.results := rfl
@[simp] theorem BB.turnedOut_env (b : BB) (l : Level) : (b.turnedOut l).env = b.env := rfl
@[simp] theorem BB.turnedOut_free (b : BB) (l : Level) : (b.turnedOut l).free = b.free := rfl

/-! ### `BB.unclaimed` -/

@[simp] theorem BB.unclaimed_cfg (b : BB) : (b.unclaimed).cfg = b.cfg := rfl
@[simp] theorem BB.unclaimed_isOpen (b : BB) : (b.unclaimed).isOpen = b.isOpen := rfl
@[simp] theorem BB.unclaimed_clk (b : BB) : (b.unclaimed).clk = { b.clk with claimed := false } := rfl
@[simp] theorem BB.unclaimed_data (b : BB) : (b.unclaimed).data = { b.data with claimed := false } := rfl
@[simp] theorem BB.unclaimed_seq (b : BB) : (b.unclaimed).seq = b.seq := rfl
@[simp] theorem BB.unclaimed_trace (b : BB) : (b.unclaimed).trace = b.trace := rfl
@[simp] theorem BB.unclaimed_results (b : BB) : (b.unclaimed).results = b.results := rfl
@[simp] theorem BB.unclaimed_env (b : BB) : (b.unclaimed).env = b.env := rfl
@[simp] theorem BB.unclaimed_free (b : BB) : (b.unclaimed).free = b.free := rfl

/-! ### `BB.giveBackClk` -/

@[simp] theorem BB.giveBackClk_cfg (b : BB) : (b.giveBackClk).cfg = b.cfg := rfl
@[simp] theorem BB.giveBackClk_isOpen (b : BB) : (b.giveBackClk).isOpen = b.isOpen := rfl
@[simp] theorem BB.giveBackClk_clk (b : BB) : (b.giveBackClk).clk = Line.released b.free := rfl
@[simp] theorem BB.giveBackClk_data (b : BB) : (b.giveBackClk).data = b.data := rfl
@[simp] theorem BB.giveBackClk_seq (b : BB) : (b.giveBackClk).seq = b.seq := rfl
@[simp] theorem BB.giveBackClk_trace (b : BB) : (b.giveBackClk).trace = b.trace := rfl
@[simp] theorem BB.giveBackClk_results (b : BB) : (b.giveBackClk).results = b.results := rfl
@[simp] theorem BB.giveBackClk_env (b : BB) : (b.giveBackClk).env = b.env := rfl
@[simp] theorem BB.giveBackClk_free (b : BB) : (b.giveBackClk).free = b.free + 1 := rfl

/-! ### `BB.closeFailed` -/

@[simp] theorem BB.closeFailed_cfg (b : BB) : (b.closeFailed).cfg = b.cfg := rfl
@[simp] theorem BB.closeFailed_isOpen (b : BB) : (b.closeFailed).isOpen = false := rfl
@[simp] theorem BB.closeFailed_clk (b : BB) : (b.closeFailed).clk = Line.unspecified (b.free + 1) := rfl
@[simp] theorem BB.closeFailed_data (b : BB) : (b.closeFailed).data = Line.unspecified b.free := rfl
@[simp] theorem BB.closeFailed_seq (b : BB) : (b.closeFailed).seq = b.seq := rfl
@[simp] theorem BB.closeFailed_trace (b : BB) : (b.closeFailed).trace = b.trace := rfl
@[simp] theorem BB.closeFailed_results (b : BB) : (b.closeFailed).results = b.results := rfl
@[simp] theorem BB.closeFailed_env (b : BB) : (b.closeFailed).env = b.env := rfl
@[simp] theorem BB.closeFailed_free (b : BB) : (b.closeFailed).free = b.free + 2 := rfl

/-! ### `SF.deliver` -/

@[simp] theorem SF.deliver_cfg (f : SF) (r : Result) : (f.deliver r).cfg = f.cfg := rfl
@[simp] theorem SF.deliver_isOpen (f : SF) (r : Result) : (f.deliver r).isOpen = f.isOpen := rfl
@[simp] theorem SF.deliver_spi (f : SF) (r : Result) : (f.deliver r).spi = f.spi := rfl
@[simp] theorem SF.deliver_seq (f : SF) (r : Result) : (f.deliver r).seq = .idle := rfl
@[simp] theorem SF.deliver_trace (f : SF) (r : Result) : (f.deliver r).trace = f.trace := rfl
@[simp] theorem SF.deliver_results (f : SF) (r : Result) : (f.deliver r).results = f.results ++ [r] := rfl
@[simp] theorem SF.deliver_env (f : SF) (r : Result) : (f.deliver r).env = f.env := rfl
@[simp] theorem SF.deliver_free (f : SF) (r : Result) : (f.deliver r).free = f.free := rfl

/-! ### `SF.raise` -/

@[simp] theorem SF.raise_cfg (f : SF) (e : ErrorKind) : (f.raise e).cfg = f.cfg := rfl
@[simp] theorem SF.raise_isOpen (f : SF) (e : ErrorKind) : (f.raise e).isOpen = f.isOpen := rfl
@[simp] theorem SF.raise_spi (f : SF) (e : ErrorKind) : (f.raise e).spi = f.spi := rfl
@[simp] theorem SF.raise_seq (f : SF) (e : ErrorKind) : (f.raise e).seq = .idle := rfl
@[simp] theorem SF.raise_trace (f : SF) (e : ErrorKind) : (f.raise e).trace = f.trace := rfl
@[simp] theorem SF.raise_results (f : SF) (e : ErrorKind) : (f.raise e).results = f.results ++ [.err e] := rfl
@[simp] theorem SF.raise_env (f : SF) (e : ErrorKind) : (f.raise e).env = f.env := rfl
@[simp] theorem SF.raise_free (f : SF) (e : ErrorKind) : (f.raise e).free = f.free := rfl

/-! ### `SF.afterDraw` -/

@[simp] theorem SF.afterDraw_cfg (f : SF) : (f.afterDraw).cfg = f.cfg := rfl
@[simp] theorem SF.afterDraw_isOpen (f : SF) : (f.afterDraw).isOpen = f.isOpen := rfl
@[simp] theorem SF.afterDraw_spi (f : SF) : (f.afterDraw).spi = f.spi := rfl
@[simp] theorem SF.afterDraw_seq (f : SF) : (f.afterDraw).seq = f.seq := rfl
@[simp] theorem SF.afterDraw_trace (f : SF) : (f.afterDraw).trace = f.trace := rfl
@[simp] theorem SF.afterDraw_results (f : SF) : (f.afterDraw).results = f.results := rfl
@[simp] theorem SF.afterDraw_env (f : SF) : (f.afterDraw).env = { f.env with received := f.env.received.tail } := rfl
@[simp] theorem SF.afterDraw_free (f : SF) : (f.afterDraw).free = f.free + 1 := rfl

/-! ### `SF.transferred` -/

@[simp] theorem SF.transferred_cfg (f : SF) (n tx : Nat) (cs : Bool) : (f.transferred n tx cs).cfg = f.cfg := rfl
@[simp] theorem SF.transferred_isOpen (f : SF) (n tx : Nat) (cs : Bool) : (f.transferred n tx cs).isOpen = f.isOpen := rfl
@[simp] theorem SF.transferred_spi (f : SF) (n tx : Nat) (cs : Bool) : (f.transferred n tx cs).spi = f.spi := rfl
@[simp] theorem SF.transferred_seq (f : SF) (n tx : Nat) (cs : Bool) : (f.transferred n tx cs).seq = f.seq.pulses n := rfl
@[simp] theorem SF.transferred_trace (f : SF) (n tx : Nat) (cs : Bool) :
    (f.transferred n tx cs).trace = f.trace ++ [.xfer n tx cs (f.drawnWord n)] := rfl
@[simp] theorem SF.transferred_results (f : SF) (n tx : Nat) (cs : Bool) : (f.transferred n tx cs).results = f.results := rfl
@[simp] theorem SF.transferred_env (f : SF) (n tx : Nat) (cs : Bool) :
    (f.transferred n tx cs).env = { f.env with received := f.env.received.tail } := rfl
@[simp] theorem SF.transferred_free (f : SF) (n tx : Nat) (cs : Bool) : (f.transferred n tx cs).free = f.free + 1 := rfl

/-! ### `SF.closeFailed` -/

@[simp] theorem SF.closeFailed_cfg (f : SF) : (f.closeFailed).cfg = f.cfg := rfl
@[simp] theorem SF.closeFailed_isOpen (f : SF) : (f.closeFailed).isOpen = false := rfl
@[simp] theorem SF.closeFailed_spi (f : SF) : (f.closeFailed).spi = { claimed := Config.freePortClaimed f.free } := rfl
@[simp] theorem SF.closeFailed_seq (f : SF) : (f.closeFailed).seq = f.seq := rfl
@[simp] theorem SF.closeFailed_trace (f : SF) : (f.closeFailed).trace = f.trace := rfl
@[simp] theorem SF.closeFailed_results (f : SF) : (f.closeFailed).results = f.results := rfl
@[simp] theorem SF.closeFailed_env (f : SF) : (f.closeFailed).env = f.env := rfl
@[simp] theorem SF.closeFailed_free (f : SF) : (f.closeFailed).free = f.free + 1 := rfl

end Sys2Proof.Machine
end

