-- ==== Sys2Proof/Tests/Slice0.lean ====
section
/-! SUPPORT. Tests: the smoke test of WellFormed, words written out from the spec's encodings, one step of each instruction
against the vectors of spec/95_test_vectors.md (T and V numbers), and a witness for the hypotheses of every statement of
Certificates/Slice0/Obligations.lean that has any. -/

namespace Sys2Proof.Tests

-- One theorem after the other: the kernel evaluations of this file together would take too much memory.
set_option Elab.async false

open Sys2Proof Sys2Proof.Machine Sys2Proof.Codec

/-! ### WellFormed refuses -/

theorem test_wf_write_turnaround : (Instr.c22Write .bitbang 3 5 0b11 0).wf = false ∧ (Instr.c22Write .bitbang 3 5 0b10 0).wf = true := by
  decide
theorem test_wf_address_turnaround : (Instr.c45Address .spi 1 7 0b00 0).wf = false ∧ (Instr.c45Write .spi 1 7 0b01 0).wf = false := by
  decide
theorem test_wf_parallel_c22 :
    (Instr.bbWriteC22Registers 7 [1, 2] [9]).wf = false ∧ (Instr.sfWriteC22Registers 7 [] [9]).wf = false := by decide
theorem test_wf_parallel_c45 :
    (Instr.bbWriteC45Registers 1 1 [1, 2, 3] [0, 0]).wf = false ∧ (Instr.sfWriteC45Registers 1 1 [1] []).wf = false ∧
    (Instr.bbWriteC45DwordRegisters 1 1 [1] [2, 3]).wf = false := by decide

/-! ### Decoding words written out by hand -/

/-- What a message decodes to. -/
def read (e : Engine) (fmt : Format) (ws : List Nat) : Option Instr := (decodeRequest ⟨e, fmt, ws⟩).toOption

/-- R82: 01 01 00011 00101 10 1011111011101111. -/
theorem test_decode_c22Write : read .bitbang .frame32 [0b01010001100101101011111011101111] = some (.c22Write .bitbang 3 5 2 0xBEEF) := by
  decide
/-- R83: 01 10 11111 00001 10, data 0. -/
theorem test_decode_c22Read : read .spi .frame32 [0b01101111100001100000000000000000] = some (.c22Read .spi 31 1 2 0) := by decide
/-- R84: 00 00 00001 00111 10 1000000000000000. -/
theorem test_decode_c45Address : read .bitbang .frame32 [0b00000000100111101000000000000000] = some (.c45Address .bitbang 1 7 2 0x8000) := by
  decide
/-- R85: 00 01 00001 00111 10 0001001000110100. -/
theorem test_decode_c45Write : read .spi .frame32 [0b00010000100111100001001000110100] = some (.c45Write .spi 1 7 2 0x1234) := by decide
/-- R86: 00 10 10000 00001 11, data 1. -/
theorem test_decode_c45ReadInc : read .bitbang .frame32 [0b00101000000001110000000000000001] = some (.c45ReadInc .bitbang 16 1 3 1) := by
  decide
/-- R87: 00 11 00001 00111 11 0001001000110100. -/
theorem test_decode_c45Read : read .bitbang .frame32 [0b00110000100111110001001000110100] = some (.c45Read .bitbang 1 7 3 0x1234) := by
  decide
/-- R121: the six header words of PHY 3, register 5 and of PHY 1, device 7 (V30). -/
theorem test_decode_headers :
    read .spi .hdr16 [0b0101000110010110] = some (.hdrC22Write 3 5) ∧ read .spi .hdr16 [0b0110000110010111] = some (.hdrC22Read 3 5) ∧
    read .spi .hdr16 [0b0000000010011110] = some (.hdrC45Address 1 7) ∧ read .spi .hdr16 [0b0001000010011110] = some (.hdrC45Write 1 7) ∧
    read .spi .hdr16 [0b0010000010011111] = some (.hdrC45ReadInc 1 7) ∧ read .spi .hdr16 [0b0011000010011111] = some (.hdrC45Read 1 7) := by
  decide
/-- R96: the labels of the bit-bang engine. -/
theorem test_decode_bitbang_labels :
    read .bitbang .cmd8 [0x00] = some .bbOpen ∧ read .bitbang .cmd8 [0x01] = some .bbClose ∧
    read .bitbang .cmd8 [0x10, 3, 5] = some (.bbReadC22 3 5) ∧ read .bitbang .cmd8 [0x11, 3, 5, 9] = some (.bbWriteC22 3 5 9) ∧
    read .bitbang .cmd8 [0x12, 1, 7, 8] = some (.bbReadC45 1 7 8) ∧ read .bitbang .cmd8 [0x13, 1, 7, 8, 9] = some (.bbWriteC45 1 7 8 9) ∧
    read .bitbang .cmd8 [0x14, 5, 1, 8] = some (.bbReadC45Dword 5 1 8) ∧
    read .bitbang .cmd8 [0x15, 5, 1, 8, 9] = some (.bbWriteC45Dword 5 1 8 9) ∧
    read .bitbang .cmd8 [0x20, 7, 2, 1, 2] = some (.bbReadC22Registers 7 [1, 2]) ∧
    read .bitbang .cmd8 [0x21, 7, 2, 1, 2, 1, 9] = some (.bbWriteC22Registers 7 [1, 2] [9]) ∧
    read .bitbang .cmd8 [0x22, 7, 6, 1, 4] = some (.bbReadC45Registers 7 6 [4]) ∧
    read .bitbang .cmd8 [0x23, 7, 6, 1, 4, 1, 5] = some (.bbWriteC45Registers 7 6 [4] [5]) ∧
    read .bitbang .cmd8 [0x24, 7, 6, 0] = some (.bbReadC45DwordRegisters 7 6 []) ∧
    read .bitbang .cmd8 [0x25, 7, 6, 1, 4, 1, 5] = some (.bbWriteC45DwordRegisters 7 6 [4] [5]) := by decide
/-- R96: the labels of the SPI-framed engine. -/
theorem test_decode_spi_labels :
    read .spi .cmd8 [0x00] = some .sfOpen ∧ read .spi .cmd8 [0x01] = some .sfClose ∧
    read .spi .cmd8 [0x10, 3, 5] = some (.sfReadC22 3 5) ∧ read .spi .cmd8 [0x11, 3, 5, 9] = some (.sfWriteC22 3 5 9) ∧
    read .spi .cmd8 [0x12, 1, 7, 8] = some (.sfReadC45 1 7 8) ∧ read .spi .cmd8 [0x13, 1, 7, 8, 9] = some (.sfWriteC45 1 7 8 9) ∧
    read .spi .cmd8 [0x20, 7, 2, 1, 2] = some (.sfReadC22Registers 7 [1, 2]) ∧
    read .spi .cmd8 [0x21, 7, 2, 1, 2, 1, 9] = some (.sfWriteC22Registers 7 [1, 2] [9]) ∧
    read .spi .cmd8 [0x22, 7, 6, 1, 4] = some (.sfReadC45Registers 7 6 [4]) ∧
    read .spi .cmd8 [0x23, 7, 6, 1, 4, 1, 5] = some (.sfWriteC45Registers 7 6 [4] [5]) := by decide
/-- R98, R99, R206, R121: what has no row. -/
theorem test_decode_rejects :
    read .bitbang .frame32 [0x40000000] = none ∧ read .spi .frame32 [0x70000000] = none ∧ read .spi .frame32 [0x80000000] = none ∧
    read .spi .cmd8 [0x14, 5, 1, 8] = none ∧ read .spi .cmd8 [0x25, 5, 1, 0, 0] = none ∧ read .bitbang .hdr16 [0x5196] = none ∧
    read .spi .hdr16 [0x6196] = none ∧ read .bitbang .cmd8 [0x16, 0] = none ∧ read .bitbang .cmd8 [0x10, 3] = none ∧
    read .bitbang .cmd8 [0x10, 3, 5, 1] = none := by decide

/-! ### Helpers -/

/-- The state of a step that completes. -/
def after : Host.Outcome State Fault Refusal → Option State
  | .next s => some s
  | .fault _ => none
  | .refused _ => none

theorem next_with {o : Host.Outcome State Fault Refusal} (p : State → Prop) [DecidablePred p]
    (h : (after o).any (fun t => decide (p t)) = true) : ∃ t, o = .next t ∧ p t := by
  cases o with
  | next t => exact ⟨t, rfl, of_decide_eq_true h⟩
  | fault f => cases h
  | refused r => cases h

/-- A closed bit-bang instance. -/
def bbShut : BB := { BB.constructed with cfg := ⟨1, 2, 1, 1, 1⟩ }

/-- An open bit-bang instance at rest, with these levels to come and then a line that floats high. -/
def bbWith (failures : List (Option OsFailure)) (levels : List Level) : BB :=
  { bbShut with isOpen := true, clk := Line.openAs .output false .none, data := Line.openAs .output true .pullUp,
                env := ⟨failures, levels, true⟩ }

/-- A closed SPI-framed instance. -/
def sfShut : SF := { SF.constructed with cfg := ⟨0, 1000, true⟩ }

/-- An open SPI-framed instance with these words to come. -/
def sfWith (failures : List (Option OsFailure)) (received : List U32) : SF :=
  { sfShut with isOpen := true, spi := ⟨true⟩, env := ⟨failures, received, true⟩ }

/-- Both instances closed. -/
def shut : State := { State.reset with bb := bbShut, sf := sfShut }

/-- Both instances open and at rest. -/
def opened (levels : List Level) (received : List U32) : State :=
  { State.reset with bb := bbWith [] levels, sf := sfWith [] received }

/-- The same with collaborator calls that fail. -/
def failing (fs : List (Option OsFailure)) : State := { State.reset with bb := bbWith fs [], sf := sfWith fs [] }

/-- The bit-bang engine open with its data line left in input direction. -/
def stale : State := { opened [] [] with bb := { bbWith [] [] with data := ⟨true, .input, true, .pullUp⟩ } }

/-- A failed call. -/
def broken : OsFailure := ⟨5, "EIO"⟩

/-- The levels driven on the data line, as one number. -/
def driven (es : List BBEvent) : Nat :=
  ofBits (es.filterMap (fun e => match e with | .dout l => some l | _ => none))

/-- One step of the open bit-bang engine: the levels driven, the number of events, the results. -/
def bbDoes (i : Instr) (levels : List Level) : Option (Nat × Nat × List Result) :=
  (after (exec i (opened levels []))).map (fun t => (driven t.bb.trace, t.bb.trace.length, t.bb.results))

/-- The result of a command, with the number of samples taken and the lines at its end. -/
def bbEnds (i : Instr) (levels : List Level) : Option (Nat × (Level × Level × Direction) × List Result) :=
  (after (exec i (opened levels []))).map (fun t => (t.bb.free, t.bb.lines, t.bb.results))

/-- The levels driven by the operations of a command, as one number. -/
def drives (ts : List Transaction) : Nat :=
  ofBits ((ts.flatMap (bbTransaction Switches.normative)).filterMap (fun o => match o with | .data l => some l | _ => none))

/-- One step of the open SPI-framed engine: the words sent, chip select held, and the results. -/
def sfDoes (i : Instr) (received : List U32) : Option (List (Nat × Nat) × List Result) :=
  (after (exec i (opened [] received))).map (fun t =>
    (t.sf.trace.filterMap (fun e => match e with | .xfer n tx false _ => some (n, tx) | _ => none), t.sf.results))

/-! ### Wire frames and header words -/

/-- V48; the turnaround sent is the constant `10` (R91, T9). -/
theorem test_c22Write : bbDoes (.c22Write .bitbang 3 5 0b01 0xBEEF) [] = some (0xFFFFFFFF5196BEEF, 192, [.ok .unit]) := by decide +kernel
/-- V49. -/
theorem test_c22Read : bbDoes (.c22Read .bitbang 3 5 2 0) [] = some (0x3FFFFFFFD865, 194, [.ok (.u16 0xFFFF)]) := by decide +kernel
/-- V93, first frame. -/
theorem test_c45Address : sfDoes (.c45Address .spi 1 7 2 0x8000) [] = some ([(32, 0xFFFFFFFF), (16, 0x009E), (16, 0x8000)], [.ok .unit]) := by
  decide +kernel
/-- V66, second frame. -/
theorem test_c45Write : bbDoes (.c45Write .bitbang 1 7 2 0x1234) [] = some (0xFFFFFFFF109E1234, 192, [.ok .unit]) := by decide +kernel
/-- V7, T10: the header of a read-class frame carries the turnaround `11`. -/
theorem test_c45ReadInc : sfDoes (.c45ReadInc .spi 1 7 2 0x55) [0, 0, 0x1234] =
    some ([(32, 0xFFFFFFFF), (16, 0x209F), (16, 0xFFFF)], [.ok (.u16 0x1234)]) := by decide +kernel
/-- V94, second frame. -/
theorem test_c45Read : sfDoes (.c45Read .spi 1 7 2 0) [0, 0, 0xABCD1234] =
    some ([(32, 0xFFFFFFFF), (16, 0x309F), (16, 0xFFFF)], [.ok (.u16 0x1234)]) := by decide +kernel
/-- V30. -/
theorem test_headers :
    ([.hdrC22Write 3 5, .hdrC22Read 3 5, .hdrC45Address 1 7, .hdrC45Write 1 7, .hdrC45ReadInc 1 7, .hdrC45Read 1 7].map
      (fun i => sfDoes i [])) =
    [0x5196, 0x6197, 0x009E, 0x109E, 0x209F, 0x309F].map (fun w => some ([(16, w)], [.ok .unit])) := by decide +kernel

/-! ### Opening and closing -/

/-- V50. -/
theorem test_bbOpen : (after (exec .bbOpen shut)).map (fun t => (t.bb.isOpen, t.bb.clk, t.bb.data, t.bb.trace, t.bb.results)) =
    some (true, ⟨true, .output, false, .none⟩, ⟨true, .output, true, .pullUp⟩, [.opened], [.ok .unit]) := by decide +kernel
/-- V120: the data line cannot be claimed. -/
theorem test_bbOpen_fails :
    (after (exec .bbOpen { shut with bb := { bbShut with env := ⟨[none, some broken], [], true⟩ } })).map
      (fun t => (t.bb.isOpen, t.bb.clk.claimed, t.bb.data.claimed, t.bb.trace, t.bb.results)) =
    some (false, false, false, [], [.err (.transportIO broken)]) := by decide +kernel
/-- V51. -/
theorem test_bbClose : (after (exec .bbClose (opened [] []))).map
      (fun t => (t.bb.isOpen, t.bb.clk.electrical, t.bb.data.electrical, t.bb.trace, t.bb.results)) =
    some (false, .z, .z, [.closed], [.ok .unit]) := by decide +kernel
/-- V115. -/
theorem test_bbClose_closed : (after (exec .bbClose shut)).map (fun t => (t.bb.isOpen, t.bb.trace, t.bb.results)) =
    some (false, [], [.ok .unit]) := by decide +kernel
/-- R191; V114. -/
theorem test_sfOpen :
    (after (exec .sfOpen shut)).map (fun t => (t.sf.isOpen, t.sf.spi, t.sf.trace, t.sf.results)) =
      some (true, ⟨true⟩, [.opened], [.ok .unit]) ∧
    (after (exec .sfOpen (opened [] []))).map (fun t => (t.sf.isOpen, t.sf.trace, t.sf.results)) =
      some (true, [], [.err .alreadyOpen]) := by decide +kernel
/-- R192; V116. -/
theorem test_sfClose : (after (exec .sfClose (opened [] []))).map (fun t => (t.sf.isOpen, t.sf.spi, t.sf.trace, t.sf.results)) =
    some (false, ⟨false⟩, [.closed], [.ok .unit]) := by decide +kernel

/-! ### Commands of the bit-bang engine -/

/-- V61, V63. -/
theorem test_bbReadC22 : bbDoes (.bbReadC22 0x23 0x25) (Fixtures.scripted [0xBEEF]) =
    some (0x3FFFFFFFD865FFFFFFFF, 290, [.ok (.u16 0xBEEF)]) := by decide +kernel
/-- V110; V47 and V122: the turnaround is not checked. -/
theorem test_bbReadC22_corners :
    (after (exec (.bbReadC22 3 5) shut)).map (fun t => (t.bb.trace, t.bb.results)) = some ([], [.err .notOpen]) ∧
    bbEnds (.bbReadC22 3 5) ([false, true] ++ List.replicate 16 false) = some (18, (false, true, .output), [.ok (.u16 0)]) := by
  decide +kernel
/-- V60, V65. -/
theorem test_bbWriteC22 : bbDoes (.bbWriteC22 3 5 0x1BEEF) [] = some (0xFFFFFFFF5196BEEFFFFFFFFF, 288, [.ok .unit]) := by
  decide +kernel
/-- V118. -/
theorem test_bbWriteC22_fails :
    (after (exec (.bbWriteC22 3 5 0xBEEF) (failing (List.replicate 99 none ++ [some broken])))).map
      (fun t => (t.bb.trace.length, t.bb.lines, t.bb.isOpen, t.bb.results)) =
    some (99, (false, false, .output), true, [.err (.transportIO broken)]) := by decide +kernel
/-- V67, V68. -/
theorem test_bbReadC45 :
    bbDoes (.bbReadC45 1 7 0x18000) (Fixtures.scripted [0x1234]) =
      some (0xFFFFFFFF009E8000 * 2 ^ 46 + 0x3FFFFFFFC000 + 0x0C27, 386, [.ok (.u16 0x1234)]) := by decide +kernel
/-- V66. -/
theorem test_bbWriteC45 : bbDoes (.bbWriteC45 1 7 0x8000 0x1234) [] =
    some (0xFFFFFFFF009E8000FFFFFFFF109E1234, 384, [.ok .unit]) := by decide +kernel
/-- V70: the first word read is the low half (T2). -/
theorem test_bbReadC45Dword : bbEnds (.bbReadC45Dword 5 1 0x00123456) (Fixtures.scripted [0xCDEF, 0x89AB]) =
    some (36, (false, true, .output), [.ok (.u32 0x89ABCDEF)]) := by decide +kernel
/-- V69 (T2). -/
theorem test_bbWriteC45Dword :
    bbEnds (.bbWriteC45Dword 5 1 0x00123456 0x89ABCDEF) [] = some (0, (false, true, .output), [.ok .unit]) ∧
    drives [writeC45Dword Switches.normative 5 1 0x00123456 0x89ABCDEF] =
      0xFFFFFFFF02863456FFFFFFFF02860012FFFFFFFF1286CDEFFFFFFFFF128689AB := by decide +kernel
/-- V73. -/
theorem test_bbReadC22Registers : bbEnds (.bbReadC22Registers 0 [1, 2, 3]) (Fixtures.scripted [0x1111, 0x2222, 0x3333]) =
    some (54, (false, true, .output), [.ok (.u16s [0x1111, 0x2222, 0x3333])]) := by decide +kernel
/-- V74, V78. -/
theorem test_bbWriteC22Registers :
    drives (List.zipWith (writeC22 1) [0, 4] [0x1140, 0x01E1]) = 0xFFFFFFFF50821140FFFFFFFFFFFFFFFF509201E1FFFFFFFF ∧
    bbEnds (.bbWriteC22Registers 1 [0, 4] [0x1140, 0x01E1]) [] = some (0, (false, true, .output), [.ok .unit]) ∧
    bbDoes (.bbWriteC22Registers 7 [1, 2] [9]) [] = some (0, 0, [.err .parameterInvalid]) := by decide +kernel
/-- V112: the open check precedes the length check. -/
theorem test_bbWriteC22Registers_closed :
    (after (exec (.bbWriteC22Registers 1 [1] []) shut)).map (fun t => (t.bb.trace, t.bb.results)) = some ([], [.err .notOpen]) := by
  decide +kernel
/-- V76. -/
theorem test_bbReadC45Registers : bbEnds (.bbReadC45Registers 2 3 [0x0010, 0x0011]) (Fixtures.scripted [0xAAAA, 0x5555]) =
    some (36, (false, true, .output), [.ok (.u16s [0xAAAA, 0x5555])]) := by decide +kernel
/-- V75. -/
theorem test_bbWriteC45Registers :
    bbEnds (.bbWriteC45Registers 2 3 [0x0010, 0x0011] [0xAAAA, 0x5554]) [] = some (0, (false, false, .output), [.ok .unit]) ∧
    drives (List.zipWith (writeC45 2 3) [0x0010, 0x0011] [0xAAAA, 0x5555]) =
      0xFFFFFFFF010E0010FFFFFFFF110EAAAAFFFFFFFF010E0011FFFFFFFF110E5555 := by decide +kernel
/-- V70 as a batch of one. -/
theorem test_bbReadC45DwordRegisters : bbEnds (.bbReadC45DwordRegisters 5 1 [0x00123456]) (Fixtures.scripted [0xCDEF, 0x89AB]) =
    some (36, (false, true, .output), [.ok (.u32s [0x89ABCDEF])]) := by decide +kernel
/-- V79. -/
theorem test_bbWriteC45DwordRegisters :
    bbEnds (.bbWriteC45DwordRegisters 5 1 [0x00123456] [0x89ABCDEF]) [] = some (0, (false, true, .output), [.ok .unit]) := by
  decide +kernel
/-- V119: a read that fails at its first sample leaves the data line released, and the next command stops. -/
theorem test_stale_direction :
    (after (exec (.bbReadC22 3 5) (failing (List.replicate 139 none ++ [some broken])))).map
      (fun t => (t.bb.trace.length, t.bb.data.dir, t.bb.results, after (exec (.bbWriteC22 0 0 0) t))) =
    some (139, .input, [.err (.transportIO broken)], none) := by decide +kernel

/-! ### Commands of the SPI-framed engine -/

/-- V91, V92. -/
theorem test_sfReadC22 :
    sfDoes (.sfReadC22 3 5) [0, 0, 0xBEEF, 0] =
      some ([(32, 0xFFFFFFFF), (16, 0x6197), (16, 0xFFFF), (32, 0xFFFFFFFF)], [.ok (.u16 0xBEEF)]) ∧
    sfDoes (.sfReadC22 3 5) [] =
      some ([(32, 0xFFFFFFFF), (16, 0x6197), (16, 0xFFFF), (32, 0xFFFFFFFF)], [.ok (.u16 0xFFFF)]) := by decide +kernel
/-- V90. -/
theorem test_sfWriteC22 : sfDoes (.sfWriteC22 3 5 0xBEEF) [] =
    some ([(32, 0xFFFFFFFF), (16, 0x5196), (16, 0xBEEF), (32, 0xFFFFFFFF)], [.ok .unit]) := by decide +kernel
/-- V95: the historical defect. -/
theorem test_sfWriteC22_historical :
    (after (exec (.sfWriteC22 3 5 0xBEEF) { opened [] [] with switches := { Switches.normative with sfWriteDataIsHeader := true } })).map
      (fun t => t.sf.trace.map SFEvent.blind) =
    some [.xfer 32 0xFFFFFFFF false 0, .xfer 16 0x5196 false 0, .xfer 16 0x5196 false 0, .xfer 32 0xFFFFFFFF false 0] := by decide +kernel
/-- V94. -/
theorem test_sfReadC45 : sfDoes (.sfReadC45 1 7 0x8000) [0, 0, 0, 0, 0, 0x1234] =
    some ([(32, 0xFFFFFFFF), (16, 0x009E), (16, 0x8000), (32, 0xFFFFFFFF), (16, 0x309F), (16, 0xFFFF)], [.ok (.u16 0x1234)]) := by
  decide +kernel
/-- V121. -/
theorem test_sfReadC45_fails :
    (after (exec (.sfReadC45 1 7 0x8000) (failing [none, none, none, none, some broken]))).map
      (fun t => (t.sf.trace.length, t.sf.isOpen, t.sf.results)) = some (4, true, [.err (.transportIO broken)]) := by decide +kernel
/-- V93. -/
theorem test_sfWriteC45 : sfDoes (.sfWriteC45 1 7 0x8000 0x1234) [] =
    some ([(32, 0xFFFFFFFF), (16, 0x009E), (16, 0x8000), (32, 0xFFFFFFFF), (16, 0x109E), (16, 0x1234)], [.ok .unit]) := by decide +kernel
/-- P4 as a batch: no responder. -/
theorem test_sfReadC22Registers : sfDoes (.sfReadC22Registers 9 [9]) [] =
    some ([(32, 0xFFFFFFFF), (16, 0x64A7), (16, 0xFFFF), (32, 0xFFFFFFFF)], [.ok (.u16s [0xFFFF])]) := by decide +kernel
/-- V96. -/
theorem test_sfWriteC22Registers : sfDoes (.sfWriteC22Registers 1 [0, 4] [0x1140, 0x01E1]) [] =
    some ([(32, 0xFFFFFFFF), (16, 0x5082), (16, 0x1140), (32, 0xFFFFFFFF), (32, 0xFFFFFFFF), (16, 0x5092), (16, 0x01E1),
      (32, 0xFFFFFFFF)], [.ok .unit]) := by decide +kernel
/-- V97. -/
theorem test_sfReadC45Registers :
    (sfDoes (.sfReadC45Registers 2 3 [0x0010, 0x0011]) [0, 0, 0, 0, 0, 0xAAAA, 0, 0, 0, 0, 0, 0x5555]).map Prod.snd =
    some [.ok (.u16s [0xAAAA, 0x5555])] := by decide +kernel
/-- V113 on this engine. -/
theorem test_sfWriteC45Registers : sfDoes (.sfWriteC45Registers 1 1 [1, 2, 3] [0, 0]) [] = some ([], [.err .parameterInvalid]) := by
  decide +kernel

/-! ### A step -/

/-- A label put where the next step takes its command runs. -/
theorem test_step : (after (step (State.reset.withFetchWord 8 0x00))).map (fun t => (t.bb.isOpen, t.bb.results)) =
    some (true, [.ok .unit]) := by decide +kernel

/-- R98, R117: a reserved pair is sent, as a write-class frame where `OP[1] = 0` and as a read-class frame where it is 1. -/
theorem test_step_reserved_frames :
    (after (step { opened [] [] with requests := [⟨.bitbang, .frame32, [0x4196BEEF]⟩] })).map
      (fun t => (driven t.bb.trace, t.bb.trace.length, t.bb.results, t.requests)) =
      some (0xFFFFFFFF4196BEEF, 192, [.ok .unit], []) ∧
    (after (step { opened [] [0, 0, 0x1234] with requests := [⟨.spi, .frame32, [0x7196BEEF]⟩] })).map
      (fun t => (t.sf.trace.map SFEvent.blind, t.sf.results)) =
      some ([.xfer 32 0xFFFFFFFF false 0, .xfer 16 0x7197 false 0, .xfer 16 0xFFFF false 0], [.ok (.u16 0x1234)]) := by
  decide +kernel
/-- R194: a header word with a turnaround of its own is sent. -/
theorem test_step_header_turnaround :
    (after (step { opened [] [] with requests := [⟨.spi, .hdr16, [0x5197]⟩] })).map
      (fun t => (t.sf.trace.map SFEvent.blind, t.sf.results)) = some ([.xfer 16 0x5197 false 0], [.ok .unit]) := by decide +kernel
/-- R56, R98: `EchoPHY` ignores a reserved read-class frame, for which the bit-bang engine takes 18 samples all the same, so the
next read still gets its own answer. -/
theorem test_echo_ignores_reserved :
    (Fixtures.EchoPhy.initial 0x1234).samples [⟨0b10, 0b10, 3, 5, 2, 0⟩, Operands.c22Read 3 5] =
      List.replicate 18 true ++ (true :: false :: bitsOf 16 0x1234) ∧
    (after (exec (.bbReadC22 3 5) (opened (((Fixtures.EchoPhy.initial 0x1234).samples
      [⟨0b10, 0b10, 3, 5, 2, 0⟩, Operands.c22Read 3 5]).drop 18) []))).map (fun t => t.bb.results) =
      some [.ok (.u16 0x1234)] := by decide +kernel
/-- R56: `Scripted` on the SPI-framed engine answers the read-class frames in order (V91, V97). -/
theorem test_scriptedReceived :
    Fixtures.scriptedReceived [0xBEEF] [readC22 3 5] = [0xFFFFFFFF, 0xFFFE, 0xBEEF, 0xFFFFFFFF] ∧
    (sfDoes (.sfReadC45Registers 2 3 [0x0010, 0x0011])
      (Fixtures.scriptedReceived [0xAAAA, 0x5555] [readC45 2 3 0x0010, readC45 2 3 0x0011])).map Prod.snd =
      some [.ok (.u16s [0xAAAA, 0x5555])] := by decide +kernel

/-! ### Witnesses: states and operands that meet the hypotheses of the statements -/

theorem opened_inv (ls : List Level) (ws : List U32) : (opened ls ws).Inv :=
  ⟨⟨show 2 ≠ 1 by decide, rfl, fun _ => ⟨rfl, rfl, rfl, rfl, rfl⟩⟩, show 0 < 1000 by decide, rfl, rfl, fun _ => rfl⟩
theorem failing_inv (fs : List (Option OsFailure)) : (failing fs).Inv :=
  ⟨⟨show 2 ≠ 1 by decide, rfl, fun _ => ⟨rfl, rfl, rfl, rfl, rfl⟩⟩, show 0 < 1000 by decide, rfl, rfl, fun _ => rfl⟩
theorem shut_inv : shut.Inv := ⟨⟨by decide, rfl, fun h => absurd h (by decide)⟩, by decide, rfl, rfl, fun h => absurd h (by decide)⟩
theorem opened_atRest (ls : List Level) (ws : List U32) : (opened ls ws).bb.AtRest := fun _ => ⟨rfl, rfl, rfl, rfl, rfl, rfl⟩
theorem opened_bbReady (ls : List Level) (ws : List U32) : (opened ls ws).bb.Ready :=
  ⟨rfl, ⟨rfl, rfl, rfl, rfl⟩, fun f hf => absurd hf (by simp [opened, bbWith])⟩
theorem opened_sfReady (ls : List Level) (ws : List U32) : (opened ls ws).sf.Ready :=
  ⟨rfl, rfl, fun f hf => absurd hf (by simp [opened, sfWith])⟩

/-- `shut` with a command to come. -/
def asked (r : Request) : State := { shut with requests := [r] }

theorem witness_FrameAndHeaderDecodingLosesNoBit :
    decodeRequest ⟨.spi, .frame32, [0x5FFEFFFF]⟩ = .ok (.c22Write .spi 31 31 2 0xFFFF) ∧
    decodeRequest ⟨.spi, .hdr16, [0x6FFF]⟩ = .ok (.hdrC22Read 31 31) := ⟨rfl, rfl⟩
theorem witness_ReservedCodesAreRejected :
    0xFFFFFFFF < 2 ^ 32 ∧ 0x40000000 < 2 ^ 32 ∧ 0x7FFFFFFF < 2 ^ 32 ∧ 0x30000000 < 2 ^ 32 ∧
    0x26 ∉ [0x00, 0x01, 0x10, 0x11, 0x12, 0x13, 0x14, 0x15, 0x20, 0x21, 0x22, 0x23, 0x24, 0x25] := by decide
theorem witness_SpiHasNoDwordCommands :
    Instr.sfOpen.engine = .spi ∧ 0x14 ∈ [0x14, 0x15, 0x24, 0x25] ∧ 0x25 ∈ [0x14, 0x15, 0x24, 0x25] ∧
    (asked ⟨.spi, .cmd8, [0x25, 5, 1]⟩).requests = [⟨.spi, .cmd8, 0x25 :: [5, 1]⟩] ∧
    (asked ⟨.spi, .cmd8, [0x25, 5, 1]⟩).board.contended .spi = false := by decide
theorem witness_CodecRoundTrips :
    decodeHeader 0xFFFF = (3, 3, 31, 31, 3) ∧ encodeFrame (decodeFrame 0x9ABCDEF0) = encodeFrame ⟨2, 1, 21, 15, 0, 0xDEF0⟩ := by decide
theorem witness_StepKeepsInv :
    (asked ⟨.bitbang, .cmd8, [0x00]⟩).Inv ∧ ∃ t, step (asked ⟨.bitbang, .cmd8, [0x00]⟩) = .next t ∧ t.bb.isOpen = true :=
  ⟨shut_inv, next_with _ (by decide +kernel)⟩
theorem witness_RestInvariantKept :
    let s := { opened [] [] with requests := [⟨.bitbang, .cmd8, [0x10, 3, 5]⟩] }
    s.Inv ∧ s.bb.AtRest ∧ ∃ t, step s = .next t ∧
      ∀ r ∈ t.bb.results.drop s.bb.results.length, r.isTransport = false :=
  ⟨opened_inv [] [], opened_atRest [] [], next_with _ (by decide +kernel)⟩
theorem witness_EveryInstructionCompletesAtRest : (opened [] []).Inv ∧ (opened [] []).bb.AtRest :=
  ⟨opened_inv [] [], opened_atRest [] []⟩
theorem witness_StepRunsTheDecodedCommand :
    (asked ⟨.spi, .cmd8, [0x10, 3, 5]⟩).requests = ⟨.spi, .cmd8, [0x10, 3, 5]⟩ :: [] ∧
    (asked ⟨.spi, .cmd8, [0x10, 3, 5]⟩).board.contended .spi = false ∧
    decodeRequest ⟨.spi, .cmd8, [0x10, 3, 5]⟩ = .ok (.sfReadC22 3 5) := ⟨rfl, by decide, rfl⟩
theorem witness_StepWithoutAnInstruction :
    shut.requests = [] ∧
    (let s := { asked ⟨.bitbang, .cmd8, [0]⟩ with board := ⟨7, 7, []⟩ }
     s.requests = [⟨.bitbang, .cmd8, [0]⟩] ∧ s.board.bbBus = s.board.sfBus) ∧
    (let s := { asked ⟨.bitbang, .cmd8, [0]⟩ with board := ⟨0, 1, [0]⟩ }
     s.requests = [⟨.bitbang, .cmd8, [0]⟩] ∧ s.board.busOf .bitbang ∈ s.board.otherMasters) ∧
    ((asked ⟨.spi, .cmd8, [0x14]⟩).board.bbBus ≠ (asked ⟨.spi, .cmd8, [0x14]⟩).board.sfBus ∧
      (asked ⟨.spi, .cmd8, [0x14]⟩).board.busOf .spi ∉ (asked ⟨.spi, .cmd8, [0x14]⟩).board.otherMasters ∧
      decodeRequest ⟨.spi, .cmd8, [0x14]⟩ = .error .notOnThisEngine ∧ requestedFrame ⟨.spi, .cmd8, [0x14]⟩ = none) :=
  ⟨rfl, ⟨rfl, rfl⟩, ⟨rfl, by decide⟩, by decide, by decide, rfl, rfl⟩
theorem witness_TableWordIsRun :
    decodeTableWord 32 0x5196BEEF = some (.c22Write .bitbang 3 5 2 0xBEEF) ∧ shut.board.contended .bitbang = false := by decide
theorem witness_BbOpen :
    (opened [] []).bb.isOpen = true ∧
    (shut.bb.isOpen = false ∧ shut.bb.env.failures.getD 0 none = none ∧ shut.bb.env.failures.getD 1 none = none) ∧
    (let b := { bbShut with env := ⟨[some broken], [], true⟩ }
     b.isOpen = false ∧ b.env.failures.getD 0 none = some broken) ∧
    (let b := { bbShut with env := ⟨[none, some broken], [], true⟩ }
     b.isOpen = false ∧ b.env.failures.getD 0 none = none ∧ b.env.failures.getD 1 none = some broken) := by decide
theorem witness_BbClose :
    shut.bb.isOpen = false ∧
    ((opened [] []).bb.isOpen = true ∧ (opened [] []).bb.env.failures.getD 0 none = none ∧
      (opened [] []).bb.env.failures.getD 1 none = none) ∧
    ((failing [some broken]).bb.isOpen = true ∧ (failing [some broken]).bb.env.failures.getD 0 none = some broken) ∧
    ((failing [none, some broken]).bb.isOpen = true ∧ (failing [none, some broken]).bb.env.failures.getD 0 none = none ∧
      (failing [none, some broken]).bb.env.failures.getD 1 none = some broken) := by decide
theorem witness_SfOpenAndClose :
    ((opened [] []).sf.isOpen = true ∧ (opened [] []).sf.env.failures.getD 0 none = none) ∧
    (shut.sf.isOpen = false ∧ shut.sf.env.failures.getD 0 none = none) ∧
    (let f := { sfShut with env := ⟨[some broken], [], true⟩ }
     f.isOpen = false ∧ f.env.failures.getD 0 none = some broken) ∧
    ((failing [some broken]).sf.isOpen = true ∧ (failing [some broken]).sf.env.failures.getD 0 none = some broken) := by decide
theorem witness_CloseThenOpenRecovers :
    (stale.bb.isOpen = true ∧ stale.bb.Quiet) ∧ (stale.sf.isOpen = true ∧ stale.sf.Quiet) :=
  ⟨⟨rfl, (opened_bbReady [] []).2.2⟩, rfl, (opened_sfReady [] []).2.2⟩
theorem witness_NotOpenComesFirst :
    ((Instr.bbReadC22 3 5).isLifecycle = false ∧ (Instr.bbReadC22 3 5).engine = .bitbang ∧ shut.bb.isOpen = false) ∧
    ((Instr.hdrC22Read 3 5).isLifecycle = false ∧ (Instr.hdrC22Read 3 5).engine = .spi ∧ shut.sf.isOpen = false) ∧
    (shut.Inv ∧ ∃ t, exec (.bbReadC22 3 5) shut = .next t ∧
      t.resultsOf .bitbang = shut.resultsOf .bitbang ++ [.err .notOpen]) :=
  ⟨⟨rfl, rfl, rfl⟩, ⟨rfl, rfl, rfl⟩, shut_inv, next_with _ (by decide +kernel)⟩
theorem witness_ErrorsLeaveTheState :
    ((opened [] []).Inv ∧ ∃ t, exec .bbOpen (opened [] []) = .next t ∧
      t.resultsOf .bitbang = (opened [] []).resultsOf .bitbang ++ [.err .alreadyOpen]) ∧
    ((failing [none, some broken]).Inv ∧ (Instr.sfReadC22 3 5).isLifecycle = false ∧
      ∃ t, exec (.sfReadC22 3 5) (failing [none, some broken]) = .next t ∧
        t.resultsOf .spi = (failing [none, some broken]).resultsOf .spi ++ [.err (.transportIO broken)]) :=
  ⟨⟨opened_inv _ _, next_with _ (by decide +kernel)⟩, failing_inv _, rfl, next_with _ (by decide +kernel)⟩
theorem witness_UnequalListsAreInvalid :
    ([1, 2] : List Nat).length ≠ ([9] : List Nat).length ∧ ([] : List Nat).length ≠ ([9] : List Nat).length ∧
    ∃ t, exec (.sfWriteC45Registers 1 1 [1, 2] [9]) (opened [] []) = .next t ∧
      t.resultsOf .spi = (opened [] []).resultsOf .spi ++ [.err .parameterInvalid] :=
  ⟨by decide, by decide, next_with _ (by decide +kernel)⟩
theorem test_listsDiffer :
    [Instr.bbWriteC22Registers 7 [] [9], .bbWriteC45Registers 7 1 [1] [], .bbWriteC45DwordRegisters 7 1 [1] [], .sfWriteC22Registers 7 [1] [],
      .sfWriteC45Registers 7 1 [] [9]].all (fun i => i.listsDiffer) = true := by decide
theorem witness_EmptyBatchDoesNothing : (opened [] []).bb.isOpen = true ∧ (opened [] []).sf.isOpen = true := by decide
theorem witness_StaleDirectionFaults :
    stale.bb.isOpen = true ∧ stale.bb.data.claimed = true ∧ stale.bb.data.dir = .input ∧
    ((Instr.bbWriteC22Registers 1 [1] [2]).engine = .bitbang ∧ (Instr.bbWriteC22Registers 1 [1] [2]).wf = true ∧
      (Instr.bbWriteC22Registers 1 [1] [2]).isEmptyBatch = false ∧ (Instr.bbWriteC22Registers 1 [1] [2]).isLifecycle = false) ∧
    (Instr.bbClose.engine = .bitbang ∧ Instr.bbClose.wf = true ∧ Instr.bbClose.isEmptyBatch = false ∧
      Instr.bbClose.isLifecycle = true) := by decide
theorem witness_BbClause22Commands : (opened [] []).bb.Ready := opened_bbReady _ _
theorem witness_BbClause45Commands : (opened [] []).bb.Ready ∧ (opened [] []).switches = Switches.normative :=
  ⟨opened_bbReady _ _, rfl⟩
theorem witness_BbDwordCommands : (opened [true] []).bb.Ready ∧ (opened [true] []).switches = Switches.normative :=
  ⟨opened_bbReady _ _, rfl⟩
theorem witness_BbReadBatches :
    (opened [] []).bb.Ready ∧ (opened [] []).switches = Switches.normative ∧ ([4] : List Nat) ≠ [] :=
  ⟨opened_bbReady _ _, rfl, by decide⟩
theorem witness_BbWriteBatches :
    (opened [] []).bb.Ready ∧ (opened [] []).switches = Switches.normative ∧
    ([4, 5] : List Nat).length = ([6, 7] : List Nat).length ∧ ([6, 7] : List Nat).getLast? = some 7 :=
  ⟨opened_bbReady _ _, rfl, by decide⟩
theorem witness_SfSingleCommands : (opened [] []).sf.Ready ∧ (opened [] []).switches = Switches.normative :=
  ⟨opened_sfReady _ _, rfl⟩
theorem witness_SfReadBatches : (opened [] [7]).sf.Ready ∧ (opened [] [7]).switches = Switches.normative :=
  ⟨opened_sfReady _ _, rfl⟩
theorem witness_SfWriteBatches :
    (opened [] []).sf.Ready ∧ (opened [] []).switches = Switches.normative ∧
    ([4, 5] : List Nat).length = ([6, 7] : List Nat).length := ⟨opened_sfReady _ _, rfl, rfl⟩
theorem witness_FramesOnTheBitBangEngine : (opened [false] []).bb.Ready := opened_bbReady _ _
theorem witness_FramesOnTheSpiEngine : (opened [] [1]).sf.Ready ∧ (opened [] [1]).switches = Switches.normative :=
  ⟨opened_sfReady _ _, rfl⟩
theorem witness_HeaderWords : (opened [] [2]).sf.Ready := opened_sfReady _ _
theorem witness_FramesWithoutARowAreSent :
    (∃ r : Request, r.fromHost = true) ∧
    (0x4FFF0001 < 2 ^ 32 ∧ 0x4FFF0001 / 2 ^ 28 = 0b0100 ∧ (0x4FFF0001).testBit 29 = false ∧ (0x7FFF0001).testBit 29 = true ∧
      2 ≤ 0x80000000 / 2 ^ 30) ∧
    (let s := asked ⟨.bitbang, .frame32, [0x4FFF0001]⟩
     s.bb.isOpen = false ∧ s.sf.isOpen = false ∧ s.requests = [⟨.bitbang, .frame32, [0x4FFF0001]⟩] ∧
       s.board.contended .bitbang = false) ∧
    (let s := { opened [] [] with requests := [⟨.spi, .frame32, [0x7FFF0001]⟩] }
     s.bb.Ready ∧ s.sf.Ready ∧ s.switches = Switches.normative ∧ s.board.contended .spi = false) ∧
    (0x6196 < 2 ^ 16 ∧ decodeRequest ⟨.spi, .hdr16, [0x6196]⟩ = .error .headerTurnaround ∧
      decodeRequest ⟨.spi, .hdr16, [0xFFFF]⟩ = .error .reservedFrame) :=
  ⟨⟨⟨.spi, .cmd8, [0]⟩, rfl⟩, by decide, ⟨rfl, rfl, rfl, by decide⟩,
    ⟨opened_bbReady [] [], opened_sfReady [] [], rfl, by decide⟩, by decide, rfl, rfl⟩
theorem witness_OtherReadingsOfTheSource :
    let s := { opened [] [] with switches := ⟨false, .adad, .readInc, true⟩ }
    s.bb.Ready ∧ s.sf.Ready ∧ (opened [] []).bb.Ready ∧ (opened [] []).sf.Ready :=
  ⟨opened_bbReady [] [], opened_sfReady [] [], opened_bbReady [] [], opened_sfReady [] []⟩
theorem witness_HistoricalWriteDataIsTheHeader :
    let s := { opened [] [] with switches := { Switches.normative with sfWriteDataIsHeader := true } }
    s.sf.Ready ∧ s.switches = { Switches.normative with sfWriteDataIsHeader := true } := ⟨opened_sfReady [] [], rfl⟩
theorem witness_EndOfCommandLines :
    (∃ t, exec (.bbWriteC45 1 7 0 1) (opened [] []) = .next t ∧ t.bb.results = (opened [] []).bb.results ++ [.ok .unit]) ∧
    (Instr.bbWriteC45 1 7 0 1).endLevel = some true ∧
    (∃ t, exec (.bbReadC22Registers 1 []) (opened [] []) = .next t ∧
      t.bb.results = (opened [] []).bb.results ++ [.ok (.u16s [])]) ∧
    (Instr.bbReadC22Registers 1 []).isEmptyBatch = true :=
  ⟨next_with _ (by decide +kernel), by decide, next_with _ (by decide +kernel), by decide⟩
theorem witness_TotalsPerCommand :
    (Instr.bbWriteC45Registers 1 7 [1] [2]).lineTotals = some ⟨128, 0, 0, 384⟩ ∧ (Instr.bbWriteC45Registers 1 7 [1] [2]).wf = true ∧
    (Instr.bbReadC22Registers 1 []).lineTotals = some ⟨0, 0, 0, 0⟩ ∧ (Instr.bbReadC22Registers 1 []).wf = true ∧
    (opened [] []).bb.Ready ∧ (opened [] []).switches = Switches.normative :=
  ⟨by decide, by decide, by decide, by decide, opened_bbReady _ _, rfl⟩
theorem witness_MicroOperationCounts :
    ((opened [] []).bb.Quiet ∧ (opened [] []).bb.clk.claimed = true ∧ (opened [] []).bb.clk.dir = .output ∧
      (opened [] []).bb.clk.drive = false ∧ (opened [] []).bb.data.claimed = true ∧ (opened [] []).bb.data.dir = .output) ∧
    (stale.bb.Quiet ∧ stale.bb.clk.claimed = true ∧ stale.bb.clk.dir = .output ∧ stale.bb.clk.drive = false ∧
      stale.bb.data.claimed = true ∧ stale.bb.data.dir = .input) :=
  ⟨⟨(opened_bbReady _ _).2.2, rfl, rfl, rfl, rfl, rfl⟩, (opened_bbReady [] []).2.2, rfl, rfl, rfl, rfl, rfl⟩
theorem witness_BitsOnTheWire :
    ((opened [] []).bb.Quiet ∧ (opened [] []).bb.Driving) ∧
    (stale.bb.Quiet ∧ stale.bb.clk.claimed = true ∧ stale.bb.clk.dir = .output ∧ stale.bb.data.claimed = true ∧
      stale.bb.data.dir = .input) :=
  ⟨⟨(opened_bbReady _ _).2.2, (opened_bbReady _ _).2.1⟩, (opened_bbReady [] []).2.2, rfl, rfl, rfl, rfl⟩
theorem witness_CollaboratorOperations :
    ((opened [] []).bb.env.failures = [] ∧ (opened [] []).bb.clk.claimed = true ∧ (opened [] []).bb.clk.dir = .output ∧
      (opened [] []).bb.data.claimed = true ∧ (opened [] []).bb.data.dir = .output ∧ stale.bb.data.dir = .input) ∧
    (shut.bb.clk.claimed = false ∧ shut.bb.data.claimed = false ∧
      (let b := { bbWith [] [] with clk := ⟨true, .input, false, .none⟩ }
       b.clk.claimed = true ∧ b.clk.dir = .input)) ∧
    ((failing [some broken]).bb.env.failures = some broken :: [] ∧ (failing [some broken]).bb.clk.claimed = true ∧
      (failing [some broken]).bb.clk.dir = .output ∧ (failing [some broken]).bb.data.claimed = true) ∧
    (shut.sf.spi.claimed = false ∧ (opened [] []).sf.spi.claimed = true ∧ (opened [] []).sf.env.failures = [] ∧
      ¬((16 = 16 ∨ 16 = 32) ∧ 0x10000 < 2 ^ 16) ∧ ¬((8 = 16 ∨ 8 = 32) ∧ 1 < 2 ^ 8) ∧ 0xFFFF < 2 ^ 16 ∧
      (failing [some broken]).sf.env.failures = some broken :: [] ∧ (failing [some broken]).sf.spi.claimed = true) := by decide
theorem witness_BusyWaitUnits :
    isReadClass (Operands.c22Write 3 5 0).op = false ∧ isReadClass (Operands.c22Read 3 5).op = true := by decide
theorem witness_WireEquivalence :
    (Instr.bbReadC22 3 5).onSpi = some (.sfReadC22 3 5) ∧ (Instr.bbReadC22 3 5).wf = true ∧ (opened [] []).bb.Ready ∧
    (opened [] []).sf.Ready ∧ (opened [] []).switches = Switches.normative :=
  ⟨rfl, rfl, opened_bbReady _ _, opened_sfReady _ _, rfl⟩
theorem witness_BatchIsItsElementsInOrder :
    (Instr.sfReadC22Registers 3 [5, 6]).firstAndRest = some (.sfReadC22 3 5, .sfReadC22Registers 3 [6]) ∧
    (Instr.sfReadC22Registers 3 [5, 6]).wf = true ∧
    (∃ t, exec (.sfReadC22 3 5) (opened [] []) = .next t ∧
      t.resultsOf .spi = (opened [] []).resultsOf .spi ++ [.ok (.u16 0xFFFF)] ∧
      (after (exec (.sfReadC22Registers 3 [6]) t)).map (State.resultsOf .spi) =
        some (t.resultsOf .spi ++ [.ok (.u16s [0xFFFF])])) ∧
    (∃ t, exec (.sfReadC22 3 5) shut = .next t ∧ t.resultsOf .spi = shut.resultsOf .spi ++ [.err .notOpen]) :=
  ⟨rfl, rfl, next_with _ (by decide +kernel), next_with _ (by decide +kernel)⟩

/-- The levels of the frame of V60 with its preamble and flush. -/
def levelsV60 : List Level := bitsOf 96 0xFFFFFFFF5196BEEFFFFFFFFF

theorem witness_BbFailureIsPrecise :
    let s := failing (List.replicate 287 none ++ [some broken])
    (Instr.bbWriteC22 3 5 0xBEEF).engine = .bitbang ∧ (Instr.bbWriteC22 3 5 0xBEEF).isLifecycle = false ∧
    (∃ u, exec (.bbWriteC22 3 5 0xBEEF) (s.withBB s.bb.quieted) = .next u ∧ u.bb.trace = s.bb.trace ++ wSlots levelsV60) ∧
    287 < (wSlots levelsV60).length ∧ (∀ j < 287, s.bb.env.failures.getD j none = none) ∧
    s.bb.env.failures.getD 287 none = some broken ∧
    (∀ j < (wSlots levelsV60).length, (opened [] []).bb.env.failures.getD j none = none) :=
  ⟨rfl, rfl, next_with _ (by decide +kernel), by decide +kernel, by decide +kernel, by decide +kernel, fun _ _ => by
    simp [opened, bbWith]⟩

/-- The transfers of the header word of V30. -/
def transferV30 : List SFEvent := [.xfer 16 0x6197 false 0xFFFF]

theorem witness_SfFailureIsPrecise :
    let s := failing [some broken]
    (Instr.hdrC22Read 3 5).engine = .spi ∧ (Instr.hdrC22Read 3 5).isLifecycle = false ∧
    (∃ u, exec (.hdrC22Read 3 5) (s.withSF s.sf.quieted) = .next u ∧ u.sf.trace = s.sf.trace ++ transferV30) ∧
    0 < transferV30.length ∧ (∀ j < 0, s.sf.env.failures.getD j none = none) ∧ s.sf.env.failures.getD 0 none = some broken ∧
    (∀ j < transferV30.length, (opened [] []).sf.env.failures.getD j none = none) :=
  ⟨rfl, rfl, next_with _ (by decide +kernel), by decide, by decide, by decide, by decide⟩
theorem witness_LinesFollowTheTrace :
    (Instr.bbWriteC22 3 5 0xBEEF).isLifecycle = false ∧
    ∃ t, exec (.bbWriteC22 3 5 0xBEEF) (opened [] []) = .next t ∧ t.bb.trace = (opened [] []).bb.trace ++ wSlots levelsV60 :=
  ⟨rfl, next_with _ (by decide +kernel)⟩
theorem witness_ErrorsNeverDependOnData :
    let s := failing [none, none, some broken]
    let s' : State := { s with bb := bbWith [none, none, some broken] [false], sf := sfWith [none, none, some broken] [5] }
    (Instr.bbReadC22 3 5).skeleton = (Instr.bbReadC22 30 9).skeleton ∧ s.Inv ∧ s'.Inv ∧ s.bb.isOpen = s'.bb.isOpen ∧
    s.sf.isOpen = s'.sf.isOpen ∧ s.switches = s'.switches ∧ s.bb.env.failures = s'.bb.env.failures ∧
    s.sf.env.failures = s'.sf.env.failures ∧
    (∃ t, exec (.bbReadC22 3 5) s = .next t ∧ t.resultsOf .bitbang = s.resultsOf .bitbang ++ [.err (.transportIO broken)]) ∧
    (∃ t, exec (.bbReadC22 30 9) s' = .next t ∧ t.resultsOf .bitbang = s'.resultsOf .bitbang ++ [.err (.transportIO broken)]) :=
  ⟨rfl, failing_inv _, failing_inv [none, none, some broken], rfl, rfl, rfl, rfl, rfl, next_with _ (by decide +kernel),
    next_with _ (by decide +kernel)⟩
theorem witness_SamplesNeverSteer : (opened [true] [7]).blind = (opened [false, true] []).blind := rfl
theorem witness_EnginesShareNothing :
    (Instr.bbReadC22 3 5).engine = .bitbang ∧ (Instr.sfReadC22 3 5).engine = .spi ∧
    (∃ t, exec (.sfReadC22 3 5) (opened [] []) = .next t ∧ t.sf.isOpen = true) ∧
    (∃ t, exec .bbClose (opened [] []) = .next t ∧ t.bb.isOpen = false) :=
  ⟨rfl, rfl, next_with _ (by decide +kernel), next_with _ (by decide +kernel)⟩
theorem witness_OneResultPerCommand : ∃ t, exec (.sfReadC22 3 5) (opened [] []) = .next t ∧ t.sf.results = [.ok (.u16 0xFFFF)] :=
  next_with _ (by decide +kernel)
theorem witness_TransfersHoldChipSelect :
    (∃ t, exec (.hdrC22Read 3 5) (opened [] []) = .next t ∧ t.sf.trace = (opened [] []).sf.trace ++ transferV30) ∧
    .xfer 16 0x6197 false 0xFFFF ∈ transferV30 := ⟨next_with _ (by decide +kernel), by decide⟩
theorem witness_FloatHighReadsOnes :
    (opened [] []).switches = Switches.normative ∧
    ((opened [] []).bb.Ready ∧ (opened [] []).bb.env.levels = [] ∧ (opened [] []).bb.env.floatHigh = true) ∧
    ((opened [] []).sf.Ready ∧ (opened [] []).sf.env.received = [] ∧ (opened [] []).sf.env.floatHigh = true) :=
  ⟨rfl, ⟨opened_bbReady _ _, rfl, rfl⟩, opened_sfReady _ _, rfl, rfl⟩
theorem witness_EchoRoundTrip :
    let phy := Fixtures.EchoPhy.initial 0
    let s := opened (phy.samples ((writeC22 3 5 0xBEEF).frames ++ (readC22 3 5).frames) ++ [])
      (phy.received [writeC22 3 5 0xBEEF, readC22 3 5] ++ [])
    let s' := opened (phy.samples ((writeC45 1 7 0x8000 0x1234).frames ++ (readC45 1 7 0x8000).frames) ++ [])
      (phy.received [writeC45 1 7 0x8000 0x1234, readC45 1 7 0x8000] ++ [])
    s.switches = Switches.normative ∧ s.bb.Ready ∧ s.sf.Ready ∧ s'.bb.Ready ∧ s'.sf.Ready ∧
    s.bb.env.levels = phy.samples ((writeC22 3 5 0xBEEF).frames ++ (readC22 3 5).frames) ++ [] ∧
    s.sf.env.received = phy.received [writeC22 3 5 0xBEEF, readC22 3 5] ++ [] ∧
    s'.bb.env.levels = phy.samples ((writeC45 1 7 0x8000 0x1234).frames ++ (readC45 1 7 0x8000).frames) ++ [] ∧
    s'.sf.env.received = phy.received [writeC45 1 7 0x8000 0x1234, readC45 1 7 0x8000] ++ [] :=
  ⟨rfl, opened_bbReady _ _, opened_sfReady _ _, opened_bbReady _ _, opened_sfReady _ _, rfl, rfl, rfl, rfl⟩

end Sys2Proof.Tests
end

section
/-! Scope (spec/00_scope.md): what construction leaves, and the one result of every command. -/

namespace Sys2Proof.Machine

/-! ### Construction -/

/-- The two lines are distinct whatever the constructor's arguments were (R12, R29). -/
theorem dataLine_ne_clkLine : Config.dataLine ≠ Config.clkLine := by
  unfold Config.dataLine
  split
  · omega
  · assumption

theorem BB.constructed_inv : BB.constructed.Inv := ⟨dataLine_ne_clkLine, rfl, nofun⟩

theorem SF.constructed_inv : SF.constructed.Inv := ⟨Nat.succ_pos _, rfl, rfl, nofun⟩

/-- Settles O13: every field of the state after reset is written out in the constructor; only the invariant needs a reason. -/
theorem resetState : Obligations.ResetState :=
  ⟨⟨BB.constructed_inv, SF.constructed_inv⟩, rfl, rfl, rfl, rfl, rfl, rfl, rfl, rfl, rfl, rfl, rfl, rfl, rfl, rfl, rfl,
    rfl, rfl, rfl, rfl, rfl, rfl, rfl⟩

/-! ### What no operation of a command does before the delivery -/

/-- The bit-bang engine while a command runs, lifecycle commands included: no result is delivered yet, the configuration
stays and the trace only grows (R18, R26, R62). Weaker than `BB.Kept`, which `open` and `close` do not keep. -/
structure BB.Ongoing (b b' : BB) : Prop where
  cfg : b'.cfg = b.cfg
  results : b'.results = b.results
  trace : b.trace <+: b'.trace

/-- The same for the SPI-framed engine (R18, R27, R62). -/
structure SF.Ongoing (f f' : SF) : Prop where
  cfg : f'.cfg = f.cfg
  results : f'.results = f.results
  trace : f.trace <+: f'.trace

theorem BB.Ongoing.refl (b : BB) : b.Ongoing b := ⟨rfl, rfl, List.prefix_rfl⟩

theorem SF.Ongoing.refl (f : SF) : f.Ongoing f := ⟨rfl, rfl, List.prefix_rfl⟩

theorem BB.Ongoing.trans {a b c : BB} (h : a.Ongoing b) (h' : b.Ongoing c) : a.Ongoing c :=
  ⟨h'.cfg.trans h.cfg, h'.results.trans h.results, h.trace.trans h'.trace⟩

theorem SF.Ongoing.trans {a b c : SF} (h : a.Ongoing b) (h' : b.Ongoing c) : a.Ongoing c :=
  ⟨h'.cfg.trans h.cfg, h'.results.trans h.results, h.trace.trans h'.trace⟩

theorem BB.Kept.ongoing {b b' : BB} (h : b.Kept b') : b.Ongoing b' := ⟨h.cfg, h.results, h.trace⟩

theorem SF.Kept.ongoing {f f' : SF} (h : f.Kept f') : f.Ongoing f' := ⟨h.cfg, h.results, h.trace⟩

/-- A collaborator call leaves the command ongoing if its success does: a refused call only spends the environment's
draw (R38). -/
theorem BB.attempt_ongoing {b b' : BB} {call : BB → Ran BB Level}
    (hcall : ∀ c c' : BB, (call c).EndsIn c' → c.Ongoing c') (h : (b.attempt call).EndsIn b') : b.Ongoing b' := by
  have hspent : b.Ongoing b.spent := ⟨rfl, rfl, List.prefix_rfl⟩
  rcases b.attempt_cases call with e | ⟨x, e⟩ <;> rw [e] at h
  · exact hspent.trans (hcall _ _ h)
  · cases h
    exact hspent

theorem SF.attempt_ongoing {f f' : SF} {call : SF → Ran SF U16}
    (hcall : ∀ c c' : SF, (call c).EndsIn c' → c.Ongoing c') (h : (f.attempt call).EndsIn f') : f.Ongoing f' := by
  have hspent : f.Ongoing f.spent := ⟨rfl, rfl, List.prefix_rfl⟩
  rcases f.attempt_cases call with e | ⟨x, e⟩ <;> rw [e] at h
  · exact hspent.trans (hcall _ _ h)
  · cases h
    exact hspent

theorem BB.openClk_ongoing {b b' : BB} (h : b.openClk.EndsIn b') : b.Ongoing b' :=
  BB.attempt_ongoing (fun _ _ hc => by cases hc; exact ⟨rfl, rfl, List.prefix_rfl⟩) h

theorem BB.openData_ongoing {b b' : BB} (h : b.openData.EndsIn b') : b.Ongoing b' :=
  BB.attempt_ongoing (fun _ _ hc => by cases hc; exact ⟨rfl, rfl, List.prefix_append _ _⟩) h

theorem BB.closeData_ongoing {b b' : BB} (h : b.closeData.EndsIn b') : b.Ongoing b' :=
  BB.attempt_ongoing (fun _ _ hc => by cases hc; exact ⟨rfl, rfl, List.prefix_rfl⟩) h

theorem BB.closeClk_ongoing {b b' : BB} (h : b.closeClk.EndsIn b') : b.Ongoing b' :=
  BB.attempt_ongoing (fun _ _ hc => by cases hc; exact ⟨rfl, rfl, List.prefix_append _ _⟩) h

theorem SF.openPort_ongoing {f f' : SF} (h : f.openPort.EndsIn f') : f.Ongoing f' :=
  SF.attempt_ongoing (fun _ _ hc => by cases hc; exact ⟨rfl, rfl, List.prefix_append _ _⟩) h

theorem SF.closePort_ongoing {f f' : SF} (h : f.closePort.EndsIn f') : f.Ongoing f' :=
  SF.attempt_ongoing (fun _ _ hc => by cases hc; exact ⟨rfl, rfl, List.prefix_append _ _⟩) h

/-! ### Delivery -/

/-- From `s` to `t` the bit-bang engine has run one command: its one result is delivered, `Ok` only with a value that
satisfies `P`, and the rest of the state is as it was (R18). -/
def BBDelivers (P : Value → Prop) (s t : State) : Prop :=
  ∃ b r, t = s.withBB (b.deliver r) ∧ s.bb.Ongoing b ∧ ∀ v, r = .ok v → P v

/-- The same for the SPI-framed engine. -/
def SFDelivers (P : Value → Prop) (s t : State) : Prop :=
  ∃ f r, t = s.withSF (f.deliver r) ∧ s.sf.Ongoing f ∧ ∀ v, r = .ok v → P v

theorem BBDelivers.ok {P : Value → Prop} {s : State} {b : BB} {v : Value} (h : s.bb.Ongoing b) (hv : P v) :
    BBDelivers P s (s.withBB (b.deliver (.ok v))) :=
  ⟨b, .ok v, rfl, h, fun _ e => Result.ok.inj e ▸ hv⟩

theorem BBDelivers.err {P : Value → Prop} {s : State} {b : BB} (h : s.bb.Ongoing b) (e : ErrorKind) :
    BBDelivers P s (s.withBB (b.raise e)) :=
  ⟨b, .err e, rfl, h, nofun⟩

theorem SFDelivers.ok {P : Value → Prop} {s : State} {f : SF} {v : Value} (h : s.sf.Ongoing f) (hv : P v) :
    SFDelivers P s (s.withSF (f.deliver (.ok v))) :=
  ⟨f, .ok v, rfl, h, fun _ e => Result.ok.inj e ▸ hv⟩

theorem SFDelivers.err {P : Value → Prop} {s : State} {f : SF} (h : s.sf.Ongoing f) (e : ErrorKind) :
    SFDelivers P s (s.withSF (f.raise e)) :=
  ⟨f, .err e, rfl, h, nofun⟩

theorem execBbOpen_delivers {s t : State} (h : execBbOpen s = .next t) : BBDelivers (· = .unit) s t := by
  cases ho : s.bb.isOpen with
  | true =>
    simp only [execBbOpen, ho, if_true] at h
    cases h
    exact .err (.refl _) _
  | false =>
    simp only [execBbOpen, ho, Bool.false_eq_true, if_false] at h
    cases hc : s.bb.openClk with
    | done b got =>
      have hb : s.bb.Ongoing b := BB.openClk_ongoing (hc ▸ .done b got)
      cases hd : b.openData with
      | done b' got' =>
        simp only [hc, hd] at h
        cases h
        exact .ok (hb.trans (BB.openData_ongoing (hd ▸ .done b' got'))) rfl
      | failed b' e =>
        simp only [hc, hd] at h
        cases h
        have hgiven : b'.Ongoing b'.giveBackClk.unclaimed := ⟨rfl, rfl, List.prefix_rfl⟩
        exact .err ((hb.trans (BB.openData_ongoing (hd ▸ .failed b' e))).trans hgiven) e
      | fault r => simp [hc, hd] at h
    | failed b e =>
      simp only [hc] at h
      cases h
      have hgiven : b.Ongoing b.unclaimed := ⟨rfl, rfl, List.prefix_rfl⟩
      exact .err ((BB.openClk_ongoing (hc ▸ .failed b e)).trans hgiven) e
    | fault r => simp [hc] at h

theorem execBbClose_delivers {s t : State} (h : execBbClose s = .next t) : BBDelivers (· = .unit) s t := by
  have hfailed : ∀ b : BB, b.Ongoing b.closeFailed := fun _ => ⟨rfl, rfl, List.prefix_rfl⟩
  cases ho : s.bb.isOpen with
  | false =>
    simp only [execBbClose, ho, Bool.false_eq_true, if_false] at h
    cases h
    exact .ok (.refl _) rfl
  | true =>
    simp only [execBbClose, ho, if_true] at h
    cases hd : s.bb.closeData with
    | done b got =>
      have hb : s.bb.Ongoing b := BB.closeData_ongoing (hd ▸ .done b got)
      cases hc : b.closeClk with
      | done b' got' =>
        simp only [hd, hc] at h
        cases h
        exact .ok (hb.trans (BB.closeClk_ongoing (hc ▸ .done b' got'))) rfl
      | failed b' e =>
        simp only [hd, hc] at h
        cases h
        exact .err ((hb.trans (BB.closeClk_ongoing (hc ▸ .failed b' e))).trans (hfailed b')) e
      | fault r => simp [hd, hc] at h
    | failed b e =>
      simp only [hd] at h
      cases h
      exact .err ((BB.closeData_ongoing (hd ▸ .failed b e)).trans (hfailed b)) e
    | fault r => simp [hd] at h

theorem execSfOpen_delivers {s t : State} (h : execSfOpen s = .next t) : SFDelivers (· = .unit) s t := by
  cases ho : s.sf.isOpen with
  | true =>
    simp only [execSfOpen, ho, if_true] at h
    cases h
    exact .err (.refl _) _
  | false =>
    simp only [execSfOpen, ho, Bool.false_eq_true, if_false] at h
    cases hc : s.sf.openPort with
    | done f got =>
      simp only [hc] at h
      cases h
      exact .ok (SF.openPort_ongoing (hc ▸ .done f got)) rfl
    | failed f e =>
      simp only [hc] at h
      cases h
      exact .err (SF.openPort_ongoing (hc ▸ .failed f e)) e
    | fault r => simp [hc] at h

theorem execSfClose_delivers {s t : State} (h : execSfClose s = .next t) : SFDelivers (· = .unit) s t := by
  cases ho : s.sf.isOpen with
  | false =>
    simp only [execSfClose, ho, Bool.false_eq_true, if_false] at h
    cases h
    exact .ok (.refl _) rfl
  | true =>
    simp only [execSfClose, ho, if_true] at h
    cases hc : s.sf.closePort with
    | done f got =>
      simp only [hc] at h
      cases h
      exact .ok (SF.closePort_ongoing (hc ▸ .done f got)) rfl
    | failed f e =>
      simp only [hc] at h
      cases h
      have hfailed : f.Ongoing f.closeFailed := ⟨rfl, rfl, List.prefix_rfl⟩
      exact .err ((SF.closePort_ongoing (hc ▸ .failed f e)).trans hfailed) e
    | fault r => simp [hc] at h

/-- A register command of the bit-bang engine delivers one result; the samples kept decide its value. -/
theorem bbCommand_delivers {ops : List LineOp} {value : List Level → Value} {P : Value → Prop} {s t : State}
    (h : bbCommand ops value s = .next t) (hP : ∀ got, P (value got)) : BBDelivers P s t := by
  rcases bbCommand_cases ops value s with ⟨_, e⟩ | ⟨_, b, got, _, hk, e⟩ | ⟨_, b, k, _, hk, e⟩ | ⟨_, f, _, e⟩ <;>
    rw [e] at h <;> cases h
  · exact .err (.refl _) _
  · exact .ok hk.ongoing (hP got)
  · exact .err hk.ongoing k

/-- A register command of the SPI-framed engine delivers one result; the words its transfers kept decide its value. -/
theorem sfCommand_delivers {ops : List SpiOp} {value : List U16 → Value} {P : Value → Prop} {s t : State}
    (h : sfCommand ops value s = .next t) (hP : ∀ f got, s.sf.run ops = .done f got → P (value got)) :
    SFDelivers P s t := by
  rcases sfCommand_cases ops value s with ⟨_, e⟩ | ⟨_, f, got, hrun, hk, e⟩ | ⟨_, f, k, _, hk, e⟩ <;>
    rw [e] at h <;> cases h
  · exact .err (.refl _) _
  · exact .ok hk.ongoing (hP f got hrun)
  · exact .err hk.ongoing k

/-! ### How many words a run supplies -/

theorem length_wordsOfSamples (n : Nat) (bs : List Level) : (wordsOfSamples n bs).length = n := by
  induction n generalizing bs with
  | zero => rfl
  | succ n ih => simp [wordsOfSamples, ih]

theorem length_joinPairs (n : Nat) (ws : List U16) (h : ws.length = 2 * n) : (joinPairs ws).length = n := by
  induction n generalizing ws with
  | zero =>
    obtain rfl : ws = [] := List.length_eq_zero_iff.mp h
    rfl
  | succ n ih =>
    match ws, h with
    | lo :: hi :: rest, h => simp [joinPairs, ih rest (by simpa [Nat.mul_add] using h)]

/-- Whether a step of the SPI-framed engine keeps the word it receives (R195, R211). -/
def SpiOp.keeps : SpiOp → Bool
  | .xfer _ _ _ keep => keep
  | .element => false
  | .frame => false

/-- A run that succeeds has one word for each transfer that keeps its word. -/
theorem SF.run_done_length {ops : List SpiOp} {f f' : SF} {got : List U16} (h : f.run ops = .done f' got) :
    got.length = ops.countP SpiOp.keeps := by
  induction ops generalizing f got with
  | nil =>
    cases h
    rfl
  | cons op ops ih =>
    have hop : ∀ f1 g1, f.perform op = .done f1 g1 → g1.length = if op.keeps then 1 else 0 := by
      intro f1 g1 h1
      rcases f.perform_cases op with ⟨rfl, e⟩ | ⟨rfl, e⟩ | ⟨_, _, _, keep, rfl, _, _, _, e⟩ | e | e | ⟨_, e⟩ <;>
        rw [e] at h1 <;> cases h1
      · rfl
      · rfl
      · cases keep <;> rfl
    simp only [SF.run, runOps] at h
    cases hp : f.perform op with
    | done f1 g1 =>
      simp only [hp] at h
      cases hr : runOps SF.perform ops f1 with
      | done f2 g2 =>
        simp only [hr] at h
        cases h
        rw [List.length_append, hop f1 g1 hp, ih hr, List.countP_cons, Nat.add_comm]
      | failed _ _ => simp [hr] at h
      | fault _ => simp [hr] at h
    | failed _ _ => simp [hp] at h
    | fault _ => simp [hp] at h

theorem countP_keeps_sfFrameWords (sw : Switches) (f : Frame) :
    (Prim.sfFrameWords sw f).countP SpiOp.keeps = if Codec.isReadClass f.op then 1 else 0 := by
  cases hr : Codec.isReadClass f.op <;>
    simp [Prim.sfFrameWords, Prim.sfSendHeader, Prim.sfDataRead, Prim.sfDataWrite, hr, SpiOp.keeps]

theorem countP_keeps_sfFrame (sw : Switches) (f : Frame) :
    (Prim.sfFrame sw f).countP SpiOp.keeps = if Codec.isReadClass f.op then 1 else 0 := by
  rw [← countP_keeps_sfFrameWords sw f]
  simp [Prim.sfFrame, Prim.sfFlush, SpiOp.keeps]

/-- With or without its own preamble a frame keeps one word if it is read-class (D2). -/
theorem countP_keeps_sfNextFrame (sw : Switches) (f : Frame) :
    (Prim.sfNextFrame sw f).countP SpiOp.keeps = if Codec.isReadClass f.op then 1 else 0 := by
  cases hp : sw.preamblePerFrame
  · simp [Prim.sfNextFrame, hp, countP_keeps_sfFrameWords, SpiOp.keeps]
  · simp [Prim.sfNextFrame, hp, countP_keeps_sfFrame]

theorem countP_keeps_sfFrames (sw : Switches) (fs : List Frame) : (sfFrames sw fs).countP SpiOp.keeps = readsIn fs := by
  have hnext : ∀ gs : List Frame, (gs.flatMap (Prim.sfNextFrame sw)).countP SpiOp.keeps = readsIn gs := by
    intro gs
    induction gs with
    | nil => rfl
    | cons g gs ih =>
      rw [List.flatMap_cons, List.countP_append, ih, countP_keeps_sfNextFrame]
      cases hr : Codec.isReadClass g.op <;> simp [readsIn, hr, Nat.add_comm]
  cases fs with
  | nil => rfl
  | cons f fs =>
    rw [sfFrames, List.countP_append, hnext, countP_keeps_sfFrame]
    cases hr : Codec.isReadClass f.op <;> simp [readsIn, hr, Nat.add_comm]

theorem countP_keeps_sfTransaction (sw : Switches) (t : Transaction) :
    (sfTransaction sw t).countP SpiOp.keeps = readsIn t.frames := by
  rw [← countP_keeps_sfFrames sw]
  cases ht : t.trailingFlush <;> simp [sfTransaction, ht, Prim.sfFlush, SpiOp.keeps]

/-- The transfers of a command keep as many words as its frames read (R195). -/
theorem countP_keeps_operations (sw : Switches) (ts : List Transaction) :
    (ts.flatMap (sfTransaction sw)).countP SpiOp.keeps = wordsRead ts := by
  induction ts with
  | nil => rfl
  | cons t ts ih => rw [List.flatMap_cons, List.countP_append, countP_keeps_sfTransaction, ih, wordsRead_cons]

/-! ### The value fits the command -/

theorem wordsRead_map {α : Type} (op : α → Transaction) (k : Nat) (hop : ∀ a, readsIn (op a).frames = k) (rs : List α) :
    wordsRead (rs.map op) = k * rs.length := by
  induction rs with
  | nil => rfl
  | cons r rs ih => rw [List.map_cons, wordsRead_cons, hop, ih, List.length_cons, Nat.mul_succ, Nat.add_comm]

theorem readsIn_readC22 (p r : Nat) : readsIn (readC22 p r).frames = 1 := by
  simp [readsIn, readC22, isReadClass_c22Read]

theorem readsIn_readC45 (p e r : Nat) : readsIn (readC45 p e r).frames = 1 := by
  simp [readsIn, readC45, isReadClass_c45Read, isReadClass_c45Address]

/-- A dword read reads two words, in either order and with either opcode (D3, D4). -/
theorem readsIn_readC45Dword (sw : Switches) (p e r : Nat) : readsIn (readC45Dword sw p e r).frames = 2 := by
  have hread : Codec.isReadClass (dwordReadFrame sw.dwordReadOp p e).op = true := by
    cases sw.dwordReadOp
    · exact isReadClass_c45Read p e
    · exact isReadClass_c45ReadInc p e
  cases hq : sw.dwordSequence <;> simp [readsIn, readC45Dword, dwordFrames, hq, hread, isReadClass_c45Address]

/-- As many words as the frames of an instruction read make a value of its type. -/
theorem assemble_fits (i : Instr) (sw : Switches) (ws : List U16) (h : ws.length = wordsRead (i.operations sw)) :
    (assemble i.shape ws).fits i := by
  cases i with
  | bbReadC22Registers p rs | sfReadC22Registers p rs =>
    exact ⟨ws, rfl, by rw [h, Instr.operations, wordsRead_map _ 1 (readsIn_readC22 p), Nat.one_mul]⟩
  | bbReadC45Registers p e rs | sfReadC45Registers p e rs =>
    exact ⟨ws, rfl, by rw [h, Instr.operations, wordsRead_map _ 1 (readsIn_readC45 p e), Nat.one_mul]⟩
  | bbReadC45DwordRegisters p e rs =>
    exact ⟨joinPairs ws, rfl, length_joinPairs _ _
      (by rw [h, Instr.operations, wordsRead_map _ 2 (readsIn_readC45Dword sw p e)])⟩
  | c22Read | c45ReadInc | c45Read | bbReadC22 | sfReadC22 | bbReadC45 | sfReadC45 | bbReadC45Dword => exact ⟨_, rfl⟩
  | _ => rfl

theorem lifecycle_cases {i : Instr} (h : i.isLifecycle = true) :
    i = .bbOpen ∨ i = .bbClose ∨ i = .sfOpen ∨ i = .sfClose := by
  simpa [Instr.isLifecycle, or_assoc] using h

/-- A header word returns nothing (R194). -/
theorem unit_fits_of_header {i : Instr} {f : Frame} (h : i.headerFrame = some f) : Value.unit.fits i := by
  cases i with
  | hdrC22Write | hdrC22Read | hdrC45Address | hdrC45Write | hdrC45ReadInc | hdrC45Read => rfl
  | _ => cases h

/-! ### Every instruction -/

theorem exec_bitbang_delivers {i : Instr} {s t : State} (he : i.engine = .bitbang) (h : exec i s = .next t) :
    BBDelivers (Value.fits i) s t := by
  cases hl : i.isLifecycle with
  | true =>
    rcases lifecycle_cases hl with rfl | rfl | rfl | rfl
    · exact execBbOpen_delivers h
    · exact execBbClose_delivers h
    · cases he
    · cases he
  | false =>
    rw [exec_bitbang i s he hl] at h
    split at h
    · cases h
      exact .err (.refl _) _
    · exact bbCommand_delivers h fun got => assemble_fits i s.switches _ (length_wordsOfSamples _ got)

theorem exec_spi_delivers {i : Instr} {s t : State} (he : i.engine = .spi) (h : exec i s = .next t) :
    SFDelivers (Value.fits i) s t := by
  cases hl : i.isLifecycle with
  | true =>
    rcases lifecycle_cases hl with rfl | rfl | rfl | rfl
    · cases he
    · cases he
    · exact execSfOpen_delivers h
    · exact execSfClose_delivers h
  | false =>
    cases hh : i.headerFrame with
    | some f =>
      rw [exec_header i s f hh] at h
      exact sfCommand_delivers h fun _ _ _ => unit_fits_of_header hh
    | none =>
      rw [exec_spi i s he hl hh] at h
      split at h
      · cases h
        exact .err (.refl _) _
      · exact sfCommand_delivers h fun _ got hrun =>
          assemble_fits i s.switches got ((SF.run_done_length hrun).trans (countP_keeps_operations _ _))

/-- Settles O56: whatever an instruction does, it ends in one delivery on its own engine. -/
theorem oneResultPerCommand : Obligations.OneResultPerCommand := by
  intro i s t h
  cases he : i.engine with
  | bitbang =>
    obtain ⟨b, r, rfl, hb, hr⟩ := exec_bitbang_delivers he h
    exact ⟨⟨r, congrArg (· ++ [r]) hb.results, hr⟩, hb.trace, List.prefix_rfl, hb.cfg, rfl⟩
  | spi =>
    obtain ⟨f, r, rfl, hf, hr⟩ := exec_spi_delivers he h
    exact ⟨⟨r, congrArg (· ++ [r]) hf.results, hr⟩, List.prefix_rfl, hf.trace, rfl, hf.cfg⟩

end Sys2Proof.Machine
end

section
/-! The switches of R13: the register commands at every value of the four switches. A command is put together from its frames,
each said once for every value: `BB.Sends` and `SF.Sends` say what a stretch of operations puts on the wire, and
`BB.Sends.append` and `SF.Sends.append` join two stretches. -/

namespace Sys2Proof.Machine

open Codec Operands

/-! ### Frames in numbers, and in events with or without a preamble -/

/-- The last bit sent of a data word is the last bit of the operand it was masked from. -/
theorem testBit_zero_mod (v : Nat) : (v % 2 ^ 16).testBit 0 = v.testBit 0 := by simp

/-- The last bit sent of the high half of a dword is bit 16 of it. -/
theorem splitDword_high_testBit (v : Nat) : (splitDword v).2.toNat.testBit 0 = v.testBit 16 := by
  rw [splitDword, mask_toNat, testBit_zero_mod, Nat.testBit_shiftRight]

theorem c45AddressBits_low (p e r : Nat) : c45AddressBits p e (splitDword r).1.toNat = c45AddressBits p e r := by
  rw [splitDword_low, c45AddressBits_mod]

theorem c45AddressBits_high (p e r : Nat) :
    c45AddressBits p e (splitDword r).2.toNat = c45AddressBits p e (r / 65536) := by
  rw [splitDword_high, c45AddressBits_mod]

theorem c45WriteBits_low (p e v : Nat) : c45WriteBits p e (splitDword v).1.toNat = c45WriteBits p e v := by
  rw [splitDword_low, c45WriteBits_mod]

theorem c45WriteBits_high (p e v : Nat) : c45WriteBits p e (splitDword v).2.toNat = c45WriteBits p e (v / 65536) := by
  rw [splitDword_high, c45WriteBits_mod]

theorem c45ReadInc_events (p e : Nat) (ls : List Level) :
    onesEvents ++ frameEvents (c45ReadInc p e) ls = readFrameEvents (0x0800 + p % 32 * 2 ^ 5 + e % 32) ls := by
  refine readFrame_events _ (isReadClass_c45ReadInc p e) _ ?_ ls
  simp only [encodeFrame_toNat, headerOf_toNat, c45ReadInc, mask_toNat, Config.stC45, Config.opC45ReadInc, Config.taWrite]
  norm_num
  omega

/-- The events of a frame behind the first of a command: with its own preamble or none, as the switch says (D2). -/
def nextFrameEvents (sw : Switches) (f : Frame) (samples : List Level) : List BBEvent :=
  if sw.preamblePerFrame then onesEvents ++ frameEvents f samples else frameEvents f samples

theorem nextFrameEvents_write (sw : Switches) {f : Frame} {w : Nat} {ls : List Level}
    (hw : onesEvents ++ frameEvents f ls = writeFrameEvents w) : nextFrameEvents sw f ls = nextWriteEvents sw w := by
  have hslots : frameEvents f ls = wSlots (bitsOf 32 w) := List.append_cancel_left hw
  rw [nextFrameEvents, hw, hslots, nextWriteEvents]

theorem nextFrameEvents_read (sw : Switches) {f : Frame} {w : Nat} {ls : List Level}
    (hw : onesEvents ++ frameEvents f ls = readFrameEvents w ls) : nextFrameEvents sw f ls = nextReadEvents sw w ls := by
  have hslots : frameEvents f ls = wSlots (bitsOf 14 w) ++ .ddirIn :: (rSlots ls ++ [.ddirOut true]) :=
    List.append_cancel_left (hw.trans (List.append_assoc _ _ _))
  rw [nextFrameEvents, hw, hslots, nextReadEvents]

/-! ### Stretches of operations of the bit-bang engine -/

/-- Of the engine `b` at the start of a command, `k` samples drawn since and the data line in output direction: `ops` succeed,
put `es` on the wire, which brings the samples drawn to `k'`, keep `got`, and leave the clock low and the data line driving
`d`. -/
def BB.Sends (b : BB) (k : Nat) (ops : List LineOp) (k' : Nat) (es : List BBEvent) (d : Level) (got : List Level) : Prop :=
  k + sampleCount es = k' ∧
    ∀ q es₀ c d₀, sampleCount es₀ = k →
      ∃ q', (b.advanced q es₀ c d₀ .output).run ops = .done (b.advanced q' (es₀ ++ es) false d .output) got

theorem BB.Sends.append {b : BB} {k k' k'' : Nat} {ops ops' : List LineOp} {es es' : List BBEvent} {d d' : Level}
    {got got' : List Level} (h : b.Sends k ops k' es d got) (h' : b.Sends k' ops' k'' es' d' got') :
    b.Sends k (ops ++ ops') k'' (es ++ es') d' (got ++ got') := by
  obtain ⟨rfl, hrun⟩ := h
  obtain ⟨rfl, hrun'⟩ := h'
  refine ⟨by rw [sampleCount_append, Nat.add_assoc], fun q es₀ c d₀ hk => ?_⟩
  obtain ⟨q1, h1⟩ := hrun q es₀ c d₀ hk
  obtain ⟨q2, h2⟩ := hrun' q1 (es₀ ++ es) false d (by rw [sampleCount_append, hk])
  rw [List.append_assoc] at h2
  exact ⟨q2, runOps_append_done h1 h2⟩

/-- A mark only moves the sequencer (R23). -/
theorem BB.Sends.frameMark {b : BB} {k k' : Nat} {ops : List LineOp} {es : List BBEvent} {d : Level} {got : List Level}
    (h : b.Sends k ops k' es d got) : b.Sends k (.frame :: ops) k' es d got := by
  refine ⟨h.1, fun q es₀ c d₀ hk => ?_⟩
  obtain ⟨q1, h1⟩ := h.2 q.nextFrame es₀ c d₀ hk
  exact ⟨q1, runOps_cons_done (g := []) rfl h1⟩

/-! ### The frames of a command on the bit-bang engine -/

section
variable {b : BB} (hq : b.Quiet) (hd : b.Driving)
include hq hd

theorem BB.sends_flush (k : Nat) : b.Sends k Prim.flush k onesEvents true [] := by
  refine ⟨by simp, fun q es₀ c d₀ _ => ?_⟩
  obtain ⟨q1, h1⟩ := BB.flush_run (hq.advanced q es₀ c d₀ .output) (hd.advanced q es₀ c d₀)
  rw [BB.advanced_advanced] at h1
  exact ⟨q1, h1⟩

/-- The 32 slots of a frame at any point of a command: a read-class frame takes the next 18 samples and keeps the last 16. -/
theorem BB.sends_frameSlots (k : Nat) (f : Frame) :
    b.Sends k (Prim.frameSlots f) (k + samplesOf f) (frameEvents f (b.window k (samplesOf f))) (driveAfter f)
      (if isReadClass f.op then b.window (k + 2) 16 else []) := by
  refine ⟨by rw [sampleCount_frameEvents _ _ (by simp)], fun q es₀ c d₀ hk => ?_⟩
  have hwindow : ∀ n, (b.advanced q es₀ c d₀ .output).upcoming n = b.window k n := fun n => by
    rw [BB.upcoming_advanced, hk, BB.upcoming_eq_window, BB.window_drop, Nat.zero_add, Nat.add_sub_cancel_left]
  obtain ⟨q1, h1⟩ := BB.frameSlots_run (hq.advanced q es₀ c d₀ .output) (hd.advanced q es₀ c d₀) f
  rw [hwindow, hwindow, BB.window_drop, BB.advanced_advanced] at h1
  exact ⟨q1, h1⟩

theorem BB.sends_nextFrame (sw : Switches) (k : Nat) (f : Frame) :
    b.Sends k (Prim.bbNextFrame sw f) (k + samplesOf f) (nextFrameEvents sw f (b.window k (samplesOf f))) (driveAfter f)
      (if isReadClass f.op then b.window (k + 2) 16 else []) := by
  have hslots := BB.sends_frameSlots hq hd k f
  cases hp : sw.preamblePerFrame with
  | true =>
    simp only [Prim.bbNextFrame, nextFrameEvents, hp, if_true, Prim.bbFrame]
    exact ((BB.sends_flush hq hd k).append hslots).frameMark
  | false =>
    simp only [Prim.bbNextFrame, nextFrameEvents, hp, Bool.false_eq_true, if_false]
    exact hslots.frameMark

/-- A write-class frame, from its 32 bits. -/
theorem BB.sends_writeFrame (sw : Switches) (k : Nat) {f : Frame} {w : Nat} (hf : isReadClass f.op = false)
    (hw : ∀ ls, onesEvents ++ frameEvents f ls = writeFrameEvents w) :
    b.Sends k (Prim.bbNextFrame sw f) k (nextWriteEvents sw w) (f.data.toNat.testBit 0) [] := by
  have h := BB.sends_nextFrame hq hd sw k f
  rw [nextFrameEvents_write sw (hw _)] at h
  simpa [samplesOf, driveAfter, hf] using h

/-- A read-class frame, from its fourteen header bits. -/
theorem BB.sends_readFrame (sw : Switches) (k : Nat) {f : Frame} {w : Nat} (hf : isReadClass f.op = true)
    (hw : ∀ ls, onesEvents ++ frameEvents f ls = readFrameEvents w ls) :
    b.Sends k (Prim.bbNextFrame sw f) (k + 18) (nextReadEvents sw w (b.window k 18)) true (b.window (k + 2) 16) := by
  have h := BB.sends_nextFrame hq hd sw k f
  rw [nextFrameEvents_read sw (hw _)] at h
  simpa [samplesOf, driveAfter, hf] using h

theorem BB.sends_c45Address (sw : Switches) (k p e a : Nat) :
    b.Sends k (Prim.bbNextFrame sw (c45Address p e a)) k (nextWriteEvents sw (c45AddressBits p e a))
      (a.testBit 0) [] := by
  have h := BB.sends_writeFrame hq hd sw k (isReadClass_c45Address p e a) (c45Address_events p e a)
  rwa [c45Address, mask_toNat, testBit_zero_mod] at h

theorem BB.sends_c45Write (sw : Switches) (k p e v : Nat) :
    b.Sends k (Prim.bbNextFrame sw (c45Write p e v)) k (nextWriteEvents sw (c45WriteBits p e v))
      (v.testBit 0) [] := by
  have h := BB.sends_writeFrame hq hd sw k (isReadClass_c45Write p e v) (c45Write_events p e v)
  rwa [c45Write, mask_toNat, testBit_zero_mod] at h

theorem BB.sends_c45Read (sw : Switches) (k p e : Nat) :
    b.Sends k (Prim.bbNextFrame sw (c45Read p e)) (k + 18) (nextReadEvents sw (c45ReadBits p e) (b.window k 18)) true
      (b.window (k + 2) 16) :=
  BB.sends_readFrame hq hd sw k (isReadClass_c45Read p e) (c45Read_events p e)

theorem BB.sends_dwordRead (sw : Switches) (k p e : Nat) :
    b.Sends k (Prim.bbNextFrame sw (dwordReadFrame sw.dwordReadOp p e)) (k + 18)
      (nextReadEvents sw (dwordReadBits sw p e) (b.window k 18)) true (b.window (k + 2) 16) := by
  cases ho : sw.dwordReadOp with
  | read =>
    rw [dwordReadBits, ho]
    exact BB.sends_c45Read hq hd sw k p e
  | readInc =>
    rw [dwordReadBits, ho]
    exact BB.sends_readFrame hq hd sw k (isReadClass_c45ReadInc p e) (c45ReadInc_events p e)

end

/-- Two frames: the first has its preamble whatever the switch says. -/
theorem BB.Sends.twoFrames {b : BB} {sw : Switches} {f g : Frame} {k k' k'' : Nat} {w : Nat} {es : List BBEvent}
    {d d' : Level} {got got' : List Level}
    (hf : b.Sends k (Prim.bbNextFrame .normative f) k' (nextWriteEvents .normative w) d got)
    (hg : b.Sends k' (Prim.bbNextFrame sw g) k'' es d' got') :
    b.Sends k (bbFrames sw [f, g]) k'' (writeFrameEvents w ++ es) d' (got ++ got') := by
  have h := hf.append hg
  simpa [bbFrames, Prim.bbNextFrame, nextWriteEvents, Switches.normative] using h

/-- The four frames of a dword command in the order of the switch (D3): the samples of the two data frames come one after the
other in both orders. -/
theorem BB.Sends.fourFrames {b : BB} {sw : Switches} {aLo aHi dLo dHi : Frame} {wLo n m : Nat} {eaHi edLo edHi : List BBEvent}
    {x₁ x₂ x₃ x₄ : Level} {got got' : List Level}
    (haLo : b.Sends 0 (Prim.bbNextFrame .normative aLo) 0 (nextWriteEvents .normative wLo) x₁ [])
    (haHi : ∀ k, b.Sends k (Prim.bbNextFrame sw aHi) k eaHi x₂ [])
    (hdLo : b.Sends 0 (Prim.bbNextFrame sw dLo) n edLo x₃ got)
    (hdHi : b.Sends n (Prim.bbNextFrame sw dHi) m edHi x₄ got') :
    b.Sends 0 (bbFrames sw (dwordFrames sw.dwordSequence aLo aHi dLo dHi)) m
      (dwordEvents sw (writeFrameEvents wLo) eaHi edLo edHi) x₄ (got ++ got') := by
  cases ho : sw.dwordSequence with
  | aadd =>
    have h := ((haLo.append (haHi 0)).append hdLo).append hdHi
    simpa [bbFrames, dwordFrames, dwordEvents, ho, Prim.bbNextFrame, nextWriteEvents, Switches.normative] using h
  | adad =>
    have h := ((haLo.append hdLo).append (haHi n)).append hdHi
    simpa [bbFrames, dwordFrames, dwordEvents, ho, Prim.bbNextFrame, nextWriteEvents, Switches.normative] using h

/-- Delivering `Ok` at the end of the events is completing with them. -/
theorem BB.deliver_advanced {b : BB} (h : b.Driving) (q : Sequencer) (es : List BBEvent) (d : Level) (v : Value) :
    (b.advanced q es false d .output).deliver (.ok v) = b.completed es d v := by
  obtain ⟨-, -, -, hdir⟩ := h
  rw [← hdir]
  rfl

/-- A register command of a ready bit-bang engine whose one operation has no trailing flush, from what its frames send. -/
theorem bbTransact_of_sends {s : State} (hr : s.bb.Ready) {t : Transaction} (ht : t.trailingFlush = false) {k : Nat}
    {es : List BBEvent} {d : Level} {got : List Level} (h : s.bb.Sends 0 (bbFrames s.switches t.frames) k es d got)
    (shape : Shape) :
    bbTransact [t] shape s =
      .next (s.withBB (s.bb.completed es d (assemble shape (wordsOfSamples (readsIn t.frames) got)))) := by
  obtain ⟨ho, hd, hq⟩ := hr
  obtain ⟨q, hrun⟩ := h.2 s.bb.seq.nextElement [] s.bb.clk.drive s.bb.data.drive rfl
  have hstart : s.bb.perform .element =
      .done (s.bb.advanced s.bb.seq.nextElement [] s.bb.clk.drive s.bb.data.drive .output) [] :=
    congrArg (fun b => Ran.done b []) (BB.advanced_nil (b := { s.bb with seq := s.bb.seq.nextElement }) hd).symm
  have hall : s.bb.run ([t].flatMap (bbTransaction s.switches)) = .done (s.bb.advanced q es false d .output) got := by
    have := runOps_cons_done hstart hrun
    simpa [bbTransaction, ht, BB.run] using this
  have hwords : wordsRead [t] = readsIn t.frames := wordsRead_cons t []
  simp only [bbTransact, bbCommand, ho, if_true, hall, BB.deliver_advanced hd, hwords]

theorem wordsOfSamples_two {ls ls' : List Level} (h : ls.length = 16) (h' : ls'.length = 16) :
    wordsOfSamples 2 (ls ++ ls') = [wordOfBits ls, wordOfBits ls'] := by
  simp [wordsOfSamples, Config.dataBits, List.take_of_length_le, h, h']

theorem wordsOfSamples_one {ls : List Level} (h : ls.length = 16) : wordsOfSamples 1 ls = [wordOfBits ls] := by
  simp [wordsOfSamples, Config.dataBits, List.take_of_length_le, h]

/-! ### The Clause 45 and dword commands of the bit-bang engine -/

section
variable {s : State} (hr : s.bb.Ready) (p e r v : Nat)
include hr

theorem exec_bbReadC45_switches :
    exec (.bbReadC45 p e r) s =
      .next (s.withBB (s.bb.completed
        (writeFrameEvents (c45AddressBits p e r) ++ nextReadEvents s.switches (c45ReadBits p e) (s.bb.window 0 18)) true
        (.u16 (wordOfBits (s.bb.window 2 16))))) := by
  have ⟨_, hd, hq⟩ := hr
  have h := (BB.sends_c45Address hq hd .normative 0 p e r).twoFrames (BB.sends_c45Read hq hd s.switches 0 p e)
  refine (bbTransact_of_sends hr (t := readC45 p e r) rfl h .u16).trans ?_
  rw [readsIn_readC45, List.nil_append, wordsOfSamples_one (by simp)]
  rfl

theorem exec_bbWriteC45_switches :
    exec (.bbWriteC45 p e r v) s =
      .next (s.withBB (s.bb.completed
        (writeFrameEvents (c45AddressBits p e r) ++ nextWriteEvents s.switches (c45WriteBits p e v)) (v.testBit 0)
        .unit)) := by
  have ⟨_, hd, hq⟩ := hr
  have h := (BB.sends_c45Address hq hd .normative 0 p e r).twoFrames (BB.sends_c45Write hq hd s.switches 0 p e v)
  exact bbTransact_of_sends hr (t := writeC45 p e r v) rfl h .unit

theorem exec_bbReadC45Dword_switches :
    exec (.bbReadC45Dword p e r) s =
      .next (s.withBB (s.bb.completed
        (dwordEvents s.switches (writeFrameEvents (c45AddressBits p e r))
          (nextWriteEvents s.switches (c45AddressBits p e (r / 65536)))
          (nextReadEvents s.switches (dwordReadBits s.switches p e) (s.bb.window 0 18))
          (nextReadEvents s.switches (dwordReadBits s.switches p e) (s.bb.window 18 18))) true
        (.u32 (BitVec.ofNat 32
          ((wordOfBits (s.bb.window 20 16)).toNat * 65536 + (wordOfBits (s.bb.window 2 16)).toNat))))) := by
  have ⟨_, hd, hq⟩ := hr
  have h := BB.Sends.fourFrames (BB.sends_c45Address hq hd .normative 0 p e (splitDword r).1.toNat)
    (fun k => BB.sends_c45Address hq hd s.switches k p e (splitDword r).2.toNat)
    (BB.sends_dwordRead hq hd s.switches 0 p e) (BB.sends_dwordRead hq hd s.switches 18 p e)
  rw [c45AddressBits_low, c45AddressBits_high] at h
  refine (bbTransact_of_sends hr (t := readC45Dword s.switches p e r) rfl h .u32).trans ?_
  rw [readsIn_readC45Dword, wordsOfSamples_two (by simp) (by simp), ← joinDword_eq]
  rfl

theorem exec_bbWriteC45Dword_switches :
    exec (.bbWriteC45Dword p e r v) s =
      .next (s.withBB (s.bb.completed
        (dwordEvents s.switches (writeFrameEvents (c45AddressBits p e r))
          (nextWriteEvents s.switches (c45AddressBits p e (r / 65536)))
          (nextWriteEvents s.switches (c45WriteBits p e v))
          (nextWriteEvents s.switches (c45WriteBits p e (v / 65536)))) (v.testBit 16) .unit)) := by
  have ⟨_, hd, hq⟩ := hr
  have h := BB.Sends.fourFrames (BB.sends_c45Address hq hd .normative 0 p e (splitDword r).1.toNat)
    (fun k => BB.sends_c45Address hq hd s.switches k p e (splitDword r).2.toNat)
    (BB.sends_c45Write hq hd s.switches 0 p e (splitDword v).1.toNat)
    (BB.sends_c45Write hq hd s.switches 0 p e (splitDword v).2.toNat)
  rw [splitDword_high_testBit, c45AddressBits_low, c45AddressBits_high, c45WriteBits_low, c45WriteBits_high] at h
  exact bbTransact_of_sends hr (t := writeC45Dword s.switches p e r v) rfl h .unit

end

/-! ### Stretches of operations of the SPI-framed engine -/

/-- Of the engine `f` at the start of a command, `k` words transferred since: `ops` succeed, send the words
`sent`, which brings the words transferred to `k'`, and keep `got`. -/
def SF.Sends (f : SF) (k : Nat) (ops : List SpiOp) (k' : Nat) (sent : List (Nat × Nat)) (got : List U16) : Prop :=
  k + sent.length = k' ∧
    ∀ q sent₀, sent₀.length = k → ∃ q', (f.advanced q sent₀).run ops = .done (f.advanced q' (sent₀ ++ sent)) got

theorem SF.Sends.append {f : SF} {k k' k'' : Nat} {ops ops' : List SpiOp} {sent sent' : List (Nat × Nat)} {got got' : List U16}
    (h : f.Sends k ops k' sent got) (h' : f.Sends k' ops' k'' sent' got') :
    f.Sends k (ops ++ ops') k'' (sent ++ sent') (got ++ got') := by
  obtain ⟨rfl, hrun⟩ := h
  obtain ⟨rfl, hrun'⟩ := h'
  refine ⟨by rw [List.length_append, Nat.add_assoc], fun q sent₀ hk => ?_⟩
  obtain ⟨q1, h1⟩ := hrun q sent₀ hk
  obtain ⟨q2, h2⟩ := hrun' q1 (sent₀ ++ sent) (by rw [List.length_append, hk])
  rw [List.append_assoc] at h2
  exact ⟨q2, runOps_append_done h1 h2⟩

/-- A mark only moves the sequencer (R23). -/
theorem SF.Sends.frameMark {f : SF} {k k' : Nat} {ops : List SpiOp} {sent : List (Nat × Nat)} {got : List U16}
    (h : f.Sends k ops k' sent got) : f.Sends k (.frame :: ops) k' sent got := by
  refine ⟨h.1, fun q sent₀ hk => ?_⟩
  obtain ⟨q1, h1⟩ := h.2 q.nextFrame sent₀ hk
  exact ⟨q1, runOps_cons_done (g := []) rfl h1⟩

section
variable {f : SF} (hq : f.Quiet) (hc : f.spi.claimed = true)
include hq hc

theorem SF.sends_xfer (k : Nat) {n tx : Nat} (hn : n = 16 ∨ n = 32) (ht : tx < 2 ^ n) (keep : Bool) :
    f.Sends k [.xfer n tx false keep] (k + 1) [(n, tx)] (if keep then [mask 16 (f.wordAt k % 2 ^ n)] else []) := by
  refine ⟨rfl, fun q sent₀ hk => ?_⟩
  obtain ⟨q1, h1⟩ := SF.perform_xfer (hq.advanced q sent₀) hc hn ht keep
  rw [SF.wordAt_advanced, hk, Nat.add_zero, SF.advanced_advanced] at h1
  have hrun := runOps_cons_done h1 (runOps_nil SF.perform _)
  rw [List.append_nil] at hrun
  exact ⟨q1, hrun⟩

theorem SF.sends_flush (k : Nat) : f.Sends k Prim.sfFlush (k + 1) [(32, 0xFFFFFFFF)] [] :=
  SF.sends_xfer hq hc k (.inr rfl) (by decide) false

/-- Header and data word of a write-class frame: the header again where the switch says so (D5). -/
theorem SF.sends_writeWords (sw : Switches) (k : Nat) {g : Frame} (hg : isReadClass g.op = false) :
    f.Sends k (Prim.sfFrameWords sw g) (k + 2)
      [(16, (sfHeader g).toNat), (16, writeWord sw (sfHeader g).toNat g.data.toNat)] [] := by
  have hdata : writeWord sw (sfHeader g).toNat g.data.toNat < 2 ^ 16 := by
    cases hd : sw.sfWriteDataIsHeader
    · simpa [writeWord, hd] using g.data.isLt
    · simpa [writeWord, hd] using (sfHeader g).isLt
  have h := (SF.sends_xfer hq hc k (.inl rfl) (sfHeader g).isLt false).append
    (SF.sends_xfer hq hc (k + 1) (.inl rfl) hdata false)
  simpa [Prim.sfFrameWords, Prim.sfSendHeader, Prim.sfDataWrite, hg, Config.sfWordBits, writeWord] using h

/-- Header and data word of a read-class frame: the word received with the data word is kept (R195). -/
theorem SF.sends_readWords (sw : Switches) (k : Nat) {g : Frame} (hg : isReadClass g.op = true) :
    f.Sends k (Prim.sfFrameWords sw g) (k + 2) [(16, (sfHeader g).toNat), (16, 0xFFFF)]
      [BitVec.ofNat 16 (f.wordAt (k + 1))] := by
  have h := (SF.sends_xfer hq hc k (.inl rfl) (sfHeader g).isLt false).append
    (SF.sends_xfer hq hc (k + 1) (n := 16) (tx := 0xFFFF) (.inl rfl) (by decide) true)
  have hword : mask 16 (f.wordAt (k + 1) % 2 ^ 16) = BitVec.ofNat 16 (f.wordAt (k + 1)) := mask_mod 16 _
  simp only [hword] at h
  simpa [Prim.sfFrameWords, Prim.sfSendHeader, Prim.sfDataRead, hg, Config.sfWordBits] using h

theorem SF.sends_writeFrame (sw : Switches) (k : Nat) {g : Frame} {h d : Nat} (hg : isReadClass g.op = false)
    (hw : frameWords g = [(32, 0xFFFFFFFF), (16, h), (16, d)]) :
    f.Sends k (Prim.sfFrame sw g) (k + 3) [(32, 0xFFFFFFFF), (16, h), (16, writeWord sw h d)] [] := by
  obtain ⟨rfl, rfl⟩ : (sfHeader g).toNat = h ∧ g.data.toNat = d := by simpa [frameWords, hg] using hw
  exact ((SF.sends_flush hq hc k).append (SF.sends_writeWords hq hc sw (k + 1) hg)).frameMark

theorem SF.sends_readFrame (sw : Switches) (k : Nat) {g : Frame} {h : Nat} (hg : isReadClass g.op = true)
    (hw : frameWords g = [(32, 0xFFFFFFFF), (16, h), (16, 0xFFFF)]) :
    f.Sends k (Prim.sfFrame sw g) (k + 3) [(32, 0xFFFFFFFF), (16, h), (16, 0xFFFF)]
      [BitVec.ofNat 16 (f.wordAt (k + 2))] := by
  obtain rfl : (sfHeader g).toNat = h := by simpa [frameWords, hg] using hw
  exact ((SF.sends_flush hq hc k).append (SF.sends_readWords hq hc sw (k + 1) hg)).frameMark

/-- Behind the first frame of a command a preamble is one transfer more or none (D2, D23). -/
theorem SF.sends_nextWriteFrame (sw : Switches) (k : Nat) {g : Frame} {h d : Nat} (hg : isReadClass g.op = false)
    (hw : frameWords g = [(32, 0xFFFFFFFF), (16, h), (16, d)]) :
    f.Sends k (Prim.sfNextFrame sw g) (if sw.preamblePerFrame then k + 3 else k + 2)
      (nextWords sw h (writeWord sw h d)) [] := by
  cases hp : sw.preamblePerFrame with
  | true => simpa [Prim.sfNextFrame, nextWords, hp] using SF.sends_writeFrame hq hc sw k hg hw
  | false =>
    obtain ⟨rfl, rfl⟩ : (sfHeader g).toNat = h ∧ g.data.toNat = d := by simpa [frameWords, hg] using hw
    simpa [Prim.sfNextFrame, nextWords, hp] using (SF.sends_writeWords hq hc sw k hg).frameMark

theorem SF.sends_nextReadFrame (sw : Switches) (k : Nat) {g : Frame} {h : Nat} (hg : isReadClass g.op = true)
    (hw : frameWords g = [(32, 0xFFFFFFFF), (16, h), (16, 0xFFFF)]) :
    f.Sends k (Prim.sfNextFrame sw g) (if sw.preamblePerFrame then k + 3 else k + 2) (nextWords sw h 0xFFFF)
      [BitVec.ofNat 16 (f.wordAt (if sw.preamblePerFrame then k + 2 else k + 1))] := by
  cases hp : sw.preamblePerFrame with
  | true => simpa [Prim.sfNextFrame, nextWords, hp] using SF.sends_readFrame hq hc sw k hg hw
  | false =>
    obtain rfl : (sfHeader g).toNat = h := by simpa [frameWords, hg] using hw
    simpa [Prim.sfNextFrame, nextWords, hp] using (SF.sends_readWords hq hc sw k hg).frameMark

end

/-- A register command of one operation of a ready SPI-framed engine, from what its frames and its trailing flush send. -/
theorem sfTransact_of_sends {s : State} (hr : s.sf.Ready) (t : Transaction) {k : Nat} {sent : List (Nat × Nat)}
    {got : List U16}
    (h : s.sf.Sends 0 (sfFrames s.switches t.frames ++ (if t.trailingFlush then Prim.sfFlush else [])) k sent got)
    (shape : Shape) :
    sfTransact [t] shape s = .next (s.withSF (s.sf.completed sent (assemble shape got))) := by
  obtain ⟨ho, -, -⟩ := hr
  obtain ⟨q, hrun⟩ := h.2 s.sf.seq.nextElement [] rfl
  have hstart : s.sf.perform .element = .done (s.sf.advanced s.sf.seq.nextElement []) [] :=
    congrArg (fun f => Ran.done f []) (SF.advanced_nil { s.sf with seq := s.sf.seq.nextElement }).symm
  have hall : s.sf.run ([t].flatMap (sfTransaction s.switches)) = .done (s.sf.advanced q sent) got := by
    have := runOps_cons_done hstart hrun
    simpa [sfTransaction, SF.run] using this
  simp only [sfTransact, sfCommand, ho, if_true, hall]
  rfl

/-! ### The single-register commands of the SPI-framed engine -/

section
variable {s : State} (hr : s.sf.Ready) (p e r v : Nat)
include hr

theorem exec_sfReadC22_switches :
    exec (.sfReadC22 p r) s =
      .next (s.withSF (s.sf.completed
        [(32, 0xFFFFFFFF), (16, 0x6003 + p % 32 * 2 ^ 7 + r % 32 * 2 ^ 2), (16, 0xFFFF), (32, 0xFFFFFFFF)]
        (.u16 (BitVec.ofNat 16 (s.sf.wordAt 2))))) := by
  have ⟨_, hc, hq⟩ := hr
  have h := (SF.sends_readFrame hq hc s.switches 0 (isReadClass_c22Read p r) (frameWords_c22Read p r)).append
    (SF.sends_flush hq hc 3)
  exact sfTransact_of_sends hr (readC22 p r) (by simpa [sfFrames, readC22] using h) .u16

theorem exec_sfWriteC22_switches :
    exec (.sfWriteC22 p r v) s =
      .next (s.withSF (s.sf.completed
        [(32, 0xFFFFFFFF), (16, 0x5002 + p % 32 * 2 ^ 7 + r % 32 * 2 ^ 2),
          (16, writeWord s.switches (0x5002 + p % 32 * 2 ^ 7 + r % 32 * 2 ^ 2) (v % 65536)), (32, 0xFFFFFFFF)] .unit)) := by
  have ⟨_, hc, hq⟩ := hr
  have h := (SF.sends_writeFrame hq hc s.switches 0 (isReadClass_c22Write p r v) (frameWords_c22Write p r v)).append
    (SF.sends_flush hq hc 3)
  exact sfTransact_of_sends hr (writeC22 p r v) (by simpa [sfFrames, writeC22] using h) .unit

theorem exec_sfReadC45_switches :
    exec (.sfReadC45 p e r) s =
      .next (s.withSF (s.sf.completed
        ([(32, 0xFFFFFFFF), (16, 0x0002 + p % 32 * 2 ^ 7 + e % 32 * 2 ^ 2),
          (16, writeWord s.switches (0x0002 + p % 32 * 2 ^ 7 + e % 32 * 2 ^ 2) (r % 65536))]
          ++ nextWords s.switches (0x3003 + p % 32 * 2 ^ 7 + e % 32 * 2 ^ 2) 0xFFFF)
        (.u16 (BitVec.ofNat 16 (s.sf.wordAt (if s.switches.preamblePerFrame then 5 else 4)))))) := by
  have ⟨_, hc, hq⟩ := hr
  have h := (SF.sends_writeFrame hq hc s.switches 0 (isReadClass_c45Address p e r) (frameWords_c45Address p e r)).append
    (SF.sends_nextReadFrame hq hc s.switches 3 (isReadClass_c45Read p e) (frameWords_c45Read p e))
  exact sfTransact_of_sends hr (readC45 p e r) (by simpa [sfFrames, readC45] using h) .u16

theorem exec_sfWriteC45_switches :
    exec (.sfWriteC45 p e r v) s =
      .next (s.withSF (s.sf.completed
        ([(32, 0xFFFFFFFF), (16, 0x0002 + p % 32 * 2 ^ 7 + e % 32 * 2 ^ 2),
          (16, writeWord s.switches (0x0002 + p % 32 * 2 ^ 7 + e % 32 * 2 ^ 2) (r % 65536))]
          ++ nextWords s.switches (0x1002 + p % 32 * 2 ^ 7 + e % 32 * 2 ^ 2)
            (writeWord s.switches (0x1002 + p % 32 * 2 ^ 7 + e % 32 * 2 ^ 2) (v % 65536))) .unit)) := by
  have ⟨_, hc, hq⟩ := hr
  have h := (SF.sends_writeFrame hq hc s.switches 0 (isReadClass_c45Address p e r) (frameWords_c45Address p e r)).append
    (SF.sends_nextWriteFrame hq hc s.switches 3 (isReadClass_c45Write p e v) (frameWords_c45Write p e v))
  exact sfTransact_of_sends hr (writeC45 p e r v) (by simpa [sfFrames, writeC45] using h) .unit

end

/-- Settles O40: each command is its frames one after the other, and each frame is said once for every value of the switches. -/
theorem otherReadingsOfTheSource : Obligations.OtherReadingsOfTheSource := fun _ p e r v =>
  ⟨fun hr => ⟨exec_bbReadC45_switches hr p e r, exec_bbWriteC45_switches hr p e r v, exec_bbReadC45Dword_switches hr p e r,
      exec_bbWriteC45Dword_switches hr p e r v⟩,
    fun hr => ⟨exec_sfReadC22_switches hr p r, exec_sfWriteC22_switches hr p r v, exec_sfReadC45_switches hr p e r,
      exec_sfWriteC45_switches hr p e r v⟩⟩

end Sys2Proof.Machine
end

section
/-! State (spec/10_state.md): the collaborators' operations, an equation for each case, and what one call does. -/

namespace Sys2Proof.Machine

/-! ### One collaborator call (R38) -/

/-- The engine with other answers of the environment to come. -/
def BB.withFailures (fs : List (Option OsFailure)) (b : BB) : BB := { b with env := { b.env with failures := fs } }

/-- The engine with other answers of the environment to come. -/
def SF.withFailures (fs : List (Option OsFailure)) (f : SF) : SF := { f with env := { f.env with failures := fs } }

/-- Behind the script's end a call succeeds. -/
theorem BB.attempt_nil {b : BB} (h : b.env.failures = []) (call : BB → Ran BB Level) : b.attempt call = call b := by
  simp only [BB.attempt, h]

theorem BB.attempt_none {b : BB} {rest : List (Option OsFailure)} (h : b.env.failures = none :: rest)
    (call : BB → Ran BB Level) : b.attempt call = call (b.withFailures rest) := by
  simp only [BB.attempt, h]
  rfl

theorem BB.attempt_some {b : BB} {f : OsFailure} {rest : List (Option OsFailure)} (h : b.env.failures = some f :: rest)
    (call : BB → Ran BB Level) : b.attempt call = .failed (b.withFailures rest) (.transportIO f) := by
  simp only [BB.attempt, h]
  rfl

/-- Behind the script's end a call succeeds. -/
theorem SF.attempt_nil {f : SF} (h : f.env.failures = []) (call : SF → Ran SF U16) : f.attempt call = call f := by
  simp only [SF.attempt, h]

theorem SF.attempt_none {f : SF} {rest : List (Option OsFailure)} (h : f.env.failures = none :: rest)
    (call : SF → Ran SF U16) : f.attempt call = call (f.withFailures rest) := by
  simp only [SF.attempt, h]
  rfl

theorem SF.attempt_some {f : SF} {x : OsFailure} {rest : List (Option OsFailure)} (h : f.env.failures = some x :: rest)
    (call : SF → Ran SF U16) : f.attempt call = .failed (f.withFailures rest) (.transportIO x) := by
  simp only [SF.attempt, h]
  rfl

/-! ### Operations of a line (R35 to R37) -/

theorem BB.write_output {line : Line} (hc : line.claimed = true) (hd : line.dir = .output) (effect : BB → BB) (b : BB) :
    b.write line effect = b.attempt (fun b => .done (effect b) []) := by
  simp only [BB.write, hc, hd, if_true]

theorem BB.write_input {line : Line} (hc : line.claimed = true) (hd : line.dir = .input) (effect : BB → BB) (b : BB) :
    b.write line effect = .fault .staleDirection := by
  simp only [BB.write, hc, hd, if_true]

theorem BB.write_unclaimed {line : Line} (hc : line.claimed = false) (effect : BB → BB) (b : BB) :
    b.write line effect = .failed b .notOpen := by
  simp [BB.write, hc]

theorem BB.read_input {b : BB} (hc : b.data.claimed = true) (hd : b.data.dir = .input) (keep : Bool) :
    b.read keep = b.attempt (fun b => .done b.sampled (if keep then [b.drawnLevel] else [])) := by
  simp only [BB.read, hc, hd, if_true]

theorem BB.read_output {b : BB} (hc : b.data.claimed = true) (hd : b.data.dir = .output) (keep : Bool) :
    b.read keep = .fault .staleDirection := by
  simp only [BB.read, hc, hd, if_true]

theorem BB.read_unclaimed {b : BB} (hc : b.data.claimed = false) (keep : Bool) : b.read keep = .failed b .notOpen := by
  simp [BB.read, hc]

theorem BB.turn_claimed {b : BB} (hc : b.data.claimed = true) (effect : BB → BB) :
    b.turn effect = b.attempt (fun b => .done (effect b) []) := by
  simp only [BB.turn, hc, if_true]

theorem BB.turn_unclaimed {b : BB} (hc : b.data.claimed = false) (effect : BB → BB) :
    b.turn effect = .failed b .notOpen := by
  simp [BB.turn, hc]

/-! ### The transfer (R40) -/

theorem SF.xfer_claimed {f : SF} (hc : f.spi.claimed = true) {n tx : Nat} (hw : (n = 16 ∨ n = 32) ∧ tx < 2 ^ n)
    (cs keep : Bool) :
    f.xfer n tx cs keep = f.attempt (fun f =>
      .done (f.transferred n tx cs) (if keep then [Codec.mask 16 (f.drawnWord n)] else [])) := by
  simp only [SF.xfer, hc, if_true, if_pos hw]

theorem SF.xfer_malformed {f : SF} (hc : f.spi.claimed = true) {n tx : Nat} (hw : ¬((n = 16 ∨ n = 32) ∧ tx < 2 ^ n))
    (cs keep : Bool) : f.xfer n tx cs keep = .failed f .parameterInvalid := by
  simp only [SF.xfer, hc, if_true, if_neg hw]

theorem SF.xfer_unclaimed {f : SF} (hc : f.spi.claimed = false) (n tx : Nat) (cs keep : Bool) :
    f.xfer n tx cs keep = .failed f .notOpen := by
  simp [SF.xfer, hc]

/-! ### What the statement of the collaborators asks -/

/-- Calls that succeed: each has its effect. -/
theorem BB.perform_of_success {b : BB} (hf : b.env.failures = []) (l : Level) (keep : Bool) :
    (b.clk.claimed = true → b.clk.dir = .output → b.perform (.clk l) = .done (b.clkWritten l) []) ∧
    (b.data.claimed = true → b.data.dir = .output → b.perform (.data l) = .done (b.dataWritten l) []) ∧
    (b.data.claimed = true → b.data.dir = .input →
      b.perform (.sample keep) = .done b.sampled (if keep then [b.drawnLevel] else [])) ∧
    (b.data.claimed = true →
      b.perform .dirIn = .done b.turnedIn [] ∧ b.perform (.dirOut l) = .done (b.turnedOut l) []) :=
  ⟨fun hc hd => (BB.write_output hc hd _ b).trans (BB.attempt_nil hf _),
    fun hc hd => (BB.write_output hc hd _ b).trans (BB.attempt_nil hf _),
    fun hc hd => (BB.read_input hc hd keep).trans (BB.attempt_nil hf _),
    fun hc => ⟨(BB.turn_claimed hc _).trans (BB.attempt_nil hf _), (BB.turn_claimed hc _).trans (BB.attempt_nil hf _)⟩⟩

/-- Calls whose precondition fails: the environment is not asked (R35, R36, R231). -/
theorem BB.perform_of_misuse (b : BB) (l : Level) (keep : Bool) :
    (b.clk.claimed = false → b.perform (.clk l) = .failed b .notOpen) ∧
    (b.data.claimed = false → ∀ op ∈ [LineOp.data l, .sample keep, .dirIn, .dirOut l], b.perform op = .failed b .notOpen) ∧
    (b.clk.claimed = true → b.clk.dir = .input → b.perform (.clk l) = .fault .staleDirection) ∧
    (b.data.claimed = true → b.data.dir = .input → b.perform (.data l) = .fault .staleDirection) ∧
    (b.data.claimed = true → b.data.dir = .output → b.perform (.sample keep) = .fault .staleDirection) := by
  refine ⟨fun hc => BB.write_unclaimed hc _ b, fun hc op hop => ?_, fun hc hd => BB.write_input hc hd _ b,
    fun hc hd => BB.write_input hc hd _ b, fun hc hd => BB.read_output hc hd keep⟩
  simp only [List.mem_cons, List.not_mem_nil, or_false] at hop
  rcases hop with rfl | rfl | rfl | rfl
  · exact BB.write_unclaimed hc _ b
  · exact BB.read_unclaimed hc keep
  · exact BB.turn_unclaimed hc _
  · exact BB.turn_unclaimed hc _

/-- Calls the environment fails: nothing but the answer spent has changed (R38, R232). -/
theorem BB.perform_of_failure {b : BB} {f : OsFailure} {rest : List (Option OsFailure)}
    (hf : b.env.failures = some f :: rest) (l : Level) (keep : Bool) :
    (b.clk.claimed = true → b.clk.dir = .output →
      b.perform (.clk l) = .failed (b.withFailures rest) (.transportIO f)) ∧
    (b.data.claimed = true → b.data.dir = .output →
      b.perform (.data l) = .failed (b.withFailures rest) (.transportIO f)) ∧
    (b.data.claimed = true → b.data.dir = .input →
      b.perform (.sample keep) = .failed (b.withFailures rest) (.transportIO f)) ∧
    (b.data.claimed = true → ∀ op ∈ [LineOp.dirIn, .dirOut l],
      b.perform op = .failed (b.withFailures rest) (.transportIO f)) := by
  refine ⟨fun hc hd => (BB.write_output hc hd _ b).trans (BB.attempt_some hf _),
    fun hc hd => (BB.write_output hc hd _ b).trans (BB.attempt_some hf _),
    fun hc hd => (BB.read_input hc hd keep).trans (BB.attempt_some hf _), fun hc op hop => ?_⟩
  simp only [List.mem_cons, List.not_mem_nil, or_false] at hop
  rcases hop with rfl | rfl
  · exact (BB.turn_claimed hc _).trans (BB.attempt_some hf _)
  · exact (BB.turn_claimed hc _).trans (BB.attempt_some hf _)

/-- Settles O46: the line operations by how the call ends, then the transfer. -/
theorem collaboratorOperations : Obligations.CollaboratorOperations := by
  refine ⟨fun b l keep hf => ?_, BB.perform_of_misuse, fun b f rest l keep hf => BB.perform_of_failure hf l keep,
    fun x n tx cs keep => ⟨fun hc => SF.xfer_unclaimed hc n tx cs keep, fun hc hw => SF.xfer_malformed hc hw cs keep,
      fun hc hn ht hf => ?_,
      fun f rest hc hn ht hf => (SF.xfer_claimed hc ⟨hn, ht⟩ cs keep).trans (SF.attempt_some hf _)⟩⟩
  · obtain ⟨hclk, hdata, hsample, hturn⟩ := BB.perform_of_success hf l keep
    refine ⟨hclk, hdata, fun hc hd => ⟨b.sampled, ?_, ?_, rfl, rfl⟩, hturn⟩
    · rw [hsample hc hd, BB.drawnLevel_eq]
    · rw [← BB.drawnLevel_eq, BB.sampled_trace]
  · refine ⟨x.transferred n tx cs, ?_, ?_, rfl⟩
    · rw [SF.xfer_claimed hc ⟨hn, ht⟩ cs keep, SF.attempt_nil hf, SF.drawnWord_eq]
    · rw [SF.transferred_trace, SF.drawnWord_eq]

end Sys2Proof.Machine
end

section
/-! State (spec/10_state.md): what a step can run, said once for both engines, and what every step keeps. -/

namespace Sys2Proof.Machine

open Codec

/-! ### What a step can run -/

/-- The register commands, write batches and frames of the bit-bang engine: the operations `ts`, behind the length check of a
write batch whose lists differ (`differ`; R239). -/
def bbRegisters (differ : Bool) (ts : Switches → List Transaction) (shape : Shape) (s : State) :
    Host.Outcome State Fault Refusal :=
  if s.bb.isOpen = true ∧ differ = true then .next (s.withBB (s.bb.raise .parameterInvalid))
  else bbTransact (ts s.switches) shape s

/-- The same for the SPI-framed engine. -/
def sfRegisters (differ : Bool) (ts : Switches → List Transaction) (shape : Shape) (s : State) :
    Host.Outcome State Fault Refusal :=
  if s.sf.isOpen = true ∧ differ = true then .next (s.withSF (s.sf.raise .parameterInvalid))
  else sfTransact (ts s.switches) shape s

/-- What the bit-bang engine can be made to do. -/
inductive OnBB : (State → Host.Outcome State Fault Refusal) → Prop
  | opening : OnBB execBbOpen
  | closing : OnBB execBbClose
  | registers (differ : Bool) (ts : Switches → List Transaction) (shape : Shape) : OnBB (bbRegisters differ ts shape)

/-- What the SPI-framed engine can be made to do. -/
inductive OnSF : (State → Host.Outcome State Fault Refusal) → Prop
  | opening : OnSF execSfOpen
  | closing : OnSF execSfClose
  | registers (differ : Bool) (ts : Switches → List Transaction) (shape : Shape) : OnSF (sfRegisters differ ts shape)
  | header (f : Frame) : OnSF (sendHeader f)

theorem exec_eq_bbRegisters {i : Instr} (he : i.engine = .bitbang) (hl : i.isLifecycle = false) :
    exec i = bbRegisters i.listsDiffer (fun sw => i.operations sw) i.shape :=
  funext fun s => exec_bitbang i s he hl

theorem exec_onBB {i : Instr} (he : i.engine = .bitbang) : OnBB (exec i) := by
  cases hl : i.isLifecycle with
  | true =>
    rcases lifecycle_cases hl with rfl | rfl | rfl | rfl
    · exact .opening
    · exact .closing
    · cases he
    · cases he
  | false => exact exec_eq_bbRegisters he hl ▸ .registers _ _ _

theorem exec_onSF {i : Instr} (he : i.engine = .spi) : OnSF (exec i) := by
  cases hl : i.isLifecycle with
  | true =>
    rcases lifecycle_cases hl with rfl | rfl | rfl | rfl
    · cases he
    · cases he
    · exact .opening
    · exact .closing
  | false =>
    cases hh : i.headerFrame with
    | some f => exact (funext fun s => exec_header i s f hh : exec i = sendHeader f) ▸ .header f
    | none =>
      have h : exec i = sfRegisters i.listsDiffer (fun sw => i.operations sw) i.shape :=
        funext fun s => exec_spi i s he hl hh
      exact h ▸ .registers _ _ _

theorem exec_runs (i : Instr) : OnBB (exec i) ∨ OnSF (exec i) := by
  cases he : i.engine with
  | bitbang => exact .inl (exec_onBB he)
  | spi => exact .inr (exec_onSF he)

/-- A single frame is an operation of its engine without a length check (R98, R142, R143, R197). -/
theorem sendFrame_runs (e : Engine) (f : Frame) : OnBB (sendFrame e f) ∨ OnSF (sendFrame e f) := by
  cases e with
  | bitbang =>
    have h : sendFrame .bitbang f =
        bbRegisters false (fun _ => [⟨[f], false⟩]) (if isReadClass f.op then .u16 else .unit) :=
      funext fun s => by simp [sendFrame, bbRegisters]
    exact .inl (h ▸ .registers _ _ _)
  | spi =>
    have h : sendFrame .spi f =
        sfRegisters false (fun _ => [⟨[f], false⟩]) (if isReadClass f.op then .u16 else .unit) :=
      funext fun s => by simp [sendFrame, sfRegisters]
    exact .inr (h ▸ .registers _ _ _)

theorem sendUnlisted_runs (e : Engine) (fmt : Format) (f : Frame) :
    OnBB (sendUnlisted e fmt f) ∨ OnSF (sendUnlisted e fmt f) := by
  cases fmt with
  | hdr16 => exact .inr (.header f)
  | frame32 => exact sendFrame_runs e f
  | cmd8 => exact sendFrame_runs e f

/-- A step that answers a next state did nothing, or ran something on one of the engines. -/
theorem step_runs {s t : State} (h : step s = .next t) :
    t = s ∨ ∃ g rest, (OnBB g ∨ OnSF g) ∧ g (s.withRequests rest) = .next t := by
  rcases step_cases s t h with ⟨_, rfl⟩ | ⟨r, rest, i, _, _, _, h⟩ | ⟨r, rest, why, f, _, _, _, _, h⟩
  · exact .inl rfl
  · exact .inr ⟨exec i, rest, exec_runs i, h⟩
  · exact .inr ⟨_, rest, sendUnlisted_runs r.engine r.format f, h⟩

/-! ### How each of them ends -/

theorem BB.openClk_cases (b : BB) :
    b.openClk = .done { b.spent with clk := Line.openAs .output false .none } [] ∨
      ∃ f, b.openClk = .failed b.spent (.transportIO f) :=
  b.attempt_cases _

theorem BB.openData_cases (b : BB) :
    (∃ b', b.openData = .done b' [] ∧ b'.cfg = b.cfg ∧ b'.clk = b.clk ∧ b'.data = Line.openAs .output true .pullUp) ∨
      ∃ f, b.openData = .failed b.spent (.transportIO f) := by
  rcases b.attempt_cases _ with h | h
  · exact .inl ⟨_, h, rfl, rfl, rfl⟩
  · exact .inr h

theorem BB.closeData_cases (b : BB) :
    (∃ b', b.closeData = .done b' [] ∧ b'.cfg = b.cfg) ∨ ∃ f, b.closeData = .failed b.spent (.transportIO f) := by
  rcases b.attempt_cases _ with h | h
  · exact .inl ⟨_, h, rfl⟩
  · exact .inr h

theorem BB.closeClk_cases (b : BB) :
    (∃ b', b.closeClk = .done b' [] ∧ b'.cfg = b.cfg ∧ b'.isOpen = false) ∨
      ∃ f, b.closeClk = .failed b.spent (.transportIO f) := by
  rcases b.attempt_cases _ with h | h
  · exact .inl ⟨_, h, rfl, rfl⟩
  · exact .inr h

theorem SF.openPort_cases (f : SF) :
    (∃ f', f.openPort = .done f' [] ∧ f'.cfg = f.cfg ∧ f'.spi.claimed = true) ∨
      ∃ x, f.openPort = .failed f.spent (.transportIO x) := by
  rcases f.attempt_cases _ with h | h
  · exact .inl ⟨_, h, rfl, rfl⟩
  · exact .inr h

theorem SF.closePort_cases (f : SF) :
    (∃ f', f.closePort = .done f' [] ∧ f'.cfg = f.cfg ∧ f'.isOpen = false) ∨
      ∃ x, f.closePort = .failed f.spent (.transportIO x) := by
  rcases f.attempt_cases _ with h | h
  · exact .inl ⟨_, h, rfl, rfl⟩
  · exact .inr h

/-- `bb.open` (R137): refused on an open engine; both lines as it asks for them; or the engine stays closed. -/
theorem execBbOpen_cases (s : State) :
    (s.bb.isOpen = true ∧ execBbOpen s = .next (s.withBB (s.bb.raise .alreadyOpen))) ∨
    (∃ b : BB, execBbOpen s = .next (s.withBB (b.deliver (.ok .unit))) ∧ b.cfg = s.bb.cfg ∧
      b.clk = Line.openAs .output false .none ∧ b.data = Line.openAs .output true .pullUp) ∨
    (∃ (b : BB) (e : ErrorKind), execBbOpen s = .next (s.withBB (b.raise e)) ∧ b.cfg = s.bb.cfg ∧ b.isOpen = false) := by
  cases ho : s.bb.isOpen with
  | true => exact .inl ⟨rfl, by simp only [execBbOpen, ho, if_true]⟩
  | false =>
    refine .inr ?_
    simp only [execBbOpen, ho, Bool.false_eq_true, if_false]
    rcases s.bb.openClk_cases with h | ⟨f, h⟩ <;> rw [h]
    · simp only
      rcases BB.openData_cases { s.bb.spent with clk := Line.openAs .output false .none } with
        ⟨b, h', hcfg, hclk, hdata⟩ | ⟨f, h'⟩ <;> rw [h']
      · exact .inl ⟨b, rfl, hcfg, hclk, hdata⟩
      · exact .inr ⟨_, _, rfl, rfl, ho⟩
    · exact .inr ⟨_, _, rfl, rfl, ho⟩

/-- After `close` the engine is closed, however it went (R138). -/
theorem execBbClose_closes (s : State) :
    ∃ (b : BB) (r : Result), execBbClose s = .next (s.withBB (b.deliver r)) ∧ b.cfg = s.bb.cfg ∧ b.isOpen = false := by
  cases ho : s.bb.isOpen with
  | false => exact ⟨s.bb, .ok .unit, by simp only [execBbClose, ho, Bool.false_eq_true, if_false], rfl, ho⟩
  | true =>
    simp only [execBbClose, ho, if_true]
    rcases s.bb.closeData_cases with ⟨b, h, hcfg⟩ | ⟨f, h⟩ <;> rw [h]
    · simp only
      rcases b.closeClk_cases with ⟨b', h', hcfg', hclosed⟩ | ⟨f, h'⟩ <;> rw [h']
      · exact ⟨b', _, rfl, hcfg'.trans hcfg, hclosed⟩
      · exact ⟨b.spent.closeFailed, _, rfl, hcfg, rfl⟩
    · exact ⟨s.bb.spent.closeFailed, _, rfl, rfl, rfl⟩

/-- An open engine has its port claimed (R29). -/
def SF.PortClaimed (f : SF) : Prop := f.isOpen = true → f.spi.claimed = true

/-- The outcome is a delivery of the SPI-framed engine that keeps its configuration, and the claim of the port where there was
one. -/
def EndsOnSF (s : State) (o : Host.Outcome State Fault Refusal) : Prop :=
  ∃ (f : SF) (r : Result), o = .next (s.withSF (f.deliver r)) ∧ f.cfg = s.sf.cfg ∧ (s.sf.PortClaimed → f.PortClaimed)

theorem SF.portClaimed_of_closed {f : SF} (h : f.isOpen = false) : f.PortClaimed :=
  fun ho => absurd (h.symm.trans ho) Bool.false_ne_true

theorem execSfOpen_ends (s : State) : EndsOnSF s (execSfOpen s) := by
  unfold execSfOpen
  cases ho : s.sf.isOpen with
  | true => exact ⟨s.sf, .err .alreadyOpen, rfl, rfl, id⟩
  | false =>
    rcases s.sf.openPort_cases with ⟨f, h, hcfg, hclaimed⟩ | ⟨x, h⟩ <;> rw [h]
    · exact ⟨f, _, rfl, hcfg, fun _ _ => hclaimed⟩
    · exact ⟨s.sf.spent, _, rfl, rfl, id⟩

theorem execSfClose_ends (s : State) : EndsOnSF s (execSfClose s) := by
  unfold execSfClose
  cases ho : s.sf.isOpen with
  | false => exact ⟨s.sf, .ok .unit, rfl, rfl, id⟩
  | true =>
    rcases s.sf.closePort_cases with ⟨f, h, hcfg, hclosed⟩ | ⟨x, h⟩ <;> rw [h]
    · exact ⟨f, _, rfl, hcfg, fun _ => SF.portClaimed_of_closed hclosed⟩
    · exact ⟨s.sf.spent.closeFailed, _, rfl, rfl, fun _ => SF.portClaimed_of_closed rfl⟩

theorem SF.Kept.portClaimed {f f' : SF} (hk : f.Kept f') (h : f.PortClaimed) : f'.PortClaimed :=
  fun ho => hk.spi ▸ h (hk.isOpen ▸ ho)

/-- Register commands and headers of the SPI-framed engine leave the port as it is (R212). -/
theorem sfCommand_ends (ops : List SpiOp) (value : List U16 → Value) (s : State) : EndsOnSF s (sfCommand ops value s) := by
  rcases sfCommand_cases ops value s with ⟨_, e⟩ | ⟨_, f, got, _, hk, e⟩ | ⟨_, f, k, _, hk, e⟩
  · exact ⟨s.sf, _, e, rfl, id⟩
  · exact ⟨f, _, e, hk.cfg, hk.portClaimed⟩
  · exact ⟨f, _, e, hk.cfg, hk.portClaimed⟩

/-- Nothing the SPI-framed engine can do faults: it has no direction to be wrong about (R212). -/
theorem OnSF.ends {g : State → Host.Outcome State Fault Refusal} (hg : OnSF g) (s : State) : EndsOnSF s (g s) := by
  cases hg with
  | opening => exact execSfOpen_ends s
  | closing => exact execSfClose_ends s
  | registers differ ts shape =>
    unfold sfRegisters
    split
    · exact ⟨s.sf, .err .parameterInvalid, rfl, rfl, id⟩
    · exact sfCommand_ends _ _ s
  | header f => exact sfCommand_ends _ _ s

/-- The line operations of the operations `ts`. -/
def lineOps (sw : Switches) (ts : List Transaction) : List LineOp := ts.flatMap (bbTransaction sw)

theorem bbRegisters_cases (differ : Bool) (ts : Switches → List Transaction) (shape : Shape) (s : State) :
    (∃ e, bbRegisters differ ts shape s = .next (s.withBB (s.bb.raise e))) ∨
    (s.bb.isOpen = true ∧ ∃ b got v, s.bb.run (lineOps s.switches (ts s.switches)) = .done b got ∧ s.bb.Kept b ∧
      bbRegisters differ ts shape s = .next (s.withBB (b.deliver (.ok v)))) ∨
    (s.bb.isOpen = true ∧ ∃ b e, s.bb.run (lineOps s.switches (ts s.switches)) = .failed b e ∧ s.bb.Kept b ∧
      bbRegisters differ ts shape s = .next (s.withBB (b.raise e))) ∨
    (s.bb.isOpen = true ∧ ∃ f, s.bb.run (lineOps s.switches (ts s.switches)) = .fault f ∧
      bbRegisters differ ts shape s = .fault f) := by
  by_cases hd : s.bb.isOpen = true ∧ differ = true
  · exact .inl ⟨_, if_pos hd⟩
  · rw [bbRegisters, if_neg hd]
    rcases bbCommand_cases (lineOps s.switches (ts s.switches))
      (fun got => assemble shape (wordsOfSamples (wordsRead (ts s.switches)) got)) s with
      ⟨_, e⟩ | ⟨ho, b, got, hr, hk, e⟩ | ⟨ho, b, k, hr, hk, e⟩ | ⟨ho, f, hr, e⟩
    · exact .inl ⟨_, e⟩
    · exact .inr (.inl ⟨ho, b, got, _, hr, hk, e⟩)
    · exact .inr (.inr (.inl ⟨ho, b, k, hr, hk, e⟩))
    · exact .inr (.inr (.inr ⟨ho, f, hr, e⟩))

/-! ### The invariant of the states between commands (R29, R42) -/

theorem BB.Kept.inv {b b' : BB} (hk : b.Kept b') (h : b.Inv) (r : Result) : (b'.deliver r).Inv := by
  obtain ⟨hlines, _, hopen⟩ := h
  refine ⟨fun e => hlines (hk.cfg ▸ e), rfl, fun ho => ?_⟩
  obtain ⟨hcc, hcd, hcb, hdc, hdb⟩ := hopen (hk.isOpen ▸ ho)
  exact ⟨hk.clkClaimed.trans hcc, hk.clkDir.trans hcd, hk.clkBias.trans hcb, hk.dataClaimed.trans hdc,
    hk.dataBias.trans hdb⟩

/-- A closed engine meets the invariant if its lines are distinct. -/
theorem BB.inv_of_closed {b : BB} (hlines : b.cfg.dataLine ≠ b.cfg.clkLine) (hclosed : b.isOpen = false) (r : Result) :
    (b.deliver r).Inv :=
  ⟨hlines, rfl, fun ho => absurd (hclosed.symm.trans ho) Bool.false_ne_true⟩

theorem OnBB.keeps_inv {g : State → Host.Outcome State Fault Refusal} (hg : OnBB g) {s t : State} (hs : s.Inv)
    (h : g s = .next t) : t.Inv := by
  obtain ⟨hbb, hsf⟩ := hs
  have ⟨hlines, _⟩ := hbb
  cases hg with
  | opening =>
    rcases execBbOpen_cases s with ⟨_, e⟩ | ⟨b, e, hcfg, hclk, hdata⟩ | ⟨b, k, e, hcfg, hclosed⟩ <;> rw [e] at h <;> cases h
    · exact ⟨(BB.Kept.refl _).inv hbb _, hsf⟩
    · refine ⟨⟨hcfg ▸ hlines, rfl, fun _ => ?_⟩, hsf⟩
      simp [hclk, hdata, Line.openAs]
    · exact ⟨BB.inv_of_closed (hcfg ▸ hlines) hclosed _, hsf⟩
  | closing =>
    obtain ⟨b, r, e, hcfg, hclosed⟩ := execBbClose_closes s
    rw [e] at h
    cases h
    exact ⟨BB.inv_of_closed (hcfg ▸ hlines) hclosed r, hsf⟩
  | registers differ ts shape =>
    rcases bbRegisters_cases differ ts shape s with ⟨_, e⟩ | ⟨_, b, _, _, _, hk, e⟩ | ⟨_, b, _, _, hk, e⟩ | ⟨_, _, _, e⟩ <;>
      rw [e] at h <;> cases h
    · exact ⟨(BB.Kept.refl _).inv hbb _, hsf⟩
    · exact ⟨hk.inv hbb _, hsf⟩
    · exact ⟨hk.inv hbb _, hsf⟩

theorem OnSF.keeps_inv {g : State → Host.Outcome State Fault Refusal} (hg : OnSF g) {s t : State} (hs : s.Inv)
    (h : g s = .next t) : t.Inv := by
  obtain ⟨hbb, hspeed, hwire, _, hport⟩ := hs
  obtain ⟨f, r, e, hcfg, hclaimed⟩ := hg.ends s
  rw [e] at h
  cases h
  exact ⟨hbb, hcfg ▸ hspeed, hcfg ▸ hwire, rfl, hclaimed hport⟩

/-- Settles O14: a step keeps the invariant because each thing an engine can do keeps it. -/
theorem stepKeepsInv : Obligations.StepKeepsInv := by
  intro s t hs h
  rcases step_runs h with rfl | ⟨g, rest, hg | hg, h⟩
  · exact hs
  · exact hg.keeps_inv (s := s.withRequests rest) hs h
  · exact hg.keeps_inv (s := s.withRequests rest) hs h

/-! ### From rest to rest (R43) -/

/-- Both lines claimed, the clock an output at level `c`, the data line in direction `d`. -/
structure BB.Poised (d : Direction) (c : Level) (b : BB) : Prop where
  clkClaimed : b.clk.claimed = true
  clkDir : b.clk.dir = .output
  clkDrive : b.clk.drive = c
  dataClaimed : b.data.claimed = true
  dataDir : b.data.dir = d

/-- A run that ends in `Q`, or that the environment stops by failing a call: it never faults, and no line is found unclaimed. -/
def Ran.Reaches (Q : BB → Prop) : Ran BB Level → Prop
  | .done b _ => Q b
  | .failed _ e => ∃ f, e = .transportIO f
  | .fault _ => False

/-- From any state with `P` these operations reach `Q`. -/
def Leads (P : BB → Prop) (ops : List LineOp) (Q : BB → Prop) : Prop := ∀ b, P b → (b.run ops).Reaches Q

theorem Leads.nil {P : BB → Prop} : Leads P [] P := fun _ h => h

theorem Leads.append {P Q R : BB → Prop} {xs ys : List LineOp} (hx : Leads P xs Q) (hy : Leads Q ys R) :
    Leads P (xs ++ ys) R := by
  intro b hb
  have h := hx b hb
  simp only [BB.run] at h ⊢
  rw [runOps_append]
  cases hr : runOps BB.perform xs b with
  | done b' got =>
    rw [hr] at h
    have h' := hy b' h
    simp only [BB.run] at h' ⊢
    cases hr' : runOps BB.perform ys b' <;> rw [hr'] at h' <;> exact h'
  | failed b' e =>
    rw [hr] at h
    exact h
  | fault f =>
    rw [hr] at h
    exact h

theorem Leads.single {P Q : BB → Prop} {op : LineOp} (h : ∀ b, P b → (b.perform op).Reaches Q) : Leads P [op] Q := by
  intro b hb
  have hop := h b hb
  simp only [BB.run, runOps]
  cases hr : b.perform op <;> rw [hr] at hop <;> exact hop

theorem Leads.cons {P Q R : BB → Prop} {op : LineOp} {ops : List LineOp} (h : Leads P [op] Q) (hs : Leads Q ops R) :
    Leads P (op :: ops) R :=
  Leads.append (xs := [op]) h hs

theorem Leads.flatMap {α : Type} {P : BB → Prop} {f : α → List LineOp} (h : ∀ a, Leads P (f a) P) (as : List α) :
    Leads P (as.flatMap f) P := by
  induction as with
  | nil => exact .nil
  | cons a as ih => exact (h a).append ih

theorem BB.attempt_reaches {Q : BB → Prop} {b : BB} {call : BB → Ran BB Level} (h : (call b.spent).Reaches Q) :
    (b.attempt call).Reaches Q := by
  rcases b.attempt_cases call with e | ⟨f, e⟩ <;> rw [e]
  · exact h
  · exact ⟨f, rfl⟩

section
variable {d : Direction} {c : Level}

theorem leads_element : Leads (BB.Poised d c) [.element] (BB.Poised d c) :=
  .single fun _ h => ⟨h.clkClaimed, h.clkDir, h.clkDrive, h.dataClaimed, h.dataDir⟩

theorem leads_frame : Leads (BB.Poised d c) [.frame] (BB.Poised d c) :=
  .single fun _ h => ⟨h.clkClaimed, h.clkDir, h.clkDrive, h.dataClaimed, h.dataDir⟩

theorem leads_wait (w : Delay) : Leads (BB.Poised d c) [.wait w] (BB.Poised d c) := .single fun _ h => h

theorem leads_clk (l : Level) : Leads (BB.Poised d c) [.clk l] (BB.Poised d l) :=
  .single fun b h => by
    rw [BB.perform, BB.write_output h.clkClaimed h.clkDir]
    exact BB.attempt_reaches ⟨h.clkClaimed, h.clkDir, rfl, h.dataClaimed, h.dataDir⟩

theorem leads_data (l : Level) : Leads (BB.Poised .output c) [.data l] (BB.Poised .output c) :=
  .single fun b h => by
    rw [BB.perform, BB.write_output h.dataClaimed h.dataDir]
    exact BB.attempt_reaches ⟨h.clkClaimed, h.clkDir, h.clkDrive, h.dataClaimed, h.dataDir⟩

theorem leads_sample (keep : Bool) : Leads (BB.Poised .input c) [.sample keep] (BB.Poised .input c) :=
  .single fun b h => by
    rw [BB.perform, BB.read_input h.dataClaimed h.dataDir]
    exact BB.attempt_reaches ⟨h.clkClaimed, h.clkDir, h.clkDrive, h.dataClaimed, h.dataDir⟩

theorem leads_dirIn : Leads (BB.Poised d c) [.dirIn] (BB.Poised .input c) :=
  .single fun b h => by
    rw [BB.perform, BB.turn_claimed h.dataClaimed]
    exact BB.attempt_reaches ⟨h.clkClaimed, h.clkDir, h.clkDrive, h.dataClaimed, rfl⟩

theorem leads_dirOut (l : Level) : Leads (BB.Poised d c) [.dirOut l] (BB.Poised .output c) :=
  .single fun b h => by
    rw [BB.perform, BB.turn_claimed h.dataClaimed]
    exact BB.attempt_reaches ⟨h.clkClaimed, h.clkDir, h.clkDrive, h.dataClaimed, rfl⟩

theorem leads_clockPulse : Leads (BB.Poised d c) Prim.clockPulse (BB.Poised d false) :=
  (leads_clk true).cons ((leads_wait .clock).cons ((leads_clk false).cons (leads_wait .clock)))

end

/-- The lines at rest: the clock low, both lines in output direction (R43). -/
abbrev BB.Resting : BB → Prop := BB.Poised .output false

theorem leads_writeBit (l : Level) : Leads BB.Resting (Prim.writeBit l) BB.Resting :=
  (leads_data l).cons ((leads_wait .setup).cons leads_clockPulse)

theorem leads_readBit (keep : Bool) : Leads (BB.Poised .input false) (Prim.readBit keep) (BB.Poised .input false) :=
  (leads_sample keep).cons leads_clockPulse

theorem leads_flush : Leads BB.Resting Prim.flush BB.Resting := .flatMap leads_writeBit _

theorem leads_sendHeader14 (f : Frame) : Leads BB.Resting (Prim.sendHeader14 f) BB.Resting :=
  (((Leads.flatMap leads_writeBit _).append (.flatMap leads_writeBit _)).append (.flatMap leads_writeBit _)).append
    (.flatMap leads_writeBit _)

theorem leads_writeTail (f : Frame) : Leads BB.Resting (Prim.writeTail f) BB.Resting :=
  (Leads.flatMap leads_writeBit _).append (.flatMap leads_writeBit _)

/-- The read transition takes the data line back (R141). -/
theorem leads_readTransition : Leads BB.Resting Prim.readTransition BB.Resting :=
  leads_dirIn.cons ((leads_wait .readSettle).cons
    (((Leads.flatMap (fun _ => leads_readBit false) _).append (.flatMap (fun _ => leads_readBit true) _)).append
      (leads_dirOut true)))

theorem leads_frameSlots (f : Frame) : Leads BB.Resting (Prim.frameSlots f) BB.Resting := by
  refine (leads_sendHeader14 f).append ?_
  cases isReadClass f.op
  · exact leads_writeTail f
  · exact leads_readTransition

theorem leads_bbFrame (f : Frame) : Leads BB.Resting (Prim.bbFrame f) BB.Resting :=
  leads_frame.cons (leads_flush.append (leads_frameSlots f))

theorem leads_bbNextFrame (sw : Switches) (f : Frame) : Leads BB.Resting (Prim.bbNextFrame sw f) BB.Resting := by
  unfold Prim.bbNextFrame
  split
  · exact leads_bbFrame f
  · exact leads_frame.cons (leads_frameSlots f)

theorem leads_bbFrames (sw : Switches) (fs : List Frame) : Leads BB.Resting (bbFrames sw fs) BB.Resting := by
  cases fs with
  | nil => exact .nil
  | cons f fs => exact (leads_bbFrame f).append (.flatMap (leads_bbNextFrame sw) fs)

theorem leads_bbTransaction (sw : Switches) (t : Transaction) : Leads BB.Resting (bbTransaction sw t) BB.Resting := by
  refine leads_element.cons ((leads_bbFrames sw t.frames).append ?_)
  split
  · exact leads_flush
  · exact .nil

/-- Whatever operations a command is made of, they lead from rest to rest. -/
theorem leads_lineOps (sw : Switches) (ts : List Transaction) : Leads BB.Resting (lineOps sw ts) BB.Resting :=
  .flatMap (leads_bbTransaction sw) ts

theorem BB.AtRest.resting {b : BB} (h : b.AtRest) (ho : b.isOpen = true) : b.Resting := by
  obtain ⟨hcc, hcd, hlow, hdc, hdd, _⟩ := h ho
  exact ⟨hcc, hcd, hlow, hdc, hdd⟩

/-- A command that ends with the lines at rest leaves the engine at rest: the bias is not touched. -/
theorem BB.Kept.atRest {b b' : BB} (hk : b.Kept b') (h : b.AtRest) (hb : b'.Resting) (r : Result) :
    (b'.deliver r).AtRest := by
  intro ho
  obtain ⟨_, _, _, _, _, hbias⟩ := h (hk.isOpen ▸ ho)
  exact ⟨hb.clkClaimed, hb.clkDir, hb.clkDrive, hb.dataClaimed, hb.dataDir, hk.dataBias.trans hbias⟩

theorem BB.atRest_of_closed {b : BB} (h : b.isOpen = false) (r : Result) : (b.deliver r).AtRest :=
  fun ho => absurd (h.symm.trans ho) Bool.false_ne_true

theorem OnBB.keeps_atRest {g : State → Host.Outcome State Fault Refusal} (hg : OnBB g) {s t : State} (hs : s.bb.AtRest)
    (h : g s = .next t) (hr : ∀ r ∈ t.bb.results.drop s.bb.results.length, r.isTransport = false) : t.bb.AtRest := by
  cases hg with
  | opening =>
    rcases execBbOpen_cases s with ⟨_, e⟩ | ⟨b, e, _, hclk, hdata⟩ | ⟨b, k, e, _, hclosed⟩ <;> rw [e] at h <;> cases h
    · exact hs
    · exact fun _ => by simp [hclk, hdata, Line.openAs]
    · exact BB.atRest_of_closed hclosed _
  | closing =>
    obtain ⟨b, r, e, _, hclosed⟩ := execBbClose_closes s
    rw [e] at h
    cases h
    exact BB.atRest_of_closed hclosed r
  | registers differ ts shape =>
    rcases bbRegisters_cases differ ts shape s with ⟨_, e⟩ | ⟨ho, b, _, _, hrun, hk, e⟩ | ⟨ho, b, _, hrun, hk, e⟩ |
      ⟨_, _, _, e⟩ <;> rw [e] at h <;> cases h
    · exact hs
    · have hlead := leads_lineOps s.switches (ts s.switches) s.bb (hs.resting ho)
      rw [hrun] at hlead
      exact hk.atRest hs hlead _
    · have hlead := leads_lineOps s.switches (ts s.switches) s.bb (hs.resting ho)
      rw [hrun] at hlead
      obtain ⟨f, rfl⟩ := hlead
      have hno := hr (.err (.transportIO f)) (by simp [hk.results])
      exact absurd hno (by simp [Result.isTransport])

/-- Settles O15: a command leads the lines from rest to rest unless the environment fails a call, and then `TransportIO` is
delivered. -/
theorem restInvariantKept : Obligations.RestInvariantKept := by
  intro s t _ hs h hr
  rcases step_runs h with rfl | ⟨g, rest, hg | hg, h⟩
  · exact hs
  · exact hg.keeps_atRest (s := s.withRequests rest) hs h hr
  · obtain ⟨f, r, e, _⟩ := hg.ends (s.withRequests rest)
    rw [e] at h
    cases h
    exact hs

/-! ### No fault at rest (R236) -/

theorem execBbOpen_completes (s : State) : ∃ t, execBbOpen s = .next t := by
  rcases execBbOpen_cases s with ⟨_, e⟩ | ⟨_, e, _⟩ | ⟨_, _, e, _⟩ <;> exact ⟨_, e⟩

theorem execBbClose_completes (s : State) : ∃ t, execBbClose s = .next t := by
  obtain ⟨b, r, e, _⟩ := execBbClose_closes s
  exact ⟨_, e⟩

theorem OnBB.completes {g : State → Host.Outcome State Fault Refusal} (hg : OnBB g) {s : State} (hs : s.bb.AtRest) :
    ∃ t, g s = .next t := by
  cases hg with
  | opening => exact execBbOpen_completes s
  | closing => exact execBbClose_completes s
  | registers differ ts shape =>
    rcases bbRegisters_cases differ ts shape s with ⟨_, e⟩ | ⟨_, b, _, _, _, _, e⟩ | ⟨_, b, _, _, _, e⟩ |
      ⟨ho, f, hrun, _⟩
    · exact ⟨_, e⟩
    · exact ⟨_, e⟩
    · exact ⟨_, e⟩
    · have hlead := leads_lineOps s.switches (ts s.switches) s.bb (hs.resting ho)
      rw [hrun] at hlead
      exact hlead.elim

/-- Settles O16: from rest no operation meets a line against its direction, and the SPI-framed engine has none. -/
theorem everyInstructionCompletesAtRest : Obligations.EveryInstructionCompletesAtRest := by
  intro i s _ hs
  rcases exec_runs i with hg | hg
  · exact hg.completes hs
  · obtain ⟨f, r, e, _⟩ := hg.ends s
    exact ⟨_, e⟩

/-! ### The data line left in input direction (R276) -/

/-- Every operation with a frame begins by driving the data line: its first bit is the preamble's (R88). -/
theorem bbTransaction_begins (sw : Switches) {t : Transaction} {f : Frame} {fs : List Frame} (h : t.frames = f :: fs) :
    ∃ ops, bbTransaction sw t = .element :: .frame :: .data true :: ops := by
  rw [bbTransaction, h]
  exact ⟨_, rfl⟩

theorem BB.run_stale {b : BB} (hc : b.data.claimed = true) (hd : b.data.dir = .input) (ops : List LineOp) :
    b.run (.element :: .frame :: .data true :: ops) = .fault .staleDirection := by
  simp only [BB.run, runOps, BB.perform, BB.write_input hc hd]

theorem dwordFrames_cons (q : DwordSequence) (aLo aHi dLo dHi : Frame) :
    ∃ fs, dwordFrames q aLo aHi dLo dHi = aLo :: fs := by
  cases q <;> exact ⟨_, rfl⟩

theorem listsDiffer_eq_false {i : Instr} (h : (encode i).format = .cmd8 → i.wf = true) : i.listsDiffer = false := by
  cases i with
  | bbWriteC22Registers | bbWriteC45Registers | bbWriteC45DwordRegisters | sfWriteC22Registers | sfWriteC45Registers =>
    simpa [Instr.wf, parallelLists, Instr.listsDiffer] using h rfl
  | _ => rfl

/-- The operations of a batch over a non-empty list: the first is that of the first element. -/
theorem map_first {op : Nat → Transaction} (hop : ∀ r, ∃ f fs, (op r).frames = f :: fs) {rs : List Nat}
    (hne : rs.isEmpty = false) : ∃ t ts f fs, rs.map op = t :: ts ∧ t.frames = f :: fs := by
  cases rs with
  | nil => cases hne
  | cons r rs =>
    obtain ⟨f, fs, h⟩ := hop r
    exact ⟨op r, rs.map op, f, fs, rfl, h⟩

theorem zipWith_first {op : Nat → Nat → Transaction} (hop : ∀ r v, ∃ f fs, (op r v).frames = f :: fs)
    {rs vs : List Nat} (hne : rs.isEmpty = false) (hlen : (rs.length != vs.length) = false) :
    ∃ t ts f fs, List.zipWith op rs vs = t :: ts ∧ t.frames = f :: fs := by
  cases rs with
  | nil => cases hne
  | cons r rs =>
    cases vs with
    | nil => cases hlen
    | cons v vs =>
      obtain ⟨f, fs, h⟩ := hop r v
      exact ⟨op r v, List.zipWith op rs vs, f, fs, rfl, h⟩

/-- Every instruction of the bit-bang engine but `open`, `close` and an empty batch has a first frame. -/
theorem operations_first {i : Instr} (sw : Switches) (he : i.engine = .bitbang) (hl : i.isLifecycle = false)
    (hd : i.listsDiffer = false) (hne : i.isEmptyBatch = false) :
    ∃ t ts f fs, i.operations sw = t :: ts ∧ t.frames = f :: fs := by
  have hread : ∀ p e r, ∃ f fs, (readC45Dword sw p e r).frames = f :: fs := fun _ _ _ => ⟨_, dwordFrames_cons _ _ _ _ _⟩
  have hwrite : ∀ p e r v, ∃ f fs, (writeC45Dword sw p e r v).frames = f :: fs :=
    fun _ _ _ _ => ⟨_, dwordFrames_cons _ _ _ _ _⟩
  cases i with
  | c22Write | c22Read | c45Address | c45Write | c45ReadInc | c45Read => exact ⟨_, [], _, [], rfl, rfl⟩
  | bbReadC22 | bbWriteC22 | bbReadC45 | bbWriteC45 => exact ⟨_, [], _, _, rfl, rfl⟩
  | bbReadC45Dword p e r =>
    obtain ⟨f, fs, h⟩ := hread p e r
    exact ⟨_, [], f, fs, rfl, h⟩
  | bbWriteC45Dword p e r v =>
    obtain ⟨f, fs, h⟩ := hwrite p e r v
    exact ⟨_, [], f, fs, rfl, h⟩
  | bbReadC22Registers | bbReadC45Registers => exact map_first (fun _ => ⟨_, _, rfl⟩) hne
  | bbReadC45DwordRegisters p e rs => exact map_first (hread p e) hne
  | bbWriteC22Registers | bbWriteC45Registers => exact zipWith_first (fun _ _ => ⟨_, _, rfl⟩) hne hd
  | bbWriteC45DwordRegisters p e rs vs => exact zipWith_first (hwrite p e) hne hd
  | bbOpen | bbClose => cases hl
  | _ => cases he

/-- Settles O28: the first bit of the first preamble is a drive against the line's direction; `open` and `close` drive nothing. -/
theorem staleDirectionFaults : Obligations.StaleDirectionFaults := by
  intro i s ho hc hdir he hwf hne
  refine ⟨fun hl => ?_, fun hl => ?_⟩
  · have hd := listsDiffer_eq_false hwf
    obtain ⟨t, ts, f, fs, hops, hframes⟩ := operations_first s.switches he hl hd hne
    obtain ⟨ops, hbegins⟩ := bbTransaction_begins s.switches hframes
    have hrun : s.bb.run (lineOps s.switches (i.operations s.switches)) = .fault .staleDirection := by
      rw [hops, lineOps, List.flatMap_cons, hbegins]
      exact BB.run_stale hc hdir _
    rw [exec_bitbang i s he hl, hd, bbTransact, bbCommand]
    rw [lineOps] at hrun
    simp [ho, hrun]
  · rcases lifecycle_cases hl with rfl | rfl | rfl | rfl
    · exact execBbOpen_completes s
    · exact execBbClose_completes s
    · cases he
    · cases he

/-! ### The lines follow the trace (R33, R35 to R37) -/

/-- From `b` to `b'` some events happened, and the lines are as those say. -/
def BB.Traced (b b' : BB) : Prop := ∃ es, b'.trace = b.trace ++ es ∧ b'.lines = linesAfter b.lines es

theorem BB.Traced.refl (b : BB) : b.Traced b := ⟨[], (List.append_nil _).symm, rfl⟩

theorem BB.Traced.trans {a b c : BB} (h : a.Traced b) (h' : b.Traced c) : a.Traced c := by
  obtain ⟨es, ht, hl⟩ := h
  obtain ⟨es', ht', hl'⟩ := h'
  exact ⟨es ++ es', by rw [ht', ht, List.append_assoc],
    by rw [hl', hl, linesAfter, linesAfter, linesAfter, List.foldl_append]⟩

theorem BB.perform_traced (op : LineOp) (b b' : BB) (h : (b.perform op).EndsIn b') : b.Traced b' := by
  rcases b.perform_cases op with ⟨_, e⟩ | ⟨_, e⟩ | ⟨_, _, e⟩ | ⟨l, _, _, _, e⟩ | ⟨l, _, _, _, e⟩ | ⟨_, _, _, _, e⟩ |
    ⟨_, _, e⟩ | ⟨l, _, _, e⟩ | e | ⟨_, e⟩ | e <;> rw [e] at h <;> cases h
  · exact .refl b
  · exact .refl b
  · exact .refl b
  · exact ⟨[.cout l], rfl, rfl⟩
  · exact ⟨[.dout l], rfl, rfl⟩
  · exact ⟨[.dsample _], rfl, rfl⟩
  · exact ⟨[.ddirIn], rfl, rfl⟩
  · exact ⟨[.ddirOut l], rfl, rfl⟩
  · exact .refl b
  · exact .refl b

theorem BB.run_traced {ops : List LineOp} {b b' : BB} (h : (b.run ops).EndsIn b') : b.Traced b' :=
  runOps_relates BB.Traced BB.Traced.refl (fun _ _ _ => BB.Traced.trans) BB.perform_traced ops b b' h

/-- What an instruction other than `open` and `close` does to the lines. -/
structure BB.Follows (b b' : BB) : Prop where
  traced : b.Traced b'
  clkDir : b'.clk.dir = b.clk.dir
  clkClaimed : b'.clk.claimed = b.clk.claimed
  dataClaimed : b'.data.claimed = b.data.claimed
  clkBias : b'.clk.bias = b.clk.bias
  dataBias : b'.data.bias = b.data.bias

theorem BB.Follows.refl (b : BB) : b.Follows b := ⟨.refl b, rfl, rfl, rfl, rfl, rfl⟩

/-- The delivery touches neither the lines nor the trace. -/
theorem BB.Kept.follows {b b' : BB} (hk : b.Kept b') (ht : b.Traced b') (r : Result) : b.Follows (b'.deliver r) :=
  ⟨ht, hk.clkDir, hk.clkClaimed, hk.dataClaimed, hk.clkBias, hk.dataBias⟩

theorem exec_follows {i : Instr} {s t : State} (hl : i.isLifecycle = false) (h : exec i s = .next t) : s.bb.Follows t.bb := by
  cases he : i.engine with
  | bitbang =>
    rw [exec_eq_bbRegisters he hl] at h
    rcases bbRegisters_cases i.listsDiffer (fun sw => i.operations sw) i.shape s with
      ⟨_, e⟩ | ⟨_, b, got, _, hrun, hk, e⟩ | ⟨_, b, k, hrun, hk, e⟩ | ⟨_, _, _, e⟩ <;> rw [e] at h <;> cases h
    · exact (BB.Kept.refl s.bb).follows (.refl _) _
    · exact hk.follows (BB.run_traced (hrun ▸ Ran.EndsIn.done b got)) _
    · exact hk.follows (BB.run_traced (hrun ▸ Ran.EndsIn.failed b k)) _
  | spi =>
    obtain ⟨f, r, e, _⟩ := (exec_onSF he).ends s
    rw [e] at h
    cases h
    exact .refl s.bb

/-- Settles O52: each operation moves the lines as its event says, and so does a run of them. -/
theorem linesFollowTheTrace : Obligations.LinesFollowTheTrace := by
  intro i s t es hl h htrace
  obtain ⟨⟨es', htrace', hlines⟩, hcd, hcc, hdc, hcb, hdb⟩ := exec_follows hl h
  obtain rfl : es' = es := List.append_cancel_left (htrace'.symm.trans htrace)
  exact ⟨hlines, hcd, hcc, hdc, hcb, hdb⟩

end Sys2Proof.Machine
end

section
/-! State (spec/10_state.md): what a step does not depend on, the other engine (R30) and the supplied bits (R23, R174). A
command is a run and what is made of its end (`Ran.outcome`), so both facts are about runs. -/

namespace Sys2Proof.Machine

/-! ### A command as a run and its end -/

/-- The outcome of a run, from what is made of its success and of its error. -/
def Ran.outcome {σ β : Type} (ok : σ → List β → Host.Outcome State Fault Refusal)
    (err : σ → ErrorKind → Host.Outcome State Fault Refusal) : Ran σ β → Host.Outcome State Fault Refusal
  | .done s got => ok s got
  | .failed s e => err s e
  | .fault f => .fault f

theorem bbCommand_eq (ops : List LineOp) (value : List Level → Value) (s : State) :
    bbCommand ops value s =
      if s.bb.isOpen then
        (s.bb.run ops).outcome (fun b got => .next (s.withBB (b.deliver (.ok (value got)))))
          (fun b e => .next (s.withBB (b.raise e)))
      else .next (s.withBB (s.bb.raise .notOpen)) := by
  unfold bbCommand
  cases s.bb.run ops <;> rfl

theorem sfCommand_eq (ops : List SpiOp) (value : List U16 → Value) (s : State) :
    sfCommand ops value s =
      if s.sf.isOpen then
        (s.sf.run ops).outcome (fun f got => .next (s.withSF (f.deliver (.ok (value got)))))
          (fun f e => .next (s.withSF (f.raise e)))
      else .next (s.withSF (s.sf.raise .notOpen)) := by
  unfold sfCommand
  cases s.sf.run ops <;> rfl

theorem execBbOpen_eq (s : State) :
    execBbOpen s =
      if s.bb.isOpen then .next (s.withBB (s.bb.raise .alreadyOpen))
      else
        s.bb.openClk.outcome
          (fun b _ => b.openData.outcome (fun b' _ => .next (s.withBB (b'.deliver (.ok .unit))))
            (fun b' e => .next (s.withBB (b'.giveBackClk.unclaimed.raise e))))
          (fun b e => .next (s.withBB (b.unclaimed.raise e))) := by
  unfold execBbOpen
  cases s.bb.openClk with
  | done b got =>
    simp only [Ran.outcome]
    cases b.openData <;> rfl
  | failed b e => rfl
  | fault f => rfl

theorem execBbClose_eq (s : State) :
    execBbClose s =
      if s.bb.isOpen then
        s.bb.closeData.outcome
          (fun b _ => b.closeClk.outcome (fun b' _ => .next (s.withBB (b'.deliver (.ok .unit))))
            (fun b' e => .next (s.withBB (b'.closeFailed.raise e))))
          (fun b e => .next (s.withBB (b.closeFailed.raise e)))
      else .next (s.withBB (s.bb.deliver (.ok .unit))) := by
  unfold execBbClose
  cases s.bb.closeData with
  | done b got =>
    simp only [Ran.outcome]
    cases b.closeClk <;> rfl
  | failed b e => rfl
  | fault f => rfl

theorem execSfOpen_eq (s : State) :
    execSfOpen s =
      if s.sf.isOpen then .next (s.withSF (s.sf.raise .alreadyOpen))
      else
        s.sf.openPort.outcome (fun f _ => .next (s.withSF (f.deliver (.ok .unit))))
          (fun f e => .next (s.withSF (f.raise e))) := by
  unfold execSfOpen
  cases s.sf.openPort <;> rfl

theorem execSfClose_eq (s : State) :
    execSfClose s =
      if s.sf.isOpen then
        s.sf.closePort.outcome (fun f _ => .next (s.withSF (f.deliver (.ok .unit))))
          (fun f e => .next (s.withSF (f.closeFailed.raise e)))
      else .next (s.withSF (s.sf.deliver (.ok .unit))) := by
  unfold execSfClose
  cases s.sf.closePort <;> rfl

/-! ### The engines share nothing (R30) -/

/-- The outcome with another next state. -/
def mapNext (φ : State → State) : Host.Outcome State Fault Refusal → Host.Outcome State Fault Refusal
  | .next t => .next (φ t)
  | .fault f => .fault f
  | .refused r => .refused r

@[simp] theorem mapNext_next (φ : State → State) (t : State) : mapNext φ (.next t) = .next (φ t) := rfl

theorem mapNext_ite (φ : State → State) (p : Prop) [Decidable p] (o o' : Host.Outcome State Fault Refusal) :
    mapNext φ (if p then o else o') = if p then mapNext φ o else mapNext φ o' := apply_ite _ _ _ _

theorem mapNext_outcome {σ β : Type} (φ : State → State) (ok : σ → List β → Host.Outcome State Fault Refusal)
    (err : σ → ErrorKind → Host.Outcome State Fault Refusal) (r : Ran σ β) :
    mapNext φ (r.outcome ok err) = r.outcome (fun s got => mapNext φ (ok s got)) (fun s e => mapNext φ (err s e)) := by
  cases r <;> rfl

/-- The two engines are fields of their own. -/
theorem State.withSF_withBB (s : State) (x : SF) (b : BB) : (s.withSF x).withBB b = (s.withBB b).withSF x := rfl

theorem bbCommand_withSF (ops : List LineOp) (value : List Level → Value) (s : State) (x : SF) :
    bbCommand ops value (s.withSF x) = mapNext (fun t => t.withSF x) (bbCommand ops value s) := by
  simp only [bbCommand_eq, mapNext_ite, mapNext_outcome, mapNext_next, State.withSF_bb, State.withSF_withBB]
  rfl

theorem sfCommand_withBB (ops : List SpiOp) (value : List U16 → Value) (s : State) (y : BB) :
    sfCommand ops value (s.withBB y) = mapNext (fun t => t.withBB y) (sfCommand ops value s) := by
  simp only [sfCommand_eq, mapNext_ite, mapNext_outcome, mapNext_next, State.withBB_sf, ← State.withSF_withBB]
  rfl

theorem OnBB.withSF {g : State → Host.Outcome State Fault Refusal} (hg : OnBB g) (s : State) (x : SF) :
    g (s.withSF x) = mapNext (fun t => t.withSF x) (g s) := by
  cases hg with
  | opening =>
    simp only [execBbOpen_eq, mapNext_ite, mapNext_outcome, mapNext_next, State.withSF_bb, State.withSF_withBB]
    rfl
  | closing =>
    simp only [execBbClose_eq, mapNext_ite, mapNext_outcome, mapNext_next, State.withSF_bb, State.withSF_withBB]
    rfl
  | registers differ ts shape =>
    simp only [bbRegisters, bbTransact, bbCommand_withSF, mapNext_ite, mapNext_next, State.withSF_bb, State.withSF_switches,
      State.withSF_withBB]

theorem OnSF.withBB {g : State → Host.Outcome State Fault Refusal} (hg : OnSF g) (s : State) (y : BB) :
    g (s.withBB y) = mapNext (fun t => t.withBB y) (g s) := by
  cases hg with
  | opening =>
    simp only [execSfOpen_eq, mapNext_ite, mapNext_outcome, mapNext_next, State.withBB_sf, ← State.withSF_withBB]
    rfl
  | closing =>
    simp only [execSfClose_eq, mapNext_ite, mapNext_outcome, mapNext_next, State.withBB_sf, ← State.withSF_withBB]
    rfl
  | registers differ ts shape =>
    simp only [sfRegisters, sfTransact, sfCommand_withBB, mapNext_ite, mapNext_next, State.withBB_sf, State.withBB_switches,
      ← State.withSF_withBB]
  | header f => exact sfCommand_withBB _ _ s y

/-- Settles O55: what an engine does is a function of that engine and the switches, and it ends in a delivery of that engine. -/
theorem enginesShareNothing : Obligations.EnginesShareNothing := by
  refine fun i s x y => ⟨fun he => ⟨fun t h => ?_, ?_⟩, fun he => ⟨fun t h => ?_, ?_⟩⟩
  · obtain ⟨b, r, rfl, _⟩ := exec_bitbang_delivers he h
    rfl
  · rw [(exec_onBB he).withSF s x]
    cases exec i s <;> rfl
  · obtain ⟨f, r, rfl, _⟩ := exec_spi_delivers he h
    rfl
  · rw [(exec_onSF he).withBB s y]
    cases exec i s <;> rfl

/-! ### Alike but for the supplied bits -/

/-- Two runs that go the same way: they end alike, with as many bits kept. `E` says which states are alike. -/
inductive Ran.Alike {σ β : Type} (E : σ → σ → Prop) : Ran σ β → Ran σ β → Prop
  | done {s s' : σ} {got got' : List β} (h : E s s') (hlen : got.length = got'.length) :
    Alike E (.done s got) (.done s' got')
  | failed {s s' : σ} (h : E s s') (e : ErrorKind) : Alike E (.failed s e) (.failed s' e)
  | fault (f : Fault) : Alike E (.fault f) (.fault f)

/-- Where every operation goes the same way from states alike, a sequence does. -/
theorem runOps_alike {σ ω β : Type} {perform : ω → σ → Ran σ β} {E : σ → σ → Prop}
    (hop : ∀ op s s', E s s' → (perform op s).Alike E (perform op s')) (ops : List ω) {s s' : σ} (h : E s s') :
    (runOps perform ops s).Alike E (runOps perform ops s') := by
  induction ops generalizing s s' with
  | nil => exact .done h rfl
  | cons op ops ih =>
    have h1 := hop op s s' h
    simp only [runOps]
    generalize perform op s = r at h1
    generalize perform op s' = r' at h1
    cases h1 with
    | fault f => exact .fault f
    | failed hs e => exact .failed hs e
    | @done s1 s1' got got' hs hlen =>
      have h2 := ih hs
      simp only
      generalize runOps perform ops s1 = q at h2
      generalize runOps perform ops s1' = q' at h2
      cases h2 with
      | fault f => exact .fault f
      | failed hs e => exact .failed hs e
      | done hs hlen' => exact .done hs (by rw [List.length_append, List.length_append, hlen, hlen'])

/-- Outcomes made in the same way of runs that go the same way. -/
theorem Ran.Alike.outcome {σ β : Type} {E : σ → σ → Prop} {r r' : Ran σ β} (h : r.Alike E r')
    {ok ok' : σ → List β → Host.Outcome State Fault Refusal}
    {err err' : σ → ErrorKind → Host.Outcome State Fault Refusal}
    (hok : ∀ s s' got got', E s s' → got.length = got'.length → blindOutcome (ok s got) = blindOutcome (ok' s' got'))
    (herr : ∀ s s' e, E s s' → blindOutcome (err s e) = blindOutcome (err' s' e)) :
    blindOutcome (r.outcome ok err) = blindOutcome (r'.outcome ok' err') := by
  cases h with
  | done hs hlen => exact hok _ _ _ _ hs hlen
  | failed hs e => exact herr _ _ e hs
  | fault f => rfl

/-- The bit-bang engines differ only in what the environment supplied and will supply. -/
def BB.Alike (b b' : BB) : Prop := b.blind = b'.blind

/-- The SPI-framed engines differ only in what the environment supplied and will supply. -/
def SF.Alike (f f' : SF) : Prop := f.blind = f'.blind

/-- Whatever is made of an engine without the supplied bits is the same for engines alike. -/
theorem BB.Alike.same {b b' : BB} (h : b.Alike b') {α : Type} (φ : BB → α) : φ b.blind = φ b'.blind := congrArg φ h

theorem SF.Alike.same {f f' : SF} (h : f.Alike f') {α : Type} (φ : SF → α) : φ f.blind = φ f'.blind := congrArg φ h

theorem BB.blind_clkWritten (b : BB) (l : Level) : (b.clkWritten l).blind = b.blind.clkWritten l := by
  simp [BB.blind, BB.clkWritten, BBEvent.blind]

theorem BB.blind_dataWritten (b : BB) (l : Level) : (b.dataWritten l).blind = b.blind.dataWritten l := by
  simp [BB.blind, BB.dataWritten, BBEvent.blind]

theorem BB.blind_turnedIn (b : BB) : b.turnedIn.blind = b.blind.turnedIn := by
  simp [BB.blind, BB.turnedIn, BBEvent.blind]

theorem BB.blind_turnedOut (b : BB) (l : Level) : (b.turnedOut l).blind = b.blind.turnedOut l := by
  simp [BB.blind, BB.turnedOut, BBEvent.blind]

theorem BB.blind_sampled (b : BB) :
    b.sampled.blind = { b.blind with trace := b.blind.trace ++ [.dsample false], free := b.blind.free + 1 } := by
  simp [BB.blind, BB.sampled, BB.afterDraw, BBEvent.blind]

theorem BB.blind_deliver (b : BB) (r : Result) : (b.deliver r).blind = b.blind.deliver r.blind := by
  simp [BB.blind, BB.deliver]

theorem SF.blind_transferred (f : SF) (n tx : Nat) (cs : Bool) :
    (f.transferred n tx cs).blind =
      { f.blind with trace := f.blind.trace ++ [.xfer n tx cs 0]
                     free := f.blind.free + 1
                     seq := f.blind.seq.pulses n } := by
  simp [SF.blind, SF.transferred, SF.afterDraw, SFEvent.blind]

theorem SF.blind_deliver (f : SF) (r : Result) : (f.deliver r).blind = f.blind.deliver r.blind := by
  simp [SF.blind, SF.deliver]

/-- Whether a call fails is not among the supplied bits. -/
theorem BB.attempt_alike {b b' : BB} (h : b.Alike b') {call call' : BB → Ran BB Level}
    (hcall : ∀ c c' : BB, c.Alike c' → (call c).Alike BB.Alike (call' c')) :
    (b.attempt call).Alike BB.Alike (b'.attempt call') := by
  have hf : b.env.failures = b'.env.failures := h.same fun b => b.env.failures
  have hspent : ∀ rest, (b.withFailures rest).Alike (b'.withFailures rest) := fun rest => h.same (BB.withFailures rest)
  cases hf' : b'.env.failures with
  | nil =>
    rw [BB.attempt_nil hf', BB.attempt_nil (hf.trans hf')]
    exact hcall b b' h
  | cons answer rest =>
    cases answer with
    | none =>
      rw [BB.attempt_none hf', BB.attempt_none (hf.trans hf')]
      exact hcall _ _ (hspent rest)
    | some f =>
      rw [BB.attempt_some hf', BB.attempt_some (hf.trans hf')]
      exact .failed (hspent rest) _

theorem SF.attempt_alike {f f' : SF} (h : f.Alike f') {call call' : SF → Ran SF U16}
    (hcall : ∀ c c' : SF, c.Alike c' → (call c).Alike SF.Alike (call' c')) :
    (f.attempt call).Alike SF.Alike (f'.attempt call') := by
  have hf : f.env.failures = f'.env.failures := h.same fun f => f.env.failures
  have hspent : ∀ rest, (f.withFailures rest).Alike (f'.withFailures rest) := fun rest => h.same (SF.withFailures rest)
  cases hf' : f'.env.failures with
  | nil =>
    rw [SF.attempt_nil hf', SF.attempt_nil (hf.trans hf')]
    exact hcall f f' h
  | cons answer rest =>
    cases answer with
    | none =>
      rw [SF.attempt_none hf', SF.attempt_none (hf.trans hf')]
      exact hcall _ _ (hspent rest)
    | some x =>
      rw [SF.attempt_some hf', SF.attempt_some (hf.trans hf')]
      exact .failed (hspent rest) _

/-- An effect that blinding commutes with keeps engines alike. -/
theorem BB.Alike.effect {b b' : BB} (h : b.Alike b') {effect : BB → BB}
    (he : ∀ c : BB, (effect c).blind = effect c.blind) :
    (effect b).Alike (effect b') := by
  rw [BB.Alike, he, he, h]

theorem SF.Alike.effect {f f' : SF} (h : f.Alike f') {effect : SF → SF}
    (he : ∀ c : SF, (effect c).blind = effect c.blind) :
    (effect f).Alike (effect f') := by
  rw [SF.Alike, he, he, h]

theorem BB.Alike.sampled {b b' : BB} (h : b.Alike b') : b.sampled.Alike b'.sampled := by
  rw [BB.Alike, BB.blind_sampled, BB.blind_sampled, h]

theorem SF.Alike.transferred {f f' : SF} (h : f.Alike f') (n tx : Nat) (cs : Bool) :
    (f.transferred n tx cs).Alike (f'.transferred n tx cs) := by
  rw [SF.Alike, SF.blind_transferred, SF.blind_transferred, h]

theorem BB.write_alike {b b' : BB} (h : b.Alike b') (line : Line) {effect : BB → BB}
    (he : ∀ c : BB, (effect c).blind = effect c.blind) :
    (b.write line effect).Alike BB.Alike (b'.write line effect) := by
  cases hc : line.claimed with
  | false =>
    rw [BB.write_unclaimed hc, BB.write_unclaimed hc]
    exact .failed h _
  | true =>
    cases hd : line.dir with
    | input =>
      rw [BB.write_input hc hd, BB.write_input hc hd]
      exact .fault _
    | output =>
      rw [BB.write_output hc hd, BB.write_output hc hd]
      exact BB.attempt_alike h fun c c' hcc => .done (hcc.effect he) rfl

theorem BB.read_alike {b b' : BB} (h : b.Alike b') (keep : Bool) : (b.read keep).Alike BB.Alike (b'.read keep) := by
  have hdata : b.data = b'.data := h.same BB.data
  cases hc : b'.data.claimed with
  | false =>
    rw [BB.read_unclaimed hc, BB.read_unclaimed (hdata ▸ hc)]
    exact .failed h _
  | true =>
    cases hd : b'.data.dir with
    | output =>
      rw [BB.read_output hc hd, BB.read_output (hdata ▸ hc) (hdata ▸ hd)]
      exact .fault _
    | input =>
      rw [BB.read_input hc hd, BB.read_input (hdata ▸ hc) (hdata ▸ hd)]
      exact BB.attempt_alike h fun c c' hcc => .done hcc.sampled (by cases keep <;> rfl)

theorem BB.turn_alike {b b' : BB} (h : b.Alike b') {effect : BB → BB}
    (he : ∀ c : BB, (effect c).blind = effect c.blind) :
    (b.turn effect).Alike BB.Alike (b'.turn effect) := by
  have hdata : b.data = b'.data := h.same BB.data
  cases hc : b'.data.claimed with
  | false =>
    rw [BB.turn_unclaimed hc, BB.turn_unclaimed (hdata ▸ hc)]
    exact .failed h _
  | true =>
    rw [BB.turn_claimed hc, BB.turn_claimed (hdata ▸ hc)]
    exact BB.attempt_alike h fun c c' hcc => .done (hcc.effect he) rfl

/-- No operation of the bit-bang engine looks at a sample (R23). -/
theorem BB.perform_alike (op : LineOp) (b b' : BB) (h : b.Alike b') : (b.perform op).Alike BB.Alike (b'.perform op) := by
  have hclk : b.clk = b'.clk := h.same BB.clk
  have hdata : b.data = b'.data := h.same BB.data
  cases op with
  | element => exact .done (h.effect (effect := fun c => { c with seq := c.seq.nextElement }) fun _ => rfl) rfl
  | frame => exact .done (h.effect (effect := fun c => { c with seq := c.seq.nextFrame }) fun _ => rfl) rfl
  | wait d => exact .done h rfl
  | clk l =>
    simp only [BB.perform, hclk]
    exact BB.write_alike h _ fun c => c.blind_clkWritten l
  | data l =>
    simp only [BB.perform, hdata]
    exact BB.write_alike h _ fun c => c.blind_dataWritten l
  | sample keep => exact BB.read_alike h keep
  | dirIn => exact BB.turn_alike h BB.blind_turnedIn
  | dirOut l => exact BB.turn_alike h fun c => c.blind_turnedOut l

/-- No operation of the SPI-framed engine looks at a received word. -/
theorem SF.perform_alike (op : SpiOp) (f f' : SF) (h : f.Alike f') : (f.perform op).Alike SF.Alike (f'.perform op) := by
  have hspi : f.spi = f'.spi := h.same SF.spi
  cases op with
  | element => exact .done (h.effect (effect := fun c => { c with seq := c.seq.nextElement }) fun _ => rfl) rfl
  | frame => exact .done (h.effect (effect := fun c => { c with seq := c.seq.nextFrame }) fun _ => rfl) rfl
  | xfer n tx cs keep =>
    simp only [SF.perform]
    cases hc : f'.spi.claimed with
    | false =>
      rw [SF.xfer_unclaimed hc, SF.xfer_unclaimed (hspi ▸ hc)]
      exact .failed h _
    | true =>
      by_cases hw : (n = 16 ∨ n = 32) ∧ tx < 2 ^ n
      · rw [SF.xfer_claimed hc hw, SF.xfer_claimed (hspi ▸ hc) hw]
        exact SF.attempt_alike h fun c c' hcc => .done (hcc.transferred n tx cs) (by cases keep <;> rfl)
      · rw [SF.xfer_malformed hc hw, SF.xfer_malformed (hspi ▸ hc) hw]
        exact .failed h _

/-! ### The value but for its bits -/

theorem joinPairs_length : ∀ ws : List U16, (joinPairs ws).length = ws.length / 2
  | [] => rfl
  | [_] => by simp [joinPairs]
  | _ :: _ :: rest => by
    rw [joinPairs, List.length_cons, joinPairs_length rest, List.length_cons, List.length_cons]
    omega

theorem map_const_eq {α : Type} (c : α) {xs ys : List α} (h : xs.length = ys.length) :
    xs.map (fun _ => c) = ys.map (fun _ => c) := by
  rw [List.map_const', List.map_const', h]

/-- The shape and the number of words decide a value but for its bits. -/
theorem blind_assemble (shape : Shape) {ws ws' : List U16} (h : ws.length = ws'.length) :
    (assemble shape ws).blind = (assemble shape ws').blind := by
  cases shape with
  | unit | u16 | u32 => rfl
  | u16s => exact congrArg Value.u16s (map_const_eq 0 h)
  | u32s => exact congrArg Value.u32s (map_const_eq 0 (by rw [joinPairs_length, joinPairs_length, h]))

/-! ### Commands -/

/-- The states differ only in what the environments supplied and will supply. -/
def State.Alike (s s' : State) : Prop := s.blind = s'.blind

theorem State.Alike.same {s s' : State} (h : s.Alike s') {α : Type} (φ : State → α) : φ s.blind = φ s'.blind :=
  congrArg φ h

theorem State.Alike.bb {s s' : State} (h : s.Alike s') : s.bb.Alike s'.bb := h.same State.bb

theorem State.Alike.sf {s s' : State} (h : s.Alike s') : s.sf.Alike s'.sf := h.same State.sf

theorem State.Alike.switches {s s' : State} (h : s.Alike s') : s.switches = s'.switches := h.same State.switches

theorem BB.Alike.isOpen {b b' : BB} (h : b.Alike b') : b.isOpen = b'.isOpen := h.same BB.isOpen

theorem SF.Alike.isOpen {f f' : SF} (h : f.Alike f') : f.isOpen = f'.isOpen := h.same SF.isOpen

/-- Deliveries of results alike, on engines alike, in states alike. -/
theorem State.Alike.deliverBB {s s' : State} (h : s.Alike s') {b b' : BB} (hb : b.Alike b') {r r' : Result}
    (hr : r.blind = r'.blind) :
    blindOutcome (.next (s.withBB (b.deliver r))) = blindOutcome (.next (s'.withBB (b'.deliver r'))) := by
  have hd : (b.deliver r).blind = (b'.deliver r').blind := by rw [BB.blind_deliver, BB.blind_deliver, hb, hr]
  have hw : ∀ (u : State) (c : BB), (u.withBB c).blind = u.blind.withBB c.blind := fun _ _ => rfl
  simp only [blindOutcome, hw, hd]
  rw [h]

theorem State.Alike.deliverSF {s s' : State} (h : s.Alike s') {f f' : SF} (hf : f.Alike f') {r r' : Result}
    (hr : r.blind = r'.blind) :
    blindOutcome (.next (s.withSF (f.deliver r))) = blindOutcome (.next (s'.withSF (f'.deliver r'))) := by
  have hd : (f.deliver r).blind = (f'.deliver r').blind := by rw [SF.blind_deliver, SF.blind_deliver, hf, hr]
  have hw : ∀ (u : State) (c : SF), (u.withSF c).blind = u.blind.withSF c.blind := fun _ _ => rfl
  simp only [blindOutcome, hw, hd]
  rw [h]

theorem bbCommand_alike {s s' : State} (h : s.Alike s') (ops : List LineOp) {value : List Level → Value}
    (hvalue : ∀ got got', got.length = got'.length → (value got).blind = (value got').blind) :
    blindOutcome (bbCommand ops value s) = blindOutcome (bbCommand ops value s') := by
  rw [bbCommand_eq, bbCommand_eq, h.bb.isOpen]
  split
  · exact (runOps_alike BB.perform_alike ops h.bb).outcome
      (fun _ _ _ _ hb hlen => h.deliverBB hb (congrArg Result.ok (hvalue _ _ hlen))) (fun _ _ _ hb => h.deliverBB hb rfl)
  · exact h.deliverBB h.bb rfl

theorem sfCommand_alike {s s' : State} (h : s.Alike s') (ops : List SpiOp) {value : List U16 → Value}
    (hvalue : ∀ got got', got.length = got'.length → (value got).blind = (value got').blind) :
    blindOutcome (sfCommand ops value s) = blindOutcome (sfCommand ops value s') := by
  rw [sfCommand_eq, sfCommand_eq, h.sf.isOpen]
  split
  · exact (runOps_alike SF.perform_alike ops h.sf).outcome
      (fun _ _ _ _ hf hlen => h.deliverSF hf (congrArg Result.ok (hvalue _ _ hlen))) (fun _ _ _ hf => h.deliverSF hf rfl)
  · exact h.deliverSF h.sf rfl

theorem BB.Alike.giveUpOpen {b b' : BB} (h : b.Alike b') : b.giveBackClk.unclaimed.Alike b'.giveBackClk.unclaimed :=
  h.effect (effect := fun c => c.giveBackClk.unclaimed) fun _ => rfl

theorem BB.Alike.unclaimed {b b' : BB} (h : b.Alike b') : b.unclaimed.Alike b'.unclaimed := h.effect fun _ => rfl

theorem BB.Alike.closeFailed {b b' : BB} (h : b.Alike b') : b.closeFailed.Alike b'.closeFailed := h.effect fun _ => rfl

theorem SF.Alike.closeFailed {f f' : SF} (h : f.Alike f') : f.closeFailed.Alike f'.closeFailed := h.effect fun _ => rfl

theorem execBbOpen_alike {s s' : State} (h : s.Alike s') : blindOutcome (execBbOpen s) = blindOutcome (execBbOpen s') := by
  rw [execBbOpen_eq, execBbOpen_eq, h.bb.isOpen]
  split
  · exact h.deliverBB h.bb rfl
  · have hclk : s.bb.openClk.Alike BB.Alike s'.bb.openClk := BB.attempt_alike h.bb fun _ _ hc =>
      .done (hc.effect (effect := fun c => { c with clk := Line.openAs .output false .none }) fun _ => rfl) rfl
    refine hclk.outcome (fun b b' _ _ hb _ => ?_) (fun _ _ _ hb => h.deliverBB hb.unclaimed rfl)
    have hdata : b.openData.Alike BB.Alike b'.openData := BB.attempt_alike hb fun _ _ hc =>
      .done (hc.effect (effect := fun c => { c with
        data := Line.openAs .output true .pullUp, isOpen := true, trace := c.trace ++ [.opened] })
        fun _ => by simp [BB.blind, BBEvent.blind]) rfl
    exact hdata.outcome (fun _ _ _ _ hc _ => h.deliverBB hc rfl)
      (fun _ _ _ hc => h.deliverBB hc.giveUpOpen rfl)

theorem execBbClose_alike {s s' : State} (h : s.Alike s') : blindOutcome (execBbClose s) = blindOutcome (execBbClose s') := by
  rw [execBbClose_eq, execBbClose_eq, h.bb.isOpen]
  split
  · have hdata : s.bb.closeData.Alike BB.Alike s'.bb.closeData := BB.attempt_alike h.bb fun _ _ hc =>
      .done (hc.effect (effect := fun c => { c with data := Line.released c.free, free := c.free + 1 }) fun _ => rfl) rfl
    refine hdata.outcome (fun b b' _ _ hb _ => ?_) (fun _ _ _ hb => h.deliverBB hb.closeFailed rfl)
    have hclk : b.closeClk.Alike BB.Alike b'.closeClk := BB.attempt_alike hb fun _ _ hc =>
      .done (hc.effect (effect := fun c => { c with
        clk := Line.released c.free, free := c.free + 1, isOpen := false, trace := c.trace ++ [.closed] })
        fun _ => by simp [BB.blind, BBEvent.blind]) rfl
    exact hclk.outcome (fun _ _ _ _ hc _ => h.deliverBB hc rfl) (fun _ _ _ hc => h.deliverBB hc.closeFailed rfl)
  · exact h.deliverBB h.bb rfl

theorem execSfOpen_alike {s s' : State} (h : s.Alike s') : blindOutcome (execSfOpen s) = blindOutcome (execSfOpen s') := by
  rw [execSfOpen_eq, execSfOpen_eq, h.sf.isOpen]
  split
  · exact h.deliverSF h.sf rfl
  · have hport : s.sf.openPort.Alike SF.Alike s'.sf.openPort := SF.attempt_alike h.sf fun _ _ hc =>
      .done (hc.effect (effect := fun c => { c with
        spi := { claimed := true }, isOpen := true, trace := c.trace ++ [.opened] })
        fun _ => by simp [SF.blind, SFEvent.blind]) rfl
    exact hport.outcome (fun _ _ _ _ hc _ => h.deliverSF hc rfl) (fun _ _ _ hc => h.deliverSF hc rfl)

theorem execSfClose_alike {s s' : State} (h : s.Alike s') : blindOutcome (execSfClose s) = blindOutcome (execSfClose s') := by
  rw [execSfClose_eq, execSfClose_eq, h.sf.isOpen]
  split
  · have hport : s.sf.closePort.Alike SF.Alike s'.sf.closePort := SF.attempt_alike h.sf fun _ _ hc =>
      .done (hc.effect (effect := fun c => { c with
        spi := { claimed := false }, isOpen := false, trace := c.trace ++ [.closed] })
        fun _ => by simp [SF.blind, SFEvent.blind]) rfl
    exact hport.outcome (fun _ _ _ _ hc _ => h.deliverSF hc rfl) (fun _ _ _ hc => h.deliverSF hc.closeFailed rfl)
  · exact h.deliverSF h.sf rfl

theorem OnBB.alike {g : State → Host.Outcome State Fault Refusal} (hg : OnBB g) {s s' : State} (h : s.Alike s') :
    blindOutcome (g s) = blindOutcome (g s') := by
  cases hg with
  | opening => exact execBbOpen_alike h
  | closing => exact execBbClose_alike h
  | registers differ ts shape =>
    unfold bbRegisters bbTransact
    rw [h.bb.isOpen, h.switches]
    split
    · exact h.deliverBB h.bb rfl
    · exact bbCommand_alike h _ fun got got' _ =>
        blind_assemble shape ((length_wordsOfSamples _ got).trans (length_wordsOfSamples _ got').symm)

theorem OnSF.alike {g : State → Host.Outcome State Fault Refusal} (hg : OnSF g) {s s' : State} (h : s.Alike s') :
    blindOutcome (g s) = blindOutcome (g s') := by
  cases hg with
  | opening => exact execSfOpen_alike h
  | closing => exact execSfClose_alike h
  | registers differ ts shape =>
    unfold sfRegisters sfTransact
    rw [h.sf.isOpen, h.switches]
    split
    · exact h.deliverSF h.sf rfl
    · exact sfCommand_alike h _ fun _ _ hlen => blind_assemble shape hlen
  | header f => exact sfCommand_alike h _ fun _ _ _ => rfl

/-- Settles O54: what the host asks for is no supplied bit, and neither is anything the engines look at. -/
theorem samplesNeverSteer : Obligations.SamplesNeverSteer := by
  intro s s' (h : s.Alike s')
  have hrequests : s.requests = s'.requests := h.same State.requests
  have hboard : s.board = s'.board := h.same State.board
  have hruns : ∀ {g} (rest : List Request), OnBB g ∨ OnSF g →
      blindOutcome (g (s.withRequests rest)) = blindOutcome (g (s'.withRequests rest)) := fun rest hg => by
    have hrest : (s.withRequests rest).Alike (s'.withRequests rest) := h.same (State.withRequests rest)
    exact hg.elim (fun hb => hb.alike hrest) (fun hf => hf.alike hrest)
  unfold step State.take
  rw [hrequests, hboard]
  cases s'.requests with
  | nil => exact congrArg Host.Outcome.next h
  | cons r rest =>
    simp only
    cases s'.board.contended r.engine with
    | true => rfl
    | false =>
      cases decodeRequest r with
      | ok i => exact hruns rest (exec_runs i)
      | error why =>
        cases requestedFrame r with
        | some f => exact hruns rest (sendUnlisted_runs r.engine r.format f)
        | none => rfl

end Sys2Proof.Machine
end

section
/-! Memory (spec/20_memory.md): how a step takes the host's next command and that no second master is on the bus (R62, R63), the
micro-operations that move the bits of a register, and what the registers of the named environments of R56 give back. -/

namespace Sys2Proof.Machine

open Codec Operands

/-! ### Taking the next command (R62, R63) -/

/-- The bus of an engine has a second master: the other engine, or any other (R63). -/
theorem Board.contended_iff (e : Engine) (b : Board) :
    b.contended e = true ↔ b.bbBus = b.sfBus ∨ b.busOf e ∈ b.otherMasters := by
  simp [Board.contended]

theorem State.take_nil {s : State} (hs : s.requests = []) : s.take = .nothing := by
  simp only [State.take, hs]

section
variable {s : State} {r : Request} {rest : List Request} (hs : s.requests = r :: rest)
include hs

theorem State.take_contended (hc : s.board.contended r.engine = true) : s.take = .contended := by
  simp only [State.take, hs, hc, if_true]

theorem State.take_command (hc : s.board.contended r.engine = false) {i : Instr} (hd : decodeRequest r = .ok i) :
    s.take = .command i (s.withRequests rest) := by
  simp only [State.take, hs, hc, hd, Bool.false_eq_true, if_false]

theorem State.take_rejected (hc : s.board.contended r.engine = false) {why : Reject} (hd : decodeRequest r = .error why)
    (hf : requestedFrame r = none) : s.take = .rejected why := by
  simp only [State.take, hs, hc, hd, hf, Bool.false_eq_true, if_false]

end

/-- Settles O17: the request is taken off the list and its instruction is run. -/
theorem stepRunsTheDecodedCommand : Obligations.StepRunsTheDecodedCommand := by
  intro s r rest i hs hc hd
  simp only [step, State.take_command hs hc hd]

/-- Settles O18: the three ways a step can take no instruction, each a case of `State.take`. -/
theorem stepWithoutAnInstruction : Obligations.StepWithoutAnInstruction := by
  refine ⟨fun s hs => ?_, fun s r rest hs hbus => ?_, fun s r rest why hs hown hothers hd hf => ?_⟩
  · simp only [step, State.take_nil hs]
  · have hc := (Board.contended_iff r.engine s.board).mpr hbus
    simp only [step, State.take_contended hs hc]
  · have hc : s.board.contended r.engine = false :=
      Bool.eq_false_iff.mpr fun h => ((Board.contended_iff _ _).mp h).elim hown hothers
    simp only [step, State.take_rejected hs hc hd hf]

/-! ### Bits on the wire (R134, R135, R141) -/

/-- The bits sent of an `n`-bit value: bit `n-1` first, bit 0 last (R57). -/
theorem bitsOf_eq_map (n v : Nat) : bitsOf n v = (List.range n).map (fun k => v.testBit (n - 1 - k)) := by
  apply List.ext_getElem
  · simp
  · intro i hi _
    simp [bitsOf_getElem n v i hi]

section
variable {b : BB} (hq : b.Quiet)
include hq

/-- `write_bits` of at least one bit: the line is left driving bit 0 (R134). -/
theorem BB.writeBits_run (hd : b.Driving) (v n : Nat) :
    ∃ q, b.run (Prim.writeBits v (n + 1)) =
      .done (b.advanced q (wSlots (bitsOf (n + 1) v)) false (v.testBit 0) .output) [] := by
  obtain ⟨q, hrun⟩ := BB.writes_run hq hd _ (bitsOf_ne_nil n v)
  rw [bitsOf_getLast] at hrun
  exact ⟨q, hrun⟩

variable (hk : b.clk.claimed = true) (ho : b.clk.dir = .output) (hc : b.data.claimed = true)
include hk ho hc

/-- `read_bits` on the released line, behind the events `es`: the samples are those that follow the ones in `es` (R135). -/
theorem BB.readBits_run_advanced (q : Sequencer) (es : List BBEvent) (c d : Level) (n : Nat) (keep : Bool) :
    ∃ q', (b.advanced q es c d .input).run (Prim.readBits (n + 1) keep) =
      .done (b.advanced q' (es ++ rSlots (b.window (sampleCount es) (n + 1))) false d .input)
        (if keep then b.window (sampleCount es) (n + 1) else []) := by
  have hnext : (b.advanced q es c d .input).upcoming (n + 1) = b.window (sampleCount es) (n + 1) := by
    rw [BB.upcoming_advanced, BB.upcoming_eq_window, BB.window_drop, Nat.zero_add, Nat.add_sub_cancel_left]
  obtain ⟨q', hrun⟩ := BB.readBits_run (hq.advanced q es c d .input) hk ho hc rfl keep n
  rw [hnext, BB.advanced_advanced, BB.advanced_data_drive] at hrun
  exact ⟨q', hrun⟩

/-- The read transition (R141): of the eighteen samples the first two, the turnaround's, are discarded. -/
theorem BB.readTransition_run :
    ∃ q, b.run Prim.readTransition =
      .done (b.advanced q (.ddirIn :: (rSlots (b.window 0 18) ++ [.ddirOut true])) false true .output) (b.window 2 16) := by
  have hrelease := BB.perform_dirIn hq hc
  have hsettle : (b.advanced b.seq [.ddirIn] b.clk.drive b.data.drive .input).perform (.wait .readSettle) =
      .done (b.advanced b.seq [.ddirIn] b.clk.drive b.data.drive .input) [] := rfl
  obtain ⟨q1, hturnaround⟩ :=
    BB.readBits_run_advanced hq hk ho hc b.seq [.ddirIn] b.clk.drive b.data.drive 1 false
  obtain ⟨q2, hword⟩ :=
    BB.readBits_run_advanced hq hk ho hc q1 ([.ddirIn] ++ rSlots (b.window 0 2)) false b.data.drive 15 true
  have htaken : sampleCount ([.ddirIn] ++ rSlots (b.window 0 2)) = 2 := by simp [sampleCount_cons, BBEvent.isSample]
  rw [htaken] at hword
  have htakeBack := BB.perform_dirOut
    (hq.advanced q2 ([.ddirIn] ++ rSlots (b.window 0 2) ++ rSlots (b.window 2 16)) false b.data.drive .input) hc true
  rw [BB.advanced_advanced] at htakeBack
  have hslots : rSlots (b.window 0 2) ++ rSlots (b.window 2 16) = rSlots (b.window 0 18) := by
    have hsplit := List.take_append_drop 2 (b.window 0 18)
    rw [BB.window_take b (by omega), BB.window_drop] at hsplit
    rw [← rSlots_append, hsplit]
  have hall := runOps_cons_done hrelease (runOps_cons_done hsettle
    (runOps_append_done (runOps_append_done hturnaround hword) (runOps_cons_done (g' := []) htakeBack (runOps_nil _ _))))
  refine ⟨q2, hall.trans ?_⟩
  simp [← hslots]

end

/-- Settles O45: no bit is the trivial case of each of the first two. -/
theorem bitsOnTheWire : Obligations.BitsOnTheWire := by
  refine ⟨fun b v n hq hd => ?_, fun b n keep hq hk ho hc hi => ?_, fun b hq hd => ?_⟩
  · cases n with
    | zero => exact ⟨b, rfl, by simp, rfl, hd⟩
    | succ n =>
      obtain ⟨q, hrun⟩ := BB.writeBits_run hq hd v n
      exact ⟨_, hrun, by rw [← bitsOf_eq_map]; rfl, rfl, hd.advanced _ _ _ _⟩
  · cases n with
    | zero => exact ⟨b, by cases keep <;> rfl, by simp [BB.window], rfl⟩
    | succ n =>
      obtain ⟨q, hrun⟩ := BB.readBits_run hq hk ho hc hi keep n
      rw [BB.upcoming_eq_window] at hrun
      exact ⟨_, hrun, rfl, by rw [← hi]; rfl⟩
  · obtain ⟨hk, ho, hc, hout⟩ := hd
    obtain ⟨q, hrun⟩ := BB.readTransition_run hq hk ho hc
    exact ⟨_, hrun, rfl, by rw [← hout]; rfl, rfl⟩

end Sys2Proof.Machine
end

section
/-! Memory (spec/20_memory.md): what the registers behind the named environments of R56 give back. With no responder a read is all
ones; with `EchoPHY` a read gives back what was written. -/

namespace Sys2Proof.Machine

open Codec Operands Fixtures

/-! ### The register commands of the bit-bang engine, from what they sample -/

section
variable {s : State} (hr : s.bb.Ready) (p r v : Nat)
include hr

theorem exec_bbReadC22_ready :
    exec (.bbReadC22 p r) s =
      .next (s.withBB (s.bb.completed (readC22Events p r (s.bb.window 0 18)) true
        (.u16 (wordOfBits (s.bb.window 2 16))))) := by
  have hprefaced : ∀ t ∈ [readC22 p r], t.prefaced s.switches := by simp [Transaction.prefaced, readC22]
  have hspeaks : ∀ t ∈ [readC22 p r], t.speaks = true := by simp [Transaction.speaks, readC22]
  have hsamples : transactionsSamples [readC22 p r] = 18 := framesSamples_readC22 p r
  have hword : wordsIn (wordsRead [readC22 p r]) (s.bb.window 0 18) = [wordOfBits (s.bb.window 2 16)] := by
    have hone : wordsRead [readC22 p r] = 1 := (wordsRead_cons _ _).trans (congrArg (· + 0) (readsIn_readC22 p r))
    rw [hone, wordsIn, BB.window_drop, List.take_of_length_le (by simp), wordsIn]
  refine (bbTransact_ready hr _ hprefaced (by simp) hspeaks .u16).trans ?_
  rw [hsamples, BB.upcoming_eq_window, hword, readC22_events, List.take_of_length_le (by simp)]
  simp [transactionsEvents, assemble, driveAfterOperation, readC22]

theorem exec_bbWriteC22_ready :
    exec (.bbWriteC22 p r v) s = .next (s.withBB (s.bb.completed (writeC22Events p r v) true .unit)) := by
  have hprefaced : ∀ t ∈ [writeC22 p r v], t.prefaced s.switches := by simp [Transaction.prefaced, writeC22]
  have hspeaks : ∀ t ∈ [writeC22 p r v], t.speaks = true := by simp [Transaction.speaks, writeC22]
  refine (bbTransact_ready hr _ hprefaced (by simp) hspeaks .unit).trans ?_
  rw [writeC22_events]
  simp [transactionsEvents, assemble, driveAfterOperation, writeC22]

end

/-! ### With no responder (R56, R235, R275) -/

theorem BB.window_of_floatHigh {b : BB} (hl : b.env.levels = []) (hf : b.env.floatHigh = true) (k n : Nat) :
    b.window k n = List.replicate n true := by
  have hone : ∀ j, b.levelAt j = true := fun j => by simp [BB.levelAt, hl, hf]
  simp [BB.window, hone, List.map_const']

theorem SF.wordAt_of_floatHigh {f : SF} (hw : f.env.received = []) (hf : f.env.floatHigh = true) (k : Nat) :
    f.wordAt k = 0xFFFFFFFF := by
  simp [SF.wordAt, hw, hf]

theorem wordOfBits_ones : wordOfBits (List.replicate 16 true) = 0xFFFF := by decide

/-- Settles O58: every sample and every received word is all ones, whatever its position. -/
theorem floatHighReadsOnes : Obligations.FloatHighReadsOnes := by
  intro s p e r _
  refine ⟨fun hr hl hf => ?_, fun hr hw hf => ?_⟩
  · have hword : ∀ k, wordOfBits (s.bb.window k 16) = 0xFFFF := fun k => by
      rw [BB.window_of_floatHigh hl hf, wordOfBits_ones]
    have h22 := exec_bbReadC22_ready hr p r
    have h45 := exec_bbReadC45_switches hr p e r
    have hdword := exec_bbReadC45Dword_switches hr p e r
    rw [hword] at h22 h45
    rw [hword, hword] at hdword
    exact ⟨_, _, _, h22, rfl, h45, rfl, hdword, rfl⟩
  · have h22 := exec_sfReadC22_switches hr p r
    have h45 := exec_sfReadC45_switches hr p e r
    rw [SF.wordAt_of_floatHigh hw hf] at h22 h45
    exact ⟨_, _, h22, rfl, h45, rfl⟩

/-! ### A command that completed leaves its engine ready for the next -/

theorem BB.Ready.completed {b : BB} (h : b.Ready) (es : List BBEvent) (d : Level) (v : Value) :
    (b.completed es d v).Ready :=
  have ⟨ho, hd, hq⟩ := h
  ⟨ho, hd, fun f hf => hq f (List.mem_of_mem_drop hf)⟩

theorem SF.Ready.completed {f : SF} (h : f.Ready) (sent : List (Nat × Nat)) (v : Value) : (f.completed sent v).Ready :=
  have ⟨ho, hc, hq⟩ := h
  ⟨ho, hc, fun x hx => hq x (List.mem_of_mem_drop hx)⟩

@[simp] theorem BB.completed_levels (b : BB) (es : List BBEvent) (d : Level) (v : Value) :
    (b.completed es d v).env.levels = b.env.levels.drop (sampleCount es) := rfl

@[simp] theorem SF.completed_received (f : SF) (sent : List (Nat × Nat)) (v : Value) :
    (f.completed sent v).env.received = f.env.received.drop sent.length := rfl

/-! ### Words as the script supplies them -/

/-- Reading bits behind `acc` shifts it up and puts the low bits of the value below. -/
theorem foldl_bitsOf (n v acc : Nat) :
    (bitsOf n v).foldl (fun acc b => 2 * acc + b.toNat) acc = acc * 2 ^ n + v % 2 ^ n := by
  induction n generalizing acc with
  | zero => simp [bitsOf, Nat.mod_one]
  | succ n ih =>
    rw [bitsOf, List.foldl_cons, ih, Nat.mod_pow_succ, Nat.toNat_testBit]
    ring

/-- A word sent bit by bit and received bit by bit is the word (R134, R135). -/
theorem wordOfBits_bitsOf (w : U16) : wordOfBits (bitsOf 16 w.toNat) = w := by
  have hvalue : ofBits (bitsOf 16 w.toNat) = w.toNat := by
    rw [ofBits, foldl_bitsOf, Nat.zero_mul, Nat.zero_add, Nat.mod_eq_of_lt w.isLt]
  rw [wordOfBits, hvalue, BitVec.ofNat_toNat, BitVec.setWidth_eq]

/-- A stretch of the script is what the engine samples at that place. -/
theorem BB.window_of_levels {b : BB} {before ls behind : List Level} (h : b.env.levels = before ++ ls ++ behind) :
    b.window before.length ls.length = ls := by
  apply List.ext_getElem
  · simp
  · intro j _ hj
    have hlevel : b.env.levels[before.length + j]? = some ls[j] := by
      rw [h, List.append_assoc, List.getElem?_append_right (by omega), Nat.add_sub_cancel_left,
        List.getElem?_append_left hj, List.getElem?_eq_getElem hj]
    simp [BB.window, BB.levelAt, hlevel]

/-- An answered read-class frame: behind the turnaround the engine samples the word answered (R56, R141). -/
theorem BB.word_of_answer {b : BB} {w : U16} {later : List Level} (h : b.env.levels = answerLevels w ++ later) :
    wordOfBits (b.window 2 16) = w := by
  have hword := BB.window_of_levels (b := b) (before := [true, false]) (ls := bitsOf 16 w.toNat) (behind := later) h
  rw [bitsOf_length] at hword
  exact (congrArg wordOfBits hword).trans (wordOfBits_bitsOf w)

/-- A word the script holds `k` transfers ahead is what the read whose data phase that is receives (R195). -/
theorem SF.word_of_answer {f : SF} {w : U16} {k : Nat} (h : f.env.received[k]? = some (w.setWidth 32)) :
    BitVec.ofNat 16 (f.wordAt k) = w := by
  have hword : f.wordAt k = (w.setWidth 32).toNat := by simp only [SF.wordAt, h]
  have hlow : w.toNat % 2 ^ 32 % 2 ^ 16 = w.toNat := by omega
  apply BitVec.eq_of_toNat_eq
  rw [hword, BitVec.toNat_ofNat, BitVec.toNat_setWidth, hlow]

/-! ### What `EchoPHY` answers (R56) -/

theorem Fixtures.EchoPhy.act_c22Write (phy : EchoPhy) (p r v : Nat) :
    phy.act (c22Write p r v) =
      ({ phy with r22 := fun x y => if x = mask 5 p ∧ y = mask 5 r then mask 16 v else phy.r22 x y }, none) := rfl

theorem Fixtures.EchoPhy.act_c22Read (phy : EchoPhy) (p r : Nat) :
    phy.act (c22Read p r) = (phy, some (phy.r22 (mask 5 p) (mask 5 r))) := rfl

theorem Fixtures.EchoPhy.act_c45Address (phy : EchoPhy) (p e a : Nat) :
    phy.act (c45Address p e a) =
      ({ phy with a45 := fun x y => if x = mask 5 p ∧ y = mask 5 e then mask 16 a else phy.a45 x y }, none) := rfl

theorem Fixtures.EchoPhy.act_c45Write (phy : EchoPhy) (p e v : Nat) :
    phy.act (c45Write p e v) =
      ({ phy with r45 := fun x y a =>
          if x = mask 5 p ∧ y = mask 5 e ∧ a = phy.a45 (mask 5 p) (mask 5 e) then mask 16 v else phy.r45 x y a }, none) :=
  rfl

theorem Fixtures.EchoPhy.act_c45Read (phy : EchoPhy) (p e : Nat) :
    phy.act (c45Read p e) = (phy, some (phy.r45 (mask 5 p) (mask 5 e) (phy.a45 (mask 5 p) (mask 5 e)))) := rfl

theorem Fixtures.EchoPhy.no_answer_c22Write (phy : EchoPhy) (p r v : Nat) : (phy.act (c22Write p r v)).2 = none := rfl

theorem Fixtures.EchoPhy.no_answer_c45Address (phy : EchoPhy) (p e a : Nat) : (phy.act (c45Address p e a)).2 = none := rfl

theorem Fixtures.EchoPhy.no_answer_c45Write (phy : EchoPhy) (p e v : Nat) : (phy.act (c45Write p e v)).2 = none := rfl

/-- The Clause 22 register answers what was written to it. -/
theorem Fixtures.EchoPhy.answer_c22 (phy : EchoPhy) (p r v : Nat) :
    ((phy.after [c22Write p r v]).act (c22Read p r)).2 = some (mask 16 v) := by
  simp [EchoPhy.after, EchoPhy.act_c22Write, EchoPhy.act_c22Read]

/-- The Clause 45 register answers what was written to it: both accesses set the latch to the same address. -/
theorem Fixtures.EchoPhy.answer_c45 (phy : EchoPhy) (p e r v : Nat) :
    ((phy.after [c45Address p e r, c45Write p e v, c45Address p e r]).act (c45Read p e)).2 = some (mask 16 v) := by
  simp [EchoPhy.after, EchoPhy.act_c45Address, EchoPhy.act_c45Write, EchoPhy.act_c45Read]

theorem Fixtures.EchoPhy.samples_c22 (phy : EchoPhy) (p r v : Nat) :
    phy.samples ((writeC22 p r v).frames ++ (readC22 p r).frames) = answerLevels (mask 16 v) := by
  have hanswer := phy.answer_c22 p r v
  simp only [EchoPhy.after] at hanswer
  simp [writeC22, readC22, EchoPhy.samples, frameSamples, isReadClass_c22Write, isReadClass_c22Read, hanswer]

theorem Fixtures.EchoPhy.samples_c45 (phy : EchoPhy) (p e r v : Nat) :
    phy.samples ((writeC45 p e r v).frames ++ (readC45 p e r).frames) = answerLevels (mask 16 v) := by
  have hanswer := phy.answer_c45 p e r v
  simp only [EchoPhy.after] at hanswer
  simp [writeC45, readC45, EchoPhy.samples, frameSamples, isReadClass_c45Address, isReadClass_c45Write,
    isReadClass_c45Read, hanswer]

/-- Of the eight words received during a Clause 22 write and read, the data word of the read. -/
theorem Fixtures.EchoPhy.received_c22 (phy : EchoPhy) (p r v : Nat) (later : List U32) :
    (phy.received [writeC22 p r v, readC22 p r] ++ later)[4 + 2]? = some ((mask 16 v).setWidth 32) := by
  have hanswer := phy.answer_c22 p r v
  simp only [EchoPhy.after] at hanswer
  simp [writeC22, readC22, EchoPhy.received, EchoPhy.frameReceived, EchoPhy.after, frameReceives, hanswer,
    EchoPhy.no_answer_c22Write]

/-- Of the twelve words received during a Clause 45 write and read, the data word of the read. -/
theorem Fixtures.EchoPhy.received_c45 (phy : EchoPhy) (p e r v : Nat) (later : List U32) :
    (phy.received [writeC45 p e r v, readC45 p e r] ++ later)[6 + 5]? = some ((mask 16 v).setWidth 32) := by
  have hanswer := phy.answer_c45 p e r v
  simp only [EchoPhy.after] at hanswer
  simp [writeC45, readC45, EchoPhy.received, EchoPhy.frameReceived, EchoPhy.after, frameReceives, hanswer,
    EchoPhy.no_answer_c45Address, EchoPhy.no_answer_c45Write]

/-! ### A write and then a read -/

/-- On the bit-bang engine: a write takes no sample, so the read that follows it takes the ones the script begins with. -/
theorem bb_write_then_read {s : State} (hr : s.bb.Ready) {w : U16} {later : List Level}
    (hanswer : s.bb.env.levels = answerLevels w ++ later) {write read : Instr} {es : List BBEvent} {d : Level}
    (hes : sampleCount es = 0) (hwrite : exec write s = .next (s.withBB (s.bb.completed es d .unit)))
    (hread : ∀ t : State, t.bb.Ready → ∃ es', exec read t =
      .next (t.withBB (t.bb.completed es' true (.u16 (wordOfBits (t.bb.window 2 16)))))) :
    ∃ t u, exec write s = .next t ∧ exec read t = .next u ∧
      u.bb.results = s.bb.results ++ [.ok .unit, .ok (.u16 w)] := by
  obtain ⟨es', hread⟩ := hread (s.withBB (s.bb.completed es d .unit)) (hr.completed es d .unit)
  have hlevels : (s.bb.completed es d .unit).env.levels = answerLevels w ++ later := by
    rw [BB.completed_levels, hes, List.drop_zero, hanswer]
  rw [State.withBB_bb, BB.word_of_answer hlevels] at hread
  exact ⟨_, _, hwrite, hread, List.append_assoc _ _ _⟩

/-- On the SPI-framed engine: the write receives as many words as it sends, and the read takes its word `k` places behind them. -/
theorem sf_write_then_read {s : State} (hr : s.sf.Ready) {w : U16} {k : Nat} {write read : Instr} {sent : List (Nat × Nat)}
    (hanswer : s.sf.env.received[sent.length + k]? = some (w.setWidth 32))
    (hwrite : exec write s = .next (s.withSF (s.sf.completed sent .unit)))
    (hread : ∀ t : State, t.sf.Ready → t.switches = s.switches → ∃ sent', exec read t =
      .next (t.withSF (t.sf.completed sent' (.u16 (BitVec.ofNat 16 (t.sf.wordAt k)))))) :
    ∃ t u, exec write s = .next t ∧ exec read t = .next u ∧
      u.sf.results = s.sf.results ++ [.ok .unit, .ok (.u16 w)] := by
  obtain ⟨sent', hread⟩ := hread (s.withSF (s.sf.completed sent .unit)) (hr.completed sent .unit) rfl
  have hreceived : (s.sf.completed sent .unit).env.received[k]? = some (w.setWidth 32) := by
    rw [SF.completed_received, List.getElem?_drop, hanswer]
  rw [State.withSF_sf, SF.word_of_answer hreceived] at hread
  exact ⟨_, _, hwrite, hread, List.append_assoc _ _ _⟩

/-- A write-class frame takes no sample. -/
theorem sampleCount_writeFrameEvents (w : Nat) : sampleCount (writeFrameEvents w) = 0 := by simp [writeFrameEvents]

/-- Settles O59: on each engine and in each clause, where the answer of `EchoPHY` stands in what the read takes. -/
theorem echoRoundTrip : Obligations.EchoRoundTrip := by
  intro phy s p e r v later laterWords hsw
  have hpreamble : s.switches.preamblePerFrame = true := congrArg Switches.preamblePerFrame hsw
  refine ⟨fun hr => ⟨fun hlevels => ?_, fun hlevels => ?_⟩, fun hr => ⟨fun hreceived => ?_, fun hreceived => ?_⟩⟩
  · rw [phy.samples_c22] at hlevels
    exact bb_write_then_read hr hlevels (by simp [writeC22Events, sampleCount_writeFrameEvents])
      (exec_bbWriteC22_ready hr p r v) fun t ht => ⟨_, exec_bbReadC22_ready ht p r⟩
  · rw [phy.samples_c45] at hlevels
    exact bb_write_then_read hr hlevels (by simp [nextWriteEvents, hpreamble, sampleCount_writeFrameEvents])
      (exec_bbWriteC45_switches hr p e r v) fun t ht => ⟨_, exec_bbReadC45_switches ht p e r⟩
  · refine sf_write_then_read hr (k := 2) ?_ (exec_sfWriteC22_switches hr p r v)
      fun t ht _ => ⟨_, exec_sfReadC22_switches ht p r⟩
    rw [hreceived]
    exact phy.received_c22 p r v laterWords
  · refine sf_write_then_read hr (k := 5) ?_ (exec_sfWriteC45_switches hr p e r v)
      fun t ht hkeep => ⟨_, (exec_sfReadC45_switches ht p e r).trans (by rw [hkeep, hpreamble]; rfl)⟩
    rw [hreceived]
    simpa [nextWords, hpreamble] using phy.received_c45 p e r v laterWords

end Sys2Proof.Machine
end

section
/-! Encoding (spec/30_encoding.md, spec/40_frame_codec.md): the frame codec loses no bit in either direction, and the decoder
answers an instruction exactly where the words are the encoder's (`decode_eq_ok_iff`). -/

namespace Sys2Proof.Codec

/-! ### The fields of a frame and of a header, as numbers (R112, R114) -/

theorem extractLsb'_toNat_eq_div {n : Nat} (x : BitVec n) (k m : Nat) :
    (x.extractLsb' k m).toNat = x.toNat / 2 ^ k % 2 ^ m := by
  rw [BitVec.extractLsb'_toNat, Nat.shiftRight_eq_div_pow]

/-- The number is 32 bits wide, so the mask keeps it. -/
theorem mask_toNat_of_lt {n v : Nat} (h : v < 2 ^ n) : (mask n v).toNat = v := by
  rw [mask_toNat, Nat.mod_eq_of_lt h]

/-- Encoding what a frame decodes to gives the frame back (R95, R115): decoding drops no bit. -/
theorem encodeFrame_decodeFrame (w : U32) : encodeFrame (decodeFrame w) = w := by
  apply BitVec.eq_of_toNat_eq
  have := w.isLt
  rw [encodeFrame_toNat, headerOf_toNat]
  simp only [decodeFrame, extractLsb'_toNat_eq_div]
  omega

/-- Decoding an encoded frame gives every field back (R115). -/
theorem decodeFrame_encodeFrame (f : Frame) : decodeFrame (encodeFrame f) = f := by
  have hw : (encodeFrame f).toNat =
      ((((f.st.toNat * 4 + f.op.toNat) * 32 + f.pad.toNat) * 32 + f.dad.toNat) * 4 + f.ta.toNat) * 65536 + f.data.toNat := by
    rw [encodeFrame_toNat, headerOf_toNat]
  obtain ⟨st, op, pad, dad, ta, data⟩ := f
  have := st.isLt; have := op.isLt; have := pad.isLt; have := dad.isLt; have := ta.isLt; have := data.isLt
  simp only [decodeFrame, Frame.mk.injEq]
  simp only at hw
  refine ⟨?_, ?_, ?_, ?_, ?_, ?_⟩ <;>
    (apply BitVec.eq_of_toNat_eq
     rw [extractLsb'_toNat_eq_div, hw]
     omega)

/-- The frame whose header is `h`, with data word 0: the frame `requestedFrame` makes of a header word. -/
def frameOfHeader (h : U16) : Frame :=
  { st := h.extractLsb' 14 2, op := h.extractLsb' 12 2, pad := h.extractLsb' 7 5, dad := h.extractLsb' 2 5,
    ta := h.extractLsb' 0 2, data := 0 }

theorem decodeHeader_eq_frameOfHeader (h : U16) :
    decodeHeader h = ((frameOfHeader h).st, (frameOfHeader h).op, (frameOfHeader h).pad, (frameOfHeader h).dad,
      (frameOfHeader h).ta) := rfl

/-- Encoding the fields of a header gives the header back (R115). -/
theorem headerOf_frameOfHeader (h : U16) : headerOf (frameOfHeader h) = h := by
  apply BitVec.eq_of_toNat_eq
  have := h.isLt
  rw [headerOf_toNat]
  simp only [frameOfHeader, extractLsb'_toNat_eq_div]
  omega

/-- `sf_header` is the header but for the turnaround `11` it forces on a read-class opcode (R121). -/
theorem sfHeader_toNat_eq_headerOf (f : Frame) :
    (sfHeader f).toNat = if isReadClass f.op then (headerOf f).toNat / 4 * 4 + 3 else (headerOf f).toNat := by
  have := f.ta.isLt
  rw [Machine.sfHeader_toNat, headerOf_toNat]
  cases isReadClass f.op <;> simp only [if_true, Bool.false_eq_true, if_false]
  omega

/-- Decoding the header of a frame gives every field back, the turnaround as it is sent (R121). -/
theorem decodeHeader_sfHeader (f : Frame) :
    decodeHeader (sfHeader f) = (f.st, f.op, f.pad, f.dad, if isReadClass f.op then Config.sfTaRead else f.ta) := by
  have hta : (if isReadClass f.op then Config.sfTaRead else f.ta).toNat = if isReadClass f.op then 3 else f.ta.toNat := by
    cases isReadClass f.op <;> rfl
  have hh := Machine.sfHeader_toNat f
  rw [← hta] at hh
  generalize (if isReadClass f.op then Config.sfTaRead else f.ta) = sent at hh ⊢
  obtain ⟨st, op, pad, dad, ta, data⟩ := f
  have := st.isLt; have := op.isLt; have := pad.isLt; have := dad.isLt; have := sent.isLt
  simp only [decodeHeader, Prod.mk.injEq]
  simp only at hh
  refine ⟨?_, ?_, ?_, ?_, ?_⟩ <;>
    (apply BitVec.eq_of_toNat_eq
     rw [extractLsb'_toNat_eq_div, hh]
     omega)

/-! ### The ten reserved pairs (R116) -/

theorem classify_eq_reserved_iff : ∀ st op : U2,
    classify st op = .reserved ↔ 2 ≤ st.toNat ∨ st.toNat * 4 + op.toNat = 0b0100 ∨ st.toNat * 4 + op.toNat = 0b0111 := by
  decide

/-- The `(ST, OP)` pair of a frame kind (R81); a reserved pair is none of them. -/
def codes : FrameKind → Option (U2 × U2)
  | .c22Write => some (Config.stC22, Config.opC22Write)
  | .c22Read => some (Config.stC22, Config.opC22Read)
  | .c45Address => some (Config.stC45, Config.opC45Address)
  | .c45Write => some (Config.stC45, Config.opC45Write)
  | .c45ReadInc => some (Config.stC45, Config.opC45ReadInc)
  | .c45Read => some (Config.stC45, Config.opC45Read)
  | .reserved => none

/-- `classify` names a kind by its own pair only (R116). -/
theorem codes_classify : ∀ st op : U2, classify st op ≠ .reserved → codes (classify st op) = some (st, op) := by
  decide

end Sys2Proof.Codec

namespace Sys2Proof

open Codec

/-! ### Frame rows and header rows (R82 to R87, R121) -/

/-- A frame row is the frame's encoding: the kind fixes `(ST, OP)`, and the instruction holds the rest. -/
theorem encode_of_decodeFrameRow {e : Engine} {f : Frame} {i : Instr} (h : decodeFrameRow e f = .ok i) :
    encode i = frameRequest e f := by
  obtain ⟨st, op, pad, dad, ta, data⟩ := f
  have hcodes := codes_classify st op
  cases hk : classify st op with
  | reserved =>
    simp only [decodeFrameRow, hk] at h
    cases h
  | _ =>
    simp only [decodeFrameRow, hk] at h
    cases h
    rw [hk] at hcodes
    cases hcodes (by decide)
    rfl

theorem decodeFrameRow_eq_reservedFrame_iff (e : Engine) (f : Frame) :
    decodeFrameRow e f = .error .reservedFrame ↔ classify f.st f.op = .reserved := by
  cases hk : classify f.st f.op <;> simp [decodeFrameRow, hk]

/-- A header row has the turnaround its kind sends, and is the header word of its kind with these PAD and DAD. -/
theorem encode_of_decodeHeaderRow {h : U16} {i : Instr} {st op ta : U2} {pad dad : U5}
    (hf : decodeHeader h = (st, op, pad, dad, ta)) (hi : decodeHeaderRow h = .ok i) :
    ta = (if isReadClass op then Config.sfTaRead else Config.taWrite) ∧ encode i = headerRequest st op pad dad := by
  have hcodes := codes_classify st op
  simp only [decodeHeaderRow, hf] at hi
  by_cases hrow : classify st op = .reserved
  · rw [if_pos hrow] at hi
    cases hi
  by_cases hta : ta = (if isReadClass op then Config.sfTaRead else Config.taWrite)
  · rw [if_neg hrow, if_neg (not_not.mpr hta)] at hi
    refine ⟨hta, ?_⟩
    cases hk : classify st op with
    | reserved => exact absurd hk hrow
    | _ =>
      simp only [hk] at hi
      cases hi
      rw [hk] at hcodes
      cases hcodes (by decide)
      rfl
  · rw [if_neg hrow, if_pos hta] at hi
    cases hi

/-- A header row is the header word's encoding. -/
theorem encode_of_decodeHeaderRow_word {h : U16} {i : Instr} (hi : decodeHeaderRow h = .ok i) :
    encode i = ⟨.spi, .hdr16, [h.toNat]⟩ := by
  obtain ⟨hta, he⟩ := encode_of_decodeHeaderRow (decodeHeader_eq_frameOfHeader h) hi
  have hsent : (frameOfHeader h).ta.toNat = if isReadClass (frameOfHeader h).op then 3 else 2 := by
    rw [hta]
    cases isReadClass (frameOfHeader h).op <;> rfl
  have hword := headerOf_toNat (frameOfHeader h)
  rw [headerOf_frameOfHeader, hsent] at hword
  rw [he, headerRequest, Machine.sfHeader_toNat, hword]
  rfl

/-! ### Reading operands (the message form of assumption log 1) -/

@[simp] theorem listOperand_listWords (k : List Nat → List Nat → Except Reject (Instr × List Nat)) (xs behind : List Nat) :
    listOperand k (listWords xs ++ behind) = k xs behind := by
  simp [listOperand, listWords]

@[simp] theorem oneList_listWords (k : List Nat → Instr) (xs rest : List Nat) :
    oneList k (listWords xs ++ rest) = .ok (k xs, rest) := listOperand_listWords _ xs rest

@[simp] theorem twoLists_listWords (k : List Nat → List Nat → Instr) (xs ys rest : List Nat) :
    twoLists k (listWords xs ++ listWords ys ++ rest) = .ok (k xs ys, rest) := by
  rw [twoLists, List.append_assoc, listOperand_listWords, oneList_listWords]

section
variable {ws rest : List Nat} {i : Instr}

theorem listOperand_ok {k : List Nat → List Nat → Except Reject (Instr × List Nat)}
    (h : listOperand k ws = .ok (i, rest)) : ∃ xs behind, ws = listWords xs ++ behind ∧ k xs behind = .ok (i, rest) := by
  cases ws with
  | nil => cases h
  | cons n ws =>
    rw [listOperand] at h
    split_ifs at h with hn
    exact ⟨ws.take n, ws.drop n, by simp [listWords, hn], h⟩

theorem oneList_ok {k : List Nat → Instr} (h : oneList k ws = .ok (i, rest)) :
    ∃ xs, ws = listWords xs ++ rest ∧ i = k xs := by
  obtain ⟨xs, _, rfl, hlast⟩ := listOperand_ok h
  cases hlast
  exact ⟨xs, rfl, rfl⟩

theorem twoLists_ok {k : List Nat → List Nat → Instr} (h : twoLists k ws = .ok (i, rest)) :
    ∃ xs ys, ws = listWords xs ++ listWords ys ++ rest ∧ i = k xs ys := by
  obtain ⟨xs, _, rfl, hsecond⟩ := listOperand_ok h
  obtain ⟨ys, rfl, rfl⟩ := oneList_ok hsecond
  exact ⟨xs, ys, (List.append_assoc _ _ _).symm, rfl⟩

/-- The words `ws` behind a label are the operands the encoder writes for `i`, and then `rest`. -/
def Carries (e : Engine) (label : Nat) (ws : List Nat) (i : Instr) (rest : List Nat) : Prop :=
  ∃ ops, encode i = commandRequest e label ops ∧ ws = ops ++ rest

variable {e : Engine} {label : Nat}

theorem carries_nothing (hi : encode i = commandRequest e label []) : Carries e label ws i ws := ⟨[], hi, rfl⟩

theorem carries_operands2 {k : Nat → Nat → Instr} (h : operands2 k ws = .ok (i, rest))
    (hk : ∀ a b, encode (k a b) = commandRequest e label [a, b]) : Carries e label ws i rest := by
  match ws, h with
  | a :: b :: _, rfl => exact ⟨[a, b], hk a b, rfl⟩

theorem carries_operands3 {k : Nat → Nat → Nat → Instr} (h : operands3 k ws = .ok (i, rest))
    (hk : ∀ a b c, encode (k a b c) = commandRequest e label [a, b, c]) : Carries e label ws i rest := by
  match ws, h with
  | a :: b :: c :: _, rfl => exact ⟨[a, b, c], hk a b c, rfl⟩

theorem carries_operands4 {k : Nat → Nat → Nat → Nat → Instr} (h : operands4 k ws = .ok (i, rest))
    (hk : ∀ a b c d, encode (k a b c d) = commandRequest e label [a, b, c, d]) : Carries e label ws i rest := by
  match ws, h with
  | a :: b :: c :: d :: _, rfl => exact ⟨[a, b, c, d], hk a b c d, rfl⟩

theorem carries_scalar1_oneList {k : Nat → List Nat → Instr} (h : scalar1 (fun p => oneList (k p)) ws = .ok (i, rest))
    (hk : ∀ p xs, encode (k p xs) = commandRequest e label (p :: listWords xs)) : Carries e label ws i rest := by
  match ws, h with
  | p :: _, h =>
    obtain ⟨xs, rfl, rfl⟩ := oneList_ok h
    exact ⟨p :: listWords xs, hk p xs, rfl⟩

theorem carries_scalar1_twoLists {k : Nat → List Nat → List Nat → Instr}
    (h : scalar1 (fun p => twoLists (k p)) ws = .ok (i, rest))
    (hk : ∀ p xs ys, encode (k p xs ys) = commandRequest e label (p :: (listWords xs ++ listWords ys))) :
    Carries e label ws i rest := by
  match ws, h with
  | p :: _, h =>
    obtain ⟨xs, ys, rfl, rfl⟩ := twoLists_ok h
    exact ⟨p :: (listWords xs ++ listWords ys), hk p xs ys, rfl⟩

theorem carries_scalar2_oneList {k : Nat → Nat → List Nat → Instr}
    (h : scalar2 (fun p d => oneList (k p d)) ws = .ok (i, rest))
    (hk : ∀ p d xs, encode (k p d xs) = commandRequest e label (p :: d :: listWords xs)) : Carries e label ws i rest := by
  match ws, h with
  | p :: d :: _, h =>
    obtain ⟨xs, rfl, rfl⟩ := oneList_ok h
    exact ⟨p :: d :: listWords xs, hk p d xs, rfl⟩

theorem carries_scalar2_twoLists {k : Nat → Nat → List Nat → List Nat → Instr}
    (h : scalar2 (fun p d => twoLists (k p d)) ws = .ok (i, rest))
    (hk : ∀ p d xs ys, encode (k p d xs ys) = commandRequest e label (p :: d :: (listWords xs ++ listWords ys))) :
    Carries e label ws i rest := by
  match ws, h with
  | p :: d :: _, h =>
    obtain ⟨xs, ys, rfl, rfl⟩ := twoLists_ok h
    exact ⟨p :: d :: (listWords xs ++ listWords ys), hk p d xs ys, rfl⟩

/-! ### A command by its label (R96) -/

theorem decodeBitbang_carries (h : decodeBitbang label ws = .ok (i, rest)) : Carries .bitbang label ws i rest := by
  unfold decodeBitbang at h
  split at h
  · cases h; exact carries_nothing rfl
  · cases h; exact carries_nothing rfl
  · exact carries_operands2 h fun _ _ => rfl
  · exact carries_operands3 h fun _ _ _ => rfl
  · exact carries_operands3 h fun _ _ _ => rfl
  · exact carries_operands4 h fun _ _ _ _ => rfl
  · exact carries_operands3 h fun _ _ _ => rfl
  · exact carries_operands4 h fun _ _ _ _ => rfl
  · exact carries_scalar1_oneList h fun _ _ => rfl
  · exact carries_scalar1_twoLists h fun _ _ _ => rfl
  · exact carries_scalar2_oneList h fun _ _ _ => rfl
  · exact carries_scalar2_twoLists h fun _ _ _ _ => rfl
  · exact carries_scalar2_oneList h fun _ _ _ => rfl
  · exact carries_scalar2_twoLists h fun _ _ _ _ => rfl
  · cases h

theorem decodeSpi_carries (h : decodeSpi label ws = .ok (i, rest)) : Carries .spi label ws i rest := by
  unfold decodeSpi at h
  split at h
  · cases h; exact carries_nothing rfl
  · cases h; exact carries_nothing rfl
  · exact carries_operands2 h fun _ _ => rfl
  · exact carries_operands3 h fun _ _ _ => rfl
  · exact carries_operands3 h fun _ _ _ => rfl
  · exact carries_operands4 h fun _ _ _ _ => rfl
  · cases h
  · cases h
  · exact carries_scalar1_oneList h fun _ _ => rfl
  · exact carries_scalar1_twoLists h fun _ _ _ => rfl
  · exact carries_scalar2_oneList h fun _ _ _ => rfl
  · exact carries_scalar2_twoLists h fun _ _ _ _ => rfl
  · cases h
  · cases h
  · cases h

end

/-! ### The decoder and the encoder are inverse -/

theorem decode_frameRequest (e : Engine) (f : Frame) (rest : List Nat) :
    decode e .frame32 ((frameRequest e f).words ++ rest) = (decodeFrameRow e f).map (·, rest) := by
  have hword : mask 32 (encodeFrame f).toNat = encodeFrame f := mask_of_toNat 32 _
  simp only [decode, frameRequest, List.singleton_append, (encodeFrame f).isLt, if_true, hword, decodeFrame_encodeFrame]

theorem decode_headerRequest (st op : U2) (pad dad : U5) (rest : List Nat) :
    decode .spi .hdr16 ((headerRequest st op pad dad).words ++ rest) =
      (decodeHeaderRow (sfHeader ⟨st, op, pad, dad, Config.taWrite, 0⟩)).map (·, rest) := by
  have hword := mask_of_toNat 16 (sfHeader ⟨st, op, pad, dad, Config.taWrite, 0⟩)
  simp only [decode, headerRequest, List.singleton_append, (sfHeader _).isLt, if_true, hword]

/-- The kinds of the six opcodes (R116). -/
theorem classify_opcodes :
    classify Config.stC22 Config.opC22Write = .c22Write ∧ classify Config.stC22 Config.opC22Read = .c22Read ∧
    classify Config.stC45 Config.opC45Address = .c45Address ∧ classify Config.stC45 Config.opC45Write = .c45Write ∧
    classify Config.stC45 Config.opC45ReadInc = .c45ReadInc ∧ classify Config.stC45 Config.opC45Read = .c45Read := by decide

theorem decode_encode (i : Instr) (rest : List Nat) :
    decode (encode i).engine (encode i).format ((encode i).words ++ rest) = .ok (i, rest) := by
  cases i with
  | c22Write e | c22Read e | c45Address e | c45Write e | c45ReadInc e | c45Read e => exact decode_frameRequest e _ rest
  | hdrC22Write | hdrC22Read | hdrC45Address | hdrC45Write | hdrC45ReadInc | hdrC45Read =>
    refine (decode_headerRequest _ _ _ _ rest).trans ?_
    simp [decodeHeaderRow, decodeHeader_sfHeader, classify_opcodes, Machine.isReadClass_opcodes, Except.map]
  | bbReadC22Registers | sfReadC22Registers | bbReadC45Registers | sfReadC45Registers | bbReadC45DwordRegisters =>
    exact oneList_listWords _ _ rest
  | bbWriteC22Registers | sfWriteC22Registers | bbWriteC45Registers | sfWriteC45Registers | bbWriteC45DwordRegisters =>
    exact twoLists_listWords _ _ _ rest
  | _ => rfl

theorem map_front_ok {x : Except Reject Instr} {behind rest : List Nat} {i : Instr}
    (h : x.map (·, behind) = .ok (i, rest)) : x = .ok i ∧ behind = rest := by
  cases x with
  | error why => cases h
  | ok j =>
    cases h
    exact ⟨rfl, rfl⟩

/-- What is read as an instruction is that instruction's encoding with `rest` behind it. -/
theorem encode_of_decode {e : Engine} {fmt : Format} {ws rest : List Nat} {i : Instr}
    (h : decode e fmt ws = .ok (i, rest)) : ∃ ops, encode i = ⟨e, fmt, ops⟩ ∧ ws = ops ++ rest := by
  match fmt, ws, e with
  | .frame32, [], _ | .hdr16, [], _ | .cmd8, [], _ => cases h
  | .frame32, w :: behind, e =>
    simp only [decode] at h
    split_ifs at h with hw
    obtain ⟨hrow, rfl⟩ := map_front_ok h
    refine ⟨[w], ?_, rfl⟩
    rw [encode_of_decodeFrameRow hrow, frameRequest, encodeFrame_decodeFrame, mask_toNat_of_lt hw]
  | .hdr16, _ :: _, .bitbang => cases h
  | .hdr16, w :: behind, .spi =>
    simp only [decode] at h
    split_ifs at h with hw
    obtain ⟨hrow, rfl⟩ := map_front_ok h
    refine ⟨[w], ?_, rfl⟩
    rw [encode_of_decodeHeaderRow_word hrow, mask_toNat_of_lt hw]
  | .cmd8, label :: behind, .bitbang =>
    obtain ⟨ops, hi, rfl⟩ := decodeBitbang_carries h
    exact ⟨label :: ops, hi, rfl⟩
  | .cmd8, label :: behind, .spi =>
    obtain ⟨ops, hi, rfl⟩ := decodeSpi_carries h
    exact ⟨label :: ops, hi, rfl⟩

/-- The decoder answers `i` and leaves `rest` exactly where the words are those the encoder writes for `i`, and then `rest`. -/
theorem decode_eq_ok_iff {e : Engine} {fmt : Format} {ws rest : List Nat} {i : Instr} :
    decode e fmt ws = .ok (i, rest) ↔ ∃ ops, encode i = ⟨e, fmt, ops⟩ ∧ ws = ops ++ rest := by
  refine ⟨encode_of_decode, fun ⟨ops, hi, hws⟩ => ?_⟩
  have h := decode_encode i rest
  rw [hi] at h
  rw [hws, h]

/-- A whole request: the encoder's words, padded with zeros. -/
theorem decodeRequest_eq_ok_iff {r : Request} {i : Instr} :
    decodeRequest r = .ok i ↔
      ∃ ops rest, encode i = ⟨r.engine, r.format, ops⟩ ∧ r.words = ops ++ rest ∧ rest.all (· == 0) = true := by
  simp only [decodeRequest]
  constructor
  · intro h
    cases hd : decode r.engine r.format r.words with
    | error why => rw [hd] at h; cases h
    | ok got =>
      obtain ⟨j, rest⟩ := got
      simp only [hd] at h
      split_ifs at h with hz
      cases h
      obtain ⟨ops, hi, hws⟩ := encode_of_decode hd
      exact ⟨ops, rest, hi, hws, hz⟩
  · rintro ⟨ops, rest, hi, hws, hz⟩
    simp only [decode_eq_ok_iff.mpr ⟨ops, hi, hws⟩, hz, if_true]

theorem decodeRequest_encode (i : Instr) : decodeRequest (encode i) = .ok i :=
  decodeRequest_eq_ok_iff.mpr ⟨(encode i).words, [], rfl, (List.append_nil _).symm, rfl⟩

/-- Every instruction has a first word: a frame, a header or a label. -/
theorem encode_words_ne_nil (i : Instr) : (encode i).words ≠ [] := by
  intro hnil
  have h := decode_encode i []
  rw [hnil] at h
  cases hf : (encode i).format <;> rw [hf] at h <;> cases h

/-- A request of one word that decodes is the encoding: there is no room for a zero behind it. -/
theorem encode_of_decodeRequest_word {e : Engine} {fmt : Format} {w : Nat} {i : Instr}
    (h : decodeRequest ⟨e, fmt, [w]⟩ = .ok i) : encode i = ⟨e, fmt, [w]⟩ := by
  obtain ⟨ops, rest, hi, hws, _⟩ := decodeRequest_eq_ok_iff.mp h
  have hne := encode_words_ne_nil i
  cases ops with
  | nil => rw [hi] at hne; exact absurd rfl hne
  | cons v ops =>
    obtain ⟨rfl, hnil⟩ := List.cons.inj hws
    obtain ⟨rfl, -⟩ := List.append_eq_nil_iff.mp hnil.symm
    exact hi

/-- An instruction runs on the engine its request names (R96). -/
theorem engine_of_decodeRequest {r : Request} {i : Instr} (h : decodeRequest r = .ok i) : i.engine = r.engine := by
  obtain ⟨ops, rest, hi, _⟩ := decodeRequest_eq_ok_iff.mp h
  rw [Instr.engine, hi]

/-- Settles O1: the decoder reads back what the encoder wrote, for every kind of row. -/
theorem decodeEncodeRoundTrip : Obligations.DecodeEncodeRoundTrip := fun i rest =>
  ⟨decode_encode i rest, decodeRequest_encode i⟩

/-- Settles O3: the decoder answers only where the word is the encoder's. -/
theorem frameAndHeaderDecodingLosesNoBit : Obligations.FrameAndHeaderDecodingLosesNoBit := fun _ _ _ =>
  ⟨encode_of_decodeRequest_word, encode_of_decodeRequest_word⟩

/-- Settles O2: each word is evaluated by the decoder. -/
theorem writtenOutWordsDecode : Obligations.WrittenOutWordsDecode :=
  ⟨rfl, rfl, rfl, rfl, rfl, rfl, rfl, rfl, rfl, rfl, rfl, rfl⟩

/-! ### What has no row (R96, R98, R116) -/

theorem decodeRequest_frame {w : Nat} (e : Engine) (hw : w < 2 ^ 32) :
    decodeRequest ⟨e, .frame32, [w]⟩ = decodeFrameRow e (decodeFrame (mask 32 w)) := by
  simp only [decodeRequest, decode, if_pos hw]
  cases decodeFrameRow e (decodeFrame (mask 32 w)) <;> rfl

/-- The pair of a word is reserved when its upper four bits are one of the ten (R116). -/
theorem classify_decodeFrame_eq_reserved_iff (w : U32) :
    classify (decodeFrame w).st (decodeFrame w).op = .reserved ↔
      2 ≤ w.toNat / 2 ^ 30 ∨ w.toNat / 2 ^ 28 = 0b0100 ∨ w.toNat / 2 ^ 28 = 0b0111 := by
  have := w.isLt
  have hst : (decodeFrame w).st.toNat = w.toNat / 2 ^ 30 := by
    rw [decodeFrame, extractLsb'_toNat_eq_div]
    omega
  have hop : (decodeFrame w).op.toNat = w.toNat / 2 ^ 28 % 4 := extractLsb'_toNat_eq_div w 28 2
  rw [classify_eq_reserved_iff, hst, hop]
  omega

theorem decodeRequest_frame_eq_reservedFrame_iff {w : Nat} (e : Engine) (hw : w < 2 ^ 32) :
    decodeRequest ⟨e, .frame32, [w]⟩ = .error .reservedFrame ↔
      2 ≤ w / 2 ^ 30 ∨ w / 2 ^ 28 = 0b0100 ∨ w / 2 ^ 28 = 0b0111 := by
  rw [decodeRequest_frame e hw, decodeFrameRow_eq_reservedFrame_iff, classify_decodeFrame_eq_reserved_iff,
    mask_toNat_of_lt hw]

/-- The labels of R96. -/
def labels : List Nat := [0x00, 0x01, 0x10, 0x11, 0x12, 0x13, 0x14, 0x15, 0x20, 0x21, 0x22, 0x23, 0x24, 0x25]

theorem decodeBitbang_unknown {label : Nat} (h : label ∉ labels) (ws : List Nat) :
    decodeBitbang label ws = .error (.unknownLabel label) := by
  unfold decodeBitbang
  split
  case h_15 => rfl
  all_goals exact absurd (by decide) h

theorem decodeSpi_unknown {label : Nat} (h : label ∉ labels) (ws : List Nat) :
    decodeSpi label ws = .error (.unknownLabel label) := by
  unfold decodeSpi
  split
  case h_15 => rfl
  all_goals exact absurd (by decide) h

/-- Settles O4: the frame rows leave out exactly the reserved pairs, and each engine's table has only the labels of R96. -/
theorem reservedCodesAreRejected : Obligations.ReservedCodesAreRejected := by
  refine ⟨fun e w hw => decodeRequest_frame_eq_reservedFrame_iff e hw, fun e label ws hlabel => ?_⟩
  cases e with
  | bitbang => simp only [decodeRequest, decode, decodeBitbang_unknown hlabel]
  | spi => simp only [decodeRequest, decode, decodeSpi_unknown hlabel]

end Sys2Proof
end

section
/-! Encoding (spec/30_encoding.md): a step that takes a word of the opcode table runs its instruction, and a step that takes a
word without a row sends it (R98, R117, R194). A single frame and a header word are said once, for every frame. -/

namespace Sys2Proof.Machine

open Codec

/-! ### A word of the opcode table -/

theorem decodeTableWord_eq_some_iff {nbits w : Nat} {i : Instr} :
    decodeTableWord nbits w = some i ↔ ∃ r, tableRequest nbits w = some r ∧ decodeRequest r = .ok i := by
  simp only [decodeTableWord]
  cases tableRequest nbits w with
  | none => simp
  | some r => cases hd : decodeRequest r <;> simp [hd]

theorem State.withFetchWord_eq {nbits w : Nat} {r : Request} (hr : tableRequest nbits w = some r) (s : State) :
    s.withFetchWord nbits w = s.withRequests (r :: s.requests) := by
  simp only [State.withFetchWord, hr, State.withRequests]

/-- Settles O19: the word's request is first in the list, and it names the engine of its instruction. -/
theorem tableWordIsRun : Obligations.TableWordIsRun := by
  intro s nbits w i hword hc
  obtain ⟨r, hr, hd⟩ := decodeTableWord_eq_some_iff.mp hword
  rw [engine_of_decodeRequest hd] at hc
  rw [State.withFetchWord_eq hr]
  exact stepRunsTheDecodedCommand (s.withRequests (r :: s.requests)) r s.requests i rfl hc hd

/-! ### A word without a row, taken -/

/-- A step that takes a frame or header word without a row sends it (R98). -/
theorem step_unlisted {s : State} {r : Request} {rest : List Request} {why : Reject} {f : Frame}
    (hs : s.requests = r :: rest) (hc : s.board.contended r.engine = false) (hd : decodeRequest r = .error why)
    (hf : requestedFrame r = some f) : step s = sendUnlisted r.engine r.format f (s.withRequests rest) := by
  simp only [step, State.take, hs, hc, hd, hf, Bool.false_eq_true, if_false]

/-- A command of the host is no frame and no header word (R99, R130). -/
theorem requestedFrame_of_fromHost {r : Request} (h : r.fromHost = true) : requestedFrame r = none := by
  obtain ⟨e, fmt, ws⟩ := r
  obtain rfl : fmt = .cmd8 := by simpa [Request.fromHost] using h
  cases ws <;> rfl

theorem requestedFrame_frame {w : Nat} (e : Engine) (hw : w < 2 ^ 32) :
    requestedFrame ⟨e, .frame32, [w]⟩ = some (decodeFrame (mask 32 w)) := by
  simp only [requestedFrame, hw, List.all_nil, and_self, if_true]

theorem requestedFrame_header {w : Nat} (hw : w < 2 ^ 16) :
    requestedFrame ⟨.spi, .hdr16, [w]⟩ = some (frameOfHeader (mask 16 w)) := by
  simp only [requestedFrame, hw, List.all_nil, and_self, if_true, decodeHeader_eq_frameOfHeader]
  rfl

/-! ### The open check (R144, R209) -/

theorem bbTransact_closed {s : State} (ho : s.bb.isOpen = false) (ts : List Transaction) (shape : Shape) :
    bbTransact ts shape s = .next (s.withBB (s.bb.raise .notOpen)) := by
  simp only [bbTransact, bbCommand, ho, Bool.false_eq_true, if_false]

theorem sfCommand_closed {s : State} (ho : s.sf.isOpen = false) (ops : List SpiOp) (value : List U16 → Value) :
    sfCommand ops value s = .next (s.withSF (s.sf.raise .notOpen)) := by
  simp only [sfCommand, ho, Bool.false_eq_true, if_false]

/-! ### A single frame and a header word on a ready engine -/

/-- R142: a write-class frame is sent with the turnaround `10` whatever its own. -/
theorem sendFrame_bitbang_write {s : State} (hr : s.bb.Ready) {f : Frame} (hf : isReadClass f.op = false) :
    sendFrame .bitbang f s =
      .next (s.withBB (s.bb.completed (writeFrameEvents (encodeFrame { f with ta := Config.taWrite }).toNat)
        (f.data.toNat.testBit 0) .unit)) := by
  have ⟨_, hd, hq⟩ := hr
  have hsent := BB.sends_writeFrame hq hd .normative 0 hf (writeFrame_events f hf _ rfl)
  have hsends : s.bb.Sends 0 (bbFrames s.switches [f]) 0
      (writeFrameEvents (encodeFrame { f with ta := Config.taWrite }).toNat) (f.data.toNat.testBit 0) [] := by
    simpa [bbFrames, Prim.bbNextFrame, nextWriteEvents, Switches.normative] using hsent
  have h := bbTransact_of_sends hr (t := ⟨[f], false⟩) rfl hsends .unit
  simpa [sendFrame, hf, assemble] using h

/-- R143: a read-class frame sends its fourteen header bits and returns the word sampled. -/
theorem sendFrame_bitbang_read {s : State} (hr : s.bb.Ready) {f : Frame} (hf : isReadClass f.op = true) :
    sendFrame .bitbang f s =
      .next (s.withBB (s.bb.completed (readFrameEvents ((encodeFrame f).toNat / 2 ^ 18) (s.bb.window 0 18)) true
        (.u16 (wordOfBits (s.bb.window 2 16))))) := by
  have ⟨_, hd, hq⟩ := hr
  have hsent := BB.sends_readFrame hq hd .normative 0 hf (readFrame_events f hf _ rfl)
  have hsends : s.bb.Sends 0 (bbFrames s.switches [f]) 18
      (readFrameEvents ((encodeFrame f).toNat / 2 ^ 18) (s.bb.window 0 18)) true (s.bb.window 2 16) := by
    simpa [bbFrames, Prim.bbNextFrame, nextReadEvents, Switches.normative] using hsent
  have h := bbTransact_of_sends hr (t := ⟨[f], false⟩) rfl hsends .u16
  have hone : readsIn [f] = 1 := by simp [readsIn, hf]
  rw [hone, wordsOfSamples_one (by simp)] at h
  simpa [sendFrame, hf, assemble] using h

/-- R197: a frame is its preamble, its header and its data phase, at the spec's switches. -/
theorem sendFrame_spi {s : State} (hr : s.sf.Ready) (hsw : s.switches = Switches.normative) (f : Frame) :
    sendFrame .spi f s =
      .next (s.withSF (s.sf.completed (frameWords f)
        (if isReadClass f.op then .u16 (BitVec.ofNat 16 (s.sf.wordAt 2)) else .unit))) := by
  have ⟨_, hc, hq⟩ := hr
  have hwrite : s.switches.sfWriteDataIsHeader = false := congrArg Switches.sfWriteDataIsHeader hsw
  cases hf : isReadClass f.op with
  | false =>
    have hwords : frameWords f = [(32, 0xFFFFFFFF), (16, (sfHeader f).toNat), (16, f.data.toNat)] := by simp [frameWords, hf]
    have hsent := SF.sends_writeFrame hq hc s.switches 0 hf hwords
    have h := sfTransact_of_sends hr ⟨[f], false⟩ (by simpa [sfFrames, writeWord, hwrite] using hsent) .unit
    simpa [sendFrame, hf, assemble, hwords] using h
  | true =>
    have hwords : frameWords f = [(32, 0xFFFFFFFF), (16, (sfHeader f).toNat), (16, 0xFFFF)] := by simp [frameWords, hf]
    have hsent := SF.sends_readFrame hq hc s.switches 0 hf hwords
    have h := sfTransact_of_sends hr ⟨[f], false⟩ (by simpa [sfFrames] using hsent) .u16
    simpa [sendFrame, hf, assemble, hwords] using h

/-- R194: a header word is one transfer, and the word received is discarded. -/
theorem sendHeader_ready {s : State} (hr : s.sf.Ready) (f : Frame) :
    sendHeader f s = .next (s.withSF (s.sf.completed [(16, (sfHeader f).toNat)] .unit)) := by
  obtain ⟨ho, hc, hq⟩ := hr
  have hsends := (SF.sends_xfer hq hc 0 (n := 16) (.inl rfl) (sfHeader f).isLt false).frameMark
  obtain ⟨q, hrun⟩ := hsends.2 s.sf.seq.nextElement [] rfl
  have hstart : s.sf.perform .element = .done (s.sf.advanced s.sf.seq.nextElement []) [] :=
    congrArg (fun f => Ran.done f []) (SF.advanced_nil { s.sf with seq := s.sf.seq.nextElement }).symm
  have hall : s.sf.run (.element :: .frame :: Prim.sfSendHeader f) =
      .done (s.sf.advanced q [(16, (sfHeader f).toNat)]) [] := runOps_cons_done hstart hrun
  simp only [sendHeader, sfCommand, ho, if_true, hall]
  rfl

/-! ### The frame of a 32-bit word and of a header word, in numbers -/

/-- The class of a frame is its bit 29, which is `OP[1]` (R117). -/
theorem isReadClass_decodeFrame (w : Nat) : isReadClass (decodeFrame (mask 32 w)).op = w.testBit 29 := by
  simp only [isReadClass, decodeFrame, mask, BitVec.getLsbD_extractLsb', BitVec.getLsbD_ofNat]
  rfl

/-- The class of a header word is its bit 13, which is `OP[1]` (R117). -/
theorem isReadClass_frameOfHeader (w : Nat) : isReadClass (frameOfHeader (mask 16 w)).op = w.testBit 13 := by
  simp only [isReadClass, frameOfHeader, mask, BitVec.getLsbD_extractLsb', BitVec.getLsbD_ofNat]
  rfl

theorem decodeFrame_data_toNat (w : Nat) : (decodeFrame (mask 32 w)).data.toNat = w % 65536 := by
  simp only [decodeFrame, extractLsb'_toNat_eq_div, mask_toNat]
  omega

section
variable {w : Nat} (hw : w < 2 ^ 32)
include hw

theorem encodeFrame_decodeFrame_toNat : (encodeFrame (decodeFrame (mask 32 w))).toNat = w := by
  rw [encodeFrame_decodeFrame, mask_toNat_of_lt hw]

theorem headerOf_decodeFrame_toNat : (headerOf (decodeFrame (mask 32 w))).toNat = w / 2 ^ 16 := by
  have hword := encodeFrame_decodeFrame_toNat hw
  rw [encodeFrame_toNat, decodeFrame_data_toNat] at hword
  omega

/-- The frame with the turnaround `10` in the place of its own. -/
theorem encodeFrame_taWrite_toNat :
    (encodeFrame { decodeFrame (mask 32 w) with ta := Config.taWrite }).toNat =
      w / 2 ^ 18 * 2 ^ 18 + 0x20000 + w % 65536 := by
  have hheader := headerOf_decodeFrame_toNat hw
  have hdata := decodeFrame_data_toNat w
  generalize decodeFrame (mask 32 w) = f at hheader hdata ⊢
  have hta : Config.taWrite.toNat = 2 := rfl
  have := f.ta.isLt
  rw [headerOf_toNat] at hheader
  simp only [encodeFrame_toNat, headerOf_toNat, hta]
  omega

/-- The words of a frame on the SPI-framed engine (R90). -/
theorem frameWords_decodeFrame :
    frameWords (decodeFrame (mask 32 w)) =
      if w.testBit 29 then [(32, 0xFFFFFFFF), (16, w / 2 ^ 18 * 4 + 3), (16, 0xFFFF)]
      else [(32, 0xFFFFFFFF), (16, w / 2 ^ 16), (16, w % 65536)] := by
  have hfour : w / 2 ^ 16 / 4 = w / 2 ^ 18 := by omega
  rw [frameWords, sfHeader_toNat_eq_headerOf, isReadClass_decodeFrame, headerOf_decodeFrame_toNat hw,
    decodeFrame_data_toNat, hfour]
  cases w.testBit 29 <;> rfl

end

/-- The word `sf_send_header` sends for a header word (R121, R194). -/
theorem sfHeader_frameOfHeader_toNat {w : Nat} (hw : w < 2 ^ 16) :
    (sfHeader (frameOfHeader (mask 16 w))).toNat = if w.testBit 13 then w / 4 * 4 + 3 else w := by
  rw [sfHeader_toNat_eq_headerOf, isReadClass_frameOfHeader, headerOf_frameOfHeader, mask_toNat_of_lt hw]

/-! ### What a step does with a word without a row -/

section
variable {s : State} {w : Nat} {rest : List Request}

/-- A frame with a reserved pair, as a step of its engine. -/
theorem step_reserved {e : Engine} (hw : w < 2 ^ 32)
    (hreserved : 2 ≤ w / 2 ^ 30 ∨ w / 2 ^ 28 = 0b0100 ∨ w / 2 ^ 28 = 0b0111)
    (hs : s.requests = ⟨e, .frame32, [w]⟩ :: rest) (hc : s.board.contended e = false) :
    step s = sendFrame e (decodeFrame (mask 32 w)) (s.withRequests rest) :=
  step_unlisted hs hc ((decodeRequest_frame_eq_reservedFrame_iff e hw).mpr hreserved) (requestedFrame_frame e hw)

/-- R142, R143: a frame given as a 32-bit word, on a ready bit-bang engine. -/
theorem sendFrame_bitbang_word (hr : s.bb.Ready) (hw : w < 2 ^ 32) :
    sendFrame .bitbang (decodeFrame (mask 32 w)) s =
      .next (s.withBB
        (if w.testBit 29 then
          s.bb.completed (readFrameEvents (w / 2 ^ 18) (s.bb.window 0 18)) true (.u16 (wordOfBits (s.bb.window 2 16)))
        else s.bb.completed (writeFrameEvents (w / 2 ^ 18 * 2 ^ 18 + 0x20000 + w % 65536)) (w.testBit 0) .unit)) := by
  have hclass := isReadClass_decodeFrame w
  cases hbit : w.testBit 29 with
  | false =>
    have hdrive : (w % 65536).testBit 0 = w.testBit 0 := testBit_zero_mod w
    rw [sendFrame_bitbang_write hr (hclass.trans hbit), encodeFrame_taWrite_toNat hw, decodeFrame_data_toNat, hdrive]
    rfl
  | true =>
    rw [sendFrame_bitbang_read hr (hclass.trans hbit), encodeFrame_decodeFrame_toNat hw]
    rfl

/-- R197: a frame given as a 32-bit word, on a ready SPI-framed engine. -/
theorem sendFrame_spi_word (hr : s.sf.Ready) (hsw : s.switches = Switches.normative) (hw : w < 2 ^ 32) :
    sendFrame .spi (decodeFrame (mask 32 w)) s =
      .next (s.withSF
        (if w.testBit 29 then
          s.sf.completed [(32, 0xFFFFFFFF), (16, w / 2 ^ 18 * 4 + 3), (16, 0xFFFF)] (.u16 (BitVec.ofNat 16 (s.sf.wordAt 2)))
        else s.sf.completed [(32, 0xFFFFFFFF), (16, w / 2 ^ 16), (16, w % 65536)] .unit)) := by
  rw [sendFrame_spi hr hsw, frameWords_decodeFrame hw, isReadClass_decodeFrame]
  cases w.testBit 29 <;> rfl

end

/-- Settles O60: a reserved pair goes to the frame primitive of its engine and a header word to `sf_send_header`; each begins
with the open check. -/
theorem framesWithoutARowAreSent : Obligations.FramesWithoutARowAreSent := by
  refine ⟨fun r hr => requestedFrame_of_fromHost hr, fun s e w rest hw hreserved hs hc => ?_,
    fun s w why rest hw hd hs hc => ?_⟩
  · rw [step_reserved hw hreserved hs hc]
    refine ⟨?_, ?_, ?_, ?_⟩
    · rintro rfl ho
      exact bbTransact_closed (s := s.withRequests rest) ho _ _
    · rintro rfl ho
      exact sfCommand_closed (s := s.withRequests rest) ho _ _
    · rintro rfl hr
      exact sendFrame_bitbang_word (s := s.withRequests rest) hr hw
    · rintro rfl hr hsw
      exact sendFrame_spi_word (s := s.withRequests rest) hr hsw hw
  · have hstep : step s = sendHeader (frameOfHeader (mask 16 w)) (s.withRequests rest) :=
      step_unlisted hs hc hd (requestedFrame_header hw)
    rw [hstep]
    refine ⟨fun ho => sfCommand_closed (s := s.withRequests rest) ho _ _, fun hr => ?_⟩
    rw [sendHeader_ready (s := s.withRequests rest) hr, sfHeader_frameOfHeader_toNat hw]
    rfl

end Sys2Proof.Machine
end

section
/-! The frame codec (spec/40_frame_codec.md, R111 to R121): where headers and frames hold their fields, the round trips, the
header run before the turnaround, the SPI header word, dwords, kinds and the frame constructors. -/

namespace Sys2Proof.Codec

/-! ### Headers (R111, R112, R115) -/

/-- `encode_header` masks its operands, so it is the header of the frame record with the masked fields. -/
theorem encodeHeader_eq_headerOf (st op pad dad ta : Nat) (data : U16) :
    encodeHeader st op pad dad ta = headerOf ⟨mask 2 st, mask 2 op, mask 5 pad, mask 5 dad, mask 2 ta, data⟩ := by
  simp only [headerOf, encodeHeader, mask_of_toNat]

/-- The header of a frame is the upper half of its 32 bits (R113). -/
theorem encodeFrame_upper_half (f : Frame) : (encodeFrame f).extractLsb' 16 16 = headerOf f := by
  apply BitVec.eq_of_toNat_eq
  have := (headerOf f).isLt
  have := f.data.isLt
  rw [extractLsb'_toNat_eq_div, encodeFrame_toNat]
  omega

/-- A field of a field is a field. -/
theorem extractLsb'_extractLsb'_of_le {n j k m l : Nat} (x : BitVec n) (h : k + m ≤ l) :
    (x.extractLsb' j l).extractLsb' k m = x.extractLsb' (j + k) m := by
  apply BitVec.eq_of_getLsbD_eq
  intro i hi
  have : k + i < l := by omega
  simp [this, Nat.add_assoc]

/-- `decode_header` reads off the upper half what `decode_frame` reads off the frame (R112, R114). -/
theorem frameOfHeader_upper_half (w : U32) :
    frameOfHeader (w.extractLsb' 16 16) = { decodeFrame w with data := 0 } := by
  simp [frameOfHeader, decodeFrame, extractLsb'_extractLsb'_of_le]

/-- Decoding the header of a frame gives its five header fields back: the frame's round trip, seen in the upper half. -/
theorem decodeHeader_headerOf (f : Frame) : decodeHeader (headerOf f) = (f.st, f.op, f.pad, f.dad, f.ta) := by
  rw [decodeHeader_eq_frameOfHeader, ← encodeFrame_upper_half, frameOfHeader_upper_half, decodeFrame_encodeFrame]

theorem decodeHeader_encodeHeader (st op pad dad ta : Nat) :
    decodeHeader (encodeHeader st op pad dad ta) = (mask 2 st, mask 2 op, mask 5 pad, mask 5 dad, mask 2 ta) := by
  rw [encodeHeader_eq_headerOf st op pad dad ta 0, decodeHeader_headerOf]

theorem encodeHeader_of_decodeHeader {h : U16} {st op : U2} {pad dad : U5} {ta : U2}
    (hd : decodeHeader h = (st, op, pad, dad, ta)) :
    encodeHeader st.toNat op.toNat pad.toNat dad.toNat ta.toNat = h := by
  cases hd
  exact headerOf_frameOfHeader h

/-- `encode_frame` has `decode_frame` as a left inverse. -/
theorem encodeFrame_injective : Function.Injective encodeFrame :=
  Function.LeftInverse.injective decodeFrame_encodeFrame

/-- Settles O8: each codec is the other's inverse, on headers up to the masks. -/
theorem codecRoundTrips : Obligations.CodecRoundTrips :=
  ⟨encodeFrame_decodeFrame, decodeFrame_encodeFrame, decodeHeader_encodeHeader,
    fun _ _ _ _ _ _ hd => encodeHeader_of_decodeHeader hd, fun _ _ h => encodeFrame_injective h⟩

/-- Settles O6: `encodeHeader_toNat` with the places multiplied out; the corner cases and the example are computed. -/
theorem encodeHeaderPlacesFields : Obligations.EncodeHeaderPlacesFields := by
  refine ⟨fun st op pad dad ta => ?_, by decide, by decide, by decide, by decide, by decide, by decide, by decide,
    by decide, by decide⟩
  rw [encodeHeader_toNat]
  ring

/-! ### Frames (R113, R114) -/

theorem encodeFrame_toNat_eq_sum (f : Frame) :
    (encodeFrame f).toNat =
      f.st.toNat * 2 ^ 30 + f.op.toNat * 2 ^ 28 + f.pad.toNat * 2 ^ 23 + f.dad.toNat * 2 ^ 18 + f.ta.toNat * 2 ^ 16
        + f.data.toNat := by
  rw [encodeFrame_toNat, headerOf_toNat]
  ring

/-- ST is the topmost field: nothing stands above it to be masked away. -/
theorem decodeFrame_st_toNat (w : U32) : (decodeFrame w).st.toNat = w.toNat / 2 ^ 30 := by
  have := w.isLt
  rw [decodeFrame, extractLsb'_toNat_eq_div]
  omega

theorem decodeFrame_data_toNat_eq_mod (w : U32) : (decodeFrame w).data.toNat = w.toNat % 2 ^ 16 := by
  rw [decodeFrame, extractLsb'_toNat_eq_div, pow_zero, Nat.div_one]

/-- Settles O7: the sum of the fields one way, the quotients of the word the other way. -/
theorem frameFieldPlaces : Obligations.FrameFieldPlaces :=
  ⟨encodeFrame_toNat_eq_sum,
    fun w => ⟨decodeFrame_st_toNat w, extractLsb'_toNat_eq_div w 28 2, extractLsb'_toNat_eq_div w 23 5,
      extractLsb'_toNat_eq_div w 18 5, extractLsb'_toNat_eq_div w 16 2, decodeFrame_data_toNat_eq_mod w⟩,
    by decide, by decide⟩

/-! ### The header bits before the turnaround (R118) -/

theorem header14_toNat (st op pad dad : Nat) :
    (header14 st op pad dad).toNat = ((st % 4 * 4 + op % 4) * 32 + pad % 32) * 32 + dad % 32 := by
  rw [header14, extractLsb'_toNat_eq_div, encodeHeader_toNat]
  omega

/-- The first of the fourteen bits on the wire is `st[1]`. -/
theorem header14_first_bit (st op pad dad : Nat) : (header14 st op pad dad).getLsbD 13 = (mask 2 st).getLsbD 1 := by
  have htop : (header14 st op pad dad).toNat / 2 ^ 13 % 2 = (mask 2 st).toNat / 2 ^ 1 % 2 := by
    rw [header14_toNat, mask_toNat]
    omega
  simp only [BitVec.getLsbD, Nat.testBit_eq_decide_div_mod_eq, htop]

/-- The last of the fourteen bits on the wire is `dad[0]`. -/
theorem header14_last_bit (st op pad dad : Nat) : (header14 st op pad dad).getLsbD 0 = (mask 5 dad).getLsbD 0 := by
  have hlow : (header14 st op pad dad).toNat / 2 ^ 0 % 2 = (mask 5 dad).toNat / 2 ^ 0 % 2 := by
    rw [header14_toNat, mask_toNat]
    omega
  simp only [BitVec.getLsbD, Nat.testBit_eq_decide_div_mod_eq, hlow]

/-! ### The SPI header word (R121) -/

/-- Settles O10: `decodeHeader_sfHeader`, with the read class and the forced turnaround written out. -/
theorem spiHeaderTurnaround : Obligations.SpiHeaderTurnaround :=
  ⟨decodeHeader_sfHeader, by decide, by decide, by decide, by decide⟩

end Sys2Proof.Codec

namespace Sys2Proof.Machine

open Codec Operands

/-! ### The header run on the wire (R118, R139) -/

/-- Two values written one after the other are written as their concatenation (R134). -/
theorem writeBits_append (m n a b : Nat) (h : b < 2 ^ n) :
    Prim.writeBits a m ++ Prim.writeBits b n = Prim.writeBits (a * 2 ^ n + b) (m + n) := by
  simp only [Prim.writeBits]
  rw [← List.flatMap_append, bitsOf_append m n a b h]

/-- The four fields `send_header14` writes one after the other (R139) are one run of fourteen bits. -/
theorem sendHeader14_eq_writeBits (f : Frame) :
    Prim.sendHeader14 f =
      Prim.writeBits (header14 f.st.toNat f.op.toNat f.pad.toNat f.dad.toNat).toNat 14 := by
  have hst := f.st.isLt; have hop := f.op.isLt; have hpad := f.pad.isLt; have hdad := f.dad.isLt
  have hrun : (header14 f.st.toNat f.op.toNat f.pad.toNat f.dad.toNat).toNat =
      ((f.st.toNat * 2 ^ 2 + f.op.toNat) * 2 ^ 5 + f.pad.toNat) * 2 ^ 5 + f.dad.toNat := by
    rw [header14_toNat]
    omega
  rw [hrun, Prim.sendHeader14, Config.stBits, Config.opBits, Config.padBits, Config.dadBits,
    writeBits_append _ _ _ _ hop, writeBits_append _ _ _ _ hpad, writeBits_append _ _ _ _ hdad]

/-- Settles O9: the ends of the run are bits of the sum of its fields, and the fields written in turn are the run. -/
theorem headerBitsBeforeTurnaround : Obligations.HeaderBitsBeforeTurnaround :=
  ⟨fun st op pad dad => ⟨rfl, header14_first_bit st op pad dad, header14_last_bit st op pad dad⟩,
    sendHeader14_eq_writeBits, by decide, by decide⟩

/-! ### Dwords (R120) -/

theorem joinDword_toNat (lo hi : U16) : (joinDword lo hi).toNat = hi.toNat * 2 ^ 16 + lo.toNat := by
  have := lo.isLt; have := hi.isLt
  rw [joinDword_eq, BitVec.toNat_ofNat]
  omega

theorem joinDword_splitDword (x : Nat) : joinDword (splitDword x).1 (splitDword x).2 = mask 32 x := by
  apply BitVec.eq_of_toNat_eq
  rw [joinDword_toNat, splitDword_low, splitDword_high, mask_toNat]
  omega

/-- Settles O11: the halves are the quotient and the remainder by `2 ^ 16`, and `|` adds them. -/
theorem dwordSplitAndJoin : Obligations.DwordSplitAndJoin := by
  refine ⟨fun x => ⟨?low, mask_toNat 16 (x >>> 16)⟩, fun lo hi => ?join, joinDword_splitDword, by decide, by decide, by decide⟩
  case low => rw [splitDword_low, show 0xFFFF = 2 ^ 16 - 1 from rfl, Nat.and_two_pow_sub_one_eq_mod]
  case join => rw [joinDword_toNat, Nat.shiftLeft_eq, or_eq_add _ _ _ lo.isLt]

/-! ### Kinds, classes and constructors (R92, R116, R117, R119) -/

theorem classify_eq_reserved_iff_pair : ∀ st op : U2,
    classify st op = .reserved ↔ 2 ≤ st.toNat ∨ (st = 1 ∧ (op = 0 ∨ op = 3)) := by
  decide

/-- The read class is the upper half of the four opcodes. -/
theorem isReadClass_iff : ∀ op : U2, isReadClass op = true ↔ op = 0b10 ∨ op = 0b11 := by
  decide

/-- The frames R119 makes of the operands `p`, `r` and `v`. -/
def constructedFrames (p r v : Nat) : List Frame :=
  [c22Write p r v, c22Read p r, c45Address p r v, c45Write p r v, c45ReadInc p r, c45Read p r]

/-- A constructor chooses ST and OP only: the other fields are the masked operands and the turnaround `10`, the data word
standing at 0 where the frame is read. -/
theorem eq_of_mem_constructedFrames {p r v : Nat} : ∀ f ∈ constructedFrames p r v,
    f = ⟨f.st, f.op, mask 5 p, mask 5 r, Config.taWrite, if isReadClass f.op then 0 else mask 16 v⟩ := by
  intro f hf
  simp only [constructedFrames, List.mem_cons, List.not_mem_nil, or_false] at hf
  obtain rfl | rfl | rfl | rfl | rfl | rfl := hf
  · rw [isReadClass_c22Write]; rfl
  · rw [isReadClass_c22Read]; rfl
  · rw [isReadClass_c45Address]; rfl
  · rw [isReadClass_c45Write]; rfl
  · rw [isReadClass_c45ReadInc]; rfl
  · rw [isReadClass_c45Read]; rfl

theorem constructedFrames_fields {p r v : Nat} {f : Frame} (hf : f ∈ constructedFrames p r v) :
    f.pad.toNat = p % 32 ∧ f.dad.toNat = r % 32 ∧ f.ta = 0b10 ∧
      f.data.toNat = if isReadClass f.op then 0 else v % 65536 := by
  rw [eq_of_mem_constructedFrames f hf]
  refine ⟨mask_toNat 5 p, mask_toNat 5 r, rfl, ?_⟩
  cases isReadClass f.op with
  | true => rfl
  | false => exact mask_toNat 16 v

/-- Settles O12: the kind of a frame depends on its opcode constants only (`classify_opcodes`), its fields on the operands
only (`constructedFrames_fields`). -/
theorem frameKindsAndConstructors : Obligations.FrameKindsAndConstructors :=
  ⟨classify_eq_reserved_iff_pair, isReadClass_iff, fun _ _ _ => classify_opcodes, fun _ _ _ _ hf => constructedFrames_fields hf⟩

end Sys2Proof.Machine
end

section
/-! Opening and closing the bit-bang engine (R137, R138) and the open check of every other command (R144, R209). -/

namespace Sys2Proof.Machine

/-! ### A call, from the next answer of the environment (R38) -/

theorem BB.attempt_of_getD_none {b : BB} (h : b.env.failures.getD 0 none = none) (call : BB → Ran BB Level) :
    b.attempt call = call b.spent := by
  cases hf : b.env.failures with
  | nil =>
    have hspent : b.spent = b := by simp only [BB.spent, hf, List.tail_nil]; rw [← hf]
    rw [BB.attempt_nil hf, hspent]
  | cons x rest =>
    rw [hf] at h
    obtain rfl : x = none := h
    rw [BB.attempt_none hf, BB.withFailures, BB.spent, hf]
    rfl

theorem BB.attempt_of_getD_some {b : BB} {f : OsFailure} (h : b.env.failures.getD 0 none = some f)
    (call : BB → Ran BB Level) : b.attempt call = .failed b.spent (.transportIO f) := by
  cases hf : b.env.failures with
  | nil => rw [hf] at h; cases h
  | cons x rest =>
    rw [hf] at h
    obtain rfl : x = some f := h
    rw [BB.attempt_some hf, BB.withFailures, BB.spent, hf]
    rfl

theorem BB.spent_failures_getD (b : BB) : b.spent.env.failures.getD 0 none = b.env.failures.getD 1 none := by
  simp [BB.spent]

/-- The answers of the environment to the two calls of `bb.open` and `bb.close`. -/
theorem BB.two_answers (b : BB) :
    (b.env.failures.getD 0 none = none ∧ b.env.failures.getD 1 none = none) ∨
    ∃ f, b.env.failures.getD 0 none = some f ∨ (b.env.failures.getD 0 none = none ∧ b.env.failures.getD 1 none = some f) := by
  cases h0 : b.env.failures.getD 0 none with
  | some f => exact .inr ⟨f, .inl rfl⟩
  | none =>
    cases h1 : b.env.failures.getD 1 none with
    | some f => exact .inr ⟨f, .inr ⟨rfl, rfl⟩⟩
    | none => exact .inl ⟨rfl, rfl⟩

/-! ### `bb.open` (R137) -/

section
variable {b : BB} {f : OsFailure}

theorem BB.openClk_of_none (h : b.env.failures.getD 0 none = none) :
    b.openClk = .done { b.spent with clk := Line.openAs .output false .none } [] :=
  BB.attempt_of_getD_none h _

theorem BB.openClk_of_some (h : b.env.failures.getD 0 none = some f) : b.openClk = .failed b.spent (.transportIO f) :=
  BB.attempt_of_getD_some h _

theorem BB.openData_of_none (h : b.env.failures.getD 0 none = none) :
    b.openData = .done
      { b.spent with data := Line.openAs .output true .pullUp, isOpen := true, trace := b.trace ++ [.opened] } [] :=
  BB.attempt_of_getD_none h _

theorem BB.openData_of_some (h : b.env.failures.getD 0 none = some f) : b.openData = .failed b.spent (.transportIO f) :=
  BB.attempt_of_getD_some h _

end

theorem execBbOpen_of_open {s : State} (ho : s.bb.isOpen = true) :
    execBbOpen s = .next (s.withBB (s.bb.raise .alreadyOpen)) := by
  rw [execBbOpen_eq, if_pos ho]

/-- Both lines can be claimed. -/
theorem execBbOpen_of_success {s : State} (ho : s.bb.isOpen = false) (h0 : s.bb.env.failures.getD 0 none = none)
    (h1 : s.bb.env.failures.getD 1 none = none) :
    execBbOpen s = .next (s.withBB
      { s.bb with
        isOpen := true
        clk := Line.openAs .output false .none
        data := Line.openAs .output true .pullUp
        seq := .idle
        trace := s.bb.trace ++ [.opened]
        results := s.bb.results ++ [.ok .unit]
        env := { s.bb.env with failures := s.bb.env.failures.drop 2 } }) := by
  have hdata := BB.openData_of_none (b := { s.bb.spent with clk := Line.openAs .output false .none })
    (s.bb.spent_failures_getD.trans h1)
  rw [execBbOpen_eq, if_neg (by simp [ho]), BB.openClk_of_none h0]
  simp only [Ran.outcome, hdata]
  simp only [BB.spent, BB.deliver, ← List.drop_one, List.drop_drop]

/-- One of the lines cannot be claimed: neither is. -/
theorem execBbOpen_of_failure {s : State} {f : OsFailure} (ho : s.bb.isOpen = false)
    (hf : s.bb.env.failures.getD 0 none = some f ∨
      (s.bb.env.failures.getD 0 none = none ∧ s.bb.env.failures.getD 1 none = some f)) :
    ∃ b : BB, execBbOpen s = .next (s.withBB (b.unclaimed.raise (.transportIO f))) ∧ b.isOpen = false ∧
      b.trace = s.bb.trace ∧ b.results = s.bb.results := by
  rw [execBbOpen_eq, if_neg (by simp [ho])]
  rcases hf with h0 | ⟨h0, h1⟩
  · rw [BB.openClk_of_some h0]
    exact ⟨s.bb.spent, rfl, ho, rfl, rfl⟩
  · have hdata := BB.openData_of_some (b := { s.bb.spent with clk := Line.openAs .output false .none })
      (s.bb.spent_failures_getD.trans h1)
    rw [BB.openClk_of_none h0]
    simp only [Ran.outcome, hdata]
    exact ⟨_, rfl, ho, rfl, rfl⟩

/-- Settles O20: the four ways `bb.open` goes, by the engine and the answers to its two calls. -/
theorem bbOpen : Obligations.BbOpen := by
  refine fun s => ⟨execBbOpen_of_open, execBbOpen_of_success, fun f ho hf => ?_⟩
  obtain ⟨b, hexec, hclosed, htrace, hresults⟩ := execBbOpen_of_failure ho hf
  exact ⟨_, hexec, hclosed, rfl, rfl, htrace, congrArg (· ++ [_]) hresults⟩

/-! ### `bb.close` (R138) -/

section
variable {b : BB} {f : OsFailure}

theorem BB.closeData_of_none (h : b.env.failures.getD 0 none = none) :
    b.closeData = .done { b.spent with data := Line.released b.free, free := b.free + 1 } [] :=
  BB.attempt_of_getD_none h _

theorem BB.closeData_of_some (h : b.env.failures.getD 0 none = some f) : b.closeData = .failed b.spent (.transportIO f) :=
  BB.attempt_of_getD_some h _

theorem BB.closeClk_of_none (h : b.env.failures.getD 0 none = none) :
    b.closeClk = .done
      { b.spent with clk := Line.released b.free, free := b.free + 1, isOpen := false, trace := b.trace ++ [.closed] } [] :=
  BB.attempt_of_getD_none h _

theorem BB.closeClk_of_some (h : b.env.failures.getD 0 none = some f) : b.closeClk = .failed b.spent (.transportIO f) :=
  BB.attempt_of_getD_some h _

end

theorem execBbClose_of_closed {s : State} (ho : s.bb.isOpen = false) :
    execBbClose s = .next (s.withBB (s.bb.deliver (.ok .unit))) := by
  rw [execBbClose_eq, if_neg (by simp [ho])]

/-- Both lines can be released. -/
theorem execBbClose_of_success {s : State} (ho : s.bb.isOpen = true) (h0 : s.bb.env.failures.getD 0 none = none)
    (h1 : s.bb.env.failures.getD 1 none = none) :
    execBbClose s = .next (s.withBB
      { s.bb with
        isOpen := false
        clk := Line.released (s.bb.free + 1)
        data := Line.released s.bb.free
        seq := .idle
        trace := s.bb.trace ++ [.closed]
        results := s.bb.results ++ [.ok .unit]
        env := { s.bb.env with failures := s.bb.env.failures.drop 2 }
        free := s.bb.free + 2 }) := by
  have hclk := BB.closeClk_of_none (b := { s.bb.spent with data := Line.released s.bb.free, free := s.bb.free + 1 })
    (s.bb.spent_failures_getD.trans h1)
  rw [execBbClose_eq, if_pos ho, BB.closeData_of_none h0]
  simp only [Ran.outcome, hclk]
  simp only [BB.spent, BB.deliver, ← List.drop_one, List.drop_drop]

/-- One of the lines cannot be released: the engine is closed all the same. -/
theorem execBbClose_of_failure {s : State} {f : OsFailure} (ho : s.bb.isOpen = true)
    (hf : s.bb.env.failures.getD 0 none = some f ∨
      (s.bb.env.failures.getD 0 none = none ∧ s.bb.env.failures.getD 1 none = some f)) :
    ∃ b : BB, execBbClose s = .next (s.withBB (b.closeFailed.raise (.transportIO f))) ∧ b.cfg = s.bb.cfg ∧
      b.results = s.bb.results := by
  rw [execBbClose_eq, if_pos ho]
  rcases hf with h0 | ⟨h0, h1⟩
  · rw [BB.closeData_of_some h0]
    exact ⟨s.bb.spent, rfl, rfl, rfl⟩
  · have hclk := BB.closeClk_of_some (b := { s.bb.spent with data := Line.released s.bb.free, free := s.bb.free + 1 })
      (s.bb.spent_failures_getD.trans h1)
    rw [BB.closeData_of_none h0]
    simp only [Ran.outcome, hclk]
    exact ⟨_, rfl, rfl, rfl⟩

/-- A released line is not driven (R33, R34). -/
theorem Line.released_electrical (k : Nat) : (Line.released k).electrical = .z := rfl

/-- Settles O21: the four ways `bb.close` goes, by the engine and the answers to its two calls. -/
theorem bbClose : Obligations.BbClose := by
  refine fun s => ⟨execBbClose_of_closed, fun ho h0 h1 => ?_, fun f ho hf => ?_⟩
  · exact ⟨_, execBbClose_of_success ho h0 h1, rfl, rfl, rfl, Line.released_electrical _, Line.released_electrical _, rfl, rfl,
      rfl, rfl⟩
  · obtain ⟨b, hexec, hcfg, hresults⟩ := execBbClose_of_failure ho hf
    exact ⟨_, hexec, rfl, hcfg, congrArg (· ++ [_]) hresults⟩

/-! ### No collaborator call of an open engine finds a line or the port unclaimed (R29, R35, R40) -/

/-- What no operation does where `P` holds, which every operation keeps, no sequence does. -/
theorem runOps_ne_failed {σ ω β : Type} {perform : ω → σ → Ran σ β} {P : σ → Prop} {e : ErrorKind}
    (hkeep : ∀ op s s' got, P s → perform op s = .done s' got → P s')
    (hop : ∀ op s s', P s → perform op s ≠ .failed s' e) (ops : List ω) {s : σ} (hs : P s) (s' : σ) :
    runOps perform ops s ≠ .failed s' e := by
  induction ops generalizing s with
  | nil => exact nofun
  | cons op ops ih =>
    cases hp : perform op s with
    | done s1 got =>
      have hrest := ih (hkeep op s s1 got hs hp)
      simp only [runOps, hp]
      cases hr : runOps perform ops s1 with
      | done s2 got' => exact nofun
      | failed s2 e' => rintro ⟨⟩; exact hrest hr
      | fault f => exact nofun
    | failed s1 e' =>
      simp only [runOps, hp]
      rintro ⟨⟩
      exact hop op s _ hs hp
    | fault f => simp [runOps, hp]

/-- Both lines are claimed (R29). -/
def BB.Claimed (b : BB) : Prop := b.clk.claimed = true ∧ b.data.claimed = true

theorem BB.Kept.claimed {b b' : BB} (hk : b.Kept b') (h : b.Claimed) : b'.Claimed :=
  ⟨hk.clkClaimed.trans h.1, hk.dataClaimed.trans h.2⟩

theorem BB.Inv.claimed {b : BB} (h : b.Inv) (ho : b.isOpen = true) : b.Claimed := by
  obtain ⟨_, _, hopen⟩ := h
  obtain ⟨hclk, _, _, hdata, _⟩ := hopen ho
  exact ⟨hclk, hdata⟩

/-- A call fails in one way only (R232). -/
theorem BB.attempt_ne_notOpen (b b' : BB) (effect : BB → BB) (got : BB → List Level) :
    b.attempt (fun b => .done (effect b) (got b)) ≠ .failed b' .notOpen := by
  rcases b.attempt_cases (fun b => .done (effect b) (got b)) with h | ⟨f, h⟩ <;> rw [h] <;> exact nofun

theorem BB.write_ne_notOpen {line : Line} (hc : line.claimed = true) (effect : BB → BB) (b b' : BB) :
    b.write line effect ≠ .failed b' .notOpen := by
  cases hd : line.dir with
  | output =>
    rw [BB.write_output hc hd]
    exact BB.attempt_ne_notOpen b b' _ _
  | input =>
    rw [BB.write_input hc hd]
    exact nofun

theorem BB.read_ne_notOpen {b : BB} (hc : b.data.claimed = true) (keep : Bool) (b' : BB) :
    b.read keep ≠ .failed b' .notOpen := by
  cases hd : b.data.dir with
  | input =>
    rw [BB.read_input hc hd]
    exact BB.attempt_ne_notOpen b b' _ _
  | output =>
    rw [BB.read_output hc hd]
    exact nofun

theorem BB.turn_ne_notOpen {b : BB} (hc : b.data.claimed = true) (effect : BB → BB) (b' : BB) :
    b.turn effect ≠ .failed b' .notOpen := by
  rw [BB.turn_claimed hc]
  exact BB.attempt_ne_notOpen b b' _ _

theorem BB.perform_ne_notOpen (op : LineOp) (b b' : BB) (h : b.Claimed) : b.perform op ≠ .failed b' .notOpen := by
  obtain ⟨hclk, hdata⟩ := h
  cases op with
  | element | frame | wait => exact nofun
  | clk l => exact BB.write_ne_notOpen hclk _ b b'
  | data l => exact BB.write_ne_notOpen hdata _ b b'
  | sample keep => exact BB.read_ne_notOpen hdata keep b'
  | dirIn => exact BB.turn_ne_notOpen hdata _ b'
  | dirOut l => exact BB.turn_ne_notOpen hdata _ b'

theorem BB.run_ne_notOpen (ops : List LineOp) {b : BB} (h : b.Claimed) (b' : BB) : b.run ops ≠ .failed b' .notOpen :=
  runOps_ne_failed (fun op b b' got hb hp => (BB.perform_kept op b b' (by rw [hp]; exact .done _ _)).claimed hb)
    BB.perform_ne_notOpen ops h b'

theorem SF.perform_ne_notOpen (op : SpiOp) (f f' : SF) (h : f.spi.claimed = true) : f.perform op ≠ .failed f' .notOpen := by
  cases op with
  | element | frame => exact nofun
  | xfer n tx cs keep =>
    by_cases hw : (n = 16 ∨ n = 32) ∧ tx < 2 ^ n
    · rw [SF.perform, SF.xfer_claimed h hw]
      rcases f.attempt_cases _ with e | ⟨x, e⟩ <;> rw [e] <;> exact nofun
    · rw [SF.perform, SF.xfer_malformed h hw]
      exact nofun

theorem SF.run_ne_notOpen (ops : List SpiOp) {f : SF} (h : f.spi.claimed = true) (f' : SF) :
    f.run ops ≠ .failed f' .notOpen :=
  runOps_ne_failed (P := fun f => f.spi.claimed = true)
    (fun op f f' got hf hp => (congrArg SpiPort.claimed (SF.perform_kept op f f' (by rw [hp]; exact .done _ _)).spi).trans hf)
    SF.perform_ne_notOpen ops h f'

/-! ### `NotOpen` comes first, and only on a closed engine (R144, R209) -/

section
variable {s t : State}

theorem execBbOpen_result (h : execBbOpen s = .next t) : ∃ rs r, t.bb.results = rs ++ [r] ∧ r ≠ .err .notOpen := by
  cases ho : s.bb.isOpen with
  | true =>
    cases h.symm.trans (execBbOpen_of_open ho)
    exact ⟨_, _, rfl, nofun⟩
  | false =>
    rcases s.bb.two_answers with ⟨h0, h1⟩ | ⟨f, hf⟩
    · cases h.symm.trans (execBbOpen_of_success ho h0 h1)
      exact ⟨_, _, rfl, nofun⟩
    · obtain ⟨b, e, _⟩ := execBbOpen_of_failure ho hf
      cases h.symm.trans e
      exact ⟨_, _, rfl, nofun⟩

theorem execBbClose_result (h : execBbClose s = .next t) : ∃ rs r, t.bb.results = rs ++ [r] ∧ r ≠ .err .notOpen := by
  cases ho : s.bb.isOpen with
  | false =>
    cases h.symm.trans (execBbClose_of_closed ho)
    exact ⟨_, _, rfl, nofun⟩
  | true =>
    rcases s.bb.two_answers with ⟨h0, h1⟩ | ⟨f, hf⟩
    · cases h.symm.trans (execBbClose_of_success ho h0 h1)
      exact ⟨_, _, rfl, nofun⟩
    · obtain ⟨b, e, _⟩ := execBbClose_of_failure ho hf
      cases h.symm.trans e
      exact ⟨_, _, rfl, nofun⟩

theorem execSfOpen_result (h : execSfOpen s = .next t) : ∃ rs r, t.sf.results = rs ++ [r] ∧ r ≠ .err .notOpen := by
  rw [execSfOpen_eq] at h
  split at h
  · cases h
    exact ⟨_, _, rfl, nofun⟩
  · rcases s.sf.openPort_cases with ⟨f, e, _⟩ | ⟨x, e⟩ <;> rw [e] at h <;> cases h
    · exact ⟨_, _, rfl, nofun⟩
    · exact ⟨_, _, rfl, nofun⟩

theorem execSfClose_result (h : execSfClose s = .next t) : ∃ rs r, t.sf.results = rs ++ [r] ∧ r ≠ .err .notOpen := by
  rw [execSfClose_eq] at h
  split at h
  · rcases s.sf.closePort_cases with ⟨f, e, _⟩ | ⟨x, e⟩ <;> rw [e] at h <;> cases h
    · exact ⟨_, _, rfl, nofun⟩
    · exact ⟨_, _, rfl, nofun⟩
  · cases h
    exact ⟨_, _, rfl, nofun⟩

/-- `open` and `close` have no open check. -/
theorem lifecycle_result {i : Instr} (hl : i.isLifecycle = true) (h : exec i s = .next t) :
    ∃ rs r, t.resultsOf i.engine = rs ++ [r] ∧ r ≠ .err .notOpen := by
  rcases lifecycle_cases hl with rfl | rfl | rfl | rfl
  · exact execBbOpen_result h
  · exact execBbClose_result h
  · exact execSfOpen_result h
  · exact execSfClose_result h

/-- Where the lines are claimed, a command of an open bit-bang engine does not end with `NotOpen`. -/
theorem bbCommand_result {ops : List LineOp} {value : List Level → Value} (ho : s.bb.isOpen = true) (hc : s.bb.Claimed)
    (h : bbCommand ops value s = .next t) : ∃ rs r, t.bb.results = rs ++ [r] ∧ r ≠ .err .notOpen := by
  rcases bbCommand_cases ops value s with ⟨hclosed, _⟩ | ⟨_, b, got, _, _, e⟩ | ⟨_, b, k, hrun, _, e⟩ | ⟨_, f, _, e⟩
  · cases hclosed.symm.trans ho
  · cases h.symm.trans e
    exact ⟨_, _, rfl, nofun⟩
  · cases h.symm.trans e
    exact ⟨_, _, rfl, by rintro ⟨⟩; exact BB.run_ne_notOpen ops hc b hrun⟩
  · cases h.symm.trans e

/-- Where the port is claimed, a command of an open SPI-framed engine does not end with `NotOpen`. -/
theorem sfCommand_result {ops : List SpiOp} {value : List U16 → Value} (ho : s.sf.isOpen = true)
    (hc : s.sf.spi.claimed = true) (h : sfCommand ops value s = .next t) :
    ∃ rs r, t.sf.results = rs ++ [r] ∧ r ≠ .err .notOpen := by
  rcases sfCommand_cases ops value s with ⟨hclosed, _⟩ | ⟨_, f, got, _, _, e⟩ | ⟨_, f, k, hrun, _, e⟩
  · cases hclosed.symm.trans ho
  · cases h.symm.trans e
    exact ⟨_, _, rfl, nofun⟩
  · cases h.symm.trans e
    exact ⟨_, _, rfl, by rintro ⟨⟩; exact SF.run_ne_notOpen ops hc f hrun⟩

theorem exec_result_of_open {i : Instr} (hs : s.Inv) (hl : i.isLifecycle = false) (ho : s.engineOpen i.engine = true)
    (h : exec i s = .next t) : ∃ rs r, t.resultsOf i.engine = rs ++ [r] ∧ r ≠ .err .notOpen := by
  obtain ⟨hbb, _, _, _, hport⟩ := hs
  cases he : i.engine with
  | bitbang =>
    rw [he] at ho
    rw [exec_bitbang i s he hl] at h
    split at h
    · cases h
      exact ⟨_, _, rfl, nofun⟩
    · exact bbCommand_result ho (hbb.claimed ho) h
  | spi =>
    rw [he] at ho
    cases hh : i.headerFrame with
    | some f =>
      rw [exec_header i s f hh] at h
      exact sfCommand_result ho (hport ho) h
    | none =>
      rw [exec_spi i s he hl hh] at h
      split at h
      · cases h
        exact ⟨_, _, rfl, nofun⟩
      · exact sfCommand_result ho (hport ho) h

end

/-- The open check of the bit-bang engine stands before every other (R144). -/
theorem exec_bitbang_of_closed {i : Instr} {s : State} (he : i.engine = .bitbang) (hl : i.isLifecycle = false)
    (ho : s.bb.isOpen = false) : exec i s = .next (s.withBB (s.bb.raise .notOpen)) := by
  rw [exec_bitbang i s he hl, if_neg (by simp [ho])]
  exact bbTransact_closed ho _ _

/-- The open check of the SPI-framed engine stands before every other (R209). -/
theorem exec_spi_of_closed {i : Instr} {s : State} (he : i.engine = .spi) (hl : i.isLifecycle = false)
    (ho : s.sf.isOpen = false) : exec i s = .next (s.withSF (s.sf.raise .notOpen)) := by
  cases hh : i.headerFrame with
  | some f =>
    rw [exec_header i s f hh]
    exact sfCommand_closed ho _ _
  | none =>
    rw [exec_spi i s he hl hh, if_neg (by simp [ho])]
    exact sfCommand_closed ho _ _

/-- Settles O24: the open check comes first, `open` and `close` have none, and behind it every line and port is claimed. -/
theorem notOpenComesFirst : Obligations.NotOpenComesFirst := by
  refine ⟨fun i s hl => ⟨fun he => exec_bitbang_of_closed he hl, fun he => exec_spi_of_closed he hl⟩,
    fun i s t hs h hresults => ?_⟩
  have hnot : ¬∃ rs r, t.resultsOf i.engine = rs ++ [r] ∧ r ≠ .err .notOpen := by
    rintro ⟨rs, r, hrs, hr⟩
    obtain ⟨_, hlast⟩ := List.append_inj' (hrs.symm.trans hresults) rfl
    exact hr (List.singleton_inj.mp hlast)
  have hl : i.isLifecycle = false := Bool.eq_false_iff.mpr fun hl => hnot (lifecycle_result hl h)
  exact ⟨hl, Bool.eq_false_iff.mpr fun ho => hnot (exec_result_of_open hs hl ho h)⟩

end Sys2Proof.Machine
end

section
/-! The micro-operations of the bit-bang engine counted (R145), and a single frame as it is sent and read (R142, R143). -/

namespace Sys2Proof.Machine

open Codec

/-! ### Clock pulses (R145) -/

theorem clockPulses_append (xs ys : List BBEvent) : clockPulses (xs ++ ys) = clockPulses xs + clockPulses ys := by
  simp [clockPulses]

theorem clockPulses_wSlots (bs : List Level) : clockPulses (wSlots bs) = bs.length := by
  induction bs with
  | nil => rfl
  | cons b bs ih => rw [wSlots, List.flatMap_cons, clockPulses_append, ← wSlots, ih, List.length_cons, Nat.add_comm]; rfl

theorem clockPulses_rSlots (ls : List Level) : clockPulses (rSlots ls) = ls.length := by
  induction ls with
  | nil => rfl
  | cons l ls ih => rw [rSlots, List.flatMap_cons, clockPulses_append, ← rSlots, ih, List.length_cons, Nat.add_comm]; rfl

theorem paired_append {xs ys : List BBEvent} (hx : paired xs = true) : paired (xs ++ ys) = paired ys := by
  induction xs using paired.induct with
  | case1 => rfl
  | case2 es ih => exact ih hx
  | case3 l es hpulse => simp [paired] at hx
  | _ => rename_i ih; exact ih hx

theorem paired_wSlots (bs : List Level) : paired (wSlots bs) = true := by
  induction bs with
  | nil => rfl
  | cons b bs ih => exact ih

theorem paired_rSlots (ls : List Level) : paired (rSlots ls) = true := by
  induction ls with
  | nil => rfl
  | cons l ls ih => exact ih

/-- R145's account of some events: how many there are, how many clock pulses, and that each pulse is whole. -/
structure Counted (es : List BBEvent) (events pulses : Nat) : Prop where
  events : es.length = events
  pulses : clockPulses es = pulses
  paired : paired es = true

theorem Counted.append {xs ys : List BBEvent} {m n p q : Nat} (hx : Counted xs m p) (hy : Counted ys n q) :
    Counted (xs ++ ys) (m + n) (p + q) where
  events := by rw [List.length_append, hx.events, hy.events]
  pulses := by rw [clockPulses_append, hx.pulses, hy.pulses]
  paired := (paired_append hx.paired).trans hy.paired

theorem counted_wSlots (bs : List Level) : Counted (wSlots bs) (3 * bs.length) bs.length :=
  ⟨wSlots_length bs, clockPulses_wSlots bs, paired_wSlots bs⟩

theorem counted_rSlots (ls : List Level) : Counted (rSlots ls) (3 * ls.length) ls.length :=
  ⟨rSlots_length ls, clockPulses_rSlots ls, paired_rSlots ls⟩

theorem counted_ddirIn : Counted [.ddirIn] 1 0 := ⟨rfl, rfl, rfl⟩

theorem counted_ddirOut (l : Level) : Counted [.ddirOut l] 1 0 := ⟨rfl, rfl, rfl⟩

theorem counted_onesEvents : Counted onesEvents 96 32 := counted_wSlots (List.replicate 32 true)

/-- A frame is 32 slots, and a read-class one has two changes of direction besides (R89). -/
theorem counted_frameEvents (f : Frame) (ls : List Level) (h : ls.length = samplesOf f) :
    Counted (frameEvents f ls) (if isReadClass f.op then 98 else 96) 32 := by
  cases hf : isReadClass f.op with
  | false =>
    have hbits := counted_wSlots (bitsOf 32 (encodeFrame { f with ta := Config.taWrite }).toNat)
    simpa [frameEvents, hf] using hbits
  | true =>
    have hlen : ls.length = 18 := by simpa [samplesOf, hf] using h
    have hheader := counted_wSlots ((bitsOf 32 (encodeFrame f).toNat).take 14)
    have hall := hheader.append (counted_ddirIn.append ((counted_rSlots ls).append (counted_ddirOut true)))
    simpa [frameEvents, hf, hlen] using hall

/-- Settles O44: what each micro-operation puts on the trace is known where no call fails; the rest is counting. -/
theorem microOperationCounts : Obligations.MicroOperationCounts := by
  intro b hq hck hcd _ hdc
  refine ⟨fun _ => rfl, fun hin keep => ?read, fun hout => ⟨fun l => ?write, ?flush, fun f => ?frame⟩⟩
  case read =>
    obtain ⟨q, hrun⟩ := BB.readBit_run hq hck hcd hdc hin keep
    have hcount := counted_rSlots [b.levelAt 0]
    exact ⟨_, _, _, hrun, rfl, hcount.events, hcount.pulses, hcount.paired, rfl⟩
  case write =>
    obtain ⟨q, hrun⟩ := BB.writeBit_run hq ⟨hck, hcd, hdc, hout⟩ l
    have hcount := counted_wSlots [l]
    exact ⟨_, _, hrun, rfl, hcount.events, hcount.pulses, hcount.paired, rfl⟩
  case flush =>
    obtain ⟨q, hrun⟩ := BB.flush_run hq ⟨hck, hcd, hdc, hout⟩
    have hcount := counted_onesEvents
    exact ⟨_, _, hrun, rfl, hcount.events, hcount.pulses, hcount.paired, rfl⟩
  case frame =>
    obtain ⟨q, hrun⟩ := BB.bbFrame_run hq ⟨hck, hcd, hdc, hout⟩ f
    have hcount := counted_onesEvents.append (counted_frameEvents f (b.upcoming (samplesOf f)) (by simp))
    refine ⟨_, _, _, hrun, rfl, ?_, hcount.pulses, hcount.paired, rfl⟩
    rw [hcount.events]
    split <;> rfl

/-! ### A single frame in numbers (R82 to R87, R142, R143) -/

/-- The frame `bb_frame_write` sends: the turnaround `10` whatever its own (R91, R140). -/
theorem encodeFrame_taWrite_eq_sum (f : Frame) :
    (encodeFrame { f with ta := Config.taWrite }).toNat =
      f.st.toNat * 2 ^ 30 + f.op.toNat * 2 ^ 28 + 0x20000 + (f.pad.toNat * 2 ^ 23 + f.dad.toNat * 2 ^ 18) + f.data.toNat := by
  have hta : Config.taWrite.toNat = 2 := rfl
  rw [encodeFrame_toNat_eq_sum]
  simp only [hta]
  omega

/-- The fourteen header bits `bb_frame_read` sends (R118). -/
theorem encodeFrame_header_eq_sum (f : Frame) :
    (encodeFrame f).toNat / 2 ^ 18 =
      f.st.toNat * 2 ^ 12 + f.op.toNat * 2 ^ 10 + (f.pad.toNat * 2 ^ 5 + f.dad.toNat) := by
  have := f.ta.isLt; have := f.data.isLt
  rw [encodeFrame_toNat_eq_sum]
  omega

section
variable {s : State} (hr : s.bb.Ready) {f : Frame} {w : Nat}
include hr

/-- A write-class frame, from the bits its opcode and the turnaround fix. -/
theorem sendFrame_bitbang_write_fields (hf : isReadClass f.op = false)
    (hw : f.st.toNat * 2 ^ 30 + f.op.toNat * 2 ^ 28 + 0x20000 = w) :
    sendFrame .bitbang f s =
      .next (s.withBB (s.bb.completed
        (writeFrameEvents (w + (f.pad.toNat * 2 ^ 23 + f.dad.toNat * 2 ^ 18) + f.data.toNat)) (f.data.getLsbD 0) .unit)) := by
  rw [sendFrame_bitbang_write hr hf, encodeFrame_taWrite_eq_sum, hw]
  rfl

/-- A read-class frame, from the header bits its opcode fixes. -/
theorem sendFrame_bitbang_read_fields (hf : isReadClass f.op = true)
    (hw : f.st.toNat * 2 ^ 12 + f.op.toNat * 2 ^ 10 = w) :
    sendFrame .bitbang f s =
      .next (s.withBB (s.bb.completed
        (readFrameEvents (w + (f.pad.toNat * 2 ^ 5 + f.dad.toNat)) (s.bb.window 0 18)) true
        (.u16 (wordOfBits (s.bb.window 2 16))))) := by
  rw [sendFrame_bitbang_read hr hf, encodeFrame_header_eq_sum, hw]

end

/-- The bits ST, OP and the turnaround `10` fix in the six frames (R82 to R87): of the whole frame where it is sent, of the
fourteen header bits where it is read. -/
theorem opcodes_toNat :
    Config.stC22.toNat * 2 ^ 30 + Config.opC22Write.toNat * 2 ^ 28 + 0x20000 = 0x50020000 ∧
    Config.stC22.toNat * 2 ^ 12 + Config.opC22Read.toNat * 2 ^ 10 = 0x1800 ∧
    Config.stC45.toNat * 2 ^ 30 + Config.opC45Address.toNat * 2 ^ 28 + 0x20000 = 0x00020000 ∧
    Config.stC45.toNat * 2 ^ 30 + Config.opC45Write.toNat * 2 ^ 28 + 0x20000 = 0x10020000 ∧
    Config.stC45.toNat * 2 ^ 12 + Config.opC45ReadInc.toNat * 2 ^ 10 = 0x0800 ∧
    Config.stC45.toNat * 2 ^ 12 + Config.opC45Read.toNat * 2 ^ 10 = 0x0C00 := by decide

/-- Settles O37: the opcode decides whether a frame is sent or read, and which constant its bits begin with. -/
theorem framesOnTheBitBangEngine : Obligations.FramesOnTheBitBangEngine := by
  intro s p d ta v hr
  obtain ⟨hw22, hr22, ha45, hw45, hi45, hr45⟩ := isReadClass_opcodes
  obtain ⟨bw22, br22, ba45, bw45, bi45, br45⟩ := opcodes_toNat
  exact ⟨sendFrame_bitbang_write_fields hr hw22 bw22,
    sendFrame_bitbang_read_fields hr hr22 br22,
    sendFrame_bitbang_write_fields hr ha45 ba45,
    sendFrame_bitbang_write_fields hr hw45 bw45,
    sendFrame_bitbang_read_fields hr hi45 bi45,
    sendFrame_bitbang_read_fields hr hr45 br45⟩

end Sys2Proof.Machine
end

section
/-! The failures of collaborator calls (R38, R146, R238): what the environment's script of failures makes of a sequence of
operations that succeeds where no call fails. Said once for both engines. -/

namespace Sys2Proof.Machine

/-! ### Sequences step by step -/

/-- The run with something kept before it. -/
def Ran.prepend {σ β : Type} (got : List β) : Ran σ β → Ran σ β
  | .done s got' => .done s (got ++ got')
  | .failed s e => .failed s e
  | .fault f => .fault f

section
variable {σ ω β : Type} {perform : ω → σ → Ran σ β} {op : ω} {s : σ}

theorem runOps_cons_of_done {s' : σ} {got : List β} (h : perform op s = .done s' got) (ops : List ω) :
    runOps perform (op :: ops) s = (runOps perform ops s').prepend got := by
  simp only [runOps, h]
  cases runOps perform ops s' <;> rfl

theorem runOps_cons_of_failed {s' : σ} {e : ErrorKind} (h : perform op s = .failed s' e) (ops : List ω) :
    runOps perform (op :: ops) s = .failed s' e := by
  simp only [runOps, h]

theorem runOps_cons_of_fault {f : Fault} (h : perform op s = .fault f) (ops : List ω) :
    runOps perform (op :: ops) s = .fault f := by
  simp only [runOps, h]

theorem Ran.endsIn_of_prepend {got : List β} {r : Ran σ β} {s : σ} (h : (r.prepend got).EndsIn s) : r.EndsIn s := by
  cases r with
  | done s' got' => cases h; exact .done _ _
  | failed s' e => cases h; exact .failed _ _
  | fault f => cases h

end

/-! ### An engine's script of failures -/

/-- What of an engine bears on the failing of its calls: the failures to come (R38) and the bus trace (R17). -/
structure Script (σ ε : Type) where
  withFailures : List (Option OsFailure) → σ → σ
  failures : σ → List (Option OsFailure)
  trace : σ → List ε
  withFailures_withFailures : ∀ fs fs' s, withFailures fs (withFailures fs' s) = withFailures fs s
  failures_withFailures : ∀ fs s, failures (withFailures fs s) = fs
  trace_withFailures : ∀ fs s, trace (withFailures fs s) = trace s

namespace Script

variable {σ ω β ε : Type} (S : Script σ ε)

/-- The run with these failures still to come at its end. -/
def leaving (fs : List (Option OsFailure)) : Ran σ β → Ran σ β
  | .done s got => .done (S.withFailures fs s) got
  | .failed s e => .failed (S.withFailures fs s) e
  | .fault f => .fault f

theorem leaving_prepend (fs : List (Option OsFailure)) (got : List β) (r : Ran σ β) :
    S.leaving fs (r.prepend got) = (S.leaving fs r).prepend got := by
  cases r <;> rfl

/-- How a call at `s` ends that leads to `c` and `got` where it succeeds (R38, R232). -/
def answer (s c : σ) (got : List β) : List (Option OsFailure) → Ran σ β
  | [] => .done (S.withFailures [] c) got
  | none :: rest => .done (S.withFailures rest c) got
  | some f :: rest => .failed (S.withFailures rest s) (.transportIO f)

/-- Whatever failures are to come, at `s` the action asks the environment nothing and emits no event, or it is one call, which
emits one event where it succeeds. -/
inductive AtMostOneCall (s : σ) (act : σ → Ran σ β) : Prop
  | silent (r : Ran σ β) (htrace : ∀ c, r.EndsIn c → S.trace c = S.trace s)
      (hact : ∀ fs, act (S.withFailures fs s) = S.leaving fs r)
  | call (c : σ) (got : List β) (e : ε) (htrace : S.trace c = S.trace s ++ [e])
      (hact : ∀ fs, act (S.withFailures fs s) = S.answer s c got fs)

/-- The failures `fs` are precise: where the run without failures is `r` and emits `es` behind `start`, the run `r'` with these
failures stops at the first call they fail, after exactly the events before it, and is `r` if they fail none of its calls. -/
structure Precise (start es : List ε) (r : Ran σ β) (fs : List (Option OsFailure)) (r' : Ran σ β) : Prop where
  stops : ∀ (k : Nat) (f : OsFailure), k < es.length → (∀ j < k, fs.getD j none = none) → fs.getD k none = some f →
    ∃ s, r' = .failed s (.transportIO f) ∧ S.trace s = start ++ es.take k ∧ S.failures s = fs.drop (k + 1)
  goes : (∀ j < es.length, fs.getD j none = none) → r' = S.leaving (fs.drop es.length) r

theorem leaving_leaving (fs fs' : List (Option OsFailure)) (r : Ran σ β) :
    S.leaving fs (S.leaving fs' r) = S.leaving fs r := by
  cases r <;> simp only [leaving, S.withFailures_withFailures]

variable {S} {start es : List ε} {e : ε} {r r' : Ran σ β} {fs : List (Option OsFailure)}

/-- A run that makes no call goes one way whatever failures are to come. -/
theorem Precise.of_no_call (start : List ε) (r : Ran σ β) (fs : List (Option OsFailure)) :
    S.Precise start [] (S.leaving [] r) fs (S.leaving fs r) where
  stops _ _ hk := absurd hk (Nat.not_lt_zero _)
  goes _ := (S.leaving_leaving fs [] r).symm

theorem Precise.prepend (h : S.Precise start es r fs r') (got : List β) :
    S.Precise start es (r.prepend got) fs (r'.prepend got) where
  stops k f hk hnone hf := by
    obtain ⟨s, rfl, htrace, hleft⟩ := h.stops k f hk hnone hf
    exact ⟨s, rfl, htrace, hleft⟩
  goes hnone := by rw [h.goes hnone, leaving_prepend]

/-- Before a run whose failures are precise, one call that succeeds. -/
theorem Precise.after_success (h : S.Precise (start ++ [e]) es r fs r') : S.Precise start (e :: es) r (none :: fs) r' where
  stops k f hk hnone hf := by
    cases k with
    | zero => cases hf
    | succ k =>
      obtain ⟨s, hr, htrace, hleft⟩ := h.stops k f (Nat.lt_of_succ_lt_succ hk)
        (fun j hj => hnone (j + 1) (Nat.succ_lt_succ hj)) hf
      exact ⟨s, hr, by rw [htrace, List.append_assoc]; rfl, hleft⟩
  goes hnone := h.goes fun j hj => hnone (j + 1) (Nat.succ_lt_succ hj)

/-- The same behind the end of the script, where every call succeeds. -/
theorem Precise.after_last (h : S.Precise (start ++ [e]) es r [] r') : S.Precise start (e :: es) r [] r' where
  stops _ _ _ _ hf := by cases hf
  goes _ := by simpa using h.goes (by simp)

/-- The run without failures is the run that leaves none. -/
theorem Precise.eq_leaving_nil (h : S.Precise start es r [] r') : r' = S.leaving [] r := by
  simpa using h.goes (by simp)

/-- A first call that fails: nothing has happened. -/
theorem Precise.of_failure (s : σ) (f : OsFailure) (rest : List (Option OsFailure)) :
    S.Precise (S.trace s) (e :: es) r (some f :: rest) (.failed (S.withFailures rest s) (.transportIO f)) where
  stops k f' _ hnone hf := by
    cases k with
    | zero =>
      cases hf
      exact ⟨_, rfl, by simp [S.trace_withFailures], S.failures_withFailures rest s⟩
    | succ k => cases hnone 0 (Nat.succ_pos k)
  goes hnone := by cases hnone 0 (Nat.succ_pos _)

/-- Where each operation makes at most one call, the failures of a sequence are precise: its events without failures say where
it stops with them (R146, R212). -/
theorem precise_run {perform : ω → σ → Ran σ β} (hop : ∀ op s, S.AtMostOneCall s (perform op)) (ops : List ω) (s : σ) :
    ∃ es, (∀ c, (runOps perform ops (S.withFailures [] s)).EndsIn c → S.trace c = S.trace s ++ es) ∧
      ∀ fs, S.Precise (S.trace s) es (runOps perform ops (S.withFailures [] s)) fs
        (runOps perform ops (S.withFailures fs s)) := by
  induction ops generalizing s with
  | nil =>
    refine ⟨[], fun c hc => ?_, .of_no_call _ (.done s [])⟩
    cases hc
    rw [S.trace_withFailures, List.append_nil]
  | cons op ops ih =>
    cases hop op s with
    | silent r htrace hact =>
      cases r with
      | done s' got =>
        have hs' : S.trace s' = S.trace s := htrace s' (.done _ _)
        have hrun fs : runOps perform (op :: ops) (S.withFailures fs s) =
            (runOps perform ops (S.withFailures fs s')).prepend got := runOps_cons_of_done (hact fs) ops
        obtain ⟨es, hes, hprecise⟩ := ih s'
        simp only [hrun]
        rw [hs'] at hes hprecise
        exact ⟨es, fun c hc => hes c (Ran.endsIn_of_prepend hc), fun fs => (hprecise fs).prepend got⟩
      | failed s' e =>
        have hrun fs : runOps perform (op :: ops) (S.withFailures fs s) = S.leaving fs (.failed s' e) :=
          runOps_cons_of_failed (hact fs) ops
        simp only [hrun]
        refine ⟨[], fun c hc => ?_, .of_no_call _ _⟩
        cases hc
        rw [S.trace_withFailures, htrace s' (.failed _ _), List.append_nil]
      | fault f =>
        have hrun fs : runOps perform (op :: ops) (S.withFailures fs s) = S.leaving fs (.fault f) :=
          runOps_cons_of_fault (hact fs) ops
        simp only [hrun]
        exact ⟨[], nofun, .of_no_call _ _⟩
    | call s' got e htrace hact =>
      obtain ⟨es, hes, hprecise⟩ := ih s'
      rw [htrace] at hes hprecise
      rw [runOps_cons_of_done (hact []) ops]
      refine ⟨e :: es, fun c hc => ?_, fun fs => ?_⟩
      · rw [hes c (Ran.endsIn_of_prepend hc), List.append_assoc]
        rfl
      · match fs with
        | [] =>
          rw [runOps_cons_of_done (hact []) ops]
          exact ((hprecise []).prepend got).after_last
        | none :: rest =>
          rw [runOps_cons_of_done (hact (none :: rest)) ops]
          exact ((hprecise rest).prepend got).after_success
        | some f :: rest =>
          rw [runOps_cons_of_failed (hact (some f :: rest)) ops]
          exact .of_failure s f rest

end Script

/-! ### The bit-bang engine's script (R146, R238) -/

/-- The line collaborator's failures and the bus trace of the bit-bang engine. -/
def BB.script : Script BB BBEvent where
  withFailures := BB.withFailures
  failures b := b.env.failures
  trace := BB.trace
  withFailures_withFailures _ _ _ := rfl
  failures_withFailures _ _ := rfl
  trace_withFailures _ _ := rfl

theorem BB.attempt_withFailures {b c : BB} {got : List Level} {call : BB → Ran BB Level}
    (hcall : ∀ fs, call (b.withFailures fs) = .done (c.withFailures fs) got) (fs : List (Option OsFailure)) :
    (b.withFailures fs).attempt call = BB.script.answer b c got fs := by
  match fs with
  | [] => exact (BB.attempt_nil rfl call).trans (hcall [])
  | none :: rest => exact (BB.attempt_none rfl call).trans (hcall rest)
  | some f :: rest => exact BB.attempt_some rfl call

/-- An action that is one call, whose success leads to `c`. -/
theorem BB.one_call {b c : BB} {got : List Level} {e : BBEvent} {act call : BB → Ran BB Level}
    (htrace : c.trace = b.trace ++ [e]) (hcall : ∀ fs, call (b.withFailures fs) = .done (c.withFailures fs) got)
    (hact : ∀ fs, act (b.withFailures fs) = (b.withFailures fs).attempt call) : BB.script.AtMostOneCall b act :=
  .call c got e htrace fun fs => (hact fs).trans (BB.attempt_withFailures hcall fs)

/-- What stops before the environment is asked. -/
theorem BB.no_call_of_failed {b : BB} {act : BB → Ran BB Level} {e : ErrorKind}
    (h : ∀ fs, act (b.withFailures fs) = .failed (b.withFailures fs) e) : BB.script.AtMostOneCall b act :=
  .silent (.failed b e) (fun c hc => by cases hc; rfl) h

theorem BB.no_call_of_fault {b : BB} {act : BB → Ran BB Level} {f : Fault}
    (h : ∀ fs, act (b.withFailures fs) = .fault f) : BB.script.AtMostOneCall b act :=
  .silent (.fault f) (fun _ hc => nomatch hc) h

/-- A write of the clock line or of the data line is one call, unless it is against the line's state (R35). -/
theorem BB.write_atMostOneCall {line : BB → Line} {effect : BB → BB} {e : BBEvent} {b : BB}
    (hline : ∀ fs, line (b.withFailures fs) = line b)
    (heffect : ∀ fs, effect (b.withFailures fs) = (effect b).withFailures fs) (htrace : (effect b).trace = b.trace ++ [e]) :
    BB.script.AtMostOneCall b (fun b => b.write (line b) effect) := by
  cases hc : (line b).claimed with
  | false => exact BB.no_call_of_failed fun fs => by rw [hline]; exact BB.write_unclaimed hc effect _
  | true =>
    cases hd : (line b).dir with
    | input => exact BB.no_call_of_fault fun fs => by rw [hline]; exact BB.write_input hc hd effect _
    | output =>
      exact BB.one_call (got := []) htrace (fun fs => congrArg (Ran.done · []) (heffect fs)) fun fs => by
        rw [hline]; exact BB.write_output hc hd effect _

/-- A sample is one call, unless the line is not released (R36). -/
theorem BB.read_atMostOneCall (keep : Bool) (b : BB) : BB.script.AtMostOneCall b (BB.read keep) := by
  cases hc : b.data.claimed with
  | false => exact BB.no_call_of_failed fun fs => BB.read_unclaimed (b := b.withFailures fs) hc keep
  | true =>
    cases hd : b.data.dir with
    | output => exact BB.no_call_of_fault fun fs => BB.read_output (b := b.withFailures fs) hc hd keep
    | input =>
      exact BB.one_call (got := if keep then [b.drawnLevel] else []) (BB.sampled_trace b) (fun _ => rfl) fun fs =>
        BB.read_input (b := b.withFailures fs) hc hd keep

/-- A change of direction is one call on a claimed line (R37). -/
theorem BB.turn_atMostOneCall {effect : BB → BB} {e : BBEvent} {b : BB}
    (heffect : ∀ fs, effect (b.withFailures fs) = (effect b).withFailures fs) (htrace : (effect b).trace = b.trace ++ [e]) :
    BB.script.AtMostOneCall b (BB.turn effect) := by
  cases hc : b.data.claimed with
  | false => exact BB.no_call_of_failed fun fs => BB.turn_unclaimed (b := b.withFailures fs) hc effect
  | true =>
    exact BB.one_call (got := []) htrace (fun fs => congrArg (Ran.done · []) (heffect fs)) fun fs =>
      BB.turn_claimed (b := b.withFailures fs) hc effect

theorem BB.perform_atMostOneCall (op : LineOp) (b : BB) : BB.script.AtMostOneCall b (BB.perform op) := by
  have hmark {act : BB → Ran BB Level} {c : BB} (htrace : c.trace = b.trace)
      (hact : ∀ fs, act (b.withFailures fs) = .done (c.withFailures fs) []) : BB.script.AtMostOneCall b act :=
    .silent (.done c []) (fun c' hc => by cases hc; exact htrace) hact
  cases op with
  | element => exact hmark (c := { b with seq := b.seq.nextElement }) rfl fun _ => rfl
  | frame => exact hmark (c := { b with seq := b.seq.nextFrame }) rfl fun _ => rfl
  | wait d => exact hmark (c := b) rfl fun _ => rfl
  | clk l => exact BB.write_atMostOneCall (line := BB.clk) (fun _ => rfl) (fun _ => rfl) (BB.clkWritten_trace b l)
  | data l => exact BB.write_atMostOneCall (line := BB.data) (fun _ => rfl) (fun _ => rfl) (BB.dataWritten_trace b l)
  | sample keep => exact BB.read_atMostOneCall keep b
  | dirIn => exact BB.turn_atMostOneCall (fun _ => rfl) (BB.turnedIn_trace b)
  | dirOut l => exact BB.turn_atMostOneCall (fun _ => rfl) (BB.turnedOut_trace b l)

theorem BB.run_precise (ops : List LineOp) (b : BB) :
    ∃ es, (∀ c, (b.quieted.run ops).EndsIn c → c.trace = b.trace ++ es) ∧
      ∀ fs, BB.script.Precise b.trace es (b.quieted.run ops) fs ((b.withFailures fs).run ops) :=
  BB.script.precise_run BB.perform_atMostOneCall ops b

theorem BB.leaving_nil_quieted_run (ops : List LineOp) (b : BB) :
    BB.script.leaving [] (b.quieted.run ops) = b.quieted.run ops := by
  obtain ⟨_, _, hprecise⟩ := BB.run_precise ops b
  exact (hprecise []).eq_leaving_nil.symm

/-! ### Errors of the bit-bang engine are precise -/

/-- The end of a run of the bit-bang engine, delivered (R18, R238). -/
def deliverRun (s : State) (value : List Level → Value) (r : Ran BB Level) : Host.Outcome State Fault Refusal :=
  r.outcome (fun b got => .next (s.withBB (b.deliver (.ok (value got))))) (fun b e => .next (s.withBB (b.raise e)))

theorem endsIn_of_deliverRun {s u : State} {value : List Level → Value} {r : Ran BB Level}
    (h : deliverRun s value r = .next u) : ∃ b, r.EndsIn b ∧ u.bb.trace = b.trace := by
  cases r with
  | done b got => cases h; exact ⟨b, .done _ _, rfl⟩
  | failed b e => cases h; exact ⟨b, .failed _ _, rfl⟩
  | fault f => cases h

/-- The delivery leaves the failures to come as they are. -/
theorem deliverRun_leaving (s : State) (value : List Level → Value) (fs : List (Option OsFailure)) (r : Ran BB Level) :
    deliverRun s value (BB.script.leaving fs r) =
      mapNext (fun t => t.withBB (t.bb.withFailures fs)) (deliverRun s value r) := by
  cases r <;> rfl

/-- An instruction of the bit-bang engine but `open` and `close` raises an error at once, or it delivers the end of a run. Of
the engine only whether it is open decides which error and which run. -/
theorem exec_bitbang_raises_or_runs {i : Instr} (he : i.engine = .bitbang) (hl : i.isLifecycle = false) (s : State) :
    (∃ e, ∀ b : BB, b.isOpen = s.bb.isOpen → exec i (s.withBB b) = .next (s.withBB (b.raise e))) ∨
    (∃ ops value, ∀ b : BB, b.isOpen = s.bb.isOpen → exec i (s.withBB b) = deliverRun s value (b.run ops)) := by
  cases ho : s.bb.isOpen with
  | false => exact .inl ⟨.notOpen, fun b hb => exec_bitbang_of_closed (s := s.withBB b) he hl hb⟩
  | true =>
    cases hd : i.listsDiffer with
    | true => exact .inl ⟨.parameterInvalid, fun b hb => by rw [exec_bitbang i _ he hl, if_pos ⟨hb, hd⟩]; rfl⟩
    | false =>
      refine .inr ⟨lineOps s.switches (i.operations s.switches),
        fun got => assemble i.shape (wordsOfSamples (wordsRead (i.operations s.switches)) got), fun b hb => ?_⟩
      rw [exec_bitbang i _ he hl, if_neg (by simp [hd]), bbTransact, bbCommand_eq]
      exact if_pos hb

/-- A run that failures stop: the lines are as the events before the failed call left them, and nothing is cleaned up. -/
theorem BB.run_stops {ops : List LineOp} {b : BB} {es : List BBEvent} {r : Ran BB Level}
    (h : BB.script.Precise b.trace es r b.env.failures (b.run ops)) {k : Nat} {f : OsFailure} (hk : k < es.length)
    (hnone : ∀ j < k, b.env.failures.getD j none = none) (hf : b.env.failures.getD k none = some f) :
    ∃ c, b.run ops = .failed c (.transportIO f) ∧ c.trace = b.trace ++ es.take k ∧
      c.lines = linesAfter b.lines (es.take k) ∧ c.isOpen = b.isOpen ∧ c.results = b.results ∧
      c.env.failures = b.env.failures.drop (k + 1) := by
  obtain ⟨c, hrun, htrace, hleft⟩ := h.stops k f hk hnone hf
  have hend : (b.run ops).EndsIn c := hrun ▸ .failed _ _
  have hkept := BB.run_kept ops _ _ hend
  obtain ⟨es', htrace', hlines⟩ := BB.run_traced hend
  obtain rfl : es' = es.take k := List.append_cancel_left (htrace'.symm.trans htrace)
  exact ⟨c, hrun, htrace', hlines, hkept.isOpen, hkept.results, hleft⟩

theorem withFailures_nil_of_quieted_run {s u : State} {value : List Level → Value} {ops : List LineOp}
    (h : deliverRun s value (s.bb.quieted.run ops) = .next u) : u.withBB (u.bb.withFailures []) = u := by
  have hleft := deliverRun_leaving s value [] (s.bb.quieted.run ops)
  rw [BB.leaving_nil_quieted_run, h] at hleft
  exact (Host.Outcome.next.inj hleft).symm

/-- Settles O50: an instruction makes its calls in one run, and the failures of a run are precise. -/
theorem bbFailureIsPrecise : Obligations.BbFailureIsPrecise := by
  intro i s u es he hl hu hes
  rcases exec_bitbang_raises_or_runs he hl s with ⟨e, hexec⟩ | ⟨ops, value, hexec⟩
  · rw [hexec s.bb.quieted rfl] at hu
    cases hu
    obtain rfl : es = [] := by simpa [BB.quieted] using hes
    exact ⟨fun k f hk => absurd hk (Nat.not_lt_zero _), fun _ => ⟨_, hexec s.bb rfl, rfl⟩⟩
  · have hs : exec i s = deliverRun s value (s.bb.run ops) := hexec s.bb rfl
    rw [hexec s.bb.quieted rfl] at hu
    obtain ⟨es', hes', hprecise⟩ := BB.run_precise ops s.bb
    obtain ⟨c, hc, htrace⟩ := endsIn_of_deliverRun hu
    obtain rfl : es' = es := List.append_cancel_left ((hes' c hc).symm.trans (htrace.symm.trans hes))
    have hfailures : BB.script.Precise s.bb.trace es' _ s.bb.env.failures (s.bb.run ops) := hprecise s.bb.env.failures
    refine ⟨fun k f hk hnone hf => ?_, fun hnone => ?_⟩
    · obtain ⟨b, hrun, hb, hlines, hopen, hresults, hleft⟩ := BB.run_stops hfailures hk hnone hf
      exact ⟨s.withBB (b.raise (.transportIO f)), by rw [hs, hrun]; rfl, hb, congrArg (· ++ [_]) hresults, hlines, hopen,
        rfl, hleft⟩
    · rw [hfailures.goes hnone, deliverRun_leaving, hu] at hs
      exact ⟨_, hs, withFailures_nil_of_quieted_run hu⟩

end Sys2Proof.Machine
end

section
/-! Batch commands over empty lists and over lists that differ (R173 (e), (f)), and that nothing else is `ParameterInvalid`
(R233, R239). -/

namespace Sys2Proof.Machine

open Codec

/-! ### Instructions whose lists do not differ -/

theorem exec_bitbang_of_parallel {i : Instr} (he : i.engine = .bitbang) (hl : i.isLifecycle = false)
    (hd : i.listsDiffer = false) (s : State) : exec i s = bbTransact (i.operations s.switches) i.shape s := by
  rw [exec_bitbang i s he hl, hd]
  simp

theorem exec_spi_of_parallel {i : Instr} (he : i.engine = .spi) (hl : i.isLifecycle = false) (hh : i.headerFrame = none)
    (hd : i.listsDiffer = false) (s : State) : exec i s = sfTransact (i.operations s.switches) i.shape s := by
  rw [exec_spi i s he hl hh, hd]
  simp

/-! ### Nothing to do (R173 (f)) -/

/-- A register command of the SPI-framed engine with nothing to do (R173 (f)): it completes with no transfer. -/
theorem sfTransact_nil {s : State} (ho : s.sf.isOpen = true) (shape : Shape) :
    sfTransact [] shape s = .next (s.withSF (s.sf.deliver (.ok (assemble shape [])))) := by
  simp [sfTransact, sfCommand, ho, SF.run, runOps]

theorem exec_bitbang_of_no_operations {i : Instr} {s : State} (ho : s.bb.isOpen = true) (he : i.engine = .bitbang)
    (hl : i.isLifecycle = false) (hd : i.listsDiffer = false) (hops : i.operations s.switches = []) :
    exec i s = .next (s.withBB (s.bb.deliver (.ok (assemble i.shape [])))) := by
  rw [exec_bitbang_of_parallel he hl hd, hops, bbTransact_nil ho]

theorem exec_spi_of_no_operations {i : Instr} {s : State} (ho : s.sf.isOpen = true) (he : i.engine = .spi)
    (hl : i.isLifecycle = false) (hh : i.headerFrame = none) (hd : i.listsDiffer = false)
    (hops : i.operations s.switches = []) :
    exec i s = .next (s.withSF (s.sf.deliver (.ok (assemble i.shape [])))) := by
  rw [exec_spi_of_parallel he hl hh hd, hops, sfTransact_nil ho]

/-- Settles O27: over empty lists there are no operations, and the shape of the command says what `Ok` holds. -/
theorem emptyBatchDoesNothing : Obligations.EmptyBatchDoesNothing := by
  refine fun s p d => ⟨fun ho => ?_, fun ho => ?_⟩
  · have h {i : Instr} := exec_bitbang_of_no_operations (i := i) ho
    exact ⟨h rfl rfl rfl rfl, h rfl rfl rfl rfl, h rfl rfl rfl rfl, h rfl rfl rfl rfl, h rfl rfl rfl rfl, h rfl rfl rfl rfl⟩
  · have h {i : Instr} := exec_spi_of_no_operations (i := i) ho
    exact ⟨h rfl rfl rfl rfl rfl, h rfl rfl rfl rfl rfl, h rfl rfl rfl rfl rfl, h rfl rfl rfl rfl rfl⟩

/-! ### Lists that differ (R173 (e), R239) -/

theorem exec_bitbang_of_listsDiffer {i : Instr} (he : i.engine = .bitbang) (hl : i.isLifecycle = false)
    (hd : i.listsDiffer = true) (s : State) :
    exec i s = .next (s.withBB (s.bb.raise (if s.bb.isOpen then .parameterInvalid else .notOpen))) := by
  cases ho : s.bb.isOpen with
  | true => rw [exec_bitbang i s he hl, if_pos ⟨ho, hd⟩, if_pos rfl]
  | false => rw [exec_bitbang_of_closed he hl ho, if_neg Bool.false_ne_true]

theorem exec_spi_of_listsDiffer {i : Instr} (he : i.engine = .spi) (hl : i.isLifecycle = false) (hh : i.headerFrame = none)
    (hd : i.listsDiffer = true) (s : State) :
    exec i s = .next (s.withSF (s.sf.raise (if s.sf.isOpen then .parameterInvalid else .notOpen))) := by
  cases ho : s.sf.isOpen with
  | true => rw [exec_spi i s he hl hh, if_pos ⟨ho, hd⟩, if_pos rfl]
  | false => rw [exec_spi_of_closed he hl ho, if_neg Bool.false_ne_true]

/-! ### Nothing else is `ParameterInvalid` (R233) -/

/-- A run that fails does so at one of its operations. -/
theorem runOps_failed_at {σ ω β : Type} {perform : ω → σ → Ran σ β} {ops : List ω} {s s' : σ} {e : ErrorKind}
    (h : runOps perform ops s = .failed s' e) : ∃ op ∈ ops, ∃ s1 s2, perform op s1 = .failed s2 e := by
  induction ops generalizing s with
  | nil => cases h
  | cons op ops ih =>
    cases hp : perform op s with
    | done s1 got =>
      cases hr : runOps perform ops s1 with
      | done s2 got' => simp [runOps, hp, hr] at h
      | fault f => simp [runOps, hp, hr] at h
      | failed s2 e' =>
        obtain ⟨rfl, rfl⟩ : s2 = s' ∧ e' = e := by simpa [runOps, hp, hr] using h
        obtain ⟨op', hmem, hop⟩ := ih hr
        exact ⟨op', List.mem_cons_of_mem _ hmem, hop⟩
    | failed s1 e' =>
      obtain ⟨_, rfl⟩ : s1 = s' ∧ e' = e := by simpa [runOps, hp] using h
      exact ⟨op, List.mem_cons_self, s, s1, hp⟩
    | fault f => simp [runOps, hp] at h

theorem BB.perform_ne_parameterInvalid (op : LineOp) (b b' : BB) : b.perform op ≠ .failed b' .parameterInvalid := by
  rcases b.perform_cases op with ⟨_, e⟩ | ⟨_, e⟩ | ⟨_, _, e⟩ | ⟨_, _, _, _, e⟩ | ⟨_, _, _, _, e⟩ | ⟨_, _, _, _, e⟩ |
    ⟨_, _, e⟩ | ⟨_, _, _, e⟩ | e | ⟨_, e⟩ | e <;> rw [e] <;> exact nofun

theorem BB.run_ne_parameterInvalid (ops : List LineOp) (b b' : BB) : b.run ops ≠ .failed b' .parameterInvalid := fun h =>
  have ⟨op, _, c, c', hop⟩ := runOps_failed_at h
  BB.perform_ne_parameterInvalid op c c' hop

/-- A width and a word the SPI peripheral accepts (R40). -/
def SpiOp.Accepted : SpiOp → Prop
  | .xfer n tx _ _ => (n = 16 ∨ n = 32) ∧ tx < 2 ^ n
  | .element => True
  | .frame => True

theorem SF.perform_ne_parameterInvalid {op : SpiOp} (hop : op.Accepted) (f f' : SF) :
    f.perform op ≠ .failed f' .parameterInvalid := by
  cases op with
  | element | frame => exact nofun
  | xfer n tx cs keep =>
    cases hc : f.spi.claimed with
    | false =>
      rw [SF.perform, SF.xfer_unclaimed hc]
      exact nofun
    | true =>
      rw [SF.perform, SF.xfer_claimed hc hop]
      rcases f.attempt_cases _ with e | ⟨x, e⟩ <;> rw [e] <;> exact nofun

theorem SF.run_ne_parameterInvalid {ops : List SpiOp} (hops : ∀ op ∈ ops, op.Accepted) (f f' : SF) :
    f.run ops ≠ .failed f' .parameterInvalid := fun h =>
  have ⟨_, hmem, c, c', hop⟩ := runOps_failed_at h
  SF.perform_ne_parameterInvalid (hops _ hmem) c c' hop

theorem accepted_sfFlush : ∀ op ∈ Prim.sfFlush, op.Accepted :=
  List.forall_mem_singleton.mpr ⟨.inr rfl, by decide⟩

theorem accepted_sfSendHeader (f : Frame) : ∀ op ∈ Prim.sfSendHeader f, op.Accepted :=
  List.forall_mem_singleton.mpr ⟨.inl rfl, (sfHeader f).isLt⟩

theorem accepted_sendHeader (f : Frame) : ∀ op ∈ SpiOp.element :: .frame :: Prim.sfSendHeader f, op.Accepted :=
  List.forall_mem_cons.mpr ⟨trivial, List.forall_mem_cons.mpr ⟨trivial, accepted_sfSendHeader f⟩⟩

theorem accepted_sfFrameWords (sw : Switches) (f : Frame) : ∀ op ∈ Prim.sfFrameWords sw f, op.Accepted := by
  refine List.forall_mem_append.mpr ⟨accepted_sfSendHeader f, ?_⟩
  split
  · exact List.forall_mem_singleton.mpr ⟨.inl rfl, by decide⟩
  · refine List.forall_mem_singleton.mpr ⟨.inl rfl, ?_⟩
    split
    · exact (sfHeader f).isLt
    · exact f.data.isLt

theorem accepted_sfFrame (sw : Switches) (f : Frame) : ∀ op ∈ Prim.sfFrame sw f, op.Accepted :=
  List.forall_mem_cons.mpr ⟨trivial, List.forall_mem_append.mpr ⟨accepted_sfFlush, accepted_sfFrameWords sw f⟩⟩

theorem accepted_sfNextFrame (sw : Switches) (f : Frame) : ∀ op ∈ Prim.sfNextFrame sw f, op.Accepted := by
  unfold Prim.sfNextFrame
  split
  · exact accepted_sfFrame sw f
  · exact List.forall_mem_cons.mpr ⟨trivial, accepted_sfFrameWords sw f⟩

theorem accepted_sfFrames (sw : Switches) (fs : List Frame) : ∀ op ∈ sfFrames sw fs, op.Accepted := by
  cases fs with
  | nil => exact nofun
  | cons f fs =>
    refine List.forall_mem_append.mpr ⟨accepted_sfFrame sw f, fun op hop => ?_⟩
    obtain ⟨g, _, hg⟩ := List.mem_flatMap.mp hop
    exact accepted_sfNextFrame sw g op hg

/-- Every transfer of an operation has a width and a word the peripheral accepts, at every value of the switches. -/
theorem accepted_sfTransaction (sw : Switches) (t : Transaction) : ∀ op ∈ sfTransaction sw t, op.Accepted := by
  refine List.forall_mem_cons.mpr ⟨trivial, List.forall_mem_append.mpr ⟨accepted_sfFrames sw t.frames, ?_⟩⟩
  split
  · exact accepted_sfFlush
  · exact nofun

/-- The results of `open` and `close` (R137, R138, R191, R192). -/
inductive Result.OfLifecycle : Result → Prop
  | ok : OfLifecycle (.ok .unit)
  | alreadyOpen : OfLifecycle (.err .alreadyOpen)
  | transportIO (f : OsFailure) : OfLifecycle (.err (.transportIO f))

theorem execBbOpen_result_ofLifecycle (s : State) :
    ∃ (b : BB) (r : Result), execBbOpen s = .next (s.withBB (b.deliver r)) ∧ r.OfLifecycle := by
  rw [execBbOpen_eq]
  split
  · exact ⟨_, _, rfl, .alreadyOpen⟩
  · rcases s.bb.openClk_cases with h | ⟨f, h⟩ <;> simp only [h, Ran.outcome]
    · rcases BB.openData_cases { s.bb.spent with clk := Line.openAs .output false .none } with ⟨b, h', _⟩ | ⟨f, h'⟩ <;>
        simp only [h']
      · exact ⟨_, _, rfl, .ok⟩
      · exact ⟨_, _, rfl, .transportIO f⟩
    · exact ⟨_, _, rfl, .transportIO f⟩

theorem execBbClose_result_ofLifecycle (s : State) :
    ∃ (b : BB) (r : Result), execBbClose s = .next (s.withBB (b.deliver r)) ∧ r.OfLifecycle := by
  rw [execBbClose_eq]
  split
  · rcases s.bb.closeData_cases with ⟨b, h, _⟩ | ⟨f, h⟩ <;> simp only [h, Ran.outcome]
    · rcases b.closeClk_cases with ⟨b', h', _⟩ | ⟨f, h'⟩ <;> simp only [h']
      · exact ⟨_, _, rfl, .ok⟩
      · exact ⟨_, _, rfl, .transportIO f⟩
    · exact ⟨_, _, rfl, .transportIO f⟩
  · exact ⟨_, _, rfl, .ok⟩

theorem execSfOpen_result_ofLifecycle (s : State) :
    ∃ (f : SF) (r : Result), execSfOpen s = .next (s.withSF (f.deliver r)) ∧ r.OfLifecycle := by
  rw [execSfOpen_eq]
  split
  · exact ⟨_, _, rfl, .alreadyOpen⟩
  · rcases s.sf.openPort_cases with ⟨f, h, _⟩ | ⟨x, h⟩ <;> simp only [h, Ran.outcome]
    · exact ⟨_, _, rfl, .ok⟩
    · exact ⟨_, _, rfl, .transportIO x⟩

theorem execSfClose_result_ofLifecycle (s : State) :
    ∃ (f : SF) (r : Result), execSfClose s = .next (s.withSF (f.deliver r)) ∧ r.OfLifecycle := by
  rw [execSfClose_eq]
  split
  · rcases s.sf.closePort_cases with ⟨f, h, _⟩ | ⟨x, h⟩ <;> simp only [h, Ran.outcome]
    · exact ⟨_, _, rfl, .ok⟩
    · exact ⟨_, _, rfl, .transportIO x⟩
  · exact ⟨_, _, rfl, .ok⟩

theorem exec_result_ofLifecycle {i : Instr} {s t : State} (hl : i.isLifecycle = true) (h : exec i s = .next t) :
    ∃ rs r, t.resultsOf i.engine = rs ++ [r] ∧ r.OfLifecycle := by
  rcases lifecycle_cases hl with rfl | rfl | rfl | rfl
  · obtain ⟨b, r, e, hr⟩ := execBbOpen_result_ofLifecycle s
    cases h.symm.trans e
    exact ⟨_, r, rfl, hr⟩
  · obtain ⟨b, r, e, hr⟩ := execBbClose_result_ofLifecycle s
    cases h.symm.trans e
    exact ⟨_, r, rfl, hr⟩
  · obtain ⟨f, r, e, hr⟩ := execSfOpen_result_ofLifecycle s
    cases h.symm.trans e
    exact ⟨_, r, rfl, hr⟩
  · obtain ⟨f, r, e, hr⟩ := execSfClose_result_ofLifecycle s
    cases h.symm.trans e
    exact ⟨_, r, rfl, hr⟩

section
variable {s t : State}

/-- No line operation is malformed, so a command of the bit-bang engine behind its checks never ends with
`ParameterInvalid`. -/
theorem bbCommand_result_ne_parameterInvalid {ops : List LineOp} {value : List Level → Value}
    (h : bbCommand ops value s = .next t) : ∃ rs r, t.bb.results = rs ++ [r] ∧ r ≠ .err .parameterInvalid := by
  rcases bbCommand_cases ops value s with ⟨_, e⟩ | ⟨_, b, got, _, _, e⟩ | ⟨_, b, k, hrun, _, e⟩ | ⟨_, f, _, e⟩
  · cases h.symm.trans e
    exact ⟨_, _, rfl, nofun⟩
  · cases h.symm.trans e
    exact ⟨_, _, rfl, nofun⟩
  · cases h.symm.trans e
    exact ⟨_, _, rfl, by rintro ⟨⟩; exact BB.run_ne_parameterInvalid ops _ b hrun⟩
  · cases h.symm.trans e

/-- The same for the SPI-framed engine, whose commands make only transfers the peripheral accepts. -/
theorem sfCommand_result_ne_parameterInvalid {ops : List SpiOp} {value : List U16 → Value}
    (hops : ∀ op ∈ ops, op.Accepted) (h : sfCommand ops value s = .next t) :
    ∃ rs r, t.sf.results = rs ++ [r] ∧ r ≠ .err .parameterInvalid := by
  rcases sfCommand_cases ops value s with ⟨_, e⟩ | ⟨_, f, got, _, _, e⟩ | ⟨_, f, k, hrun, _, e⟩
  · cases h.symm.trans e
    exact ⟨_, _, rfl, nofun⟩
  · cases h.symm.trans e
    exact ⟨_, _, rfl, nofun⟩
  · cases h.symm.trans e
    exact ⟨_, _, rfl, by rintro ⟨⟩; exact SF.run_ne_parameterInvalid hops _ f hrun⟩

/-- Behind the length check nothing is `ParameterInvalid`. -/
theorem exec_result_ne_parameterInvalid {i : Instr} (hd : i.listsDiffer = false) (h : exec i s = .next t) :
    ∃ rs r, t.resultsOf i.engine = rs ++ [r] ∧ r ≠ .err .parameterInvalid := by
  cases hl : i.isLifecycle with
  | true =>
    obtain ⟨rs, r, hrs, hr⟩ := exec_result_ofLifecycle hl h
    exact ⟨rs, r, hrs, by rintro rfl; cases hr⟩
  | false =>
    cases he : i.engine with
    | bitbang =>
      rw [exec_bitbang_of_parallel he hl hd] at h
      exact bbCommand_result_ne_parameterInvalid h
    | spi =>
      cases hh : i.headerFrame with
      | some f =>
        rw [exec_header i s f hh] at h
        exact sfCommand_result_ne_parameterInvalid (accepted_sendHeader f) h
      | none =>
        rw [exec_spi_of_parallel he hl hh hd] at h
        refine sfCommand_result_ne_parameterInvalid (fun op hop => ?_) h
        obtain ⟨u, _, hu⟩ := List.mem_flatMap.mp hop
        exact accepted_sfTransaction s.switches u op hu

end

theorem exec_result_of_closed {i : Instr} {s t : State} (hl : i.isLifecycle = false) (ho : s.engineOpen i.engine = false)
    (h : exec i s = .next t) : t.resultsOf i.engine = s.resultsOf i.engine ++ [.err .notOpen] := by
  cases he : i.engine with
  | bitbang =>
    rw [he] at ho
    cases h.symm.trans (exec_bitbang_of_closed he hl ho)
    rfl
  | spi =>
    rw [he] at ho
    cases h.symm.trans (exec_spi_of_closed he hl ho)
    rfl

/-- A write batch is no `open` and no `close`. -/
theorem isLifecycle_of_listsDiffer {i : Instr} (hd : i.listsDiffer = true) : i.isLifecycle = false := by
  refine Bool.eq_false_iff.mpr fun hl => ?_
  rcases lifecycle_cases hl with rfl | rfl | rfl | rfl <;> cases hd

/-- Settles O26: the length check is the only source of `ParameterInvalid`, and it stands behind the open check. -/
theorem unequalListsAreInvalid : Obligations.UnequalListsAreInvalid := by
  refine ⟨fun s p d rs vs hne => ?_, fun i s t h hresults => ?_⟩
  · have hd : (rs.length != vs.length) = true := bne_iff_ne.mpr hne
    refine ⟨fun i hi => ?_, fun i hi => ?_⟩ <;> simp only [List.mem_cons, List.not_mem_nil, or_false] at hi
    · rcases hi with rfl | rfl | rfl <;> exact exec_bitbang_of_listsDiffer rfl rfl (by exact hd) s
    · rcases hi with rfl | rfl <;> exact exec_spi_of_listsDiffer rfl rfl rfl (by exact hd) s
  · have hd : i.listsDiffer = true := by
      refine Bool.of_not_eq_false fun hd => ?_
      obtain ⟨rs, r, hrs, hr⟩ := exec_result_ne_parameterInvalid hd h
      exact hr (List.append_singleton_inj.mp (hrs.symm.trans hresults)).2
    refine ⟨hd, Bool.of_not_eq_false fun ho => ?_⟩
    have hclosed := exec_result_of_closed (isLifecycle_of_listsDiffer hd) ho h
    cases (List.append_singleton_inj.mp (hclosed.symm.trans hresults)).2

end Sys2Proof.Machine
end

section
/-! The register commands of the bit-bang engine on a ready engine (R161 to R173): the single commands from what their frames
send, the batches from what each element adds. -/

namespace Sys2Proof.Machine

open Codec Operands

/-! ### Single commands (R161 to R166) -/

/-- Settles O29: one frame and the trailing flush. -/
theorem bbClause22Commands : Obligations.BbClause22Commands := fun _ p r v hr =>
  ⟨exec_bbReadC22_ready hr p r, exec_bbWriteC22_ready hr p r v⟩

section
variable {s : State} (hr : s.bb.Ready) (hsw : s.switches = Switches.normative) (p e r v : Nat)
include hr hsw

theorem exec_bbReadC45_ready :
    exec (.bbReadC45 p e r) s =
      .next (s.withBB (s.bb.completed (readC45Events p e r (s.bb.window 0 18)) true
        (.u16 (wordOfBits (s.bb.window 2 16))))) := by
  have h := exec_bbReadC45_switches hr p e r
  rwa [hsw] at h

theorem exec_bbWriteC45_ready :
    exec (.bbWriteC45 p e r v) s =
      .next (s.withBB (s.bb.completed (writeC45Events p e r v) (v.testBit 0) .unit)) := by
  have h := exec_bbWriteC45_switches hr p e r v
  rwa [hsw] at h

theorem exec_bbReadC45Dword_ready :
    exec (.bbReadC45Dword p e r) s =
      .next (s.withBB (s.bb.completed (readDwordEvents p e r (s.bb.window 0 18) (s.bb.window 18 18)) true
        (.u32 (BitVec.ofNat 32
          ((wordOfBits (s.bb.window 20 16)).toNat * 65536 + (wordOfBits (s.bb.window 2 16)).toNat))))) := by
  have h := exec_bbReadC45Dword_switches hr p e r
  rwa [hsw] at h

theorem exec_bbWriteC45Dword_ready :
    exec (.bbWriteC45Dword p e r v) s =
      .next (s.withBB (s.bb.completed (writeDwordEvents p e r v) (v.testBit 16) .unit)) := by
  have h := exec_bbWriteC45Dword_switches hr p e r v
  rwa [hsw] at h

end

/-- Settles O30: with the switches as the spec sets them, the second frame has its own preamble. -/
theorem bbClause45Commands : Obligations.BbClause45Commands := fun _ p e r v hr hsw =>
  ⟨exec_bbReadC45_ready hr hsw p e r, exec_bbWriteC45_ready hr hsw p e r v⟩

/-- Settles O31: with the switches as the spec sets them, the four frames are addresses first and every read is a `C45_READ`. -/
theorem bbDwordCommands : Obligations.BbDwordCommands := fun _ p e r v hr hsw =>
  ⟨exec_bbReadC45Dword_ready hr hsw p e r, exec_bbWriteC45Dword_ready hr hsw p e r v⟩

/-! ### What the data line drives after an operation (R176) -/

/-- The level the data line drives after an operation, if the operation puts anything on the wire. -/
def Transaction.endLevel (t : Transaction) : Option Level :=
  if t.trailingFlush then some true else t.frames.getLast?.map driveAfter

section
variable {t : Transaction} {l : Level}

theorem driveAfterOperation_of_endLevel (h : t.endLevel = some l) (d : Level) : driveAfterOperation d t = l := by
  cases hf : t.trailingFlush with
  | true => simpa [Transaction.endLevel, driveAfterOperation, hf] using h
  | false =>
    have hlast : t.frames.getLast?.map driveAfter = some l := by simpa [Transaction.endLevel, hf] using h
    simp [driveAfterOperation, driveAfterFrames, hf, hlast]

theorem speaks_of_endLevel (h : t.endLevel = some l) : t.speaks = true := by
  cases hf : t.trailingFlush with
  | true => simp [Transaction.speaks, hf]
  | false =>
    cases hfs : t.frames with
    | nil => simp [Transaction.endLevel, hf, hfs] at h
    | cons f fs => simp [Transaction.speaks, hfs]

end

theorem driveAfter_c45Write (p e v : Nat) : driveAfter (c45Write p e v) = v.testBit 0 := by
  rw [driveAfter, isReadClass_c45Write, if_neg Bool.false_ne_true, c45Write, mask_toNat, testBit_zero_mod]

theorem driveAfter_dwordReadFrame (o : DwordReadOp) (p e : Nat) : driveAfter (dwordReadFrame o p e) = true := by
  cases o with
  | read => rw [driveAfter, dwordReadFrame, isReadClass_c45Read, if_pos rfl]
  | readInc => rw [driveAfter, dwordReadFrame, isReadClass_c45ReadInc, if_pos rfl]

/-- In both orders the last frame of a dword command is that of the high half (D3). -/
theorem getLast?_dwordFrames (q : DwordSequence) (aLo aHi dLo dHi : Frame) :
    (dwordFrames q aLo aHi dLo dHi).getLast? = some dHi := by
  cases q <;> rfl

theorem endLevel_readC22 (p r : Nat) : (readC22 p r).endLevel = some true := rfl

theorem endLevel_writeC22 (p r v : Nat) : (writeC22 p r v).endLevel = some true := rfl

theorem endLevel_readC45 (p e r : Nat) : (readC45 p e r).endLevel = some true :=
  congrArg some (driveAfter_dwordReadFrame .read p e)

theorem endLevel_writeC45 (p e r v : Nat) : (writeC45 p e r v).endLevel = some (v.testBit 0) :=
  congrArg some (driveAfter_c45Write p e v)

theorem endLevel_readC45Dword (sw : Switches) (p e r : Nat) : (readC45Dword sw p e r).endLevel = some true := by
  simp [Transaction.endLevel, readC45Dword, getLast?_dwordFrames, driveAfter_dwordReadFrame]

theorem endLevel_writeC45Dword (sw : Switches) (p e r v : Nat) :
    (writeC45Dword sw p e r v).endLevel = some (v.testBit 16) := by
  simp only [Transaction.endLevel, writeC45Dword, getLast?_dwordFrames, Bool.false_eq_true, if_false, Option.map_some,
    driveAfter_c45Write, splitDword_high_testBit]

/-! ### Batches (R167 to R173) -/

/-- The operations `ts` on a ready engine, the last of which leaves the data line at `l`. -/
theorem bbTransact_of_endLevel {s : State} (hr : s.bb.Ready) (hsw : s.switches = Switches.normative) {ts : List Transaction}
    {t : Transaction} {l : Level} (hspeak : ∀ u ∈ ts, u.speaks = true) (hlast : ts.getLast? = some t)
    (ht : t.endLevel = some l) (shape : Shape) :
    bbTransact ts shape s =
      .next (s.withBB (s.bb.completed (transactionsEvents ts (s.bb.window 0 (transactionsSamples ts))) l
        (assemble shape (wordsIn (wordsRead ts) (s.bb.window 0 (transactionsSamples ts)))))) := by
  have hprefaced : ∀ u ∈ ts, u.prefaced s.switches := fun _ _ => .inl (congrArg Switches.preamblePerFrame hsw)
  have hne : ts ≠ [] := by rintro rfl; cases hlast
  have hdrive : ts.foldl driveAfterOperation s.bb.data.drive = l := by
    obtain ⟨us, rfl⟩ := List.getLast?_eq_some_iff.mp hlast
    rw [List.foldl_append]
    exact driveAfterOperation_of_endLevel ht _
  rw [bbTransact_ready hr ts hprefaced hne hspeak shape, hdrive, BB.upcoming_eq_window]

section
variable {op : Nat → Transaction} {ev : Nat → List Level → List BBEvent} {k : Nat}

theorem transactionsSamples_map (hk : ∀ r, framesSamples (op r).frames = k) (rs : List Nat) :
    transactionsSamples (rs.map op) = k * rs.length := by
  induction rs with
  | nil => rfl
  | cons r rs ih => rw [List.map_cons, transactionsSamples_cons, hk, ih, List.length_cons, Nat.mul_succ, Nat.add_comm]

/-- Each element of a read batch takes the next `k` samples. -/
theorem transactionsEvents_map
    (hev : ∀ r ts ls, transactionsEvents (op r :: ts) ls = ev r (ls.take k) ++ transactionsEvents ts (ls.drop k)) (b : BB)
    (rs : List Nat) (start : Nat) :
    transactionsEvents (rs.map op) (b.window start (k * rs.length)) =
      (rs.mapIdx fun j r => ev r (b.window (start + k * j) k)).flatten := by
  induction rs generalizing start with
  | nil => rfl
  | cons r rs ih =>
    have hlen : k * (r :: rs).length = k + k * rs.length := by rw [List.length_cons, Nat.mul_succ, Nat.add_comm]
    have hnext : ∀ j, start + k + k * j = start + k * (j + 1) := fun j => by rw [Nat.mul_succ]; omega
    rw [List.map_cons, hev, hlen, BB.window_take b (Nat.le_add_right _ _), BB.window_drop, Nat.add_sub_cancel_left, ih,
      List.mapIdx_cons, List.flatten_cons]
    simp only [hnext, Nat.mul_zero, Nat.add_zero]

/-- A read batch of at least one register on a ready engine, from what each element takes and shows. -/
theorem bbTransact_readBatch {s : State} (hr : s.bb.Ready) (hsw : s.switches = Switches.normative)
    (hend : ∀ r, (op r).endLevel = some true) (hk : ∀ r, framesSamples (op r).frames = k)
    (hev : ∀ r ts ls, transactionsEvents (op r :: ts) ls = ev r (ls.take k) ++ transactionsEvents ts (ls.drop k))
    {rs : List Nat} (hne : rs ≠ []) (shape : Shape) :
    bbTransact (rs.map op) shape s =
      .next (s.withBB (s.bb.completed (rs.mapIdx fun j r => ev r (s.bb.window (k * j) k)).flatten true
        (assemble shape (wordsIn (wordsRead (rs.map op)) (s.bb.window 0 (k * rs.length)))))) := by
  have hspeak : ∀ u ∈ rs.map op, u.speaks = true :=
    List.forall_mem_map.mpr fun r _ => speaks_of_endLevel (hend r)
  have hlast : (rs.map op).getLast? = some (op (rs.getLast hne)) := by
    rw [List.getLast?_map, List.getLast?_eq_some_getLast hne, Option.map_some]
  rw [bbTransact_of_endLevel hr hsw hspeak hlast (hend _) shape, transactionsSamples_map hk, transactionsEvents_map hev]
  simp only [Nat.zero_add]

end

/-- The words of read-class frames one after the other: each is the last 16 of 18 samples (R141). -/
theorem wordsIn_window (b : BB) {α : Type} (rs : List α) (start : Nat) :
    wordsIn rs.length (b.window start (18 * rs.length)) =
      rs.mapIdx fun j _ => wordOfBits (b.window (start + (18 * j + 2)) 16) := by
  induction rs generalizing start with
  | nil => rfl
  | cons r rs ih =>
    have hnext : ∀ j, start + 18 + (18 * j + 2) = start + (18 * (j + 1) + 2) := fun j => by omega
    have hrest : 18 * (rs.length + 1) - 18 = 18 * rs.length := by omega
    rw [List.length_cons, wordsIn, BB.window_drop, BB.window_take b (by omega), BB.window_drop, hrest, ih, List.mapIdx_cons]
    simp only [hnext, Nat.mul_zero, Nat.zero_add]

/-- The dwords of pairs of read-class frames, low half first (R58, R165). -/
theorem joinPairs_wordsIn_window (b : BB) {α : Type} (rs : List α) (start : Nat) :
    joinPairs (wordsIn (2 * rs.length) (b.window start (36 * rs.length))) =
      rs.mapIdx fun j _ => BitVec.ofNat 32
        ((wordOfBits (b.window (start + (36 * j + 20)) 16)).toNat * 65536
          + (wordOfBits (b.window (start + (36 * j + 2)) 16)).toNat) := by
  induction rs generalizing start with
  | nil => rfl
  | cons r rs ih =>
    have hlow : ∀ j, start + 36 + (36 * j + 2) = start + (36 * (j + 1) + 2) := fun j => by omega
    have hhigh : ∀ j, start + 36 + (36 * j + 20) = start + (36 * (j + 1) + 20) := fun j => by omega
    have hrest : 36 * (rs.length + 1) - (18 + 18) = 36 * rs.length := by omega
    rw [List.length_cons, Nat.mul_succ 2, wordsIn, wordsIn, joinPairs, joinDword_eq, List.drop_drop, List.drop_drop,
      BB.window_drop, BB.window_drop, BB.window_drop, BB.window_take b (by omega), BB.window_take b (by omega), hrest, ih,
      List.mapIdx_cons]
    simp only [hlow, hhigh, Nat.mul_zero, Nat.zero_add, Nat.reduceAdd]

section
variable {s : State} (hr : s.bb.Ready) (hsw : s.switches = Switches.normative) (p e : Nat) {rs : List Nat} (hne : rs ≠ [])
include hr hsw hne

theorem exec_bbReadC22Registers_ready :
    exec (.bbReadC22Registers p rs) s =
      .next (s.withBB (s.bb.completed (rs.mapIdx (fun k r => readC22Events p r (s.bb.window (18 * k) 18))).flatten true
        (.u16s (rs.mapIdx (fun k _ => wordOfBits (s.bb.window (18 * k + 2) 16)))))) := by
  refine (bbTransact_readBatch hr hsw (endLevel_readC22 p) (framesSamples_readC22 p) (readC22_events p) hne .u16s).trans ?_
  rw [wordsRead_map _ 1 (readsIn_readC22 p), Nat.one_mul, wordsIn_window]
  simp only [Nat.zero_add, assemble]

theorem exec_bbReadC45Registers_ready :
    exec (.bbReadC45Registers p e rs) s =
      .next (s.withBB (s.bb.completed (rs.mapIdx (fun k r => readC45Events p e r (s.bb.window (18 * k) 18))).flatten true
        (.u16s (rs.mapIdx (fun k _ => wordOfBits (s.bb.window (18 * k + 2) 16)))))) := by
  refine (bbTransact_readBatch hr hsw (endLevel_readC45 p e) (framesSamples_readC45 p e) (readC45_events p e) hne
    .u16s).trans ?_
  rw [wordsRead_map _ 1 (readsIn_readC45 p e), Nat.one_mul, wordsIn_window]
  simp only [Nat.zero_add, assemble]

theorem exec_bbReadC45DwordRegisters_ready :
    exec (.bbReadC45DwordRegisters p e rs) s =
      .next (s.withBB (s.bb.completed
        (rs.mapIdx (fun k r => readDwordEvents p e r (s.bb.window (36 * k) 18) (s.bb.window (36 * k + 18) 18))).flatten true
        (.u32s (rs.mapIdx (fun k _ => BitVec.ofNat 32
          ((wordOfBits (s.bb.window (36 * k + 20) 16)).toNat * 65536
            + (wordOfBits (s.bb.window (36 * k + 2) 16)).toNat)))))) := by
  have hev : ∀ r ts ls, transactionsEvents (readC45Dword s.switches p e r :: ts) ls =
      readDwordEvents p e r ((ls.take 36).take 18) ((ls.take 36).drop 18) ++ transactionsEvents ts (ls.drop 36) :=
    fun r ts ls => by rw [hsw, readC45Dword_events, List.take_take, List.drop_take]; rfl
  have hk : ∀ r, framesSamples (readC45Dword s.switches p e r).frames = 36 := by
    rw [hsw]
    exact framesSamples_readC45Dword p e
  refine (bbTransact_readBatch (ev := fun r ls => readDwordEvents p e r (ls.take 18) (ls.drop 18)) hr hsw
    (endLevel_readC45Dword s.switches p e) hk hev hne .u32s).trans ?_
  simp only [BB.window_take _ (show 18 ≤ 36 by decide), BB.window_drop, assemble,
    wordsRead_map _ 2 (readsIn_readC45Dword s.switches p e), joinPairs_wordsIn_window, Nat.zero_add, Nat.reduceSub]

end

/-- Settles O32: the samples of an element are the window behind those of the elements before it. -/
theorem bbReadBatches : Obligations.BbReadBatches := fun _ p e _ hr hsw hne =>
  ⟨exec_bbReadC22Registers_ready hr hsw p hne, exec_bbReadC45Registers_ready hr hsw p e hne,
    exec_bbReadC45DwordRegisters_ready hr hsw p e hne⟩

theorem forall_mem_zipWith {α : Type} {op : Nat → Nat → α} {P : α → Prop} (h : ∀ r v, P (op r v)) (rs vs : List Nat) :
    ∀ a ∈ List.zipWith op rs vs, P a := by
  rw [← List.map_uncurry_zip_eq_zipWith]
  exact List.forall_mem_map.mpr fun x _ => h x.1 x.2

/-- The last operation of a write batch over parallel lists is one with the last value. -/
theorem getLast?_zipWith (op : Nat → Nat → Transaction) {rs vs : List Nat} {v : Nat} (hlen : rs.length = vs.length)
    (hv : vs.getLast? = some v) : ∃ r, (List.zipWith op rs vs).getLast? = some (op r v) := by
  obtain ⟨vs, rfl⟩ := List.getLast?_eq_some_iff.mp hv
  rcases List.eq_nil_or_concat' rs with rfl | ⟨rs, r, rfl⟩
  · simp at hlen
  · rw [List.zipWith_append (by simpa using hlen)]
    exact ⟨r, List.getLast?_concat⟩

section
variable {op : Nat → Nat → Transaction} {ev : Nat → Nat → List BBEvent}

theorem transactionsSamples_zipWith (hk : ∀ r v, framesSamples (op r v).frames = 0) (rs vs : List Nat) :
    transactionsSamples (List.zipWith op rs vs) = 0 := by
  induction rs generalizing vs with
  | nil => rfl
  | cons r rs ih =>
    cases vs with
    | nil => rfl
    | cons v vs => rw [List.zipWith_cons_cons, transactionsSamples_cons, hk, ih]

theorem transactionsEvents_zipWith
    (hev : ∀ r v ts ls, transactionsEvents (op r v :: ts) ls = ev r v ++ transactionsEvents ts ls) (rs vs : List Nat)
    (ls : List Level) : transactionsEvents (List.zipWith op rs vs) ls = (List.zipWith ev rs vs).flatten := by
  induction rs generalizing vs with
  | nil => rfl
  | cons r rs ih =>
    cases vs with
    | nil => rfl
    | cons v vs => rw [List.zipWith_cons_cons, List.zipWith_cons_cons, hev, ih, List.flatten_cons]

/-- A write batch over parallel lists of at least one element on a ready engine, from what each element shows. -/
theorem bbWriteBatch_ready {s : State} (hr : s.bb.Ready) (hsw : s.switches = Switches.normative) {level : Nat → Level}
    (hend : ∀ r v, (op r v).endLevel = some (level v))
    (hev : ∀ r v ts ls, transactionsEvents (op r v :: ts) ls = ev r v ++ transactionsEvents ts ls)
    {rs vs : List Nat} {last : Nat} (hlen : rs.length = vs.length) (hlast : vs.getLast? = some last) :
    bbWriteBatch op rs vs s =
      .next (s.withBB (s.bb.completed (List.zipWith ev rs vs).flatten (level last) .unit)) := by
  have hspeak : ∀ t ∈ List.zipWith op rs vs, t.speaks = true :=
    forall_mem_zipWith (P := fun t : Transaction => t.speaks = true) (fun r v => speaks_of_endLevel (hend r v)) rs vs
  obtain ⟨r, hr'⟩ := getLast?_zipWith op hlen hlast
  have hsame : ¬(s.bb.isOpen = true ∧ rs.length ≠ vs.length) := fun h => h.2 hlen
  rw [bbWriteBatch, if_neg hsame, bbTransact_of_endLevel hr hsw hspeak hr' (hend r last), transactionsEvents_zipWith hev]
  rfl

end

section
variable {s : State} (hr : s.bb.Ready) (hsw : s.switches = Switches.normative) (p e : Nat) {rs vs : List Nat} {last : Nat}
  (hlen : rs.length = vs.length) (hlast : vs.getLast? = some last)
include hr hsw hlen hlast

theorem exec_bbWriteC22Registers_ready :
    exec (.bbWriteC22Registers p rs vs) s =
      .next (s.withBB (s.bb.completed (List.zipWith (writeC22Events p) rs vs).flatten true .unit)) :=
  bbWriteBatch_ready (level := fun _ => true) hr hsw (endLevel_writeC22 p) (writeC22_events p) hlen hlast

theorem exec_bbWriteC45Registers_ready :
    exec (.bbWriteC45Registers p e rs vs) s =
      .next (s.withBB (s.bb.completed (List.zipWith (writeC45Events p e) rs vs).flatten (last.testBit 0) .unit)) :=
  bbWriteBatch_ready (level := fun v => v.testBit 0) hr hsw (endLevel_writeC45 p e) (writeC45_events p e) hlen hlast

theorem exec_bbWriteC45DwordRegisters_ready :
    exec (.bbWriteC45DwordRegisters p e rs vs) s =
      .next (s.withBB (s.bb.completed (List.zipWith (writeDwordEvents p e) rs vs).flatten (last.testBit 16) .unit)) :=
  bbWriteBatch_ready (level := fun v => v.testBit 16) hr hsw (endLevel_writeC45Dword s.switches p e)
    (hsw ▸ writeC45Dword_events p e) hlen hlast

end

/-- Settles O33: the last value decides what the data line drives at the end. -/
theorem bbWriteBatches : Obligations.BbWriteBatches := fun _ p e _ _ _ hr hsw hlen hlast =>
  ⟨exec_bbWriteC22Registers_ready hr hsw p hlen hlast, exec_bbWriteC45Registers_ready hr hsw p e hlen hlast,
    exec_bbWriteC45DwordRegisters_ready hr hsw p e hlen hlast⟩

end Sys2Proof.Machine
end

section
/-! The lines at the end of a register command of the bit-bang engine (R176). Where a sequence of operations succeeds, the
operations alone say what the lines hold behind it, and the last of them decide that. -/

namespace Sys2Proof.Machine

open Codec

/-! ### What operations that succeed make of the lines -/

/-- The level of the clock line, the level of the data line and the direction of the data line after an operation that
succeeded: a write of the data line succeeds in output direction only (R35). -/
def LineOp.sets (l : Level × Level × Direction) : LineOp → Level × Level × Direction
  | .clk c => (c, l.2.1, l.2.2)
  | .data d => (l.1, d, .output)
  | .dirIn => (l.1, l.2.1, .input)
  | .dirOut d => (l.1, d, .output)
  | .sample _ => l
  | .element => l
  | .frame => l
  | .wait _ => l

theorem BB.lines_of_perform_done {op : LineOp} {b b' : BB} {got : List Level} (h : b.perform op = .done b' got) :
    b'.lines = op.sets b.lines := by
  rcases b.perform_cases op with ⟨rfl, e⟩ | ⟨rfl, e⟩ | ⟨_, rfl, e⟩ | ⟨_, rfl, _, _, e⟩ | ⟨_, rfl, _, hd, e⟩ |
    ⟨_, rfl, _, _, e⟩ | ⟨rfl, _, e⟩ | ⟨_, rfl, _, e⟩ | e | ⟨_, e⟩ | e <;> rw [e] at h <;> cases h
  · rfl
  · rfl
  · rfl
  · rfl
  · exact congrArg (fun d => (_, _, d)) hd
  · rfl
  · rfl
  · rfl

/-- A sequence that succeeded is a first operation that succeeded and a rest that succeeded. -/
theorem runOps_cons_eq_done {σ ω β : Type} {perform : ω → σ → Ran σ β} {op : ω} {ops : List ω} {s s' : σ} {got : List β}
    (h : runOps perform (op :: ops) s = .done s' got) :
    ∃ s1 g g', perform op s = .done s1 g ∧ runOps perform ops s1 = .done s' g' ∧ got = g ++ g' := by
  cases hp : perform op s with
  | done s1 g =>
    cases hr : runOps perform ops s1 with
    | done s2 g' =>
      simp only [runOps, hp, hr] at h
      cases h
      exact ⟨s1, g, g', rfl, hr, rfl⟩
    | failed s2 e => simp [runOps, hp, hr] at h
    | fault f => simp [runOps, hp, hr] at h
  | failed s1 e => simp [runOps, hp] at h
  | fault f => simp [runOps, hp] at h

theorem BB.lines_of_run_done {ops : List LineOp} {b b' : BB} {got : List Level} (h : b.run ops = .done b' got) :
    b'.lines = ops.foldl LineOp.sets b.lines := by
  induction ops generalizing b got with
  | nil => cases h; rfl
  | cons op ops ih =>
    obtain ⟨b1, g, g', hop, hrest, _⟩ := runOps_cons_eq_done h
    rw [List.foldl_cons, ← BB.lines_of_perform_done hop, ih hrest]

/-! ### What a command leaves -/

/-- Behind these operations the clock is low and the data line an output driving `l`, whatever the lines held before. -/
def Leaves (ops : List LineOp) (l : Level) : Prop := ∀ ls, ops.foldl LineOp.sets ls = (false, l, .output)

section
variable {l : Level}

theorem Leaves.behind {ops : List LineOp} (h : Leaves ops l) (before : List LineOp) : Leaves (before ++ ops) l :=
  fun ls => by rw [List.foldl_append]; exact h _

theorem Leaves.behind_op {ops : List LineOp} (h : Leaves ops l) (op : LineOp) : Leaves (op :: ops) l := h.behind [op]

theorem leaves_writeBit (l : Level) : Leaves (Prim.writeBit l) l := fun _ => rfl

/-- The last bit sent decides (R134). -/
theorem leaves_writeBits (v n : Nat) : Leaves (Prim.writeBits v (n + 1)) (v.testBit 0) := by
  induction n with
  | zero => exact leaves_writeBit _
  | succ n ih => exact ih.behind (Prim.writeBit (v.testBit (n + 1)))

theorem leaves_flush : Leaves Prim.flush true := (leaves_writeBit true).behind ((List.replicate 31 true).flatMap Prim.writeBit)

/-- The read transition ends by taking the line back driving `1` (R141). -/
theorem leaves_readTransition : Leaves Prim.readTransition true := fun _ => rfl

theorem leaves_frameSlots (f : Frame) : Leaves (Prim.frameSlots f) (driveAfter f) := by
  refine Leaves.behind ?_ (Prim.sendHeader14 f)
  unfold driveAfter
  split
  · exact leaves_readTransition
  · exact (leaves_writeBits f.data.toNat 15).behind _

theorem leaves_bbFrame (f : Frame) : Leaves (Prim.bbFrame f) (driveAfter f) :=
  ((leaves_frameSlots f).behind Prim.flush).behind_op .frame

theorem leaves_bbNextFrame (sw : Switches) (f : Frame) : Leaves (Prim.bbNextFrame sw f) (driveAfter f) := by
  unfold Prim.bbNextFrame
  split
  · exact leaves_bbFrame f
  · exact (leaves_frameSlots f).behind_op .frame

/-- The last frame decides, with its own preamble or without (D2). -/
theorem leaves_bbFrames (sw : Switches) (fs : List Frame) (f : Frame) : Leaves (bbFrames sw (fs ++ [f])) (driveAfter f) := by
  cases fs with
  | nil =>
    rw [List.nil_append, bbFrames, List.flatMap_nil, List.append_nil]
    exact leaves_bbFrame f
  | cons g fs =>
    rw [List.cons_append, bbFrames, List.flatMap_append, List.flatMap_singleton]
    exact ((leaves_bbNextFrame sw f).behind _).behind _

theorem leaves_bbTransaction (sw : Switches) {t : Transaction} (h : t.endLevel = some l) :
    Leaves (bbTransaction sw t) l := by
  refine Leaves.behind_op ?_ .element
  cases hf : t.trailingFlush with
  | true =>
    obtain rfl : true = l := by simpa [Transaction.endLevel, hf] using h
    exact leaves_flush.behind _
  | false =>
    obtain ⟨f, hlast, rfl⟩ : ∃ f, t.frames.getLast? = some f ∧ driveAfter f = l := by
      simpa [Transaction.endLevel, hf] using h
    obtain ⟨fs, hfs⟩ := List.getLast?_eq_some_iff.mp hlast
    rw [hfs, if_neg Bool.false_ne_true, List.append_nil]
    exact leaves_bbFrames sw fs f

/-- The last operation decides. -/
theorem leaves_lineOps (sw : Switches) {ts : List Transaction} {t : Transaction} (hlast : ts.getLast? = some t)
    (h : t.endLevel = some l) : Leaves (lineOps sw ts) l := by
  obtain ⟨us, rfl⟩ := List.getLast?_eq_some_iff.mp hlast
  rw [lineOps, List.flatMap_append, List.flatMap_singleton]
  exact (leaves_bbTransaction sw h).behind _

end

/-! ### The table of R176 -/

theorem bitbang_of_endLevel {i : Instr} {l : Level} (h : i.endLevel = some l) :
    i.engine = .bitbang ∧ i.isLifecycle = false := by
  cases i with
  | bbReadC22 | bbWriteC22 | bbReadC45 | bbWriteC45 | bbReadC45Dword | bbWriteC45Dword | bbReadC22Registers
  | bbWriteC22Registers | bbReadC45Registers | bbWriteC45Registers | bbReadC45DwordRegisters | bbWriteC45DwordRegisters =>
    exact ⟨rfl, rfl⟩
  | _ => cases h

/-- The last operation of a read batch over a list that is not empty. -/
theorem getLast?_map_of_isEmpty {op : Nat → Transaction} {l l' : Level} (hop : ∀ r, (op r).endLevel = some l)
    {rs : List Nat} (h : (if rs.isEmpty then none else some l) = some l') :
    ∃ t, (rs.map op).getLast? = some t ∧ t.endLevel = some l' := by
  rcases List.eq_nil_or_concat' rs with rfl | ⟨rs, r, rfl⟩
  · cases h
  · obtain rfl : l = l' := by simpa using h
    exact ⟨op r, by rw [List.map_append]; exact List.getLast?_concat, hop r⟩

/-- The operations of a command end with one that leaves the level of R176. -/
theorem operations_getLast? {i : Instr} {l : Level} (sw : Switches) (h : i.endLevel = some l) (hd : i.listsDiffer = false) :
    ∃ t, (i.operations sw).getLast? = some t ∧ t.endLevel = some l := by
  cases i with
  | bbReadC22 | bbWriteC22 => exact ⟨_, rfl, h⟩
  | bbReadC45 p e r => exact ⟨_, rfl, (endLevel_readC45 p e r).trans h⟩
  | bbWriteC45 p e r v => exact ⟨_, rfl, (endLevel_writeC45 p e r v).trans h⟩
  | bbReadC45Dword p e r => exact ⟨_, rfl, (endLevel_readC45Dword sw p e r).trans h⟩
  | bbWriteC45Dword p e r v => exact ⟨_, rfl, (endLevel_writeC45Dword sw p e r v).trans h⟩
  | bbReadC22Registers p rs => exact getLast?_map_of_isEmpty (endLevel_readC22 p) h
  | bbReadC45Registers p e rs => exact getLast?_map_of_isEmpty (endLevel_readC45 p e) h
  | bbReadC45DwordRegisters p e rs => exact getLast?_map_of_isEmpty (endLevel_readC45Dword sw p e) h
  | bbWriteC22Registers p rs vs =>
    obtain ⟨hne, rfl⟩ : rs ≠ [] ∧ true = l := by simpa [Instr.endLevel] using h
    have hlen : rs.length = vs.length := by simpa [Instr.listsDiffer] using hd
    have hvs : vs ≠ [] := List.ne_nil_of_length_pos (hlen ▸ List.length_pos_iff.mpr hne)
    obtain ⟨r, hr⟩ := getLast?_zipWith (writeC22 p) hlen (List.getLast?_eq_some_getLast hvs)
    exact ⟨_, hr, endLevel_writeC22 p r _⟩
  | bbWriteC45Registers p e rs vs =>
    obtain ⟨v, hv, rfl⟩ : ∃ v, vs.getLast? = some v ∧ v.testBit 0 = l := by simpa [Instr.endLevel] using h
    obtain ⟨r, hr⟩ := getLast?_zipWith (writeC45 p e) (by simpa [Instr.listsDiffer] using hd) hv
    exact ⟨_, hr, endLevel_writeC45 p e r v⟩
  | bbWriteC45DwordRegisters p e rs vs =>
    obtain ⟨v, hv, rfl⟩ : ∃ v, vs.getLast? = some v ∧ v.testBit 16 = l := by simpa [Instr.endLevel] using h
    obtain ⟨r, hr⟩ := getLast?_zipWith (writeC45Dword sw p e) (by simpa [Instr.listsDiffer] using hd) hv
    exact ⟨_, hr, endLevel_writeC45Dword sw p e r v⟩
  | _ => cases h

theorem operations_of_isEmptyBatch {i : Instr} (sw : Switches) (h : i.isEmptyBatch = true) : i.operations sw = [] := by
  cases i with
  | bbReadC22Registers | bbWriteC22Registers | bbReadC45Registers | bbWriteC45Registers | bbReadC45DwordRegisters
  | bbWriteC45DwordRegisters | sfReadC22Registers | sfWriteC22Registers | sfReadC45Registers | sfWriteC45Registers =>
    obtain rfl := List.isEmpty_iff.mp h
    rfl
  | _ => cases h

/-- A command of the bit-bang engine that delivers `Ok` has run its operations to their end. -/
theorem run_of_ok {i : Instr} {s t : State} {v : Value} (he : i.engine = .bitbang) (hl : i.isLifecycle = false)
    (h : exec i s = .next t) (hok : t.bb.results = s.bb.results ++ [.ok v]) :
    i.listsDiffer = false ∧ ∃ b got, s.bb.run (lineOps s.switches (i.operations s.switches)) = .done b got ∧
      t.bb.clk = b.clk ∧ t.bb.data = b.data := by
  have hnot : ∀ rs e, t.bb.results = rs ++ [.err e] → False := fun rs e hrs => by
    cases (List.append_singleton_inj.mp (hrs.symm.trans hok)).2
  cases hd : i.listsDiffer with
  | true =>
    cases h.symm.trans (exec_bitbang_of_listsDiffer he hl hd s)
    exact (hnot _ _ rfl).elim
  | false =>
    rw [exec_eq_bbRegisters he hl] at h
    rcases bbRegisters_cases i.listsDiffer (fun sw => i.operations sw) i.shape s with
      ⟨_, e⟩ | ⟨_, b, got, _, hrun, _, e⟩ | ⟨_, b, k, _, _, e⟩ | ⟨_, _, _, e⟩ <;> cases h.symm.trans e
    · exact (hnot _ _ rfl).elim
    · exact ⟨rfl, b, got, hrun, rfl, rfl⟩
    · exact (hnot _ _ rfl).elim

/-- Settles O42: a command that completes with `Ok` has run to its end, and the last operation decides what it leaves. -/
theorem endOfCommandLines : Obligations.EndOfCommandLines := by
  intro i s t v h hok
  refine ⟨fun l hend => ?_, fun hempty => ?_⟩
  · obtain ⟨he, hl⟩ := bitbang_of_endLevel hend
    obtain ⟨hd, b, got, hrun, hclk, hdata⟩ := run_of_ok he hl h hok
    obtain ⟨u, hlast, hu⟩ := operations_getLast? s.switches hend hd
    have hlines : b.lines = (false, l, .output) := (BB.lines_of_run_done hrun).trans (leaves_lineOps s.switches hlast hu _)
    rw [hclk, hdata]
    obtain ⟨hlow, hlevel, hdir⟩ : b.clk.drive = false ∧ b.data.drive = l ∧ b.data.dir = .output := by
      simpa [BB.lines] using hlines
    exact ⟨hlow, hdir, hlevel⟩
  · cases he : i.engine with
    | spi =>
      obtain ⟨f, r, e, _⟩ := (exec_onSF he).ends s
      cases h.symm.trans e
      exact ⟨rfl, rfl⟩
    | bitbang =>
      have hl : i.isLifecycle = false := by
        refine Bool.eq_false_iff.mpr fun hl => ?_
        rcases lifecycle_cases hl with rfl | rfl | rfl | rfl <;> cases hempty
      obtain ⟨_, b, got, hrun, hclk, hdata⟩ := run_of_ok he hl h hok
      rw [operations_of_isEmptyBatch _ hempty] at hrun
      cases hrun
      exact ⟨hclk, hdata⟩

end Sys2Proof.Machine
end

section
/-! What a register command of the bit-bang engine puts on the bus, counted (R177). The counts of a trace are the sum of those
of its parts. -/

namespace Sys2Proof.Machine

open Codec

/-! ### Counting -/

/-- The counts of R177 of some events. -/
def lineTotalsOf (es : List BBEvent) : LineTotals := ⟨clockPulses es, sampleCount es, turnCount es, es.length⟩

/-- The totals of two stretches together. -/
def LineTotals.plus (m n : LineTotals) : LineTotals :=
  ⟨m.pulses + n.pulses, m.samples + n.samples, m.turns + n.turns, m.events + n.events⟩

theorem lineTotalsOf_append (xs ys : List BBEvent) :
    lineTotalsOf (xs ++ ys) = (lineTotalsOf xs).plus (lineTotalsOf ys) := by
  simp [lineTotalsOf, LineTotals.plus, clockPulses_append, turnCount]

theorem turnCount_wSlots (bs : List Level) : turnCount (wSlots bs) = 0 := by
  induction bs with
  | nil => rfl
  | cons b bs ih => exact ih

theorem turnCount_rSlots (ls : List Level) : turnCount (rSlots ls) = 0 := by
  induction ls with
  | nil => rfl
  | cons l ls ih => exact ih

theorem lineTotalsOf_wSlots (bs : List Level) : lineTotalsOf (wSlots bs) = ⟨bs.length, 0, 0, 3 * bs.length⟩ := by
  rw [lineTotalsOf, clockPulses_wSlots, sampleCount_wSlots, turnCount_wSlots, wSlots_length]

theorem lineTotalsOf_rSlots (ls : List Level) :
    lineTotalsOf (rSlots ls) = ⟨ls.length, ls.length, 0, 3 * ls.length⟩ := by
  rw [lineTotalsOf, clockPulses_rSlots, sampleCount_rSlots, turnCount_rSlots, rSlots_length]

theorem lineTotalsOf_onesEvents : lineTotalsOf onesEvents = ⟨32, 0, 0, 96⟩ := lineTotalsOf_wSlots (List.replicate 32 true)

/-- Parts with the same totals, one after the other. -/
theorem lineTotalsOf_flatten {n : LineTotals} {parts : List (List BBEvent)} (h : ∀ es ∈ parts, lineTotalsOf es = n) :
    lineTotalsOf parts.flatten = n.times parts.length := by
  induction parts with
  | nil => simp [lineTotalsOf, LineTotals.times, clockPulses, turnCount]
  | cons es parts ih =>
    rw [List.flatten_cons, lineTotalsOf_append, h es List.mem_cons_self, ih fun es' hes' => h es' (List.mem_cons_of_mem _ hes')]
    simp only [LineTotals.times, LineTotals.plus, List.length_cons, Nat.succ_mul, Nat.add_comm]

/-! ### Frames and commands -/

/-- A write-class frame with its preamble. -/
theorem lineTotalsOf_writeFrameEvents (w : Nat) : lineTotalsOf (writeFrameEvents w) = ⟨64, 0, 0, 192⟩ := by
  rw [writeFrameEvents, lineTotalsOf_append, lineTotalsOf_onesEvents, lineTotalsOf_wSlots, bitsOf_length]
  rfl

/-- A read-class frame with its preamble. -/
theorem lineTotalsOf_readFrameEvents (h : Nat) {samples : List Level} (hlen : samples.length = 18) :
    lineTotalsOf (readFrameEvents h samples) = ⟨64, 18, 2, 194⟩ := by
  have hturns : readFrameEvents h samples =
      onesEvents ++ wSlots (bitsOf 14 h) ++ ([.ddirIn] ++ (rSlots samples ++ [.ddirOut true])) := rfl
  rw [hturns, lineTotalsOf_append, lineTotalsOf_append, lineTotalsOf_append, lineTotalsOf_append, lineTotalsOf_onesEvents,
    lineTotalsOf_wSlots, lineTotalsOf_rSlots, bitsOf_length, hlen]
  rfl

section
variable (p e r v : Nat) {ls ls' : List Level} (hlen : ls.length = 18) (hlen' : ls'.length = 18)

include hlen in
theorem lineTotalsOf_readC22Events : lineTotalsOf (readC22Events p r ls) = ⟨96, 18, 2, 290⟩ := by
  rw [readC22Events, lineTotalsOf_append, lineTotalsOf_readFrameEvents _ hlen, lineTotalsOf_onesEvents]
  rfl

theorem lineTotalsOf_writeC22Events : lineTotalsOf (writeC22Events p r v) = ⟨96, 0, 0, 288⟩ := by
  rw [writeC22Events, lineTotalsOf_append, lineTotalsOf_writeFrameEvents, lineTotalsOf_onesEvents]
  rfl

include hlen in
theorem lineTotalsOf_readC45Events : lineTotalsOf (readC45Events p e r ls) = ⟨128, 18, 2, 386⟩ := by
  rw [readC45Events, lineTotalsOf_append, lineTotalsOf_writeFrameEvents, lineTotalsOf_readFrameEvents _ hlen]
  rfl

theorem lineTotalsOf_writeC45Events : lineTotalsOf (writeC45Events p e r v) = ⟨128, 0, 0, 384⟩ := by
  rw [writeC45Events, lineTotalsOf_append, lineTotalsOf_writeFrameEvents, lineTotalsOf_writeFrameEvents]
  rfl

include hlen hlen' in
theorem lineTotalsOf_readDwordEvents : lineTotalsOf (readDwordEvents p e r ls ls') = ⟨256, 36, 4, 772⟩ := by
  simp only [readDwordEvents, lineTotalsOf_append, lineTotalsOf_writeFrameEvents, lineTotalsOf_readFrameEvents _ hlen,
    lineTotalsOf_readFrameEvents _ hlen']
  rfl

theorem lineTotalsOf_writeDwordEvents : lineTotalsOf (writeDwordEvents p e r v) = ⟨256, 0, 0, 768⟩ := by
  simp only [writeDwordEvents, lineTotalsOf_append, lineTotalsOf_writeFrameEvents]
  rfl

end

/-! ### Batches -/

/-- The elements of a read batch, each with the same totals. -/
theorem lineTotalsOf_mapIdx {n : LineTotals} {ev : Nat → Nat → List BBEvent} (h : ∀ k r, lineTotalsOf (ev k r) = n)
    (rs : List Nat) : lineTotalsOf (rs.mapIdx ev).flatten = n.times rs.length := by
  have hparts : ∀ es ∈ rs.mapIdx ev, lineTotalsOf es = n := fun es hes => by
    obtain ⟨k, _, rfl⟩ := List.mem_mapIdx.mp hes
    exact h k _
  rw [lineTotalsOf_flatten hparts, List.length_mapIdx]

/-- The elements of a write batch, each with the same totals. -/
theorem lineTotalsOf_zipWith {n : LineTotals} {ev : Nat → Nat → List BBEvent} (h : ∀ r v, lineTotalsOf (ev r v) = n)
    {rs vs : List Nat} (hlen : rs.length = vs.length) :
    lineTotalsOf (List.zipWith ev rs vs).flatten = n.times rs.length := by
  have hparts : ∀ es ∈ List.zipWith ev rs vs, lineTotalsOf es = n :=
    forall_mem_zipWith (P := fun es => lineTotalsOf es = n) h rs vs
  rw [lineTotalsOf_flatten hparts, List.length_zipWith, hlen, Nat.min_self]

/-! ### The table of R177 -/

/-- The instruction completes with `Ok`, and its events have these totals. -/
def CompletesWith (i : Instr) (s : State) (n : LineTotals) : Prop :=
  ∃ t es v, exec i s = .next t ∧ t.bb.trace = s.bb.trace ++ es ∧ t.bb.results = s.bb.results ++ [.ok v] ∧
    lineTotalsOf es = n

theorem CompletesWith.of_completed {i : Instr} {s : State} {n : LineTotals} {es : List BBEvent} {d : Level} {v : Value}
    (h : exec i s = .next (s.withBB (s.bb.completed es d v))) (hn : lineTotalsOf es = n) : CompletesWith i s n :=
  ⟨_, es, v, h, rfl, rfl, hn⟩

/-- An empty batch has no events (R173 (f)). -/
theorem CompletesWith.of_emptyBatch {i : Instr} {s : State} (ho : s.bb.isOpen = true) (he : i.engine = .bitbang)
    (hl : i.isLifecycle = false) (hd : i.listsDiffer = false) (hempty : i.isEmptyBatch = true) (n : LineTotals) :
    CompletesWith i s (n.times 0) :=
  ⟨_, [], _, exec_bitbang_of_no_operations ho he hl hd (operations_of_isEmptyBatch _ hempty), (List.append_nil _).symm, rfl,
    lineTotalsOf_flatten (parts := []) nofun⟩

/-- A write batch over parallel lists has no element or a last value. -/
theorem eq_nil_or_getLast?_eq_some {rs vs : List Nat} (hlen : rs.length = vs.length) :
    (rs = [] ∧ vs = []) ∨ ∃ last, vs.getLast? = some last := by
  cases hv : vs.getLast? with
  | some last => exact .inr ⟨last, rfl⟩
  | none =>
    obtain rfl := List.getLast?_eq_none_iff.mp hv
    exact .inl ⟨List.length_eq_zero_iff.mp hlen, rfl⟩

theorem completesWith_lineTotals {i : Instr} {s : State} {n : LineTotals} (hr : s.bb.Ready)
    (hsw : s.switches = Switches.normative) (hn : i.lineTotals = some n) (hwf : i.wf = true) : CompletesWith i s n := by
  have ⟨ho, _, _⟩ := hr
  have hwindow : ∀ k, (s.bb.window k 18).length = 18 := fun k => s.bb.window_length k 18
  cases i with
  | bbReadC22 p r =>
    cases hn
    exact .of_completed (exec_bbReadC22_ready hr p r) (lineTotalsOf_readC22Events p r (hwindow _))
  | bbWriteC22 p r v =>
    cases hn
    exact .of_completed (exec_bbWriteC22_ready hr p r v) (lineTotalsOf_writeC22Events p r v)
  | bbReadC45 p e r =>
    cases hn
    exact .of_completed (exec_bbReadC45_ready hr hsw p e r) (lineTotalsOf_readC45Events p e r (hwindow _))
  | bbWriteC45 p e r v =>
    cases hn
    exact .of_completed (exec_bbWriteC45_ready hr hsw p e r v) (lineTotalsOf_writeC45Events p e r v)
  | bbReadC45Dword p e r =>
    cases hn
    exact .of_completed (exec_bbReadC45Dword_ready hr hsw p e r)
      (lineTotalsOf_readDwordEvents p e r (hwindow _) (hwindow _))
  | bbWriteC45Dword p e r v =>
    cases hn
    exact .of_completed (exec_bbWriteC45Dword_ready hr hsw p e r v) (lineTotalsOf_writeDwordEvents p e r v)
  | bbReadC22Registers p rs =>
    cases hn
    rcases eq_or_ne rs [] with rfl | hne
    · exact .of_emptyBatch ho rfl rfl rfl rfl _
    · exact .of_completed (exec_bbReadC22Registers_ready hr hsw p hne)
        (lineTotalsOf_mapIdx (fun k r => lineTotalsOf_readC22Events p r (hwindow _)) rs)
  | bbReadC45Registers p e rs =>
    cases hn
    rcases eq_or_ne rs [] with rfl | hne
    · exact .of_emptyBatch ho rfl rfl rfl rfl _
    · exact .of_completed (exec_bbReadC45Registers_ready hr hsw p e hne)
        (lineTotalsOf_mapIdx (fun k r => lineTotalsOf_readC45Events p e r (hwindow _)) rs)
  | bbReadC45DwordRegisters p e rs =>
    cases hn
    rcases eq_or_ne rs [] with rfl | hne
    · exact .of_emptyBatch ho rfl rfl rfl rfl _
    · exact .of_completed (exec_bbReadC45DwordRegisters_ready hr hsw p e hne)
        (lineTotalsOf_mapIdx (fun k r => lineTotalsOf_readDwordEvents p e r (hwindow _) (hwindow _)) rs)
  | bbWriteC22Registers p rs vs =>
    cases hn
    have hlen : rs.length = vs.length := beq_iff_eq.mp hwf
    rcases eq_nil_or_getLast?_eq_some hlen with ⟨rfl, rfl⟩ | ⟨last, hlast⟩
    · exact .of_emptyBatch ho rfl rfl rfl rfl _
    · exact .of_completed (exec_bbWriteC22Registers_ready hr hsw p hlen hlast)
        (lineTotalsOf_zipWith (lineTotalsOf_writeC22Events p) hlen)
  | bbWriteC45Registers p e rs vs =>
    cases hn
    have hlen : rs.length = vs.length := beq_iff_eq.mp hwf
    rcases eq_nil_or_getLast?_eq_some hlen with ⟨rfl, rfl⟩ | ⟨last, hlast⟩
    · exact .of_emptyBatch ho rfl rfl rfl rfl _
    · exact .of_completed (exec_bbWriteC45Registers_ready hr hsw p e hlen hlast)
        (lineTotalsOf_zipWith (lineTotalsOf_writeC45Events p e) hlen)
  | bbWriteC45DwordRegisters p e rs vs =>
    cases hn
    have hlen : rs.length = vs.length := beq_iff_eq.mp hwf
    rcases eq_nil_or_getLast?_eq_some hlen with ⟨rfl, rfl⟩ | ⟨last, hlast⟩
    · exact .of_emptyBatch ho rfl rfl rfl rfl _
    · exact .of_completed (exec_bbWriteC45DwordRegisters_ready hr hsw p e hlen hlast)
        (lineTotalsOf_zipWith (lineTotalsOf_writeDwordEvents p e) hlen)
  | _ => cases hn

/-- Settles O43: the totals of a command are the sum of those of its frames, and a batch has as many parts as elements. -/
theorem totalsPerCommand : Obligations.TotalsPerCommand := by
  intro i s n hn hwf hr hsw
  obtain ⟨t, es, v, hexec, htrace, hresults, rfl⟩ := completesWith_lineTotals hr hsw hn hwf
  exact ⟨t, es, v, hexec, htrace, hresults, rfl, rfl, rfl, rfl⟩

end Sys2Proof.Machine
end

section
/-! A batch is its elements in order (R173). A command puts nothing into its engine that an operation looks at: behind the
delivery of the first element's result the others run as they do inside the batch. Said once for both engines. -/

namespace Sys2Proof.Machine

open Codec Operands

/-! ### Runs that agree but for what a conversion removes -/

/-- The run with its end converted. -/
def Ran.through {σ β : Type} (φ : σ → σ) : Ran σ β → Ran σ β
  | .done s got => .done (φ s) got
  | .failed s e => .failed (φ s) e
  | .fault f => .fault f

theorem Ran.through_prepend {σ β : Type} (φ : σ → σ) (got : List β) (r : Ran σ β) :
    (r.prepend got).through φ = (r.through φ).prepend got := by
  cases r <;> rfl

/-- Where no operation looks at what `φ` removes, no sequence does. -/
theorem runOps_through {σ ω β : Type} {perform : ω → σ → Ran σ β} {φ : σ → σ}
    (hop : ∀ op s, (perform op (φ s)).through φ = (perform op s).through φ) (ops : List ω) {s s' : σ} (h : φ s = φ s') :
    (runOps perform ops s).through φ = (runOps perform ops s').through φ := by
  induction ops generalizing s s' with
  | nil => exact congrArg (Ran.done · []) h
  | cons op ops ih =>
    have hfirst : (perform op s).through φ = (perform op s').through φ := by rw [← hop op s, h, hop op s']
    cases hp : perform op s <;> cases hp' : perform op s' <;> rw [hp, hp'] at hfirst <;>
      simp only [Ran.through, Ran.done.injEq, Ran.failed.injEq, Ran.fault.injEq, reduceCtorEq] at hfirst
    case done.done =>
      obtain ⟨hend, rfl⟩ := hfirst
      rw [runOps_cons_of_done hp, runOps_cons_of_done hp', Ran.through_prepend, Ran.through_prepend, ih hend]
    case failed.failed =>
      obtain ⟨hend, rfl⟩ := hfirst
      rw [runOps_cons_of_failed hp, runOps_cons_of_failed hp', Ran.through, Ran.through, hend]
    case fault.fault =>
      rw [runOps_cons_of_fault hp, runOps_cons_of_fault hp', hfirst]

/-! ### An engine between commands -/

/-- The engine with no command running and these results delivered. -/
def BB.concluded (rs : List Result) (b : BB) : BB := { b with seq := .idle, results := rs }

/-- The engine with no command running and these results delivered. -/
def SF.concluded (rs : List Result) (f : SF) : SF := { f with seq := .idle, results := rs }

section
variable {rs : List Result}

theorem BB.attempt_concluded {call : BB → Ran BB Level}
    (hcall : ∀ c : BB, (call (c.concluded rs)).through (BB.concluded rs) = (call c).through (BB.concluded rs)) (b : BB) :
    ((b.concluded rs).attempt call).through (BB.concluded rs) = (b.attempt call).through (BB.concluded rs) := by
  match hf : b.env.failures with
  | [] => rw [BB.attempt_nil hf, BB.attempt_nil (b := b.concluded rs) hf, hcall]
  | none :: rest =>
    rw [BB.attempt_none hf, BB.attempt_none (b := b.concluded rs) hf, ← hcall (b.withFailures rest)]
    rfl
  | some f :: rest =>
    rw [BB.attempt_some hf, BB.attempt_some (b := b.concluded rs) hf]
    rfl

theorem BB.write_concluded (line : Line) {effect : BB → BB}
    (heffect : ∀ c : BB, (effect (c.concluded rs)).concluded rs = (effect c).concluded rs) (b : BB) :
    ((b.concluded rs).write line effect).through (BB.concluded rs) = (b.write line effect).through (BB.concluded rs) := by
  cases hc : line.claimed with
  | false =>
    rw [BB.write_unclaimed hc, BB.write_unclaimed hc]
    rfl
  | true =>
    cases hd : line.dir with
    | input => rw [BB.write_input hc hd, BB.write_input hc hd]
    | output =>
      rw [BB.write_output hc hd, BB.write_output hc hd]
      exact BB.attempt_concluded (call := fun b => .done (effect b) []) (fun c => congrArg (Ran.done · []) (heffect c)) b

theorem BB.read_concluded (keep : Bool) (b : BB) :
    ((b.concluded rs).read keep).through (BB.concluded rs) = (b.read keep).through (BB.concluded rs) := by
  cases hc : b.data.claimed with
  | false =>
    rw [BB.read_unclaimed hc, BB.read_unclaimed (b := b.concluded rs) hc]
    rfl
  | true =>
    cases hd : b.data.dir with
    | output => rw [BB.read_output hc hd, BB.read_output (b := b.concluded rs) hc hd]
    | input =>
      rw [BB.read_input hc hd, BB.read_input (b := b.concluded rs) hc hd]
      exact BB.attempt_concluded (fun _ => rfl) b

theorem BB.turn_concluded {effect : BB → BB}
    (heffect : ∀ c : BB, (effect (c.concluded rs)).concluded rs = (effect c).concluded rs) (b : BB) :
    ((b.concluded rs).turn effect).through (BB.concluded rs) = (b.turn effect).through (BB.concluded rs) := by
  cases hc : b.data.claimed with
  | false =>
    rw [BB.turn_unclaimed hc, BB.turn_unclaimed (b := b.concluded rs) hc]
    rfl
  | true =>
    rw [BB.turn_claimed hc, BB.turn_claimed (b := b.concluded rs) hc]
    exact BB.attempt_concluded (call := fun b => .done (effect b) []) (fun c => congrArg (Ran.done · []) (heffect c)) b

/-- No operation of the bit-bang engine looks at the position or at the results delivered. -/
theorem BB.perform_concluded (op : LineOp) (b : BB) :
    ((b.concluded rs).perform op).through (BB.concluded rs) = (b.perform op).through (BB.concluded rs) := by
  cases op with
  | element | frame | wait => rfl
  | clk l => exact BB.write_concluded b.clk (fun _ => rfl) b
  | data l => exact BB.write_concluded b.data (fun _ => rfl) b
  | sample keep => exact BB.read_concluded keep b
  | dirIn => exact BB.turn_concluded (fun _ => rfl) b
  | dirOut l => exact BB.turn_concluded (fun _ => rfl) b

theorem SF.attempt_concluded {call : SF → Ran SF U16}
    (hcall : ∀ c : SF, (call (c.concluded rs)).through (SF.concluded rs) = (call c).through (SF.concluded rs)) (f : SF) :
    ((f.concluded rs).attempt call).through (SF.concluded rs) = (f.attempt call).through (SF.concluded rs) := by
  match hf : f.env.failures with
  | [] => rw [SF.attempt_nil hf, SF.attempt_nil (f := f.concluded rs) hf, hcall]
  | none :: rest =>
    rw [SF.attempt_none hf, SF.attempt_none (f := f.concluded rs) hf, ← hcall (f.withFailures rest)]
    rfl
  | some x :: rest =>
    rw [SF.attempt_some hf, SF.attempt_some (f := f.concluded rs) hf]
    rfl

/-- No operation of the SPI-framed engine looks at the position or at the results delivered. -/
theorem SF.perform_concluded (op : SpiOp) (f : SF) :
    ((f.concluded rs).perform op).through (SF.concluded rs) = (f.perform op).through (SF.concluded rs) := by
  cases op with
  | element | frame => rfl
  | xfer n tx cs keep =>
    rw [SF.perform, SF.perform]
    cases hc : f.spi.claimed with
    | false =>
      rw [SF.xfer_unclaimed hc, SF.xfer_unclaimed (f := f.concluded rs) hc]
      rfl
    | true =>
      by_cases hw : (n = 16 ∨ n = 32) ∧ tx < 2 ^ n
      · rw [SF.xfer_claimed hc hw, SF.xfer_claimed (f := f.concluded rs) hc hw]
        exact SF.attempt_concluded (fun _ => rfl) f
      · rw [SF.xfer_malformed hc hw, SF.xfer_malformed (f := f.concluded rs) hc hw]
        rfl

end

/-! ### Commands one after the other -/

/-- An engine as a part of the state: its operations, and what a delivery makes of it. -/
structure EnginePart (σ ω β : Type) where
  engine : Engine
  get : State → σ
  set : State → σ → State
  perform : ω → σ → Ran σ β
  isOpen : σ → Bool
  results : σ → List Result
  concluded : List Result → σ → σ
  get_set : ∀ s c, get (set s c) = c
  set_set : ∀ s c c', set (set s c) c' = set s c'
  set_switches : ∀ s c, (set s c).switches = s.switches
  isOpen_concluded : ∀ rs c, isOpen (concluded rs c) = isOpen c
  results_concluded : ∀ rs c, results (concluded rs c) = rs
  concluded_concluded : ∀ rs rs' c, concluded rs (concluded rs' c) = concluded rs c
  resultsOf_eq : ∀ s, s.resultsOf engine = results (get s)
  withResults_concluded : ∀ s rs rs' c, (set s (concluded rs' c)).withResults engine rs = set s (concluded rs c)
  run_keeps : ∀ ops c c', (runOps perform ops c).EndsIn c' → isOpen c' = isOpen c ∧ results c' = results c
  perform_concluded : ∀ rs op c, (perform op (concluded rs c)).through (concluded rs) = (perform op c).through (concluded rs)

/-- The bit-bang engine. -/
def BB.part : EnginePart BB LineOp Level where
  engine := .bitbang
  get := State.bb
  set := State.withBB
  perform := BB.perform
  isOpen := BB.isOpen
  results := BB.results
  concluded := BB.concluded
  get_set _ _ := rfl
  set_set _ _ _ := rfl
  set_switches _ _ := rfl
  isOpen_concluded _ _ := rfl
  results_concluded _ _ := rfl
  concluded_concluded _ _ _ := rfl
  resultsOf_eq _ := rfl
  withResults_concluded _ _ _ _ := rfl
  run_keeps ops c c' h := ⟨(BB.run_kept ops c c' h).isOpen, (BB.run_kept ops c c' h).results⟩
  perform_concluded _ := BB.perform_concluded

/-- The SPI-framed engine. -/
def SF.part : EnginePart SF SpiOp U16 where
  engine := .spi
  get := State.sf
  set := State.withSF
  perform := SF.perform
  isOpen := SF.isOpen
  results := SF.results
  concluded := SF.concluded
  get_set _ _ := rfl
  set_set _ _ _ := rfl
  set_switches _ _ := rfl
  isOpen_concluded _ _ := rfl
  results_concluded _ _ := rfl
  concluded_concluded _ _ _ := rfl
  resultsOf_eq _ := rfl
  withResults_concluded _ _ _ _ := rfl
  run_keeps ops c c' h := ⟨(SF.run_kept ops c c' h).isOpen, (SF.run_kept ops c c' h).results⟩
  perform_concluded _ := SF.perform_concluded

/-- The instruction `i` is `one` and then `rest`, its value that of `one` before those of `rest` (R173). -/
inductive InOrder (i one rest : Instr) (s : State) : Prop
  | fault (f : Fault) (hone : exec one s = .fault f) (hall : exec i s = .fault f)
  | failed (t : State) (e : ErrorKind) (hone : exec one s = .next t)
    (herr : t.resultsOf i.engine = s.resultsOf i.engine ++ [.err e]) (hall : exec i s = .next t)
  | faultLater (t : State) (v : Value) (f : Fault) (hone : exec one s = .next t)
    (hok : t.resultsOf i.engine = s.resultsOf i.engine ++ [.ok v]) (hrest : exec rest t = .fault f)
    (hall : exec i s = .fault f)
  | delivered (t u : State) (v : Value) (r : Result) (hone : exec one s = .next t)
    (hok : t.resultsOf i.engine = s.resultsOf i.engine ++ [.ok v]) (hrest : exec rest t = .next u)
    (hresult : u.resultsOf i.engine = t.resultsOf i.engine ++ [r])
    (hall : exec i s = .next (u.withResults i.engine (s.resultsOf i.engine ++ [r.cons v])))

namespace EnginePart

variable {σ ω β : Type} (P : EnginePart σ ω β)

/-- The state with the engine's part `c` and the result `r` delivered. -/
def deliver (s : State) (c : σ) (r : Result) : State := P.set s (P.concluded (P.results c ++ [r]) c)

/-- A command of the engine: the open check, its operations, its result. -/
def command (ops : List ω) (value : List β → Value) (s : State) : Host.Outcome State Fault Refusal :=
  if P.isOpen (P.get s) then
    (runOps P.perform ops (P.get s)).outcome (fun c got => .next (P.deliver s c (.ok (value got))))
      (fun c e => .next (P.deliver s c (.err e)))
  else .next (P.deliver s (P.get s) (.err .notOpen))

theorem resultsOf_deliver (s : State) (c : σ) (r : Result) :
    (P.deliver s c r).resultsOf P.engine = P.results c ++ [r] := by
  rw [P.resultsOf_eq, deliver, P.get_set, P.results_concluded]

/-- A delivery with other results in their place. -/
theorem withResults_deliver (s : State) (c : σ) (r : Result) (rs : List Result) :
    (P.deliver s c r).withResults P.engine rs = P.set s (P.concluded rs c) := by
  rw [deliver, P.withResults_concluded]

theorem concluded_eq {c c' : σ} (h : P.concluded [] c = P.concluded [] c') (rs : List Result) :
    P.concluded rs c = P.concluded rs c' := by
  have h' := congrArg (P.concluded rs) h
  rwa [P.concluded_concluded, P.concluded_concluded] at h'

/-- What a run at the engine's part of the state keeps, whether it succeeds or not. -/
theorem results_of_run {ops : List ω} {s : State} {c : σ} (h : (runOps P.perform ops (P.get s)).EndsIn c) :
    P.results c = s.resultsOf P.engine := by
  rw [P.resultsOf_eq]
  exact (P.run_keeps ops _ c h).2

/-- Two deliveries, the second with the results of a single one in their place, are that single delivery. -/
theorem withResults_deliver_deliver {s : State} {c c1 c2 : σ} {r r1 r2 : Result}
    (hc : P.concluded [] c1 = P.concluded [] c2) (hresults : P.results c2 = s.resultsOf P.engine) :
    (P.deliver (P.deliver s c r) c1 r1).withResults P.engine (s.resultsOf P.engine ++ [r2]) = P.deliver s c2 r2 := by
  rw [P.withResults_deliver, deliver, P.set_set, P.concluded_eq hc, deliver, hresults]

variable {P} {s : State} {c : σ} {r : Result}

/-- A command behind a delivery goes as its operations do without the delivery. -/
theorem command_deliver (ho : P.isOpen c = true) (ops : List ω) (value : List β → Value) :
    (∃ f, runOps P.perform ops c = .fault f ∧ P.command ops value (P.deliver s c r) = .fault f) ∨
    (∃ c1 c2 got, runOps P.perform ops c = .done c2 got ∧ P.concluded [] c1 = P.concluded [] c2 ∧
      P.results c1 = P.results c ++ [r] ∧
      P.command ops value (P.deliver s c r) = .next (P.deliver (P.deliver s c r) c1 (.ok (value got)))) ∨
    (∃ c1 c2 e, runOps P.perform ops c = .failed c2 e ∧ P.concluded [] c1 = P.concluded [] c2 ∧
      P.results c1 = P.results c ++ [r] ∧
      P.command ops value (P.deliver s c r) = .next (P.deliver (P.deliver s c r) c1 (.err e))) := by
  have hget : P.get (P.deliver s c r) = P.concluded (P.results c ++ [r]) c := P.get_set s _
  have hopen : P.isOpen (P.get (P.deliver s c r)) = true := by rw [hget, P.isOpen_concluded, ho]
  have hresults : ∀ c1, (runOps P.perform ops (P.get (P.deliver s c r))).EndsIn c1 → P.results c1 = P.results c ++ [r] :=
    fun c1 h => by rw [(P.run_keeps ops _ c1 h).2, hget, P.results_concluded]
  have hsame : (runOps P.perform ops (P.get (P.deliver s c r))).through (P.concluded []) =
      (runOps P.perform ops c).through (P.concluded []) :=
    runOps_through (P.perform_concluded []) ops (by rw [hget, P.concluded_concluded])
  rw [command, hopen, if_pos rfl]
  generalize runOps P.perform ops (P.get (P.deliver s c r)) = run at hsame hresults ⊢
  cases run <;> cases hr : runOps P.perform ops c <;> rw [hr] at hsame <;>
    simp only [Ran.through, Ran.done.injEq, Ran.failed.injEq, Ran.fault.injEq, reduceCtorEq] at hsame
  case done.done c1 got c2 got' =>
    obtain ⟨hc, rfl⟩ := hsame
    exact .inr (.inl ⟨c1, c2, got, rfl, hc, hresults c1 (.done _ _), rfl⟩)
  case failed.failed c1 e c2 e' =>
    obtain ⟨hc, rfl⟩ := hsame
    exact .inr (.inr ⟨c1, c2, e, rfl, hc, hresults c1 (.failed _ _), rfl⟩)
  case fault.fault f f' => exact .inl ⟨f', rfl, congrArg _ hsame⟩

variable {i one rest : Instr} {ops ops' : List ω} {valueOne valueRest valueAll : List β → Value}

/-- A command whose operations are those of `one` and then those of `rest` is `one` and then `rest`. -/
theorem inOrder (he : P.engine = i.engine) (hone : exec one s = P.command ops valueOne s)
    (hrest : ∀ t, t.switches = s.switches → exec rest t = P.command ops' valueRest t)
    (hall : exec i s = P.command (ops ++ ops') valueAll s)
    (hvalue : ∀ c got got', runOps P.perform ops (P.get s) = .done c got →
      valueAll (got ++ got') = (valueOne got).cons (valueRest got')) : InOrder i one rest s := by
  cases ho : P.isOpen (P.get s) with
  | false =>
    rw [command, ho, if_neg Bool.false_ne_true] at hone hall
    exact .failed _ .notOpen hone (by rw [← he, P.resultsOf_deliver, P.resultsOf_eq]) hall
  | true =>
    rw [command, ho, if_pos rfl] at hone hall
    rw [runOps_append] at hall
    cases hr : runOps P.perform ops (P.get s) with
    | fault f =>
      rw [hr] at hone hall
      exact .fault f hone hall
    | failed c e =>
      rw [hr] at hone hall
      have hc : P.results c = s.resultsOf P.engine := P.results_of_run (by rw [hr]; exact .failed c e)
      exact .failed _ e hone (by rw [← he, P.resultsOf_deliver, hc]) hall
    | done c got =>
      have hend : (runOps P.perform ops (P.get s)).EndsIn c := by rw [hr]; exact .done c got
      have hc : P.results c = s.resultsOf P.engine := P.results_of_run hend
      have hopen : P.isOpen c = true := (P.run_keeps ops _ c hend).1.trans ho
      have hlater : ∀ c', (runOps P.perform ops' c).EndsIn c' → P.results c' = s.resultsOf P.engine :=
        fun c' h => (P.run_keeps ops' c c' h).2.trans hc
      have hok : (P.deliver s c (.ok (valueOne got))).resultsOf i.engine = s.resultsOf i.engine ++ [.ok (valueOne got)] := by
        rw [← he, P.resultsOf_deliver, hc]
      rw [hr] at hone hall
      have hrest := hrest (P.deliver s c (.ok (valueOne got))) (P.set_switches s _)
      rcases P.command_deliver (s := s) (r := .ok (valueOne got)) hopen ops' valueRest with
        ⟨f, hrun, hcommand⟩ | ⟨c1, c2, got', hrun, hsame, hc1, hcommand⟩ | ⟨c1, c2, e, hrun, hsame, hc1, hcommand⟩ <;>
        rw [hcommand] at hrest <;> simp only [hrun, Ran.outcome] at hall
      · exact .faultLater _ _ f hone hok hrest hall
      · refine .delivered _ _ _ (.ok (valueRest got')) hone hok hrest ?_ ?_
        · rw [← he, P.resultsOf_deliver, hc1, P.resultsOf_deliver]
        · rw [hall, ← he, P.withResults_deliver_deliver hsame (hlater c2 (by rw [hrun]; exact .done _ _)),
            hvalue c got got' hr]
          rfl
      · refine .delivered _ _ _ (.err e) hone hok hrest ?_ ?_
        · rw [← he, P.resultsOf_deliver, hc1, P.resultsOf_deliver]
        · rw [hall, ← he, P.withResults_deliver_deliver hsame (hlater c2 (by rw [hrun]; exact .failed _ _))]
          rfl

end EnginePart

/-! ### How many samples a run keeps (R135) -/

/-- Whether an operation of the bit-bang engine keeps its sample (R135, R141). -/
def LineOp.keeps : LineOp → Bool
  | .sample keep => keep
  | .element => false
  | .frame => false
  | .wait _ => false
  | .clk _ => false
  | .data _ => false
  | .dirIn => false
  | .dirOut _ => false

theorem BB.perform_done_length {op : LineOp} {b b' : BB} {got : List Level} (h : b.perform op = .done b' got) :
    got.length = if op.keeps then 1 else 0 := by
  rcases b.perform_cases op with ⟨rfl, e⟩ | ⟨rfl, e⟩ | ⟨_, rfl, e⟩ | ⟨_, rfl, _, _, e⟩ | ⟨_, rfl, _, _, e⟩ |
    ⟨keep, rfl, _, _, e⟩ | ⟨rfl, _, e⟩ | ⟨_, rfl, _, e⟩ | e | ⟨_, e⟩ | e <;> rw [e] at h <;> cases h
  · rfl
  · rfl
  · rfl
  · rfl
  · rfl
  · cases keep <;> rfl
  · rfl
  · rfl

/-- A run that succeeds has one level for each sample it keeps. -/
theorem BB.run_done_length {ops : List LineOp} {b b' : BB} {got : List Level} (h : b.run ops = .done b' got) :
    got.length = ops.countP LineOp.keeps := by
  induction ops generalizing b got with
  | nil => cases h; rfl
  | cons op ops ih =>
    obtain ⟨b1, g, g', hop, hrest, rfl⟩ := runOps_cons_eq_done h
    rw [List.length_append, BB.perform_done_length hop, ih hrest, List.countP_cons, Nat.add_comm]

theorem countP_keeps_flatMap {α : Type} {ops : α → List LineOp} {n : Nat} (h : ∀ a, (ops a).countP LineOp.keeps = n)
    (as : List α) : (as.flatMap ops).countP LineOp.keeps = n * as.length := by
  induction as with
  | nil => rfl
  | cons a as ih => rw [List.flatMap_cons, List.countP_append, h, ih, List.length_cons, Nat.mul_succ, Nat.add_comm]

theorem countP_keeps_writes (bs : List Level) : (bs.flatMap Prim.writeBit).countP LineOp.keeps = 0 :=
  (countP_keeps_flatMap (ops := Prim.writeBit) (n := 0) (fun _ => rfl) bs).trans (Nat.zero_mul _)

theorem countP_keeps_frameSlots (f : Frame) :
    (Prim.frameSlots f).countP LineOp.keeps = 16 * if isReadClass f.op then 1 else 0 := by
  rw [Prim.frameSlots, List.countP_append, sendHeader14_eq, countP_keeps_writes, Nat.zero_add]
  split
  · rfl
  · rw [Prim.writeTail, List.countP_append, Prim.writeBits, Prim.writeBits, countP_keeps_writes, countP_keeps_writes]

theorem countP_keeps_bbFrame (f : Frame) :
    (Prim.bbFrame f).countP LineOp.keeps = 16 * if isReadClass f.op then 1 else 0 := by
  rw [Prim.bbFrame, List.countP_cons_of_neg Bool.false_ne_true, List.countP_append, Prim.flush, countP_keeps_writes,
    countP_keeps_frameSlots, Nat.zero_add]

/-- With or without its own preamble a frame keeps sixteen samples if it is read-class (D2). -/
theorem countP_keeps_bbNextFrame (sw : Switches) (f : Frame) :
    (Prim.bbNextFrame sw f).countP LineOp.keeps = 16 * if isReadClass f.op then 1 else 0 := by
  rw [Prim.bbNextFrame]
  split
  · exact countP_keeps_bbFrame f
  · rw [List.countP_cons_of_neg Bool.false_ne_true, countP_keeps_frameSlots]

theorem readsIn_cons (f : Frame) (fs : List Frame) :
    readsIn (f :: fs) = (if isReadClass f.op then 1 else 0) + readsIn fs := by
  cases hf : isReadClass f.op <;> simp [readsIn, hf, Nat.add_comm]

theorem countP_keeps_bbFrames (sw : Switches) (fs : List Frame) :
    (bbFrames sw fs).countP LineOp.keeps = 16 * readsIn fs := by
  have hnext : ∀ gs : List Frame, (gs.flatMap (Prim.bbNextFrame sw)).countP LineOp.keeps = 16 * readsIn gs := by
    intro gs
    induction gs with
    | nil => rfl
    | cons g gs ih => rw [List.flatMap_cons, List.countP_append, ih, countP_keeps_bbNextFrame, readsIn_cons, Nat.mul_add]
  cases fs with
  | nil => rfl
  | cons f fs => rw [bbFrames, List.countP_append, hnext, countP_keeps_bbFrame, readsIn_cons, Nat.mul_add]

theorem countP_keeps_bbTransaction (sw : Switches) (t : Transaction) :
    (bbTransaction sw t).countP LineOp.keeps = 16 * readsIn t.frames := by
  have hflush : (if t.trailingFlush then Prim.flush else []).countP LineOp.keeps = 0 := by
    split
    · exact countP_keeps_writes _
    · rfl
  rw [bbTransaction, List.countP_cons_of_neg Bool.false_ne_true, List.countP_append, countP_keeps_bbFrames, hflush,
    Nat.add_zero]

/-- The operations of a command keep sixteen samples for each word their frames read (R135). -/
theorem countP_keeps_lineOps (sw : Switches) (ts : List Transaction) :
    (lineOps sw ts).countP LineOp.keeps = 16 * wordsRead ts := by
  induction ts with
  | nil => rfl
  | cons t ts ih =>
    rw [lineOps] at ih ⊢
    rw [List.flatMap_cons, List.countP_append, countP_keeps_bbTransaction, ih, wordsRead_cons, Nat.mul_add]

theorem wordsOfSamples_append (m n : Nat) {ls : List Level} (h : ls.length = 16 * m) (ls' : List Level) :
    wordsOfSamples (m + n) (ls ++ ls') = wordsOfSamples m ls ++ wordsOfSamples n ls' := by
  induction m generalizing ls with
  | zero =>
    obtain rfl := List.length_eq_zero_iff.mp h
    rw [Nat.zero_add]
    rfl
  | succ m ih =>
    have hword : Config.dataBits ≤ ls.length := by rw [h, Config.dataBits]; omega
    have hrest : (ls.drop Config.dataBits).length = 16 * m := by rw [List.length_drop, h, Config.dataBits]; omega
    rw [Nat.succ_add, wordsOfSamples, wordsOfSamples, List.take_append_of_le_length hword, List.drop_append_of_le_length hword,
      ih hrest]
    rfl

/-! ### Registers one after the other -/

theorem wordsRead_append (ts ts' : List Transaction) : wordsRead (ts ++ ts') = wordsRead ts + wordsRead ts' := by
  simp [wordsRead]

/-- No `open`, no `close`, no header word and no write batch with unequal lists: the instruction is its operations and its
shape. -/
structure Plain (i : Instr) : Prop where
  notLifecycle : i.isLifecycle = false
  notHeader : i.headerFrame = none
  parallel : i.listsDiffer = false

/-- `i` has the operations of `one` and then those of `rest`, and its words make the value of `one` before those of `rest`. -/
structure Splits (i one rest : Instr) : Prop where
  plain : Plain i
  plainOne : Plain one
  plainRest : Plain rest
  engineOne : one.engine = i.engine
  engineRest : rest.engine = i.engine
  operations : ∀ sw, i.operations sw = one.operations sw ++ rest.operations sw
  value : ∀ sw ws ws', ws.length = wordsRead (one.operations sw) →
    assemble i.shape (ws ++ ws') = (assemble one.shape ws).cons (assemble rest.shape ws')

theorem exec_plain_bitbang {i : Instr} (h : Plain i) (he : i.engine = .bitbang) {s : State} {sw : Switches}
    (hsw : s.switches = sw) :
    exec i s = BB.part.command (lineOps sw (i.operations sw))
      (fun got => assemble i.shape (wordsOfSamples (wordsRead (i.operations sw)) got)) s := by
  rw [exec_bitbang_of_parallel he h.notLifecycle h.parallel, hsw, bbTransact, bbCommand_eq, hsw]
  rfl

theorem exec_plain_spi {i : Instr} (h : Plain i) (he : i.engine = .spi) {s : State} {sw : Switches}
    (hsw : s.switches = sw) :
    exec i s = SF.part.command ((i.operations sw).flatMap (sfTransaction sw)) (assemble i.shape) s := by
  rw [exec_spi_of_parallel he h.notLifecycle h.notHeader h.parallel, hsw, sfTransact, sfCommand_eq, hsw]
  rfl

theorem inOrder_of_splits {i one rest : Instr} (h : Splits i one rest) (s : State) : InOrder i one rest s := by
  cases he : i.engine with
  | bitbang =>
    have hops : lineOps s.switches (i.operations s.switches) =
        lineOps s.switches (one.operations s.switches) ++ lineOps s.switches (rest.operations s.switches) := by
      rw [h.operations, lineOps, List.flatMap_append]
      rfl
    have hall := exec_plain_bitbang h.plain he (s := s) rfl
    rw [hops] at hall
    refine EnginePart.inOrder he.symm (exec_plain_bitbang h.plainOne (h.engineOne.trans he) rfl)
      (fun t ht => exec_plain_bitbang h.plainRest (h.engineRest.trans he) ht) hall fun c got got' hrun => ?_
    have hlen : got.length = 16 * wordsRead (one.operations s.switches) :=
      (BB.run_done_length hrun).trans (countP_keeps_lineOps _ _)
    rw [h.operations, wordsRead_append, wordsOfSamples_append _ _ hlen]
    exact h.value s.switches _ _ (length_wordsOfSamples _ _)
  | spi =>
    have hall := exec_plain_spi h.plain he (s := s) rfl
    rw [h.operations, List.flatMap_append] at hall
    exact EnginePart.inOrder he.symm (exec_plain_spi h.plainOne (h.engineOne.trans he) rfl)
      (fun t ht => exec_plain_spi h.plainRest (h.engineRest.trans he) ht) hall fun c got got' hrun =>
        h.value s.switches got got' ((SF.run_done_length hrun).trans (countP_keeps_operations _ _))

/-! ### The table of batches (R167 to R172, R202 to R205) -/

theorem assemble_u16s_append {ws : List U16} (h : ws.length = 1) (ws' : List U16) :
    assemble .u16s (ws ++ ws') = (assemble .u16 ws).cons (assemble .u16s ws') := by
  obtain ⟨w, rfl⟩ := List.length_eq_one_iff.mp h
  rfl

theorem assemble_u32s_append {ws : List U16} (h : ws.length = 2) (ws' : List U16) :
    assemble .u32s (ws ++ ws') = (assemble .u32 ws).cons (assemble .u32s ws') := by
  obtain ⟨lo, hi, rfl⟩ := List.length_eq_two.mp h
  rfl

theorem wordsRead_singleton (t : Transaction) : wordsRead [t] = readsIn t.frames := wordsRead_cons t []

theorem wordsRead_readC22 (p r : Nat) : wordsRead [readC22 p r] = 1 :=
  (wordsRead_singleton _).trans (readsIn_readC22 p r)

theorem wordsRead_readC45 (p e r : Nat) : wordsRead [readC45 p e r] = 1 :=
  (wordsRead_singleton _).trans (readsIn_readC45 p e r)

theorem wordsRead_readC45Dword (sw : Switches) (p e r : Nat) : wordsRead [readC45Dword sw p e r] = 2 :=
  (wordsRead_singleton _).trans (readsIn_readC45Dword sw p e r)

/-- A write batch with one more element on each list has parallel lists only if the batch of the others has. -/
theorem length_bne_of_wf {r v : Nat} {rs vs : List Nat} (hwf : parallelLists (r :: rs) (v :: vs) = true) :
    ((r :: rs).length != (v :: vs).length) = false ∧ (rs.length != vs.length) = false := by
  simpa [parallelLists] using hwf

theorem splits_of_firstAndRest {i one rest : Instr} (h : i.firstAndRest = some (one, rest)) (hwf : i.wf = true) :
    Splits i one rest := by
  cases i with
  | bbReadC22Registers p rs | sfReadC22Registers p rs =>
    cases rs with
    | nil => cases h
    | cons r rs =>
      cases h
      exact ⟨⟨rfl, rfl, rfl⟩, ⟨rfl, rfl, rfl⟩, ⟨rfl, rfl, rfl⟩, rfl, rfl, fun _ => rfl,
        fun _ _ ws' hlen => assemble_u16s_append (hlen.trans (wordsRead_readC22 p r)) ws'⟩
  | bbReadC45Registers p e rs | sfReadC45Registers p e rs =>
    cases rs with
    | nil => cases h
    | cons r rs =>
      cases h
      exact ⟨⟨rfl, rfl, rfl⟩, ⟨rfl, rfl, rfl⟩, ⟨rfl, rfl, rfl⟩, rfl, rfl, fun _ => rfl,
        fun _ _ ws' hlen => assemble_u16s_append (hlen.trans (wordsRead_readC45 p e r)) ws'⟩
  | bbReadC45DwordRegisters p e rs =>
    cases rs with
    | nil => cases h
    | cons r rs =>
      cases h
      exact ⟨⟨rfl, rfl, rfl⟩, ⟨rfl, rfl, rfl⟩, ⟨rfl, rfl, rfl⟩, rfl, rfl, fun _ => rfl,
        fun sw _ ws' hlen => assemble_u32s_append (hlen.trans (wordsRead_readC45Dword sw p e r)) ws'⟩
  | bbWriteC22Registers _ rs vs | sfWriteC22Registers _ rs vs | bbWriteC45Registers _ _ rs vs
  | sfWriteC45Registers _ _ rs vs | bbWriteC45DwordRegisters _ _ rs vs =>
    cases rs with
    | nil => cases h
    | cons r rs =>
      cases vs with
      | nil => cases h
      | cons v vs =>
        cases h
        obtain ⟨hall, hrest⟩ := length_bne_of_wf hwf
        exact ⟨⟨rfl, rfl, hall⟩, ⟨rfl, rfl, rfl⟩, ⟨rfl, rfl, hrest⟩, rfl, rfl, fun _ => rfl, fun _ _ _ _ => rfl⟩
  | _ => cases h

/-- Settles O49: the operations of a batch are those of its first element and then those of the others. -/
theorem batchIsItsElementsInOrder : Obligations.BatchIsItsElementsInOrder := by
  intro i one rest s h hwf
  cases inOrder_of_splits (splits_of_firstAndRest h hwf) s with
  | fault f hone hall =>
    rw [hone]
    exact hall
  | failed t e hone herr hall =>
    rw [hone]
    refine ⟨fun _ _ => hall, fun v hv => ?_⟩
    cases (List.append_singleton_inj.mp (herr.symm.trans hv)).2
  | faultLater t v f hone hok hrest hall =>
    rw [hone]
    refine ⟨fun e he => ?_, fun v' _ => ?_⟩
    · cases (List.append_singleton_inj.mp (hok.symm.trans he)).2
    · rw [hrest]
      exact hall
  | delivered t u v r hone hok hrest hresult hall =>
    rw [hone]
    refine ⟨fun e he => ?_, fun v' hv' => ?_⟩
    · cases (List.append_singleton_inj.mp (hok.symm.trans he)).2
    · cases (List.append_singleton_inj.mp (hok.symm.trans hv')).2
      rw [hrest]
      intro r' hr'
      obtain rfl := (List.append_singleton_inj.mp (hresult.symm.trans hr')).2
      exact hall

end Sys2Proof.Machine
end

section
/-! The SPI-framed engine (spec/43_spi_engine.md): `open` and `close` (R191, R192), the commands it lacks (R206), and its
commands, frames and header words on a ready engine (R194, R197 to R205). -/

namespace Sys2Proof.Machine

open Codec

/-! ### The commands the engine lacks (R206) -/

theorem decodeRequest_spi_dword {label : Nat} (h : label ∈ [0x14, 0x15, 0x24, 0x25]) (ws : List Nat) :
    decodeRequest ⟨.spi, .cmd8, label :: ws⟩ = .error .notOnThisEngine := by
  simp only [List.mem_cons, List.not_mem_nil, or_false] at h
  rcases h with rfl | rfl | rfl | rfl <;> rfl

/-- Settles O5: the dword commands are the bit-bang engine's, and the SPI-framed engine's table of labels names no command for
theirs. -/
theorem spiHasNoDwordCommands : Obligations.SpiHasNoDwordCommands := by
  refine ⟨fun i hi => ?_, fun s label ws rest hlabel hs hc => ?_⟩
  · refine ⟨?_, ?_, ?_, ?_⟩ <;> intros <;> rintro rfl <;> cases hi
  · have htaken := State.take_rejected hs hc (decodeRequest_spi_dword hlabel ws) (requestedFrame_of_fromHost rfl)
    simp only [step, htaken]

/-! ### `sf.open` and `sf.close` (R191, R192) -/

theorem SF.attempt_of_getD_none {f : SF} (h : f.env.failures.getD 0 none = none) (call : SF → Ran SF U16) :
    f.attempt call = call f.spent := by
  cases hf : f.env.failures with
  | nil =>
    have hspent : f.spent = f := by simp only [SF.spent, hf, List.tail_nil]; rw [← hf]
    rw [SF.attempt_nil hf, hspent]
  | cons x rest =>
    rw [hf] at h
    obtain rfl : x = none := h
    rw [SF.attempt_none hf, SF.withFailures, SF.spent, hf]
    rfl

theorem SF.attempt_of_getD_some {f : SF} {x : OsFailure} (h : f.env.failures.getD 0 none = some x)
    (call : SF → Ran SF U16) : f.attempt call = .failed f.spent (.transportIO x) := by
  cases hf : f.env.failures with
  | nil => rw [hf] at h; cases h
  | cons y rest =>
    rw [hf] at h
    obtain rfl : y = some x := h
    rw [SF.attempt_some hf, SF.withFailures, SF.spent, hf]
    rfl

section
variable {s : State} {x : OsFailure}

theorem execSfOpen_of_open (ho : s.sf.isOpen = true) : execSfOpen s = .next (s.withSF (s.sf.raise .alreadyOpen)) := by
  rw [execSfOpen_eq, if_pos ho]

/-- The port can be claimed. -/
theorem execSfOpen_of_success (ho : s.sf.isOpen = false) (h : s.sf.env.failures.getD 0 none = none) :
    execSfOpen s = .next (s.withSF
      { s.sf with
        isOpen := true
        spi := { claimed := true }
        seq := .idle
        trace := s.sf.trace ++ [.opened]
        results := s.sf.results ++ [.ok .unit]
        env := { s.sf.env with failures := s.sf.env.failures.drop 1 } }) := by
  rw [execSfOpen_eq, if_neg (by simp [ho]), SF.openPort, SF.attempt_of_getD_none h, List.drop_one]
  rfl

/-- The port cannot be claimed. -/
theorem execSfOpen_of_failure (ho : s.sf.isOpen = false) (h : s.sf.env.failures.getD 0 none = some x) :
    execSfOpen s = .next (s.withSF (s.sf.spent.raise (.transportIO x))) := by
  rw [execSfOpen_eq, if_neg (by simp [ho]), SF.openPort, SF.attempt_of_getD_some h]
  rfl

theorem execSfClose_of_closed (ho : s.sf.isOpen = false) : execSfClose s = .next (s.withSF (s.sf.deliver (.ok .unit))) := by
  rw [execSfClose_eq, if_neg (by simp [ho])]

/-- The port can be released. -/
theorem execSfClose_of_success (ho : s.sf.isOpen = true) (h : s.sf.env.failures.getD 0 none = none) :
    execSfClose s = .next (s.withSF
      { s.sf with
        isOpen := false
        spi := { claimed := false }
        seq := .idle
        trace := s.sf.trace ++ [.closed]
        results := s.sf.results ++ [.ok .unit]
        env := { s.sf.env with failures := s.sf.env.failures.drop 1 } }) := by
  rw [execSfClose_eq, if_pos ho, SF.closePort, SF.attempt_of_getD_none h, List.drop_one]
  rfl

/-- The port cannot be released: the engine is closed all the same. -/
theorem execSfClose_of_failure (ho : s.sf.isOpen = true) (h : s.sf.env.failures.getD 0 none = some x) :
    execSfClose s = .next (s.withSF (s.sf.spent.closeFailed.raise (.transportIO x))) := by
  rw [execSfClose_eq, if_pos ho, SF.closePort, SF.attempt_of_getD_some h]
  rfl

end

/-- Settles O22: the three ways `sf.open` and `sf.close` each go, by the engine and the answer to the one call. -/
theorem sfOpenAndClose : Obligations.SfOpenAndClose := fun _ =>
  ⟨execSfOpen_of_open, execSfOpen_of_success,
    fun _ ho hx => ⟨_, execSfOpen_of_failure ho hx, ho, rfl, rfl, rfl⟩,
    execSfClose_of_closed, execSfClose_of_success,
    fun _ ho hx => ⟨_, execSfClose_of_failure ho hx, rfl, rfl, rfl⟩⟩

/-! ### Single commands (R198 to R201, R279) -/

/-- Settles O34: `OtherReadingsOfTheSource` at the spec's switches. -/
theorem sfSingleCommands : Obligations.SfSingleCommands := by
  intro s p e r v hr hsw
  have hc22 := exec_sfWriteC22_switches hr p r v
  have hread := exec_sfReadC45_switches hr p e r
  have hwrite := exec_sfWriteC45_switches hr p e r v
  rw [hsw] at hc22 hread hwrite
  exact ⟨exec_sfReadC22_switches hr p r, hc22, hread, hwrite⟩

/-- Settles O41: the same at the defect's switch. -/
theorem historicalWriteDataIsTheHeader : Obligations.HistoricalWriteDataIsTheHeader := by
  intro s p e r v hr hsw
  have hc22 := exec_sfWriteC22_switches hr p r v
  have hread := exec_sfReadC45_switches hr p e r
  have hwrite := exec_sfWriteC45_switches hr p e r v
  rw [hsw] at hc22 hread hwrite
  exact ⟨hc22, hwrite, hread⟩

/-! ### Batches (R202 to R205) -/

theorem transactionWords_readC22 (p r : Nat) :
    transactionWords (readC22 p r) =
      [(32, 0xFFFFFFFF), (16, 0x6003 + p % 32 * 2 ^ 7 + r % 32 * 2 ^ 2), (16, 0xFFFF), (32, 0xFFFFFFFF)] := by
  simp [transactionWords, readC22, frameWords_c22Read]

theorem transactionWords_writeC22 (p r v : Nat) :
    transactionWords (writeC22 p r v) =
      [(32, 0xFFFFFFFF), (16, 0x5002 + p % 32 * 2 ^ 7 + r % 32 * 2 ^ 2), (16, v % 65536), (32, 0xFFFFFFFF)] := by
  simp [transactionWords, writeC22, frameWords_c22Write]

theorem transactionWords_readC45 (p e r : Nat) :
    transactionWords (readC45 p e r) =
      [(32, 0xFFFFFFFF), (16, 0x0002 + p % 32 * 2 ^ 7 + e % 32 * 2 ^ 2), (16, r % 65536),
        (32, 0xFFFFFFFF), (16, 0x3003 + p % 32 * 2 ^ 7 + e % 32 * 2 ^ 2), (16, 0xFFFF)] := by
  simp [transactionWords, readC45, frameWords_c45Address, frameWords_c45Read]

theorem transactionWords_writeC45 (p e r v : Nat) :
    transactionWords (writeC45 p e r v) =
      [(32, 0xFFFFFFFF), (16, 0x0002 + p % 32 * 2 ^ 7 + e % 32 * 2 ^ 2), (16, r % 65536),
        (32, 0xFFFFFFFF), (16, 0x1002 + p % 32 * 2 ^ 7 + e % 32 * 2 ^ 2), (16, v % 65536)] := by
  simp [transactionWords, writeC45, frameWords_c45Address, frameWords_c45Write]

/-- The words received for an operation and the ones after it, in the order they are received (R211). -/
theorem operationWordsReceived_upcoming (f : SF) (t : Transaction) (ts : List Transaction) :
    operationWordsReceived (t :: ts) (f.upcoming (((t :: ts).flatMap transactionWords).map Prod.fst)) =
      dataWordsReceived t.frames (f.upcoming ((transactionWords t).map Prod.fst)) ++
        operationWordsReceived ts
          ((f.advanced f.seq (transactionWords t)).upcoming ((ts.flatMap transactionWords).map Prod.fst)) := by
  have hlen : (f.upcoming ((transactionWords t).map Prod.fst)).length = (transactionWords t).length := by simp
  rw [List.flatMap_cons, List.map_append, SF.upcoming_append f f.seq, operationWordsReceived, List.take_left' hlen,
    List.drop_left' hlen]

/-- Where each operation of a read batch sends `n` words and returns the one it receives `j` words in, the batch returns one
word for each register. -/
theorem operationWordsReceived_map {op : Nat → Transaction} {n j : Nat} (hn : ∀ r, (transactionWords (op r)).length = n)
    (hword : ∀ (f : SF) (r : Nat), dataWordsReceived (op r).frames (f.upcoming ((transactionWords (op r)).map Prod.fst)) =
      [BitVec.ofNat 16 (f.wordAt j)]) (f : SF) (rs : List Nat) :
    operationWordsReceived (rs.map op) (f.upcoming (((rs.map op).flatMap transactionWords).map Prod.fst)) =
      rs.mapIdx fun k _ => BitVec.ofNat 16 (f.wordAt (n * k + j)) := by
  induction rs generalizing f with
  | nil => rfl
  | cons r rs ih =>
    have hnext : ∀ k, n + (n * k + j) = n * (k + 1) + j := fun k => by rw [Nat.mul_succ]; omega
    rw [List.map_cons, operationWordsReceived_upcoming, hword, ih, List.mapIdx_cons]
    simp only [SF.wordAt_advanced, hn, hnext, Nat.mul_zero, Nat.zero_add, List.singleton_append]

/-- The word received in the data phase of `read_c22`. -/
theorem dataWordsReceived_readC22 (p : Nat) (f : SF) (r : Nat) :
    dataWordsReceived (readC22 p r).frames (f.upcoming ((transactionWords (readC22 p r)).map Prod.fst)) =
      [BitVec.ofNat 16 (f.wordAt 2)] := by
  have hword : mask 16 (f.wordAt 2 % 2 ^ 16) = BitVec.ofNat 16 (f.wordAt 2) := mask_mod 16 _
  rw [transactionWords_readC22, ← hword]
  simp [readC22, dataWordsReceived, isReadClass_c22Read, SF.upcoming]

/-- The word received in the second data phase of `read_c45`. -/
theorem dataWordsReceived_readC45 (p e : Nat) (f : SF) (r : Nat) :
    dataWordsReceived (readC45 p e r).frames (f.upcoming ((transactionWords (readC45 p e r)).map Prod.fst)) =
      [BitVec.ofNat 16 (f.wordAt 5)] := by
  have hword : mask 16 (f.wordAt 5 % 2 ^ 16) = BitVec.ofNat 16 (f.wordAt 5) := mask_mod 16 _
  rw [transactionWords_readC45, ← hword]
  simp [readC45, dataWordsReceived, isReadClass_c45Address, isReadClass_c45Read, SF.upcoming]

section
variable {s : State} (hr : s.sf.Ready) (hsw : s.switches = Switches.normative)
include hr hsw

/-- `sfTransact_ready` at the spec's switches. -/
theorem sfTransact_normative (ts : List Transaction) (shape : Shape) :
    sfTransact ts shape s =
      .next (s.withSF (s.sf.completed (ts.flatMap transactionWords)
        (assemble shape (operationWordsReceived ts
          (s.sf.upcoming ((ts.flatMap transactionWords).map Prod.fst)))))) :=
  sfTransact_ready hr (congrArg Switches.preamblePerFrame hsw) (congrArg Switches.sfWriteDataIsHeader hsw) ts shape

/-- A read batch on a ready engine, from what each element sends and receives. -/
theorem sfTransact_readBatch {op : Nat → Transaction} {words : Nat → List (Nat × Nat)} {n j : Nat}
    (hwords : ∀ r, transactionWords (op r) = words r) (hn : ∀ r, (words r).length = n)
    (hword : ∀ (f : SF) (r : Nat), dataWordsReceived (op r).frames (f.upcoming ((transactionWords (op r)).map Prod.fst)) =
      [BitVec.ofNat 16 (f.wordAt j)]) (rs : List Nat) :
    sfTransact (rs.map op) .u16s s =
      .next (s.withSF (s.sf.completed (rs.flatMap words)
        (.u16s (rs.mapIdx fun k _ => BitVec.ofNat 16 (s.sf.wordAt (n * k + j)))))) := by
  have hsent : (rs.map op).flatMap transactionWords = rs.flatMap words := by
    rw [List.flatMap_map]
    simp only [hwords]
  have hlen : ∀ r, (transactionWords (op r)).length = n := fun r => by rw [hwords, hn]
  rw [sfTransact_normative hr hsw, operationWordsReceived_map hlen hword, hsent]
  rfl

/-- A write batch over parallel lists on a ready engine, from what each element sends. -/
theorem sfWriteBatch_ready {op : Nat → Nat → Transaction} {words : Nat → Nat → List (Nat × Nat)}
    (hwords : ∀ r v, transactionWords (op r v) = words r v) {rs vs : List Nat} (hlen : rs.length = vs.length) :
    sfWriteBatch op rs vs s = .next (s.withSF (s.sf.completed (List.zipWith words rs vs).flatten .unit)) := by
  have hsame : ¬(s.sf.isOpen = true ∧ rs.length ≠ vs.length) := fun h => h.2 hlen
  have hsent : (List.zipWith op rs vs).flatMap transactionWords = (List.zipWith words rs vs).flatten := by
    rw [List.flatMap_def, List.map_zipWith]
    simp only [hwords]
  rw [sfWriteBatch, if_neg hsame, sfTransact_normative hr hsw, hsent]
  rfl

end

/-- Settles O35: every element sends as many words, and its register is received at the same place among them. -/
theorem sfReadBatches : Obligations.SfReadBatches := fun _ p e rs hr hsw =>
  ⟨sfTransact_readBatch hr hsw (transactionWords_readC22 p) (fun _ => rfl) (dataWordsReceived_readC22 p) rs,
    sfTransact_readBatch hr hsw (transactionWords_readC45 p e) (fun _ => rfl) (dataWordsReceived_readC45 p e) rs⟩

/-- Settles O36: the words of the elements in order. -/
theorem sfWriteBatches : Obligations.SfWriteBatches := fun _ p e _ _ hr hsw hlen =>
  ⟨sfWriteBatch_ready hr hsw (transactionWords_writeC22 p) hlen, sfWriteBatch_ready hr hsw (transactionWords_writeC45 p e) hlen⟩

/-! ### A single frame and a header word in numbers (R121, R194, R197) -/

theorem sfHeader_toNat_eq_sum (f : Frame) :
    (sfHeader f).toNat =
      f.st.toNat * 2 ^ 14 + f.op.toNat * 2 ^ 12 + (f.pad.toNat * 2 ^ 7 + f.dad.toNat * 2 ^ 2)
        + (if isReadClass f.op then 3 else f.ta.toNat) := by
  rw [sfHeader_toNat]
  ring

section
variable {s : State} (hr : s.sf.Ready) {f : Frame} {w : Nat} (hw : f.st.toNat * 2 ^ 14 + f.op.toNat * 2 ^ 12 = w)
include hr hw

/-- A write-class frame, from the header bits its opcode fixes. -/
theorem sendFrame_spi_write_fields (hsw : s.switches = Switches.normative) (hf : isReadClass f.op = false) :
    sendFrame .spi f s =
      .next (s.withSF (s.sf.completed
        [(32, 0xFFFFFFFF), (16, w + (f.pad.toNat * 2 ^ 7 + f.dad.toNat * 2 ^ 2) + f.ta.toNat), (16, f.data.toNat)]
        .unit)) := by
  rw [sendFrame_spi hr hsw, frameWords, sfHeader_toNat_eq_sum, hw, hf]
  rfl

/-- A read-class frame, from the header bits its opcode fixes: the turnaround is `11` whatever its own (R91). -/
theorem sendFrame_spi_read_fields (hsw : s.switches = Switches.normative) (hf : isReadClass f.op = true) :
    sendFrame .spi f s =
      .next (s.withSF (s.sf.completed
        [(32, 0xFFFFFFFF), (16, w + 3 + (f.pad.toNat * 2 ^ 7 + f.dad.toNat * 2 ^ 2)), (16, 0xFFFF)]
        (.u16 (BitVec.ofNat 16 (s.sf.wordAt 2))))) := by
  rw [sendFrame_spi hr hsw, frameWords, sfHeader_toNat_eq_sum, hw, hf, Nat.add_right_comm w 3]
  rfl

/-- A header word of a write-class kind: the turnaround is the frame's `10`. -/
theorem sendHeader_write_fields (hta : f.ta = Config.taWrite) (hf : isReadClass f.op = false) :
    sendHeader f s =
      .next (s.withSF (s.sf.completed [(16, w + 2 + f.pad.toNat * 2 ^ 7 + f.dad.toNat * 2 ^ 2)] .unit)) := by
  rw [sendHeader_ready hr, sfHeader_toNat_eq_sum, hw, hf, hta, Nat.add_right_comm w, Nat.add_assoc _ (_ * 2 ^ 7)]
  rfl

/-- A header word of a read-class kind: the turnaround is `11`. -/
theorem sendHeader_read_fields (hf : isReadClass f.op = true) :
    sendHeader f s =
      .next (s.withSF (s.sf.completed [(16, w + 3 + f.pad.toNat * 2 ^ 7 + f.dad.toNat * 2 ^ 2)] .unit)) := by
  rw [sendHeader_ready hr, sfHeader_toNat_eq_sum, hw, hf, Nat.add_right_comm w, Nat.add_assoc _ (_ * 2 ^ 7)]
  rfl

end

/-- The header bits ST and OP fix in the six frames (R82 to R87). -/
theorem opcodes_header :
    Config.stC22.toNat * 2 ^ 14 + Config.opC22Write.toNat * 2 ^ 12 = 0x5000 ∧
    Config.stC22.toNat * 2 ^ 14 + Config.opC22Read.toNat * 2 ^ 12 = 0x6000 ∧
    Config.stC45.toNat * 2 ^ 14 + Config.opC45Address.toNat * 2 ^ 12 = 0x0000 ∧
    Config.stC45.toNat * 2 ^ 14 + Config.opC45Write.toNat * 2 ^ 12 = 0x1000 ∧
    Config.stC45.toNat * 2 ^ 14 + Config.opC45ReadInc.toNat * 2 ^ 12 = 0x2000 ∧
    Config.stC45.toNat * 2 ^ 14 + Config.opC45Read.toNat * 2 ^ 12 = 0x3000 := by decide

/-- Settles O38: the opcode decides whether a frame is written or read, and which constant its header begins with. -/
theorem framesOnTheSpiEngine : Obligations.FramesOnTheSpiEngine := by
  intro s p d ta v hr hsw
  obtain ⟨hw22, hr22, ha45, hw45, hi45, hr45⟩ := isReadClass_opcodes
  obtain ⟨bw22, br22, ba45, bw45, bi45, br45⟩ := opcodes_header
  exact ⟨sendFrame_spi_write_fields hr bw22 hsw hw22,
    sendFrame_spi_read_fields hr br22 hsw hr22,
    sendFrame_spi_write_fields hr ba45 hsw ha45,
    sendFrame_spi_write_fields hr bw45 hsw hw45,
    sendFrame_spi_read_fields hr bi45 hsw hi45,
    sendFrame_spi_read_fields hr br45 hsw hr45⟩

/-- Settles O39: a header word is the header of the frame of its kind. -/
theorem headerWords : Obligations.HeaderWords := by
  intro s p d hr
  obtain ⟨hw22, hr22, ha45, hw45, hi45, hr45⟩ := isReadClass_opcodes
  obtain ⟨bw22, br22, ba45, bw45, bi45, br45⟩ := opcodes_header
  exact ⟨sendHeader_write_fields hr bw22 rfl hw22, sendHeader_read_fields hr br22 hr22,
    sendHeader_write_fields hr ba45 rfl ha45, sendHeader_write_fields hr bw45 rfl hw45,
    sendHeader_read_fields hr bi45 hi45, sendHeader_read_fields hr br45 hr45⟩

end Sys2Proof.Machine
end

section
/-! The transfers of the SPI-framed engine (spec/43_spi_engine.md): where failures stop them (R212, R238), and that every one of
them holds chip select and is well formed (R40, R210). -/

namespace Sys2Proof.Machine

open Codec

/-! ### Chip select (R210) -/

/-- A transfer that holds chip select: `cs_change = false`. -/
def SpiOp.HoldsSelect : SpiOp → Prop
  | .xfer _ _ cs _ => cs = false
  | .element => True
  | .frame => True

theorem holdsSelect_sfFlush : ∀ op ∈ Prim.sfFlush, op.HoldsSelect := List.forall_mem_singleton.mpr rfl

theorem holdsSelect_sendHeader (g : Frame) : ∀ op ∈ SpiOp.element :: .frame :: Prim.sfSendHeader g, op.HoldsSelect := by
  simp [Prim.sfSendHeader, SpiOp.HoldsSelect]

theorem holdsSelect_sfFrameWords (sw : Switches) (g : Frame) : ∀ op ∈ Prim.sfFrameWords sw g, op.HoldsSelect := by
  cases hg : isReadClass g.op <;>
    simp [Prim.sfFrameWords, Prim.sfSendHeader, Prim.sfDataRead, Prim.sfDataWrite, hg, SpiOp.HoldsSelect]

theorem holdsSelect_sfFrame (sw : Switches) (g : Frame) : ∀ op ∈ Prim.sfFrame sw g, op.HoldsSelect :=
  List.forall_mem_cons.mpr ⟨trivial, List.forall_mem_append.mpr ⟨holdsSelect_sfFlush, holdsSelect_sfFrameWords sw g⟩⟩

theorem holdsSelect_sfNextFrame (sw : Switches) (g : Frame) : ∀ op ∈ Prim.sfNextFrame sw g, op.HoldsSelect := by
  unfold Prim.sfNextFrame
  split
  · exact holdsSelect_sfFrame sw g
  · exact List.forall_mem_cons.mpr ⟨trivial, holdsSelect_sfFrameWords sw g⟩

theorem holdsSelect_sfFrames (sw : Switches) (gs : List Frame) : ∀ op ∈ sfFrames sw gs, op.HoldsSelect := by
  cases gs with
  | nil => exact nofun
  | cons g gs =>
    refine List.forall_mem_append.mpr ⟨holdsSelect_sfFrame sw g, List.forall_mem_flatMap.mpr fun g' _ => ?_⟩
    exact holdsSelect_sfNextFrame sw g'

/-- Every transfer of a register command holds chip select, at every value of the switches. -/
theorem holdsSelect_operations (sw : Switches) (ts : List Transaction) :
    ∀ op ∈ ts.flatMap (sfTransaction sw), op.HoldsSelect := by
  refine List.forall_mem_flatMap.mpr fun t _ => List.forall_mem_cons.mpr ⟨trivial, ?_⟩
  refine List.forall_mem_append.mpr ⟨holdsSelect_sfFrames sw t.frames, ?_⟩
  split
  · exact holdsSelect_sfFlush
  · exact nofun

/-! ### What a command is -/

/-- The end of a run of the SPI-framed engine, delivered (R18, R238). -/
def deliverTransfers (s : State) (value : List U16 → Value) (r : Ran SF U16) : Host.Outcome State Fault Refusal :=
  r.outcome (fun f got => .next (s.withSF (f.deliver (.ok (value got))))) (fun f e => .next (s.withSF (f.raise e)))

theorem endsIn_of_deliverTransfers {s u : State} {value : List U16 → Value} {r : Ran SF U16}
    (h : deliverTransfers s value r = .next u) : ∃ f, r.EndsIn f ∧ u.sf.trace = f.trace := by
  cases r with
  | done f got => cases h; exact ⟨f, .done _ _, rfl⟩
  | failed f e => cases h; exact ⟨f, .failed _ _, rfl⟩
  | fault x => cases h

/-- An instruction of the SPI-framed engine but `open` and `close` raises an error at once, or it delivers the end of a run
whose transfers hold chip select. Of the engine only whether it is open decides which error and which run. -/
theorem exec_spi_raises_or_runs {i : Instr} (he : i.engine = .spi) (hl : i.isLifecycle = false) (s : State) :
    (∃ e, ∀ f : SF, f.isOpen = s.sf.isOpen → exec i (s.withSF f) = .next (s.withSF (f.raise e))) ∨
    (∃ ops value, (∀ op ∈ ops, op.HoldsSelect) ∧
      ∀ f : SF, f.isOpen = s.sf.isOpen → exec i (s.withSF f) = deliverTransfers s value (f.run ops)) := by
  cases ho : s.sf.isOpen with
  | false => exact .inl ⟨.notOpen, fun f hf => exec_spi_of_closed (s := s.withSF f) he hl hf⟩
  | true =>
    cases hh : i.headerFrame with
    | some g =>
      refine .inr ⟨.element :: .frame :: Prim.sfSendHeader g, fun _ => .unit, holdsSelect_sendHeader g, fun f hf => ?_⟩
      rw [exec_header i _ g hh, sendHeader, sfCommand_eq]
      exact if_pos hf
    | none =>
      cases hd : i.listsDiffer with
      | true => exact .inl ⟨.parameterInvalid, fun f hf => by rw [exec_spi i _ he hl hh, if_pos ⟨hf, hd⟩]; rfl⟩
      | false =>
        refine .inr ⟨_, assemble i.shape, holdsSelect_operations s.switches (i.operations s.switches), fun f hf => ?_⟩
        rw [exec_spi_of_parallel he hl hh hd, sfTransact, sfCommand_eq]
        exact if_pos hf

/-! ### Every transfer is well formed (R40, R210) -/

/-- An event that is no transfer, or a transfer that holds chip select, with a width, a word and a received word as R40 has
them. -/
def SFEvent.WellFormed : SFEvent → Prop
  | .xfer n tx cs rx => cs = false ∧ (n = 16 ∨ n = 32) ∧ tx < 2 ^ n ∧ rx < 2 ^ n
  | .opened => True
  | .closed => True

/-- From `f` to `f'` the engine has made well-formed transfers only. -/
def SF.WellFormedUpTo (f f' : SF) : Prop := ∃ xs, f'.trace = f.trace ++ xs ∧ ∀ x ∈ xs, x.WellFormed

theorem SF.WellFormedUpTo.of_trace_eq {f f' : SF} (h : f'.trace = f.trace) : f.WellFormedUpTo f' :=
  ⟨[], by rw [h, List.append_nil], nofun⟩

theorem SF.WellFormedUpTo.of_event {f f' : SF} {x : SFEvent} (h : f'.trace = f.trace ++ [x]) (hx : x.WellFormed) :
    f.WellFormedUpTo f' :=
  ⟨[x], h, List.forall_mem_singleton.mpr hx⟩

theorem SF.WellFormedUpTo.trans {a b c : SF} (h : a.WellFormedUpTo b) (h' : b.WellFormedUpTo c) : a.WellFormedUpTo c := by
  obtain ⟨xs, hxs, hwf⟩ := h
  obtain ⟨ys, hys, hwf'⟩ := h'
  exact ⟨xs ++ ys, by rw [hys, hxs, List.append_assoc], List.forall_mem_append.mpr ⟨hwf, hwf'⟩⟩

theorem SF.drawnWord_lt (f : SF) (n : Nat) : f.drawnWord n < 2 ^ n := by
  rw [SF.drawnWord_eq]
  exact Nat.mod_lt _ (Nat.two_pow_pos n)

theorem SF.perform_wellFormed {op : SpiOp} (hop : op.HoldsSelect) {f f' : SF} (h : (f.perform op).EndsIn f') :
    f.WellFormedUpTo f' := by
  rcases f.perform_cases op with ⟨_, e⟩ | ⟨_, e⟩ | ⟨n, tx, cs, keep, rfl, _, hn, htx, e⟩ | e | e | ⟨_, e⟩ <;>
    rw [e] at h <;> cases h
  · exact .of_trace_eq rfl
  · exact .of_trace_eq rfl
  · exact .of_event (SF.transferred_trace f.spent n tx cs) ⟨hop, hn, htx, f.spent.drawnWord_lt n⟩
  · exact .of_trace_eq rfl
  · exact .of_trace_eq rfl
  · exact .of_trace_eq rfl

theorem runOps_map {σ ω ω' β : Type} (perform : ω → σ → Ran σ β) (g : ω' → ω) (ops : List ω') (s : σ) :
    runOps perform (ops.map g) s = runOps (fun op => perform (g op)) ops s := by
  induction ops generalizing s with
  | nil => rfl
  | cons op ops ih => simp only [List.map_cons, runOps, ih]

theorem SF.run_wellFormed {ops : List SpiOp} (hops : ∀ op ∈ ops, op.HoldsSelect) {f f' : SF}
    (h : (f.run ops).EndsIn f') : f.WellFormedUpTo f' := by
  lift ops to List {op : SpiOp // op.HoldsSelect} using hops
  rw [SF.run, runOps_map] at h
  exact runOps_relates SF.WellFormedUpTo (fun _ => .of_trace_eq rfl) (fun _ _ _ => .trans)
    (fun op _ _ => SF.perform_wellFormed op.property) ops f f' h

theorem execSfOpen_wellFormed {s t : State} (h : execSfOpen s = .next t) : s.sf.WellFormedUpTo t.sf := by
  cases ho : s.sf.isOpen with
  | true =>
    cases (execSfOpen_of_open ho).symm.trans h
    exact .of_trace_eq rfl
  | false =>
    cases hx : s.sf.env.failures.getD 0 none with
    | none =>
      cases (execSfOpen_of_success ho hx).symm.trans h
      exact .of_event rfl trivial
    | some x =>
      cases (execSfOpen_of_failure ho hx).symm.trans h
      exact .of_trace_eq rfl

theorem execSfClose_wellFormed {s t : State} (h : execSfClose s = .next t) : s.sf.WellFormedUpTo t.sf := by
  cases ho : s.sf.isOpen with
  | false =>
    cases (execSfClose_of_closed ho).symm.trans h
    exact .of_trace_eq rfl
  | true =>
    cases hx : s.sf.env.failures.getD 0 none with
    | none =>
      cases (execSfClose_of_success ho hx).symm.trans h
      exact .of_event rfl trivial
    | some x =>
      cases (execSfClose_of_failure ho hx).symm.trans h
      exact .of_trace_eq rfl

theorem exec_spi_wellFormed {i : Instr} {s t : State} (he : i.engine = .spi) (h : exec i s = .next t) :
    s.sf.WellFormedUpTo t.sf := by
  cases hl : i.isLifecycle with
  | true =>
    rcases lifecycle_cases hl with rfl | rfl | rfl | rfl
    · cases he
    · cases he
    · exact execSfOpen_wellFormed h
    · exact execSfClose_wellFormed h
  | false =>
    rcases exec_spi_raises_or_runs he hl s with ⟨e, hexec⟩ | ⟨ops, value, hops, hexec⟩
    · cases (hexec s.sf rfl).symm.trans h
      exact .of_trace_eq rfl
    · obtain ⟨f, hf, htrace⟩ := endsIn_of_deliverTransfers ((hexec s.sf rfl).symm.trans h)
      exact (SF.run_wellFormed hops hf).trans (.of_trace_eq htrace)

/-- Settles O57: the operations of a command hold chip select, a transfer that is made was accepted, and what is received is
cut to its width. -/
theorem transfersHoldChipSelect : Obligations.TransfersHoldChipSelect := by
  intro i s t xs h hxs n tx rx cs hmem
  have hwf : s.sf.WellFormedUpTo t.sf := by
    cases he : i.engine with
    | bitbang =>
      obtain ⟨hsame, _⟩ := (enginesShareNothing i s s.sf s.bb).1 he
      rw [hsame t h]
      exact .of_trace_eq rfl
    | spi => exact exec_spi_wellFormed he h
  obtain ⟨ys, hys, hwf⟩ := hwf
  obtain rfl : xs = ys := List.append_cancel_left (hxs.symm.trans hys)
  exact hwf _ hmem

/-! ### The SPI-framed engine's script of failures (R38, R212) -/

/-- The SPI collaborator's failures and the bus trace of the SPI-framed engine. -/
def SF.script : Script SF SFEvent where
  withFailures := SF.withFailures
  failures f := f.env.failures
  trace := SF.trace
  withFailures_withFailures _ _ _ := rfl
  failures_withFailures _ _ := rfl
  trace_withFailures _ _ := rfl

theorem SF.attempt_withFailures {f c : SF} {got : List U16} {call : SF → Ran SF U16}
    (hcall : ∀ fs, call (f.withFailures fs) = .done (c.withFailures fs) got) (fs : List (Option OsFailure)) :
    (f.withFailures fs).attempt call = SF.script.answer f c got fs := by
  match fs with
  | [] => exact (SF.attempt_nil rfl call).trans (hcall [])
  | none :: rest => exact (SF.attempt_none rfl call).trans (hcall rest)
  | some x :: rest => exact SF.attempt_some rfl call

/-- A mark asks the environment nothing; a transfer is one call, unless the port is unclaimed or its arguments are malformed
(R40). -/
theorem SF.perform_atMostOneCall (op : SpiOp) (f : SF) : SF.script.AtMostOneCall f (SF.perform op) := by
  have hsilent {act : SF → Ran SF U16} (r : Ran SF U16) (htrace : ∀ c, r.EndsIn c → c.trace = f.trace)
      (hact : ∀ fs, act (f.withFailures fs) = SF.script.leaving fs r) : SF.script.AtMostOneCall f act :=
    .silent r htrace hact
  cases op with
  | element => exact hsilent (.done { f with seq := f.seq.nextElement } []) (fun _ hc => by cases hc; rfl) fun _ => rfl
  | frame => exact hsilent (.done { f with seq := f.seq.nextFrame } []) (fun _ hc => by cases hc; rfl) fun _ => rfl
  | xfer n tx cs keep =>
    cases hc : f.spi.claimed with
    | false =>
      exact hsilent (.failed f .notOpen) (fun _ hc => by cases hc; rfl) fun fs =>
        SF.xfer_unclaimed (f := f.withFailures fs) hc n tx cs keep
    | true =>
      by_cases hw : (n = 16 ∨ n = 32) ∧ tx < 2 ^ n
      · refine .call (f.transferred n tx cs) (if keep then [mask 16 (f.drawnWord n)] else []) _
          (SF.transferred_trace f n tx cs) fun fs => ?_
        exact (SF.xfer_claimed (f := f.withFailures fs) hc hw cs keep).trans (SF.attempt_withFailures (fun _ => rfl) fs)
      · exact hsilent (.failed f .parameterInvalid) (fun _ hc => by cases hc; rfl) fun fs =>
          SF.xfer_malformed (f := f.withFailures fs) hc hw cs keep

theorem SF.run_precise (ops : List SpiOp) (f : SF) :
    ∃ xs, (∀ c, (f.quieted.run ops).EndsIn c → c.trace = f.trace ++ xs) ∧
      ∀ fs, SF.script.Precise f.trace xs (f.quieted.run ops) fs ((f.withFailures fs).run ops) :=
  SF.script.precise_run SF.perform_atMostOneCall ops f

theorem SF.leaving_nil_quieted_run (ops : List SpiOp) (f : SF) :
    SF.script.leaving [] (f.quieted.run ops) = f.quieted.run ops := by
  obtain ⟨_, _, hprecise⟩ := SF.run_precise ops f
  exact (hprecise []).eq_leaving_nil.symm

/-! ### Errors of the SPI-framed engine are precise -/

/-- The delivery leaves the failures to come as they are. -/
theorem deliverTransfers_leaving (s : State) (value : List U16 → Value) (fs : List (Option OsFailure)) (r : Ran SF U16) :
    deliverTransfers s value (SF.script.leaving fs r) =
      mapNext (fun t => t.withSF (t.sf.withFailures fs)) (deliverTransfers s value r) := by
  cases r <;> rfl

/-- A run that failures stop: exactly the transfers before the failed one have happened, and nothing is cleaned up. -/
theorem SF.run_stops {ops : List SpiOp} {f : SF} {xs : List SFEvent} {r : Ran SF U16}
    (h : SF.script.Precise f.trace xs r f.env.failures (f.run ops)) {k : Nat} {x : OsFailure} (hk : k < xs.length)
    (hnone : ∀ j < k, f.env.failures.getD j none = none) (hx : f.env.failures.getD k none = some x) :
    ∃ c, f.run ops = .failed c (.transportIO x) ∧ c.trace = f.trace ++ xs.take k ∧ f.Kept c ∧
      c.env.failures = f.env.failures.drop (k + 1) := by
  obtain ⟨c, hrun, htrace, hleft⟩ := h.stops k x hk hnone hx
  exact ⟨c, hrun, htrace, SF.run_kept ops _ _ (hrun ▸ .failed _ _), hleft⟩

theorem withFailures_nil_of_quieted_transfers {s u : State} {value : List U16 → Value} {ops : List SpiOp}
    (h : deliverTransfers s value (s.sf.quieted.run ops) = .next u) : u.withSF (u.sf.withFailures []) = u := by
  have hleft := deliverTransfers_leaving s value [] (s.sf.quieted.run ops)
  rw [SF.leaving_nil_quieted_run, h] at hleft
  exact (Host.Outcome.next.inj hleft).symm

/-- Settles O51: an instruction makes its transfers in one run, and the failures of a run are precise. -/
theorem sfFailureIsPrecise : Obligations.SfFailureIsPrecise := by
  intro i s u xs he hl hu hxs
  rcases exec_spi_raises_or_runs he hl s with ⟨e, hexec⟩ | ⟨ops, value, _, hexec⟩
  · rw [hexec s.sf.quieted rfl] at hu
    cases hu
    obtain rfl : xs = [] := by simpa [SF.quieted] using hxs
    exact ⟨fun k x hk => absurd hk (Nat.not_lt_zero _), fun _ => ⟨_, hexec s.sf rfl, rfl⟩⟩
  · have hs : exec i s = deliverTransfers s value (s.sf.run ops) := hexec s.sf rfl
    rw [hexec s.sf.quieted rfl] at hu
    obtain ⟨xs', hxs', hprecise⟩ := SF.run_precise ops s.sf
    obtain ⟨c, hc, htrace⟩ := endsIn_of_deliverTransfers hu
    obtain rfl : xs' = xs := List.append_cancel_left ((hxs' c hc).symm.trans (htrace.symm.trans hxs))
    have hfailures : SF.script.Precise s.sf.trace xs' _ s.sf.env.failures (s.sf.run ops) := hprecise s.sf.env.failures
    refine ⟨fun k x hk hnone hx => ?_, fun hnone => ?_⟩
    · obtain ⟨f, hrun, hf, hkept, hleft⟩ := SF.run_stops hfailures hk hnone hx
      exact ⟨s.withSF (f.raise (.transportIO x)), by rw [hs, hrun]; rfl, hf, congrArg (· ++ [_]) hkept.results, hkept.isOpen,
        hkept.spi, rfl, hleft⟩
    · rw [hfailures.goes hnone, deliverTransfers_leaving, hu] at hs
      exact ⟨_, hs, withFailures_nil_of_quieted_transfers hu⟩

end Sys2Proof.Machine
end

section
/-! The two engines on the wire (spec/43_spi_engine.md R208): the same symbols at the same clock pulses, but for `1` where the
bit-bang engine has released the line, and the word of a read in the same places. Shown of a preamble and of one frame, joined
by `SameWire.append`. -/

namespace Sys2Proof.Machine

open Codec

/-! ### The symbols of a bit-bang trace -/

/-- These events show these symbols, whatever the line presented before them. -/
def Shows (es : List BBEvent) (ss : List Symbol) : Prop :=
  ∀ (cur : Symbol) (rest : List BBEvent), ∃ next, bbSymbols cur (es ++ rest) = ss ++ bbSymbols next rest

theorem Shows.nil : Shows [] [] := fun cur _ => ⟨cur, rfl⟩

theorem Shows.append {es es' : List BBEvent} {ss ss' : List Symbol} (h : Shows es ss) (h' : Shows es' ss') :
    Shows (es ++ es') (ss ++ ss') := by
  intro cur rest
  obtain ⟨next, hnext⟩ := h cur (es' ++ rest)
  obtain ⟨next', hnext'⟩ := h' next rest
  exact ⟨next', by rw [List.append_assoc, hnext, hnext', List.append_assoc]⟩

theorem Shows.symbols {es : List BBEvent} {ss : List Symbol} (h : Shows es ss) (cur : Symbol) : bbSymbols cur es = ss := by
  obtain ⟨next, hnext⟩ := h cur []
  rwa [List.append_nil, bbSymbols, List.append_nil] at hnext

theorem shows_wSlots (bs : List Level) : Shows (wSlots bs) (bs.map .drive) := by
  induction bs with
  | nil => exact .nil
  | cons b bs ih =>
    have hslot : Shows (wSlots [b]) [.drive b] := fun _ _ => ⟨.drive b, rfl⟩
    exact hslot.append ih

/-- While the line is released every slot shows `Z`. -/
theorem bbSymbols_rSlots (ls : List Level) (rest : List BBEvent) :
    bbSymbols .z (rSlots ls ++ rest) = List.replicate ls.length .z ++ bbSymbols .z rest := by
  induction ls with
  | nil => rfl
  | cons l ls ih => exact congrArg (Symbol.z :: ·) ih

/-- The part of a read-class frame in which the line is released. -/
theorem shows_released (ls : List Level) :
    Shows (.ddirIn :: (rSlots ls ++ [.ddirOut true])) (List.replicate ls.length .z) := by
  intro cur rest
  refine ⟨.drive true, ?_⟩
  rw [List.cons_append, List.append_assoc, bbSymbols, bbSymbols_rSlots]
  rfl

/-! ### Samples, received bits and released positions -/

theorem sampledLevels_append (es es' : List BBEvent) : sampledLevels (es ++ es') = sampledLevels es ++ sampledLevels es' :=
  List.filterMap_append

theorem sampledLevels_wSlots (bs : List Level) : sampledLevels (wSlots bs) = [] := by
  induction bs with
  | nil => rfl
  | cons b bs ih => exact ih

theorem sampledLevels_rSlots (ls : List Level) : sampledLevels (rSlots ls) = ls := by
  induction ls with
  | nil => rfl
  | cons l ls ih => exact congrArg (l :: ·) ih

theorem sampledLevels_released (ls : List Level) : sampledLevels (.ddirIn :: (rSlots ls ++ [.ddirOut true])) = ls := by
  have h : sampledLevels (rSlots ls ++ [.ddirOut true]) = ls := by
    rw [sampledLevels_append, sampledLevels_rSlots]
    exact List.append_nil ls
  exact h

theorem bitsWhereReleased_append {ss ss' : List Symbol} {bs bs' : List Level} (h : ss.length = bs.length) :
    bitsWhereReleased (ss ++ ss') (bs ++ bs') = bitsWhereReleased ss bs ++ bitsWhereReleased ss' bs' := by
  rw [bitsWhereReleased, List.zip_append h, List.filterMap_append]
  rfl

/-- Where the line is driven nothing is received. -/
theorem bitsWhereReleased_driven (ds bs : List Level) : bitsWhereReleased (ds.map .drive) bs = [] := by
  simp [bitsWhereReleased, List.zip_map_left]

theorem bitsWhereReleased_released (bs : List Level) : bitsWhereReleased (List.replicate bs.length .z) bs = bs := by
  induction bs with
  | nil => rfl
  | cons b bs ih => exact congrArg (b :: ·) ih

theorem length_bitsWhereReleased {ss : List Symbol} {bs : List Level} (h : ss.length = bs.length) :
    (bitsWhereReleased ss bs).length = ss.count .z := by
  induction ss generalizing bs with
  | nil => rfl
  | cons s ss ih =>
    obtain ⟨b, bs, rfl⟩ := List.exists_cons_of_length_eq_add_one h.symm
    have hrest := ih (Nat.succ.inj h)
    cases s with
    | drive l => exact hrest
    | z => exact (congrArg (· + 1) hrest).trans List.count_cons_self.symm

/-! ### Words and transfers -/

/-- The symbols of the words sent (R208). -/
def wordSymbols (sent : List (Nat × Nat)) : List Symbol := sent.flatMap fun p => (bitsOf p.1 p.2).map .drive

theorem wordSymbols_append (xs ys : List (Nat × Nat)) : wordSymbols (xs ++ ys) = wordSymbols xs ++ wordSymbols ys :=
  List.flatMap_append

theorem transferEvents_append {sent sent' : List (Nat × Nat)} {rx rx' : List Nat} (h : sent.length = rx.length) :
    transferEvents (sent ++ sent') (rx ++ rx') = transferEvents sent rx ++ transferEvents sent' rx' :=
  List.zipWith_append h

theorem sfSymbols_transferEvents {sent : List (Nat × Nat)} {rx : List Nat} (h : sent.length = rx.length) :
    sfSymbols (transferEvents sent rx) = wordSymbols sent := by
  induction sent generalizing rx with
  | nil => rfl
  | cons p sent ih =>
    obtain ⟨r, rx, rfl⟩ := List.exists_cons_of_length_eq_add_one h.symm
    exact congrArg ((bitsOf p.1 p.2).map Symbol.drive ++ ·) (ih (Nat.succ.inj h))

theorem receivedBits_append (xs ys : List SFEvent) : receivedBits (xs ++ ys) = receivedBits xs ++ receivedBits ys :=
  List.flatMap_append

/-- As many bits are received as sent (R40). -/
theorem length_receivedBits {sent : List (Nat × Nat)} {rx : List Nat} (h : sent.length = rx.length) :
    (receivedBits (transferEvents sent rx)).length = (wordSymbols sent).length := by
  induction sent generalizing rx with
  | nil => rfl
  | cons p sent ih =>
    obtain ⟨r, rx, rfl⟩ := List.exists_cons_of_length_eq_add_one h.symm
    have hrest := ih (Nat.succ.inj h)
    have hcons : transferEvents (p :: sent) (r :: rx) = .xfer p.1 p.2 false r :: transferEvents sent rx := rfl
    rw [hcons, receivedBits, List.flatMap_cons, List.length_append, wordSymbols, List.flatMap_cons, List.length_append]
    exact congrArg₂ (· + ·) (by simp) hrest

theorem wordsIn_append (m n : Nat) {ls : List Level} (h : ls.length = 18 * m) (ls' : List Level) :
    wordsIn (m + n) (ls ++ ls') = wordsIn m ls ++ wordsIn n ls' := by
  induction m generalizing ls with
  | zero =>
    obtain rfl := List.length_eq_zero_iff.mp h
    rw [Nat.zero_add]
    rfl
  | succ m ih =>
    have hword : 16 ≤ (ls.drop 2).length := by rw [List.length_drop, h]; omega
    have hrest : (ls.drop 18).length = 18 * m := by rw [List.length_drop, h]; omega
    rw [Nat.succ_add, wordsIn, wordsIn, List.drop_append_of_le_length (by omega), List.take_append_of_le_length hword,
      List.drop_append_of_le_length (by omega), ih hrest]
    rfl

/-! ### The same symbols on both wires -/

/-- The bit-bang events `es` with the samples `ls` and the SPI words `sent` with the words `rx` received are `n` reads on the
same wire: at every clock pulse the same symbol, but for `1` in the 18 places of each read where the line is released, and in
these places the words `ws` are received (R208). -/
structure SameWire (es : List BBEvent) (ls : List Level) (sent : List (Nat × Nat)) (rx : List Nat) (n : Nat)
    (ws : List U16) : Prop where
  samples : sampledLevels es = ls
  transfers : sent.length = rx.length
  symbols : ∃ ss, Shows es ss ∧ wordSymbols sent = ss.map Symbol.onSpi ∧ ss.count .z = 18 * n ∧
    wordsIn n (bitsWhereReleased ss (receivedBits (transferEvents sent rx))) = ws

theorem SameWire.append {es es' : List BBEvent} {ls ls' : List Level} {sent sent' : List (Nat × Nat)} {rx rx' : List Nat}
    {n n' : Nat} {ws ws' : List U16} (h : SameWire es ls sent rx n ws) (h' : SameWire es' ls' sent' rx' n' ws') :
    SameWire (es ++ es') (ls ++ ls') (sent ++ sent') (rx ++ rx') (n + n') (ws ++ ws') where
  samples := by rw [sampledLevels_append, h.samples, h'.samples]
  transfers := by rw [List.length_append, List.length_append, h.transfers, h'.transfers]
  symbols := by
    obtain ⟨ss, hshow, hsent, hcount, hwords⟩ := h.symbols
    obtain ⟨ss', hshow', hsent', hcount', hwords'⟩ := h'.symbols
    have hbits : ss.length = (receivedBits (transferEvents sent rx)).length := by
      rw [length_receivedBits h.transfers, hsent, List.length_map]
    refine ⟨ss ++ ss', hshow.append hshow', ?_, ?_, ?_⟩
    · rw [wordSymbols_append, hsent, hsent', List.map_append]
    · rw [List.count_append, hcount, hcount', Nat.mul_add]
    · rw [transferEvents_append h.transfers, receivedBits_append, bitsWhereReleased_append hbits,
        wordsIn_append _ _ ((length_bitsWhereReleased hbits).trans hcount), hwords, hwords']

/-- Nothing on either wire. -/
theorem SameWire.nil : SameWire [] [] [] [] 0 [] := ⟨rfl, rfl, [], .nil, rfl, rfl, rfl⟩

/-- Driven bits on the bit-bang engine, and words of the same bits on the SPI-framed engine. -/
theorem SameWire.driven {bs : List Level} {sent : List (Nat × Nat)} {rx : List Nat} (hlen : sent.length = rx.length)
    (hbits : sent.flatMap (fun p => bitsOf p.1 p.2) = bs) : SameWire (wSlots bs) [] sent rx 0 [] where
  samples := sampledLevels_wSlots bs
  transfers := hlen
  symbols := by
    refine ⟨bs.map .drive, shows_wSlots bs, ?_, ?_, rfl⟩
    · rw [← hbits, List.map_map, List.map_flatMap, wordSymbols]
      rfl
    · simp [List.count_eq_zero]

/-! ### Preambles and frames -/

/-- A preamble or a trailing flush is 32 ones on both wires (R88, R193). -/
theorem sameWire_onesEvents (r : Nat) : SameWire onesEvents [] [(32, 0xFFFFFFFF)] [r] 0 [] :=
  .driven rfl (by decide : [(32, 0xFFFFFFFF)].flatMap (fun p => bitsOf p.1 p.2) = List.replicate 32 true)

/-- A write-class frame as a command emits it: the header and the data word are its 32 bits (R90). -/
theorem sameWire_writeFrame {f : Frame} (hf : isReadClass f.op = false) (hta : f.ta = Config.taWrite) (r r' : Nat) :
    SameWire (frameEvents f []) [] [(16, (sfHeader f).toNat), (16, f.data.toNat)] [r, r'] 0 [] := by
  have hown : { f with ta := Config.taWrite } = f := by rw [← hta]
  have hheader : (sfHeader f).toNat = (headerOf f).toNat := by
    rw [sfHeader_toNat_eq_headerOf, hf, if_neg Bool.false_ne_true]
  have hbits : [(16, (sfHeader f).toNat), (16, f.data.toNat)].flatMap (fun p => bitsOf p.1 p.2) =
      bitsOf 32 (encodeFrame f).toNat := by
    rw [List.flatMap_cons, List.flatMap_singleton, hheader, bitsOf_append 16 16 _ _ f.data.isLt, encodeFrame_toNat]
    rfl
  rw [frameEvents, hf, if_neg Bool.false_ne_true, hown]
  exact .driven rfl hbits

/-- The fourteen header bits of a read-class frame and the turnaround `11` are its SPI header word (R118, R121). -/
theorem bitsOf_sfHeader_read {f : Frame} (hf : isReadClass f.op = true) :
    bitsOf 16 (sfHeader f).toNat = (bitsOf 32 (encodeFrame f).toNat).take 14 ++ [true, true] := by
  have hheader : (sfHeader f).toNat = (headerOf f).toNat / 4 * 2 ^ 2 + 3 := by
    rw [sfHeader_toNat_eq_headerOf, hf]
    rfl
  have hfirst : (encodeFrame f).toNat / 2 ^ 18 = (headerOf f).toNat / 4 := by
    have := f.data.isLt
    rw [encodeFrame_toNat]
    omega
  rw [hheader, ← bitsOf_append 14 2 _ 3 (by decide), bitsOf_take 14 18, hfirst]
  rfl

/-- The word of sixteen bits received (R135, R195). -/
theorem wordOfBits_bitsOf_eq_mask (r : Nat) : wordOfBits (bitsOf 16 r) = mask 16 r := by
  rw [wordOfBits, ofBits, foldl_bitsOf, Nat.zero_mul, Nat.zero_add]
  exact mask_mod 16 r

/-- A read-class frame: from the turnaround on the line is released, and `1` stands in the SPI words (R91, R195). -/
theorem sameWire_readFrame {f : Frame} (hf : isReadClass f.op = true) {ls : List Level} (hls : ls.length = 18) (r r' : Nat) :
    SameWire (frameEvents f ls) ls [(16, (sfHeader f).toNat), (16, 0xFFFF)] [r, r'] 1 [mask 16 r'] := by
  obtain ⟨bs, hbs⟩ : ∃ bs, bs = (bitsOf 32 (encodeFrame f).toNat).take 14 := ⟨_, rfl⟩
  have hlen : bs.length = 14 := by rw [hbs, List.length_take, bitsOf_length]; rfl
  have hheader : bitsOf 16 (sfHeader f).toNat = bs ++ [true, true] := by rw [bitsOf_sfHeader_read hf, hbs]
  have hevents : frameEvents f ls = wSlots bs ++ .ddirIn :: (rSlots ls ++ [.ddirOut true]) := by
    rw [frameEvents, hf, if_pos rfl, hbs]
  have hreceived : receivedBits (transferEvents [(16, (sfHeader f).toNat), (16, 0xFFFF)] [r, r']) =
      (bitsOf 16 r).take 14 ++ ((bitsOf 16 r).drop 14 ++ bitsOf 16 r') := by
    rw [← List.append_assoc, List.take_append_drop]
    exact congrArg (bitsOf 16 r ++ ·) (List.append_nil _)
  have hreleased : ((bitsOf 16 r).drop 14 ++ bitsOf 16 r').length = 18 := by simp
  rw [hevents]
  refine ⟨?_, rfl, bs.map .drive ++ List.replicate 18 .z, ?_, ?_, ?_, ?_⟩
  · rw [sampledLevels_append, sampledLevels_wSlots, sampledLevels_released, List.nil_append]
  · exact (shows_wSlots bs).append (hls ▸ shows_released ls)
  · rw [wordSymbols, List.flatMap_cons, List.flatMap_singleton, hheader, List.map_append, List.map_append, List.append_assoc,
      List.map_map]
    rfl
  · rw [List.count_append, List.count_replicate_self, List.count_eq_zero.mpr (by simp)]
  · rw [hreceived, bitsWhereReleased_append (by simp [hlen]), bitsWhereReleased_driven, List.nil_append, ← hreleased,
      bitsWhereReleased_released, wordsIn, wordsIn, List.drop_left' (by simp), List.take_of_length_le (by simp),
      wordOfBits_bitsOf_eq_mask]

/-! ### Operations -/

/-- An operation as the register commands make them: it puts something on the wire, and every frame has the turnaround `10`
(R91). -/
structure Transaction.Emitted (t : Transaction) : Prop where
  speaks : t.speaks = true
  turnaround : ∀ f ∈ t.frames, f.ta = Config.taWrite

theorem emitted_readC22 (p r : Nat) : (readC22 p r).Emitted := ⟨rfl, List.forall_mem_singleton.mpr rfl⟩

theorem emitted_writeC22 (p r v : Nat) : (writeC22 p r v).Emitted := ⟨rfl, List.forall_mem_singleton.mpr rfl⟩

theorem emitted_readC45 (p e r : Nat) : (readC45 p e r).Emitted :=
  ⟨rfl, List.forall_mem_cons.mpr ⟨rfl, List.forall_mem_singleton.mpr rfl⟩⟩

theorem emitted_writeC45 (p e r v : Nat) : (writeC45 p e r v).Emitted :=
  ⟨rfl, List.forall_mem_cons.mpr ⟨rfl, List.forall_mem_singleton.mpr rfl⟩⟩

/-- One frame behind its preamble, with the three words received. -/
theorem sameWire_frame {f : Frame} (hta : f.ta = Config.taWrite) {ls : List Level} (hls : ls.length = samplesOf f)
    (r0 r1 r2 : Nat) :
    SameWire (onesEvents ++ frameEvents f ls) ls (frameWords f) [r0, r1, r2] (if isReadClass f.op then 1 else 0)
      (if isReadClass f.op then [mask 16 r2] else []) := by
  cases hf : isReadClass f.op with
  | false =>
    obtain rfl : ls = [] := List.length_eq_zero_iff.mp (by rw [hls, samplesOf, hf]; rfl)
    have h := (sameWire_onesEvents r0).append (sameWire_writeFrame hf hta r1 r2)
    rw [frameWords, hf]
    exact h
  | true =>
    have h := (sameWire_onesEvents r0).append (sameWire_readFrame hf (by rw [hls, samplesOf, hf]; rfl) r1 r2)
    rw [frameWords, hf]
    exact h

/-- Frames one after the other, with the words received for them and whatever is received `later`. -/
theorem sameWire_frames {fs : List Frame} (hta : ∀ f ∈ fs, f.ta = Config.taWrite) {ls : List Level}
    (hls : ls.length = framesSamples fs) {rx : List Nat} (hrx : rx.length = (fs.flatMap frameWords).length)
    (later : List Nat) :
    SameWire (framesEvents fs ls) ls (fs.flatMap frameWords) rx (readsIn fs) (dataWordsReceived fs (rx ++ later)) := by
  induction fs generalizing ls rx with
  | nil =>
    obtain rfl := List.length_eq_zero_iff.mp hls
    obtain rfl := List.length_eq_zero_iff.mp hrx
    exact .nil
  | cons f fs ih =>
    obtain ⟨hf, hfs⟩ := List.forall_mem_cons.mp hta
    rw [framesSamples_cons] at hls
    match rx, hrx with
    | r0 :: r1 :: r2 :: rx, hrx =>
      have hrest : rx.length = (fs.flatMap frameWords).length := by simpa [frameWords] using hrx
      have hfirst := sameWire_frame hf (ls := ls.take (samplesOf f)) (by rw [List.length_take]; omega) r0 r1 r2
      have h := hfirst.append (ih hfs (ls := ls.drop (samplesOf f)) (by rw [List.length_drop]; omega) hrest)
      rw [List.take_append_drop, ← readsIn_cons] at h
      exact h

theorem sameWire_operation {t : Transaction} (ht : t.Emitted) {ls : List Level} (hls : ls.length = framesSamples t.frames)
    {rx : List Nat} (hrx : rx.length = (transactionWords t).length) :
    SameWire (framesEvents t.frames ls ++ (if t.trailingFlush then onesEvents else [])) ls (transactionWords t) rx
      (readsIn t.frames) (dataWordsReceived t.frames rx) := by
  cases hflush : t.trailingFlush with
  | false =>
    have hwords : transactionWords t = t.frames.flatMap frameWords := by rw [transactionWords, hflush]; exact List.append_nil _
    rw [hwords] at hrx ⊢
    have h := (sameWire_frames ht.turnaround hls hrx []).append .nil
    simpa only [List.append_nil, Nat.add_zero, Bool.false_eq_true, if_false] using h
  | true =>
    have hwords : transactionWords t = t.frames.flatMap frameWords ++ [(32, 0xFFFFFFFF)] := by rw [transactionWords, hflush]; rfl
    rw [hwords] at hrx ⊢
    rcases List.eq_nil_or_concat' rx with rfl | ⟨rx, r, rfl⟩
    · simp at hrx
    · have hframes : rx.length = (t.frames.flatMap frameWords).length := by simpa using hrx
      have h := (sameWire_frames ht.turnaround hls hframes [r]).append (sameWire_onesEvents r)
      simpa only [List.append_nil, Nat.add_zero, if_true] using h

/-- The operations of a command, one after the other. -/
theorem sameWire_operations {ts : List Transaction} (hts : ∀ t ∈ ts, t.Emitted) {ls : List Level}
    (hls : ls.length = transactionsSamples ts) {rx : List Nat} (hrx : rx.length = (ts.flatMap transactionWords).length) :
    SameWire (transactionsEvents ts ls) ls (ts.flatMap transactionWords) rx (wordsRead ts) (operationWordsReceived ts rx) := by
  induction ts generalizing ls rx with
  | nil =>
    obtain rfl := List.length_eq_zero_iff.mp hls
    obtain rfl := List.length_eq_zero_iff.mp hrx
    exact .nil
  | cons t ts ih =>
    obtain ⟨ht, hlater⟩ := List.forall_mem_cons.mp hts
    rw [transactionsSamples_cons] at hls
    rw [List.flatMap_cons, List.length_append] at hrx
    have hfirst := sameWire_operation ht (ls := ls.take (framesSamples t.frames)) (by rw [List.length_take]; omega)
      (rx := rx.take (transactionWords t).length) (by rw [List.length_take]; omega)
    have hrest := ih hlater (ls := ls.drop (framesSamples t.frames)) (by rw [List.length_drop]; omega)
      (rx := rx.drop (transactionWords t).length) (by rw [List.length_drop]; omega)
    have h := hfirst.append hrest
    rw [List.take_append_drop, List.take_append_drop, ← wordsRead_cons] at h
    exact h

/-! ### A command on both engines -/

/-- A register command of the bit-bang engine, empty batches included: what it adds to the trace and to the results. -/
theorem bbTransact_adds {s : State} (hr : s.bb.Ready) (hsw : s.switches = Switches.normative) {ts : List Transaction}
    (hts : ∀ t ∈ ts, t.Emitted) (shape : Shape) :
    ∃ t, bbTransact ts shape s = .next t ∧
      t.bb.trace = s.bb.trace ++ transactionsEvents ts (s.bb.upcoming (transactionsSamples ts)) ∧
      t.bb.results = s.bb.results ++ [.ok (assemble shape (wordsIn (wordsRead ts) (s.bb.upcoming (transactionsSamples ts))))] := by
  rcases eq_or_ne ts [] with rfl | hne
  · exact ⟨_, bbTransact_nil hr.1 shape, (List.append_nil _).symm, rfl⟩
  · exact ⟨_, bbTransact_ready hr ts (fun _ _ => .inl (congrArg Switches.preamblePerFrame hsw)) hne
      (fun t ht => (hts t ht).speaks) shape, rfl, rfl⟩

/-- A command of the bit-bang engine and the same command of the SPI-framed engine (R96): the same operations,
and the same value made of the words read. -/
structure SameCommand (i j : Instr) : Prop where
  plain : Plain i
  plainSpi : Plain j
  engine : i.engine = .bitbang
  engineSpi : j.engine = .spi
  operations : ∀ sw, j.operations sw = i.operations sw
  shape : j.shape = i.shape
  value : ∀ ws, i.valueOf ws = assemble i.shape ws

theorem wordsRead_eq_zero {ts : List Transaction} (h : ∀ t ∈ ts, readsIn t.frames = 0) : wordsRead ts = 0 := by
  induction ts with
  | nil => rfl
  | cons t ts ih =>
    obtain ⟨ht, hts⟩ := List.forall_mem_cons.mp h
    rw [wordsRead_cons, ht, ih hts]

theorem readsIn_writeC22 (p r v : Nat) : readsIn (writeC22 p r v).frames = 0 := by
  simp [readsIn, writeC22, isReadClass_c22Write]

theorem readsIn_writeC45 (p e r v : Nat) : readsIn (writeC45 p e r v).frames = 0 := by
  simp [readsIn, writeC45, isReadClass_c45Address, isReadClass_c45Write]

section
variable {i j : Instr} (h : i.onSpi = some j)
include h

/-- The operations of a command both engines have. -/
theorem emitted_of_onSpi (sw : Switches) : ∀ t ∈ i.operations sw, t.Emitted := by
  cases i with
  | bbReadC22 p r => exact List.forall_mem_singleton.mpr (emitted_readC22 p r)
  | bbWriteC22 p r v => exact List.forall_mem_singleton.mpr (emitted_writeC22 p r v)
  | bbReadC45 p e r => exact List.forall_mem_singleton.mpr (emitted_readC45 p e r)
  | bbWriteC45 p e r v => exact List.forall_mem_singleton.mpr (emitted_writeC45 p e r v)
  | bbReadC22Registers p rs => exact List.forall_mem_map.mpr fun r _ => emitted_readC22 p r
  | bbWriteC22Registers p rs vs => exact forall_mem_zipWith (emitted_writeC22 p) rs vs
  | bbReadC45Registers p e rs => exact List.forall_mem_map.mpr fun r _ => emitted_readC45 p e r
  | bbWriteC45Registers p e rs vs => exact forall_mem_zipWith (emitted_writeC45 p e) rs vs
  | _ => cases h

theorem wordsRead_of_onSpi (sw : Switches) : wordsRead (i.operations sw) = i.wordsReturned := by
  cases i with
  | bbReadC22 p r => exact wordsRead_readC22 p r
  | bbWriteC22 p r v => exact wordsRead_eq_zero (List.forall_mem_singleton.mpr (readsIn_writeC22 p r v))
  | bbReadC45 p e r => exact wordsRead_readC45 p e r
  | bbWriteC45 p e r v => exact wordsRead_eq_zero (List.forall_mem_singleton.mpr (readsIn_writeC45 p e r v))
  | bbReadC22Registers p rs => exact (wordsRead_map _ 1 (readsIn_readC22 p) rs).trans (Nat.one_mul _)
  | bbWriteC22Registers p rs vs => exact wordsRead_eq_zero (forall_mem_zipWith (readsIn_writeC22 p) rs vs)
  | bbReadC45Registers p e rs => exact (wordsRead_map _ 1 (readsIn_readC45 p e) rs).trans (Nat.one_mul _)
  | bbWriteC45Registers p e rs vs => exact wordsRead_eq_zero (forall_mem_zipWith (readsIn_writeC45 p e) rs vs)
  | _ => cases h

theorem sameCommand_of_onSpi (hwf : i.wf = true) : SameCommand i j := by
  cases i with
  | bbReadC22 | bbWriteC22 | bbReadC45 | bbWriteC45 | bbReadC22Registers | bbReadC45Registers =>
    cases h
    exact ⟨⟨rfl, rfl, rfl⟩, ⟨rfl, rfl, rfl⟩, rfl, rfl, fun _ => rfl, rfl, fun _ => rfl⟩
  | bbWriteC22Registers _ rs vs | bbWriteC45Registers _ _ rs vs =>
    cases h
    have hparallel : (rs.length != vs.length) = false := by simpa [Instr.wf, parallelLists] using hwf
    exact ⟨⟨rfl, rfl, hparallel⟩, ⟨rfl, rfl, hparallel⟩, rfl, rfl, fun _ => rfl, rfl, fun _ => rfl⟩
  | _ => cases h

end

/-- Settles O48: the operations of the command are on the same wire (`sameWire_operations`), and each engine makes its value
of the words it received there. -/
theorem wireEquivalence : Obligations.WireEquivalence := by
  intro i j s start h hwf hbb hsf hsw
  have hsame := sameCommand_of_onSpi h hwf
  obtain ⟨ts, hts⟩ : ∃ ts, ts = i.operations s.switches := ⟨_, rfl⟩
  have hemitted : ∀ t ∈ ts, t.Emitted := hts ▸ emitted_of_onSpi h s.switches
  have hwords : i.wordsReturned = wordsRead ts := hts ▸ (wordsRead_of_onSpi h s.switches).symm
  have hi : exec i s = bbTransact ts i.shape s := by
    rw [exec_bitbang_of_parallel hsame.engine hsame.plain.notLifecycle hsame.plain.parallel, hts]
  have hj : exec j s = sfTransact ts i.shape s := by
    rw [exec_spi_of_parallel hsame.engineSpi hsame.plainSpi.notLifecycle hsame.plainSpi.notHeader hsame.plainSpi.parallel,
      hsame.operations, hsame.shape, hts]
  obtain ⟨t, ht, htrace, hresults⟩ := bbTransact_adds hbb hsw hemitted i.shape
  obtain ⟨hsamples, htransfers, ss, hshow, hsent, hcount, hreceived⟩ :=
    sameWire_operations hemitted (s.bb.upcoming_length _) (rx := s.sf.upcoming ((ts.flatMap transactionWords).map Prod.fst))
      (by rw [SF.upcoming_length, List.length_map])
  refine ⟨t, _, _, _, hi.trans ht, hj.trans (sfTransact_normative hsf hsw ts i.shape), htrace, rfl, ?_, ?_, ?_, ?_⟩
  · rw [sfSymbols_transferEvents htransfers, hshow.symbols, hsent]
  · rw [hshow.symbols, hcount, hwords]
  · rw [hresults, hsamples, hwords, hsame.value]
  · rw [hshow.symbols, hwords, hreceived, hsame.value]
    rfl

end Sys2Proof.Machine
end

section
/-! Errors (spec/60_exceptions.md R230 to R242). An instruction is refused before its first collaborator call, by what is open
and by the lengths of its lists, or it ends by the first of its calls that fails. How many calls it makes depends on its
skeleton and on the switches only. From this follow what an error leaves (R241) and what it depends on (R242). -/

namespace Sys2Proof.Machine

/-! ### The first failure of a sequence of calls (R38, R232) -/

/-- The first failure in the environment's answers to the next `n` calls. -/
def firstFailure : Nat → List (Option OsFailure) → Option OsFailure
  | 0, _ => none
  | n + 1, fs => (fs.getD 0 none).or (firstFailure n fs.tail)

theorem firstFailure_succ_of_none {fs : List (Option OsFailure)} (h : fs.getD 0 none = none) (n : Nat) :
    firstFailure (n + 1) fs = firstFailure n fs.tail := by
  rw [firstFailure, h, Option.none_or]

theorem firstFailure_succ_of_some {fs : List (Option OsFailure)} {f : OsFailure} (h : fs.getD 0 none = some f) (n : Nat) :
    firstFailure (n + 1) fs = some f := by
  rw [firstFailure, h, Option.some_or]

theorem firstFailure_one (fs : List (Option OsFailure)) : firstFailure 1 fs = fs.getD 0 none := Option.or_none

theorem getD_zero_tail (fs : List (Option OsFailure)) : fs.tail.getD 0 none = fs.getD 1 none := by cases fs <;> rfl

theorem firstFailure_two_eq_none {fs : List (Option OsFailure)} (h0 : fs.getD 0 none = none) (h1 : fs.getD 1 none = none) :
    firstFailure 2 fs = none := by
  rw [firstFailure_succ_of_none h0, firstFailure_one, getD_zero_tail, h1]

theorem firstFailure_two_eq_some {fs : List (Option OsFailure)} {f : OsFailure}
    (h : fs.getD 0 none = some f ∨ (fs.getD 0 none = none ∧ fs.getD 1 none = some f)) : firstFailure 2 fs = some f := by
  rcases h with h0 | ⟨h0, h1⟩
  · exact firstFailure_succ_of_some h0 1
  · rw [firstFailure_succ_of_none h0, firstFailure_one, getD_zero_tail, h1]

/-- How an operation at `s` ends that asks the environment once (`call = true`) or not at all, and is not refused: as the
environment answers, unless it faults. -/
inductive Ran.Answered {σ β : Type} (failures : σ → List (Option OsFailure)) (s : σ) : Bool → Ran σ β → Prop
  | silent (c : σ) (got : List β) (hleft : failures c = failures s) : Answered failures s false (.done c got)
  | success (c : σ) (got : List β) (hnone : (failures s).getD 0 none = none) (hleft : failures c = (failures s).tail) :
    Answered failures s true (.done c got)
  | failure (c : σ) (f : OsFailure) (hsome : (failures s).getD 0 none = some f) :
    Answered failures s true (.failed c (.transportIO f))
  | fault (call : Bool) (f : Fault) : Answered failures s call (.fault f)

/-- The run ends with the failure, or successfully where there is none, unless it faults. -/
inductive Ran.EndsBy {σ β : Type} : Option OsFailure → Ran σ β → Prop
  | done (s : σ) (got : List β) : EndsBy none (.done s got)
  | failed (s : σ) (f : OsFailure) : EndsBy (some f) (.failed s (.transportIO f))
  | fault (x : Option OsFailure) (f : Fault) : EndsBy x (.fault f)

theorem Ran.EndsBy.prepend {σ β : Type} {x : Option OsFailure} {r : Ran σ β} (h : r.EndsBy x) (got : List β) :
    (r.prepend got).EndsBy x := by
  cases h with
  | done s got' => exact .done s _
  | failed s f => exact .failed s f
  | fault x f => exact .fault x f

theorem Ran.EndsBy.eq_none {σ β : Type} {x : Option OsFailure} {s : σ} {got : List β}
    (h : (Ran.done s got).EndsBy x) : x = none := by
  cases h
  rfl

theorem Ran.EndsBy.eq_some {σ β : Type} {x : Option OsFailure} {s : σ} {e : ErrorKind}
    (h : (Ran.failed (β := β) s e).EndsBy x) : ∃ f, x = some f ∧ e = .transportIO f := by
  cases h with
  | failed s f => exact ⟨f, rfl, rfl⟩

/-- A sequence ends by the first failure among as many answers as its operations make calls. -/
theorem runOps_endsBy {σ ω β : Type} {perform : ω → σ → Ran σ β} {failures : σ → List (Option OsFailure)} {P : σ → Prop}
    {calls : ω → Bool} (hkeep : ∀ op s s' got, P s → perform op s = .done s' got → P s') {ops : List ω}
    (hop : ∀ op ∈ ops, ∀ s, P s → (perform op s).Answered failures s (calls op)) {s : σ} (hs : P s) :
    (runOps perform ops s).EndsBy (firstFailure (ops.countP calls) (failures s)) := by
  induction ops generalizing s with
  | nil => exact .done s []
  | cons op ops ih =>
    obtain ⟨hfirst, hrest⟩ := List.forall_mem_cons.mp hop
    have hthen := hfirst s hs
    rw [List.countP_cons]
    generalize hr : perform op s = r at hthen
    generalize hcall : calls op = call at hthen
    cases hthen with
    | silent c got hleft =>
      rw [runOps_cons_of_done hr, ← hleft]
      exact (ih hrest (hkeep op s c got hs hr)).prepend got
    | success c got hnone hleft =>
      rw [runOps_cons_of_done hr, if_pos rfl, firstFailure_succ_of_none hnone, ← hleft]
      exact (ih hrest (hkeep op s c got hs hr)).prepend got
    | failure c f hsome =>
      rw [runOps_cons_of_failed hr, if_pos rfl, firstFailure_succ_of_some hsome]
      exact .failed c f
    | fault call f =>
      rw [runOps_cons_of_fault hr]
      exact .fault _ f

/-! ### The calls of each engine -/

/-- The operation is a call of the line collaborator (R35 to R37). -/
def LineOp.calls : LineOp → Bool
  | .clk _ => true
  | .data _ => true
  | .sample _ => true
  | .dirIn => true
  | .dirOut _ => true
  | .element => false
  | .frame => false
  | .wait _ => false

/-- The operation is a call of the SPI collaborator (R40). -/
def SpiOp.calls : SpiOp → Bool
  | .xfer _ _ _ _ => true
  | .element => false
  | .frame => false

/-- The answers the environment of the bit-bang engine has ready. -/
def BB.failures (b : BB) : List (Option OsFailure) := b.env.failures

/-- The answers the environment of the SPI-framed engine has ready. -/
def SF.failures (f : SF) : List (Option OsFailure) := f.env.failures

/-- The answers the environment of an engine has ready. -/
def State.failuresOf (e : Engine) (s : State) : List (Option OsFailure) :=
  match e with
  | .bitbang => s.bb.failures
  | .spi => s.sf.failures

theorem BB.attempt_answered (b : BB) {effect : BB → BB} (got : BB → List Level)
    (heffect : ∀ c : BB, (effect c).failures = c.failures) :
    (b.attempt fun c => .done (effect c) (got c)).Answered BB.failures b true := by
  cases h : b.env.failures.getD 0 none with
  | none =>
    rw [BB.attempt_of_getD_none h]
    exact .success _ _ h (heffect b.spent)
  | some f =>
    rw [BB.attempt_of_getD_some h]
    exact .failure _ f h

theorem SF.attempt_answered (f : SF) {effect : SF → SF} (got : SF → List U16)
    (heffect : ∀ c : SF, (effect c).failures = c.failures) :
    (f.attempt fun c => .done (effect c) (got c)).Answered SF.failures f true := by
  cases h : f.env.failures.getD 0 none with
  | none =>
    rw [SF.attempt_of_getD_none h]
    exact .success _ _ h (heffect f.spent)
  | some x =>
    rw [SF.attempt_of_getD_some h]
    exact .failure _ x h

theorem BB.write_answered {line : Line} (hc : line.claimed = true) {effect : BB → BB}
    (heffect : ∀ c : BB, (effect c).failures = c.failures) (b : BB) :
    (b.write line effect).Answered BB.failures b true := by
  cases hd : line.dir with
  | output =>
    rw [BB.write_output hc hd]
    exact b.attempt_answered _ heffect
  | input =>
    rw [BB.write_input hc hd]
    exact .fault _ _

theorem BB.read_answered {b : BB} (hc : b.data.claimed = true) (keep : Bool) :
    (b.read keep).Answered BB.failures b true := by
  cases hd : b.data.dir with
  | input =>
    rw [BB.read_input hc hd]
    exact b.attempt_answered _ fun _ => rfl
  | output =>
    rw [BB.read_output hc hd]
    exact .fault _ _

theorem BB.turn_answered {b : BB} (hc : b.data.claimed = true) {effect : BB → BB}
    (heffect : ∀ c : BB, (effect c).failures = c.failures) : (b.turn effect).Answered BB.failures b true := by
  rw [BB.turn_claimed hc]
  exact b.attempt_answered _ heffect

/-- Where the lines are claimed, only the environment makes an operation of the bit-bang engine fail. -/
theorem BB.perform_answered (op : LineOp) (b : BB) (h : b.Claimed) : (b.perform op).Answered BB.failures b op.calls := by
  obtain ⟨hclk, hdata⟩ := h
  cases op with
  | element | frame | wait => exact .silent _ _ rfl
  | clk l => exact BB.write_answered hclk (effect := BB.clkWritten l) (fun _ => rfl) b
  | data l => exact BB.write_answered hdata (effect := BB.dataWritten l) (fun _ => rfl) b
  | sample keep => exact BB.read_answered hdata keep
  | dirIn => exact BB.turn_answered hdata fun _ => rfl
  | dirOut l => exact BB.turn_answered hdata fun _ => rfl

/-- Where the port is claimed, only the environment makes a transfer of an accepted width and word fail. -/
theorem SF.perform_answered {op : SpiOp} (hop : op.Accepted) (f : SF) (h : f.spi.claimed = true) :
    (f.perform op).Answered SF.failures f op.calls := by
  cases op with
  | element | frame => exact .silent _ _ rfl
  | xfer n tx cs keep =>
    rw [SF.perform, SF.xfer_claimed h hop]
    exact f.attempt_answered _ fun _ => rfl

theorem BB.run_endsBy (ops : List LineOp) {b : BB} (h : b.Claimed) :
    (b.run ops).EndsBy (firstFailure (ops.countP LineOp.calls) b.failures) :=
  runOps_endsBy (fun op b b' got hb hp => (BB.perform_kept op b b' (by rw [hp]; exact .done _ _)).claimed hb)
    (fun op _ => BB.perform_answered op) h

theorem SF.run_endsBy {ops : List SpiOp} (hops : ∀ op ∈ ops, op.Accepted) {f : SF} (h : f.spi.claimed = true) :
    (f.run ops).EndsBy (firstFailure (ops.countP SpiOp.calls) f.failures) :=
  runOps_endsBy (P := fun f => f.spi.claimed = true)
    (fun op f f' got hf hp => (congrArg SpiPort.claimed (SF.perform_kept op f f' (by rw [hp]; exact .done _ _)).spi).trans hf)
    (fun op hop => SF.perform_answered (hops op hop)) h

end Sys2Proof.Machine

namespace Sys2Proof

open Machine

/-! ### Refusals and calls of an instruction -/

/-- The error with which an instruction is refused before its first call, on an engine that is open or is not: `AlreadyOpen`
(R234), `NotOpen` (R144, R209) and, behind it, `ParameterInvalid` (R239). -/
def Instr.refusal (opened : Bool) : Instr → Option ErrorKind
  | .bbOpen => if opened then some .alreadyOpen else none
  | .sfOpen => if opened then some .alreadyOpen else none
  | .bbClose => none
  | .sfClose => none
  | i => if opened then (if i.listsDiffer then some .parameterInvalid else none) else some .notOpen

/-- The transfers of an instruction of the SPI-framed engine: those of a header word, or those of its operations. -/
def Instr.transfers (sw : Switches) (i : Instr) : List SpiOp :=
  match i.headerFrame with
  | some f => .element :: .frame :: Prim.sfSendHeader f
  | none => (i.operations sw).flatMap (sfTransaction sw)

/-- How many calls the operations of an instruction make on its engine. -/
def Instr.operationCalls (sw : Switches) (i : Instr) : Nat :=
  match i.engine with
  | .bitbang => (lineOps sw (i.operations sw)).countP LineOp.calls
  | .spi => (i.transfers sw).countP SpiOp.calls

/-- How many collaborator calls an instruction makes that is not refused, where none of them fails. -/
def Instr.calls (opened : Bool) (sw : Switches) : Instr → Nat
  | .bbOpen => 2
  | .sfOpen => 1
  | .bbClose => if opened then 2 else 0
  | .sfClose => if opened then 1 else 0
  | i => i.operationCalls sw

/-- The first of the calls that the instruction makes at `s` that fails. -/
def Instr.failureAt (s : State) (i : Instr) : Option OsFailure :=
  firstFailure (i.calls (s.engineOpen i.engine) s.switches) (s.failuresOf i.engine)

section
variable {i : Instr}

theorem Instr.refusal_of_not_lifecycle (hl : i.isLifecycle = false) (opened : Bool) :
    i.refusal opened = if opened then (if i.listsDiffer then some .parameterInvalid else none) else some .notOpen := by
  cases i with
  | bbOpen | bbClose | sfOpen | sfClose => cases hl
  | _ => rfl

theorem Instr.refusal_ne_transportIO (opened : Bool) (f : OsFailure) : i.refusal opened ≠ some (.transportIO f) := by
  cases hl : i.isLifecycle with
  | true => rcases lifecycle_cases hl with rfl | rfl | rfl | rfl <;> cases opened <;> exact nofun
  | false =>
    rw [Instr.refusal_of_not_lifecycle hl]
    cases opened <;> cases i.listsDiffer <;> exact nofun

theorem Instr.calls_of_not_lifecycle (hl : i.isLifecycle = false) (opened : Bool) (sw : Switches) :
    i.calls opened sw = i.operationCalls sw := by
  cases i with
  | bbOpen | bbClose | sfOpen | sfClose => cases hl
  | _ => rfl

/-- Behind the open check and the length check nothing is refused. -/
theorem Instr.refusal_eq_none (hl : i.isLifecycle = false) (hd : i.listsDiffer = false) {opened : Bool}
    (ho : opened = true) : i.refusal opened = none := by
  rw [Instr.refusal_of_not_lifecycle hl, ho, hd]
  rfl

theorem Instr.operationCalls_of_bitbang (he : i.engine = .bitbang) (sw : Switches) :
    i.operationCalls sw = (lineOps sw (i.operations sw)).countP LineOp.calls := by
  rw [Instr.operationCalls, he]

theorem Instr.operationCalls_of_spi (he : i.engine = .spi) (sw : Switches) :
    i.operationCalls sw = (i.transfers sw).countP SpiOp.calls := by
  rw [Instr.operationCalls, he]

/-- Every transfer of an instruction has a width and a word the peripheral accepts. -/
theorem Instr.accepted_transfers (sw : Switches) (i : Instr) : ∀ op ∈ i.transfers sw, op.Accepted := by
  unfold Instr.transfers
  split
  · exact accepted_sendHeader _
  · exact List.forall_mem_flatMap.mpr fun t _ => accepted_sfTransaction sw t

end

end Sys2Proof

namespace Sys2Proof.Machine

/-! ### How an instruction concludes -/

/-- How an instruction gets from `s` to `t`: it is refused and leaves the rest of the state as it was; none of its calls fails
and it completes with `Ok`; or it ends by the first of its calls that fails, which leaves its engine open unless it is `open`
or `close`. -/
inductive Concludes (i : Instr) (s t : State) : Prop
  | refused (k : ErrorKind) (hrefusal : i.refusal (s.engineOpen i.engine) = some k)
    (ht : t = s.withResults i.engine (s.resultsOf i.engine ++ [.err k]))
  | completed (v : Value) (hrefusal : i.refusal (s.engineOpen i.engine) = none) (hnone : i.failureAt s = none)
    (hresult : t.resultsOf i.engine = s.resultsOf i.engine ++ [.ok v])
  | failed (f : OsFailure) (hrefusal : i.refusal (s.engineOpen i.engine) = none) (hsome : i.failureAt s = some f)
    (hresult : t.resultsOf i.engine = s.resultsOf i.engine ++ [.err (.transportIO f)])
    (hopen : i.isLifecycle = false → t.engineOpen i.engine = true)

section
variable {i : Instr} {s t : State} {k : ErrorKind}

theorem headerFrame_of_listsDiffer (hd : i.listsDiffer = true) : i.headerFrame = none := by
  cases i with
  | hdrC22Write | hdrC22Read | hdrC45Address | hdrC45Write | hdrC45ReadInc | hdrC45Read => cases hd
  | _ => rfl

/-- Where the lists do not differ, an instruction of the SPI-framed engine but `open` and `close` is its transfers. -/
theorem exec_spi_transfers (he : i.engine = .spi) (hl : i.isLifecycle = false) (hd : i.listsDiffer = false) (s : State) :
    ∃ value, exec i s = sfCommand (i.transfers s.switches) value s := by
  cases hh : i.headerFrame with
  | some f => exact ⟨fun _ => .unit, by rw [exec_header i s f hh, Instr.transfers, hh]; rfl⟩
  | none => exact ⟨assemble i.shape, by rw [exec_spi_of_parallel he hl hh hd, Instr.transfers, hh]; rfl⟩

/-- An error raised at once, on an engine whose sequencer is idle, is a new result and nothing else. -/
theorem Concludes.of_raise_bb (he : i.engine = .bitbang) (hidle : s.bb.seq = .idle) (hk : i.refusal s.bb.isOpen = some k) :
    Concludes i s (s.withBB (s.bb.raise k)) :=
  .refused k (by rw [he]; exact hk) (by rw [he, BB.raise, BB.deliver, ← hidle]; rfl)

theorem Concludes.of_raise_sf (he : i.engine = .spi) (hidle : s.sf.seq = .idle) (hk : i.refusal s.sf.isOpen = some k) :
    Concludes i s (s.withSF (s.sf.raise k)) :=
  .refused k (by rw [he]; exact hk) (by rw [he, SF.raise, SF.deliver, ← hidle]; rfl)

theorem execBbOpen_concludes (hidle : s.bb.seq = .idle) (h : execBbOpen s = .next t) : Concludes .bbOpen s t := by
  cases ho : s.bb.isOpen with
  | true =>
    cases h.symm.trans (execBbOpen_of_open ho)
    exact .of_raise_bb rfl hidle (by rw [ho]; rfl)
  | false =>
    have hrefusal : Instr.bbOpen.refusal s.bb.isOpen = none := by rw [ho]; rfl
    rcases s.bb.two_answers with ⟨h0, h1⟩ | ⟨f, hf⟩
    · cases h.symm.trans (execBbOpen_of_success ho h0 h1)
      exact .completed .unit hrefusal (firstFailure_two_eq_none h0 h1) rfl
    · obtain ⟨b, e, _, _, hresults⟩ := execBbOpen_of_failure ho hf
      cases h.symm.trans e
      exact .failed f hrefusal (firstFailure_two_eq_some hf) (congrArg (· ++ _) hresults) nofun

theorem execBbClose_concludes (h : execBbClose s = .next t) : Concludes .bbClose s t := by
  cases ho : s.bb.isOpen with
  | false =>
    have hcalls : Instr.bbClose.calls s.bb.isOpen s.switches = 0 := by rw [ho]; rfl
    cases h.symm.trans (execBbClose_of_closed ho)
    exact .completed .unit rfl (congrArg (firstFailure · s.bb.failures) hcalls) rfl
  | true =>
    have hcalls : Instr.bbClose.calls s.bb.isOpen s.switches = 2 := by rw [ho]; rfl
    have hfailure : Instr.bbClose.failureAt s = firstFailure 2 s.bb.failures := congrArg (firstFailure · s.bb.failures) hcalls
    rcases s.bb.two_answers with ⟨h0, h1⟩ | ⟨f, hf⟩
    · cases h.symm.trans (execBbClose_of_success ho h0 h1)
      exact .completed .unit rfl (hfailure.trans (firstFailure_two_eq_none h0 h1)) rfl
    · obtain ⟨b, e, _, hresults⟩ := execBbClose_of_failure ho hf
      cases h.symm.trans e
      exact .failed f rfl (hfailure.trans (firstFailure_two_eq_some hf)) (congrArg (· ++ _) hresults) nofun

theorem execSfOpen_concludes (hidle : s.sf.seq = .idle) (h : execSfOpen s = .next t) : Concludes .sfOpen s t := by
  cases ho : s.sf.isOpen with
  | true =>
    cases h.symm.trans (execSfOpen_of_open ho)
    exact .of_raise_sf rfl hidle (by rw [ho]; rfl)
  | false =>
    have hrefusal : Instr.sfOpen.refusal s.sf.isOpen = none := by rw [ho]; rfl
    have hfailure : Instr.sfOpen.failureAt s = s.sf.env.failures.getD 0 none := firstFailure_one _
    cases hf : s.sf.env.failures.getD 0 none with
    | none =>
      cases h.symm.trans (execSfOpen_of_success ho hf)
      exact .completed .unit hrefusal (hfailure.trans hf) rfl
    | some f =>
      cases h.symm.trans (execSfOpen_of_failure ho hf)
      exact .failed f hrefusal (hfailure.trans hf) rfl nofun

theorem execSfClose_concludes (h : execSfClose s = .next t) : Concludes .sfClose s t := by
  cases ho : s.sf.isOpen with
  | false =>
    have hcalls : Instr.sfClose.calls s.sf.isOpen s.switches = 0 := by rw [ho]; rfl
    cases h.symm.trans (execSfClose_of_closed ho)
    exact .completed .unit rfl (congrArg (firstFailure · s.sf.failures) hcalls) rfl
  | true =>
    have hcalls : Instr.sfClose.calls s.sf.isOpen s.switches = 1 := by rw [ho]; rfl
    have hfailure : Instr.sfClose.failureAt s = s.sf.env.failures.getD 0 none :=
      (congrArg (firstFailure · s.sf.failures) hcalls).trans (firstFailure_one _)
    cases hf : s.sf.env.failures.getD 0 none with
    | none =>
      cases h.symm.trans (execSfClose_of_success ho hf)
      exact .completed .unit rfl (hfailure.trans hf) rfl
    | some f =>
      cases h.symm.trans (execSfClose_of_failure ho hf)
      exact .failed f rfl (hfailure.trans hf) rfl nofun

/-- A command of an open bit-bang engine that makes the calls of the instruction. -/
theorem bbCommand_concludes {ops : List LineOp} {value : List Level → Value} (hs : s.bb.Inv) (he : i.engine = .bitbang)
    (ho : s.bb.isOpen = true) (hrefusal : i.refusal s.bb.isOpen = none)
    (hcalls : i.calls s.bb.isOpen s.switches = ops.countP LineOp.calls) (h : bbCommand ops value s = .next t) :
    Concludes i s t := by
  have hend : (s.bb.run ops).EndsBy (i.failureAt s) := by
    rw [Instr.failureAt, he]
    exact hcalls ▸ BB.run_endsBy ops (hs.claimed ho)
  have hrefusal : i.refusal (s.engineOpen i.engine) = none := by rw [he]; exact hrefusal
  rcases bbCommand_cases ops value s with ⟨hclosed, _⟩ | ⟨_, b, got, hrun, hkept, e⟩ | ⟨_, b, k, hrun, hkept, e⟩ |
    ⟨_, f, _, e⟩
  · cases hclosed.symm.trans ho
  · rw [hrun] at hend
    cases h.symm.trans e
    exact .completed (value got) hrefusal hend.eq_none (by rw [he]; exact congrArg (· ++ _) hkept.results)
  · rw [hrun] at hend
    obtain ⟨f, hsome, rfl⟩ := hend.eq_some
    cases h.symm.trans e
    exact .failed f hrefusal hsome (by rw [he]; exact congrArg (· ++ _) hkept.results)
      fun _ => by rw [he]; exact hkept.isOpen.trans ho
  · cases h.symm.trans e

/-- A command of an open SPI-framed engine that makes the calls of the instruction. -/
theorem sfCommand_concludes {ops : List SpiOp} {value : List U16 → Value} (hs : s.sf.Inv) (he : i.engine = .spi)
    (ho : s.sf.isOpen = true) (hrefusal : i.refusal s.sf.isOpen = none) (hops : ∀ op ∈ ops, op.Accepted)
    (hcalls : i.calls s.sf.isOpen s.switches = ops.countP SpiOp.calls) (h : sfCommand ops value s = .next t) :
    Concludes i s t := by
  obtain ⟨_, _, _, hport⟩ := hs
  have hend : (s.sf.run ops).EndsBy (i.failureAt s) := by
    rw [Instr.failureAt, he]
    exact hcalls ▸ SF.run_endsBy hops (hport ho)
  have hrefusal : i.refusal (s.engineOpen i.engine) = none := by rw [he]; exact hrefusal
  rcases sfCommand_cases ops value s with ⟨hclosed, _⟩ | ⟨_, f, got, hrun, hkept, e⟩ | ⟨_, f, k, hrun, hkept, e⟩
  · cases hclosed.symm.trans ho
  · rw [hrun] at hend
    cases h.symm.trans e
    exact .completed (value got) hrefusal hend.eq_none (by rw [he]; exact congrArg (· ++ _) hkept.results)
  · rw [hrun] at hend
    obtain ⟨x, hsome, rfl⟩ := hend.eq_some
    cases h.symm.trans e
    exact .failed x hrefusal hsome (by rw [he]; exact congrArg (· ++ _) hkept.results)
      fun _ => by rw [he]; exact hkept.isOpen.trans ho

theorem exec_bitbang_concludes (hs : s.bb.Inv) (he : i.engine = .bitbang) (hl : i.isLifecycle = false)
    (h : exec i s = .next t) : Concludes i s t := by
  have ⟨_, hidle, _⟩ := hs
  cases ho : s.bb.isOpen with
  | false =>
    cases h.symm.trans (exec_bitbang_of_closed he hl ho)
    exact .of_raise_bb he hidle (by rw [Instr.refusal_of_not_lifecycle hl, ho]; rfl)
  | true =>
    cases hd : i.listsDiffer with
    | true =>
      rw [exec_bitbang_of_listsDiffer he hl hd, ho] at h
      cases h
      exact .of_raise_bb he hidle (by rw [Instr.refusal_of_not_lifecycle hl, ho, hd]; rfl)
    | false =>
      rw [exec_bitbang_of_parallel he hl hd] at h
      exact bbCommand_concludes hs he ho (Instr.refusal_eq_none hl hd ho)
        ((Instr.calls_of_not_lifecycle hl _ _).trans (Instr.operationCalls_of_bitbang he _)) h

theorem exec_spi_concludes (hs : s.sf.Inv) (he : i.engine = .spi) (hl : i.isLifecycle = false)
    (h : exec i s = .next t) : Concludes i s t := by
  have ⟨_, _, hidle, _⟩ := hs
  cases ho : s.sf.isOpen with
  | false =>
    cases h.symm.trans (exec_spi_of_closed he hl ho)
    exact .of_raise_sf he hidle (by rw [Instr.refusal_of_not_lifecycle hl, ho]; rfl)
  | true =>
    cases hd : i.listsDiffer with
    | true =>
      rw [exec_spi_of_listsDiffer he hl (headerFrame_of_listsDiffer hd) hd, ho] at h
      cases h
      exact .of_raise_sf he hidle (by rw [Instr.refusal_of_not_lifecycle hl, ho, hd]; rfl)
    | false =>
      obtain ⟨value, hexec⟩ := exec_spi_transfers he hl hd s
      rw [hexec] at h
      exact sfCommand_concludes hs he ho (Instr.refusal_eq_none hl hd ho) (i.accepted_transfers _)
        ((Instr.calls_of_not_lifecycle hl _ _).trans (Instr.operationCalls_of_spi he _)) h

theorem exec_concludes (hs : s.Inv) (h : exec i s = .next t) : Concludes i s t := by
  obtain ⟨hbb, hsf⟩ := hs
  cases hl : i.isLifecycle with
  | true =>
    have ⟨_, hbbIdle, _⟩ := hbb
    have ⟨_, _, hsfIdle, _⟩ := hsf
    rcases lifecycle_cases hl with rfl | rfl | rfl | rfl
    · exact execBbOpen_concludes hbbIdle h
    · exact execBbClose_concludes h
    · exact execSfOpen_concludes hsfIdle h
    · exact execSfClose_concludes h
  | false =>
    cases he : i.engine with
    | bitbang => exact exec_bitbang_concludes hbb he hl h
    | spi => exact exec_spi_concludes hsf he hl h

end

/-! ### What an error leaves (R241) -/

theorem State.resultsOf_withResults (e : Engine) (rs : List Result) (s : State) : (s.withResults e rs).resultsOf e = rs := by
  cases e <;> rfl

/-- Settles O25: an instruction that is refused only adds a result, and every other error is `TransportIO`. -/
theorem errorsLeaveTheState : Obligations.ErrorsLeaveTheState := by
  intro i s t k hs h hresults
  cases exec_concludes hs h with
  | refused k' hrefusal ht =>
    have hadded : t.resultsOf i.engine = s.resultsOf i.engine ++ [.err k'] := by rw [ht, State.resultsOf_withResults]
    cases (List.append_singleton_inj.mp (hadded.symm.trans hresults)).2
    refine ⟨fun _ => ht, fun ⟨f, hf⟩ => ?_⟩
    exact absurd (hf ▸ hrefusal) (Instr.refusal_ne_transportIO _ f)
  | completed v _ _ hresult => cases (List.append_singleton_inj.mp (hresult.symm.trans hresults)).2
  | failed f _ _ hresult hopen =>
    cases (List.append_singleton_inj.mp (hresult.symm.trans hresults)).2
    exact ⟨fun hnot => absurd rfl (hnot f), fun _ => hopen⟩

end Sys2Proof.Machine

namespace Sys2Proof

/-- A frame without its operands; its kind stays, and with it its class. -/
def Frame.skeleton (f : Frame) : Frame := { f with pad := 0, dad := 0, ta := 0, data := 0 }

end Sys2Proof

namespace Sys2Proof.Machine

open Codec Operands

/-! ### Nothing of the operands bears on the calls (R242) -/

/-- An operation without its operands. -/
def Transaction.skeleton (t : Transaction) : Transaction := { t with frames := t.frames.map Frame.skeleton }

theorem countP_calls_writes (bs : List Level) : (bs.flatMap Prim.writeBit).countP LineOp.calls = 3 * bs.length := by
  induction bs with
  | nil => rfl
  | cons b bs ih =>
    have hbit : (Prim.writeBit b).countP LineOp.calls = 3 := rfl
    rw [List.flatMap_cons, List.countP_append, hbit, ih, List.length_cons, Nat.mul_succ, Nat.add_comm]

theorem countP_calls_frameSlots (f : Frame) :
    (Prim.frameSlots f).countP LineOp.calls = 42 + if isReadClass f.op then 56 else 54 := by
  rw [Prim.frameSlots, List.countP_append, sendHeader14_eq, countP_calls_writes, List.length_take, bitsOf_length]
  split
  · rfl
  · rw [Prim.writeTail, List.countP_append, Prim.writeBits, Prim.writeBits, countP_calls_writes, countP_calls_writes,
      bitsOf_length, bitsOf_length]
    rfl

theorem countP_calls_frameSlots_skeleton (f : Frame) :
    (Prim.frameSlots f.skeleton).countP LineOp.calls = (Prim.frameSlots f).countP LineOp.calls := by
  rw [countP_calls_frameSlots, countP_calls_frameSlots]
  rfl

theorem countP_calls_bbFrame_skeleton (f : Frame) :
    (Prim.bbFrame f.skeleton).countP LineOp.calls = (Prim.bbFrame f).countP LineOp.calls := by
  rw [Prim.bbFrame, Prim.bbFrame, List.countP_cons, List.countP_cons, List.countP_append, List.countP_append,
    countP_calls_frameSlots_skeleton]

theorem countP_calls_bbNextFrame_skeleton (sw : Switches) (f : Frame) :
    (Prim.bbNextFrame sw f.skeleton).countP LineOp.calls = (Prim.bbNextFrame sw f).countP LineOp.calls := by
  rw [Prim.bbNextFrame, Prim.bbNextFrame]
  split
  · exact countP_calls_bbFrame_skeleton f
  · rw [List.countP_cons, List.countP_cons, countP_calls_frameSlots_skeleton]

/-- Counts over a sequence put together from parts, where each part counts the same as that of its skeleton. -/
theorem countP_flatMap_map {α ω : Type} {p : ω → Bool} {ops : α → List ω} {skeleton : α → α}
    (h : ∀ a, (ops (skeleton a)).countP p = (ops a).countP p) (as : List α) :
    ((as.map skeleton).flatMap ops).countP p = (as.flatMap ops).countP p := by
  induction as with
  | nil => rfl
  | cons a as ih => rw [List.map_cons, List.flatMap_cons, List.flatMap_cons, List.countP_append, List.countP_append, h, ih]

theorem countP_calls_bbTransaction_skeleton (sw : Switches) (t : Transaction) :
    (bbTransaction sw t.skeleton).countP LineOp.calls = (bbTransaction sw t).countP LineOp.calls := by
  have hframes : (bbFrames sw t.skeleton.frames).countP LineOp.calls = (bbFrames sw t.frames).countP LineOp.calls := by
    rw [Transaction.skeleton]
    cases t.frames with
    | nil => rfl
    | cons f fs =>
      rw [List.map_cons, bbFrames, bbFrames, List.countP_append, List.countP_append, countP_calls_bbFrame_skeleton,
        countP_flatMap_map (countP_calls_bbNextFrame_skeleton sw)]
  rw [bbTransaction, bbTransaction, List.countP_cons, List.countP_cons, List.countP_append, List.countP_append, hframes]
  rfl

theorem countP_calls_lineOps_skeleton (sw : Switches) (ts : List Transaction) :
    (lineOps sw (ts.map Transaction.skeleton)).countP LineOp.calls = (lineOps sw ts).countP LineOp.calls :=
  countP_flatMap_map (countP_calls_bbTransaction_skeleton sw) ts

theorem countP_calls_sfFrameWords_skeleton (sw : Switches) (f : Frame) :
    (Prim.sfFrameWords sw f.skeleton).countP SpiOp.calls = (Prim.sfFrameWords sw f).countP SpiOp.calls := by
  have htwo : ∀ g : Frame, (Prim.sfFrameWords sw g).countP SpiOp.calls = 2 := fun g => by
    rw [Prim.sfFrameWords]
    split <;> rfl
  rw [htwo, htwo]

theorem countP_calls_sfFrame_skeleton (sw : Switches) (f : Frame) :
    (Prim.sfFrame sw f.skeleton).countP SpiOp.calls = (Prim.sfFrame sw f).countP SpiOp.calls := by
  rw [Prim.sfFrame, Prim.sfFrame, List.countP_cons, List.countP_cons, List.countP_append, List.countP_append,
    countP_calls_sfFrameWords_skeleton]

theorem countP_calls_sfNextFrame_skeleton (sw : Switches) (f : Frame) :
    (Prim.sfNextFrame sw f.skeleton).countP SpiOp.calls = (Prim.sfNextFrame sw f).countP SpiOp.calls := by
  rw [Prim.sfNextFrame, Prim.sfNextFrame]
  split
  · exact countP_calls_sfFrame_skeleton sw f
  · rw [List.countP_cons, List.countP_cons, countP_calls_sfFrameWords_skeleton]

theorem countP_calls_sfTransaction_skeleton (sw : Switches) (t : Transaction) :
    (sfTransaction sw t.skeleton).countP SpiOp.calls = (sfTransaction sw t).countP SpiOp.calls := by
  have hframes : (sfFrames sw t.skeleton.frames).countP SpiOp.calls = (sfFrames sw t.frames).countP SpiOp.calls := by
    rw [Transaction.skeleton]
    cases t.frames with
    | nil => rfl
    | cons f fs =>
      rw [List.map_cons, sfFrames, sfFrames, List.countP_append, List.countP_append, countP_calls_sfFrame_skeleton,
        countP_flatMap_map (countP_calls_sfNextFrame_skeleton sw)]
  rw [sfTransaction, sfTransaction, List.countP_cons, List.countP_cons, List.countP_append, List.countP_append, hframes]
  rfl

theorem countP_calls_sfOperations_skeleton (sw : Switches) (ts : List Transaction) :
    ((ts.map Transaction.skeleton).flatMap (sfTransaction sw)).countP SpiOp.calls =
      (ts.flatMap (sfTransaction sw)).countP SpiOp.calls :=
  countP_flatMap_map (countP_calls_sfTransaction_skeleton sw) ts

/-! ### The operations of a skeleton -/

theorem skeleton_dwordFrames (q : DwordSequence) (aLo aHi dLo dHi : Frame) :
    (dwordFrames q aLo aHi dLo dHi).map Frame.skeleton =
      dwordFrames q aLo.skeleton aHi.skeleton dLo.skeleton dHi.skeleton := by
  cases q <;> rfl

theorem skeleton_dwordReadFrame (o : DwordReadOp) (p e : Nat) :
    (dwordReadFrame o p e).skeleton = (dwordReadFrame o 0 0).skeleton := by
  cases o <;> rfl

theorem skeleton_readC45Dword (sw : Switches) (p e r : Nat) :
    (readC45Dword sw p e r).skeleton = (readC45Dword sw 0 0 0).skeleton := by
  simp only [Transaction.skeleton, readC45Dword, skeleton_dwordFrames, skeleton_dwordReadFrame _ p e]
  rfl

theorem skeleton_writeC45Dword (sw : Switches) (p e r v : Nat) :
    (writeC45Dword sw p e r v).skeleton = (writeC45Dword sw 0 0 0 0).skeleton := by
  simp only [Transaction.skeleton, writeC45Dword, skeleton_dwordFrames]
  rfl

theorem map_skeleton_map {op op' : Nat → Transaction} (h : ∀ r, (op r).skeleton = (op' 0).skeleton) (rs : List Nat) :
    ((rs.map fun _ => 0).map op').map Transaction.skeleton = (rs.map op).map Transaction.skeleton := by
  rw [List.map_map, List.map_map, List.map_map]
  exact List.map_congr_left fun r _ => (h r).symm

theorem map_skeleton_zipWith {op op' : Nat → Nat → Transaction} (h : ∀ r v, (op r v).skeleton = (op' 0 0).skeleton)
    (rs vs : List Nat) :
    (List.zipWith op' (rs.map fun _ => 0) (vs.map fun _ => 0)).map Transaction.skeleton =
      (List.zipWith op rs vs).map Transaction.skeleton := by
  rw [List.map_zipWith, List.map_zipWith, List.zipWith_map]
  exact congrArg (List.zipWith · rs vs) (funext₂ fun r v => (h r v).symm)

end Sys2Proof.Machine

namespace Sys2Proof

open Machine

/-- The operations of an instruction and of its skeleton differ in their operands only. -/
theorem Instr.operations_skeleton (sw : Switches) (i : Instr) :
    (i.skeleton.operations sw).map Transaction.skeleton = (i.operations sw).map Transaction.skeleton := by
  cases i with
  | bbReadC45Dword p e r => exact congrArg ([·]) (skeleton_readC45Dword sw p e r).symm
  | bbWriteC45Dword p e r v => exact congrArg ([·]) (skeleton_writeC45Dword sw p e r v).symm
  | bbReadC22Registers p rs | sfReadC22Registers p rs =>
    exact map_skeleton_map (op := readC22 p) (op' := readC22 0) (fun _ => rfl) rs
  | bbWriteC22Registers p rs vs | sfWriteC22Registers p rs vs =>
    exact map_skeleton_zipWith (op := writeC22 p) (op' := writeC22 0) (fun _ _ => rfl) rs vs
  | bbReadC45Registers p e rs | sfReadC45Registers p e rs =>
    exact map_skeleton_map (op := readC45 p e) (op' := readC45 0 0) (fun _ => rfl) rs
  | bbWriteC45Registers p e rs vs | sfWriteC45Registers p e rs vs =>
    exact map_skeleton_zipWith (op := writeC45 p e) (op' := writeC45 0 0) (fun _ _ => rfl) rs vs
  | bbReadC45DwordRegisters p e rs => exact map_skeleton_map (skeleton_readC45Dword sw p e) rs
  | bbWriteC45DwordRegisters p e rs vs => exact map_skeleton_zipWith (skeleton_writeC45Dword sw p e) rs vs
  | _ => rfl

theorem Instr.engine_skeleton (i : Instr) : i.skeleton.engine = i.engine := by cases i <;> rfl

theorem Instr.isLifecycle_skeleton (i : Instr) : i.skeleton.isLifecycle = i.isLifecycle := by cases i <;> rfl

theorem Instr.listsDiffer_skeleton (i : Instr) : i.skeleton.listsDiffer = i.listsDiffer := by
  cases i with
  | bbWriteC22Registers | sfWriteC22Registers | bbWriteC45Registers | sfWriteC45Registers | bbWriteC45DwordRegisters =>
    simp only [Instr.skeleton, Instr.listsDiffer, List.length_map]
  | _ => rfl

theorem Instr.refusal_skeleton (opened : Bool) (i : Instr) : i.skeleton.refusal opened = i.refusal opened := by
  cases hl : i.isLifecycle with
  | true => rcases lifecycle_cases hl with rfl | rfl | rfl | rfl <;> rfl
  | false =>
    rw [refusal_of_not_lifecycle (i.isLifecycle_skeleton.trans hl), refusal_of_not_lifecycle hl, listsDiffer_skeleton]

theorem Instr.countP_transfers_of_no_header {i : Instr} (h : i.headerFrame = none) (sw : Switches) :
    (i.transfers sw).countP SpiOp.calls =
      (((i.operations sw).map Transaction.skeleton).flatMap (sfTransaction sw)).countP SpiOp.calls := by
  rw [Instr.transfers, h, countP_calls_sfOperations_skeleton]

/-- A header word is one transfer, and the operations of a skeleton make as many as those of the instruction. -/
theorem Instr.countP_transfers_skeleton (sw : Switches) (i : Instr) :
    (i.skeleton.transfers sw).countP SpiOp.calls = (i.transfers sw).countP SpiOp.calls := by
  cases i with
  | hdrC22Write | hdrC22Read | hdrC45Address | hdrC45Write | hdrC45ReadInc | hdrC45Read => rfl
  | _ => rw [countP_transfers_of_no_header rfl, countP_transfers_of_no_header rfl, operations_skeleton]

theorem Instr.operationCalls_skeleton (sw : Switches) (i : Instr) : i.skeleton.operationCalls sw = i.operationCalls sw := by
  cases he : i.engine with
  | bitbang =>
    rw [operationCalls_of_bitbang (i.engine_skeleton.trans he), operationCalls_of_bitbang he,
      ← countP_calls_lineOps_skeleton, operations_skeleton, countP_calls_lineOps_skeleton]
  | spi =>
    rw [operationCalls_of_spi (i.engine_skeleton.trans he), operationCalls_of_spi he, countP_transfers_skeleton]

theorem Instr.calls_skeleton (opened : Bool) (sw : Switches) (i : Instr) : i.skeleton.calls opened sw = i.calls opened sw := by
  cases hl : i.isLifecycle with
  | true => rcases lifecycle_cases hl with rfl | rfl | rfl | rfl <;> rfl
  | false =>
    rw [calls_of_not_lifecycle (i.isLifecycle_skeleton.trans hl), calls_of_not_lifecycle hl, operationCalls_skeleton]

end Sys2Proof

namespace Sys2Proof.Machine

/-! ### What an error depends on (R242) -/

/-- The error an instruction ends with is its refusal, or else the first failure of its calls. -/
theorem Concludes.error {i : Instr} {s t : State} {r : Result} (h : Concludes i s t)
    (hr : t.resultsOf i.engine = s.resultsOf i.engine ++ [r]) :
    r.error = (i.refusal (s.engineOpen i.engine)).or ((i.failureAt s).map .transportIO) := by
  cases h with
  | refused k hrefusal ht =>
    rw [ht, State.resultsOf_withResults] at hr
    cases (List.append_singleton_inj.mp hr).2
    rw [hrefusal]
    rfl
  | completed v hrefusal hnone hresult =>
    cases (List.append_singleton_inj.mp (hresult.symm.trans hr)).2
    rw [hrefusal, hnone]
    rfl
  | failed f hrefusal hsome hresult =>
    cases (List.append_singleton_inj.mp (hresult.symm.trans hr)).2
    rw [hrefusal, hsome]
    rfl

/-- Settles O53: refusals and numbers of calls are those of the skeleton, so the same calls meet the same failures. -/
theorem errorsNeverDependOnData : Obligations.ErrorsNeverDependOnData := by
  intro i j s s' t t' r r' hskeleton hs hs' hbb hsf hsw hbbFailures hsfFailures hi hj hr hr'
  have hengine : i.engine = j.engine := by rw [← i.engine_skeleton, hskeleton, j.engine_skeleton]
  have hopen : s.engineOpen i.engine = s'.engineOpen j.engine := by
    rw [hengine]
    cases j.engine with
    | bitbang => exact hbb
    | spi => exact hsf
  have hfailures : s.failuresOf i.engine = s'.failuresOf j.engine := by
    rw [hengine]
    cases j.engine with
    | bitbang => exact hbbFailures
    | spi => exact hsfFailures
  have hrefusal (opened : Bool) : i.refusal opened = j.refusal opened := by
    rw [← i.refusal_skeleton, hskeleton, j.refusal_skeleton]
  have hcalls (opened : Bool) (sw : Switches) : i.calls opened sw = j.calls opened sw := by
    rw [← i.calls_skeleton, hskeleton, j.calls_skeleton]
  rw [(exec_concludes hs hi).error hr, (exec_concludes hs' hj).error hr', Instr.failureAt, Instr.failureAt, hopen, hsw,
    hfailures, hrefusal, hcalls]

end Sys2Proof.Machine
end

section
namespace Sys2Proof.Machine

open Codec

/-! ### Recovery: `close` and then `open` (R270, R276) -/

/-- Where no call fails, none of the environment's answers is a failure, those behind the end of its list included. -/
theorem failures_getD_of_quiet {xs : List (Option OsFailure)} (h : ∀ x ∈ xs, x = none) (k : Nat) : xs.getD k none = none := by
  rw [List.getD_eq_getElem?_getD]
  cases hk : xs[k]? with
  | none => rfl
  | some x => exact h x (List.mem_of_getElem? hk)

theorem failures_drop_quiet {xs : List (Option OsFailure)} (h : ∀ x ∈ xs, x = none) (n : Nat) : ∀ x ∈ xs.drop n, x = none :=
  fun x hx => h x (List.mem_of_mem_drop hx)

/-- Whatever the lines were left in, `open` behind `close` claims them both and drives them. -/
theorem execBbOpen_of_execBbClose {s : State} (ho : s.bb.isOpen = true) (hq : s.bb.Quiet) :
    ∃ t u, exec .bbClose s = .next t ∧ exec .bbOpen t = .next u ∧ u.bb.Ready ∧ u.bb.AtRest ∧
      u.bb.clk = Line.openAs .output false .none ∧ u.bb.data = Line.openAs .output true .pullUp ∧
      u.bb.trace = s.bb.trace ++ [.closed, .opened] ∧ u.bb.results = s.bb.results ++ [.ok .unit, .ok .unit] := by
  have hclosed := failures_drop_quiet hq 2
  exact ⟨_, _,
    execBbClose_of_success ho (failures_getD_of_quiet hq 0) (failures_getD_of_quiet hq 1),
    execBbOpen_of_success rfl (failures_getD_of_quiet hclosed 0) (failures_getD_of_quiet hclosed 1),
    ⟨rfl, ⟨rfl, rfl, rfl, rfl⟩, failures_drop_quiet hclosed 2⟩, fun _ => ⟨rfl, rfl, rfl, rfl, rfl, rfl⟩, rfl, rfl,
    List.append_assoc .., List.append_assoc ..⟩

/-- The port is released and claimed again. -/
theorem execSfOpen_of_execSfClose {s : State} (ho : s.sf.isOpen = true) (hq : s.sf.Quiet) :
    ∃ t u, exec .sfClose s = .next t ∧ exec .sfOpen t = .next u ∧ u.sf.Ready ∧
      u.sf.trace = s.sf.trace ++ [.closed, .opened] ∧ u.sf.results = s.sf.results ++ [.ok .unit, .ok .unit] := by
  have hclosed := failures_drop_quiet hq 1
  exact ⟨_, _,
    execSfClose_of_success ho (failures_getD_of_quiet hq 0),
    execSfOpen_of_success rfl (failures_getD_of_quiet hclosed 0),
    ⟨rfl, rfl, failures_drop_quiet hclosed 1⟩, List.append_assoc .., List.append_assoc ..⟩

/-- Settles O23: `open` writes every field of the lines again, so nothing of what `close` left in them is seen. -/
theorem closeThenOpenRecovers : Obligations.CloseThenOpenRecovers :=
  ⟨fun _ => execBbOpen_of_execBbClose, fun _ => execSfOpen_of_execSfClose⟩

/-! ### Busy-wait units (R285) -/

section
variable (c : BBConfig)

theorem busyUnits_append (xs ys : List LineOp) : busyUnits c (xs ++ ys) = busyUnits c xs + busyUnits c ys := by
  rw [busyUnits, List.map_append, List.sum_append, busyUnits, busyUnits]

theorem busyUnits_cons (op : LineOp) (ops : List LineOp) : busyUnits c (op :: ops) = op.units c + busyUnits c ops := by
  rw [busyUnits, List.map_cons, List.sum_cons, busyUnits]

/-- A slot repeated: the units of one, as often as it is made. -/
theorem busyUnits_flatMap {α : Type} {ops : α → List LineOp} {n : Nat} (h : ∀ a, busyUnits c (ops a) = n) (as : List α) :
    busyUnits c (as.flatMap ops) = as.length * n := by
  induction as with
  | nil => rw [List.length_nil, Nat.zero_mul]; rfl
  | cons a as ih => rw [List.flatMap_cons, busyUnits_append, h, ih, List.length_cons, Nat.succ_mul, Nat.add_comm]

/-- Two waits of `CLK_DELAY` in each clock pulse (R133). -/
theorem busyUnits_clockPulse : busyUnits c Prim.clockPulse = 2 * c.clkDelay := by
  simp only [Prim.clockPulse, busyUnits, List.map_cons, List.map_nil, List.sum_cons, List.sum_nil, LineOp.units]
  omega

theorem busyUnits_writeBit (b : Level) : busyUnits c (Prim.writeBit b) = c.setupDelay + 2 * c.clkDelay := by
  rw [Prim.writeBit, busyUnits_cons, busyUnits_cons, busyUnits_clockPulse, LineOp.units, LineOp.units, Nat.zero_add]

theorem busyUnits_readBit (keep : Bool) : busyUnits c (Prim.readBit keep) = 2 * c.clkDelay := by
  rw [Prim.readBit, busyUnits_cons, busyUnits_clockPulse, LineOp.units, Nat.zero_add]

theorem busyUnits_writeBits (v n : Nat) : busyUnits c (Prim.writeBits v n) = n * (c.setupDelay + 2 * c.clkDelay) := by
  rw [Prim.writeBits, busyUnits_flatMap c (busyUnits_writeBit c), bitsOf_length]

theorem busyUnits_readBits (n : Nat) (keep : Bool) : busyUnits c (Prim.readBits n keep) = n * (2 * c.clkDelay) := by
  rw [Prim.readBits, busyUnits_flatMap c (fun _ => busyUnits_readBit c keep), List.length_replicate]

theorem busyUnits_flush : busyUnits c Prim.flush = 32 * (c.setupDelay + 2 * c.clkDelay) := by
  rw [Prim.flush, busyUnits_flatMap c (busyUnits_writeBit c), List.length_replicate, Config.preambleBits]

/-- The header of a frame is fourteen slots `W(b)` (R118). -/
theorem busyUnits_sendHeader14 (f : Frame) :
    busyUnits c (Prim.sendHeader14 f) = 14 * (c.setupDelay + 2 * c.clkDelay) := by
  rw [sendHeader14_eq_writeBits, busyUnits_writeBits]

/-- Turnaround and data of a write-class frame are eighteen slots `W(b)` (R140). -/
theorem busyUnits_writeTail (f : Frame) : busyUnits c (Prim.writeTail f) = 18 * (c.setupDelay + 2 * c.clkDelay) := by
  rw [Prim.writeTail, busyUnits_append, busyUnits_writeBits, busyUnits_writeBits, ← Nat.add_mul]
  rfl

/-- The read settling delay once, and eighteen slots `R(s)`, which have no setup delay (R141). -/
theorem busyUnits_readTransition : busyUnits c Prim.readTransition = c.readDelay + 18 * (2 * c.clkDelay) := by
  have hturns : LineOp.units c .dirIn = 0 ∧ busyUnits c [.dirOut true] = 0 := ⟨rfl, rfl⟩
  rw [Prim.readTransition, busyUnits_cons, busyUnits_cons, busyUnits_append, busyUnits_append, busyUnits_readBits,
    busyUnits_readBits, hturns.1, hturns.2, LineOp.units, Config.taBits, Config.dataBits]
  omega

/-- A frame with its preamble is forty-six slots `W(b)` and the eighteen of its class (R89, R117). -/
theorem busyUnits_bbFrame (f : Frame) :
    busyUnits c (Prim.bbFrame f) =
      46 * (c.setupDelay + 2 * c.clkDelay) +
        if isReadClass f.op then c.readDelay + 18 * (2 * c.clkDelay) else 18 * (c.setupDelay + 2 * c.clkDelay) := by
  rw [Prim.bbFrame, busyUnits_cons, LineOp.units, Nat.zero_add, busyUnits_append, busyUnits_flush, Prim.frameSlots,
    busyUnits_append, busyUnits_sendHeader14, ← Nat.add_assoc, ← Nat.add_mul]
  split
  · rw [busyUnits_readTransition]
  · rw [busyUnits_writeTail]

end

/-- Settles O47: the units of a frame are those of its slots, and its class decides the last eighteen. -/
theorem busyWaitUnits : Obligations.BusyWaitUnits := by
  refine fun c b keep f =>
    ⟨busyUnits_writeBit c b, rfl, busyUnits_readBit c keep, fun hf => ?_, fun hf => ?_, busyUnits_flush c⟩
  · rw [busyUnits_bbFrame, hf, if_neg Bool.false_ne_true, ← Nat.add_mul]
  · rw [busyUnits_bbFrame, hf, if_pos rfl, Nat.mul_assoc, Nat.add_assoc]

end Sys2Proof.Machine
end
